-- ==== Sys2Proof/Word.lean ====
section
/-! DEFINITION. The word and byte types of HUFFCORE (spec 00_scope.md R9, R10, R13). -/

namespace Sys2Proof

/-- A 32-bit register value, command word, address or length (R10). -/
abbrev Word := BitVec 32

/-- An 8-bit byte of system memory; also a symbol, 0 to 255 (R9). -/
abbrev Byte := BitVec 8

end Sys2Proof
end

