-- ==== Sys2Proof/Syntax.lean ====
section
/-! DEFINITION. The nine commands of HUFFCORE (spec 30_encoding.md R141, opcode_table.json). -/

namespace Sys2Proof

/-- A command, one constructor per row of the opcode table (R141). The only operand a command word carries is the
padding count of UNPACK (R142); every other operand comes from the argument registers and the tables. -/
inductive Instr where
  /-- 0x00 NOP (R260). -/
  | nop
  /-- 0x01 FCOUNT (R171). -/
  | fcount
  /-- 0x02 FLOAD (R175). -/
  | fload
  /-- 0x03 FSTORE (R177). -/
  | fstore
  /-- 0x04 TBUILD (R191). -/
  | tbuild
  /-- 0x05 CTGEN (R211). -/
  | ctgen
  /-- 0x06 PACK (R227). -/
  | pack
  /-- 0x07 UNPACK with its padding count, 0 to 7 (R142, R241, R243). -/
  | unpack (pad : BitVec 3)
  /-- 0x08 CLEAR (R261). -/
  | clear
  deriving DecidableEq, Repr

end Sys2Proof
end

