-- ==== Sys2Proof/WellFormed.lean ====
section
/-! DEFINITION. Which command words and commands are legal (spec 30_encoding.md R140, R144). -/

namespace Sys2Proof

/-- CMDW.OPC, bits 7:0 of a command word (R140). -/
def Word.opc (w : Word) : BitVec 8 := w.extractLsb' 0 8

/-- CMDW.PAD, bits 10:8 of a command word (R140, R142). -/
def Word.pad (w : Word) : BitVec 3 := w.extractLsb' 8 3

/-- CMDW.RSV, bits 31:11 of a command word (R140). -/
def Word.rsv (w : Word) : BitVec 21 := w.extractLsb' 11 21

/-- First check of R144: OPC is one of 0x00 to 0x08. -/
def opcodeDefined (w : Word) : Bool := decide (w.opc.toNat ≤ 8)

/-- Second check of R144: RSV is 0. -/
def reservedClear (w : Word) : Bool := decide (w.rsv = 0)

/-- Third check of R144: PAD is 0 in every command but UNPACK. -/
def padAllowed (w : Word) : Bool := decide (w.opc = 7) || decide (w.pad = 0)

/-- A word is legal when none of the three causes of R144 holds. -/
def legalWord (w : Word) : Bool := opcodeDefined w && reservedClear w && padAllowed w

/-- A command is well formed when its operand is in the range of R142. The type of the padding count already
keeps it to 0..7, so the check holds of every command. -/
def Instr.wellFormed : Instr → Bool
  | .nop => true
  | .fcount => true
  | .fload => true
  | .fstore => true
  | .tbuild => true
  | .ctgen => true
  | .pack => true
  | .unpack pad => decide (pad.toNat ≤ 7)
  | .clear => true

end Sys2Proof
end

