-- ==== Sys2Proof/Decode.lean ====
section
/-! DEFINITION. Decoding and encoding of command words (spec 30_encoding.md R140 to R145, R149). -/

namespace Sys2Proof

/-- The opcode map of R141: the command an OPC value selects, with the word's PAD for UNPACK; none for
0x09 to 0xFF. -/
def opcodeCommand (opc : BitVec 8) (pad : BitVec 3) : Option Instr :=
  match opc.toNat with
  | 0x00 => some .nop
  | 0x01 => some .fcount
  | 0x02 => some .fload
  | 0x03 => some .fstore
  | 0x04 => some .tbuild
  | 0x05 => some .ctgen
  | 0x06 => some .pack
  | 0x07 => some (.unpack pad)
  | 0x08 => some .clear
  | _ => none

/-- Decoding of a command word (R145): total on all 2^32 words; an illegal word (R144) decodes to nothing. -/
def decodeWord (w : Word) : Option Instr :=
  if legalWord w then opcodeCommand w.opc w.pad else none

/-- The OPC of a command (R141). -/
def Instr.opcode : Instr → BitVec 8
  | .nop => 0x00
  | .fcount => 0x01
  | .fload => 0x02
  | .fstore => 0x03
  | .tbuild => 0x04
  | .ctgen => 0x05
  | .pack => 0x06
  | .unpack _ => 0x07
  | .clear => 0x08

/-- The PAD field of a command (R140): the padding count of UNPACK, 0 in every other command. -/
def Instr.padField : Instr → BitVec 3
  | .unpack pad => pad
  | .nop | .fcount | .fload | .fstore | .tbuild | .ctgen | .pack | .clear => 0

/-- The command word of a command (R140, R149): RSV || PAD || OPC with RSV = 0. -/
def encode (i : Instr) : Word := (0 : BitVec 21) ++ i.padField ++ i.opcode

/-- The command the decoder reads from a table word of `nbits` bits; the bits above `nbits` are 0. A command is one
32-bit word (R140), so the table's numbering is the word's own. -/
def decodeTableWord (nbits w : Nat) : Option Instr := decodeWord (BitVec.ofNat 32 (w % 2 ^ nbits))

end Sys2Proof
end

