-- ==== Sys2Proof/Config.lean ====
section
/-! DEFINITION. The free values: what the spec calls unspecified ("any value"). They are constants with
no body, so no proof can see what they are. The platform's open parameters (HUF_BASE, MEM_FAULT) are plain data
and stand in `Machine.Platform`. -/

namespace Sys2Proof

/-- The value of one byte the spec leaves unspecified (R115, R287, R320), for the draw number `draw` and the
address `addr`. FREE VALUE, log entry 3. -/
opaque Config.freeByte (draw addr : Nat) : Byte

/-- The value of one 32-bit register read the spec leaves unspecified (R69), for the draw number `draw`.
FREE VALUE, log entry 3. -/
opaque Config.freeWord (draw : Nat) : Word

end Sys2Proof
end

