-- ==== Sys2Proof/Machine/State.lean ====
section
/-! DEFINITION. The state of HUFFCORE as plain data (spec 10_state.md R40 to R90, 60_exceptions.md R275 to R290), the
pending actions of the host, and the reasons a step can stop. -/

namespace Sys2Proof.Machine

/-! ### The internal tables (R70 to R77) -/

/-- FREQ: 256 unsigned 32-bit counters, one per symbol (R70). -/
abbrev FreqTable := Vector Word 256

/-- One entry of the node store (R72). -/
structure Node where
  /-- 1 for a node of the tree. -/
  valid : Bool
  /-- 0 for a Leaf, 1 for an Internal node. -/
  internal : Bool
  /-- The symbol of a Leaf, 0 for an Internal node. -/
  sym : Byte
  /-- Node index of the left child of an Internal node, 0 for a Leaf. -/
  left : BitVec 9
  /-- Node index of the right child of an Internal node, 0 for a Leaf. -/
  right : BitVec 9
  /-- The frequency of a Leaf, or the sum of the children's weights. -/
  weight : BitVec 64
  deriving DecidableEq, Repr

/-- The all-zero entry (R72). -/
def Node.zero : Node := ⟨false, false, 0, 0, 0, 0⟩

/-- NODE: the node store, entries 0 to 510 (R72). -/
abbrev NodeStore := Vector Node 511

/-- A code: its bits in order, the first nearest the root (R14, R75). The empty string is "no code"; CODE_LEN and
the 256 zero-filled bit positions of R75 are views of it. -/
abbrev Code := List Bool

/-- CODE: the code table, one code per symbol (R75). -/
abbrev CodeTable := Vector Code 256

/-! ### System memory and the platform's open parameters -/

/-- The byte addresses `lo ≤ a < hi`, each holding an unspecified value: the free value of draw `draw` at that
address (R287, R320, R115; log entry 4). -/
structure FreeRegion where
  lo : Nat
  hi : Nat
  draw : Nat
  deriving DecidableEq, Repr

/-- System memory (R102). `cells` lists the bytes written with a known value, by strictly rising address, none equal to
what an unlisted address reads as; `free` lists the ranges whose bytes the spec leaves unspecified, by rising address,
disjoint from each other and from the cells. -/
structure Memory where
  cells : List Host.Cell
  free : List FreeRegion
  deriving DecidableEq, Repr

/-- The kind of a memory-port access (R109). -/
inductive AccessKind where
  | read
  | write
  deriving DecidableEq, Repr

/-- A range of addresses at which every memory-port access of one kind fails (R109). -/
structure FaultRegion where
  base : Nat
  size : Nat
  kind : AccessKind
  deriving DecidableEq, Repr

/-- A range of addresses that holds a device with access side effects (R110). -/
structure DeviceRegion where
  base : Nat
  size : Nat
  deriving DecidableEq, Repr

/-- What the platform fixes and no step changes: the open parameters HUF_BASE (R10, R120) and MEM_FAULT (R109), and
where the platform has put devices (R110). -/
structure Platform where
  hufBase : Nat
  failing : List FaultRegion
  devices : List DeviceRegion
  deriving DecidableEq, Repr

/-! ### Errors (R279) -/

/-- ERR.CODE: the codes of R279; the values 0x0A to 0xFF are never written. -/
inductive ErrCode where
  | none
  | illegalCmd
  | notReady
  | malformed
  | truncated
  | noCode
  | dstOverflow
  | range
  | overlap
  | bus
  deriving DecidableEq, Repr

/-- What `raise E(info)` gives (R15, R280). -/
structure Raise where
  code : ErrCode
  info : Word
  deriving DecidableEq, Repr

/-! ### The hidden engine state (R85, R278) -/

/-- The command word and argument values latched at acceptance (R276, R278). -/
structure Latch where
  word : Word
  srcAddr : Word
  srcLen : Word
  dstAddr : Word
  dstCap : Word
  deriving DecidableEq, Repr

/-- The latch of an idle engine: nothing survives a completion or a reset (R85, R90). -/
def Latch.clear : Latch := ⟨0, 0, 0, 0, 0⟩

/-- FCOUNT in progress (R171): the next source byte and the shadow table. -/
structure FcountWork where
  i : Nat
  table : FreqTable
  deriving DecidableEq, Repr

/-- FLOAD in progress (R175): the declared count, the next record and the shadow table. -/
structure FloadWork where
  n : Nat
  i : Nat
  table : FreqTable
  deriving DecidableEq, Repr

/-- FSTORE in progress (R177): the next symbol and the number of records written. -/
structure FstoreWork where
  s : Nat
  k : Nat
  deriving DecidableEq, Repr

/-- An entry of TBUILD's priority queue: the key (weight, index) of a node (R193). -/
structure QueueKey where
  weight : BitVec 64
  index : Nat
  deriving DecidableEq, Repr

/-- TBUILD in progress (R191): the shadow node store, the queue and the next node index. -/
structure TbuildWork where
  nodes : NodeStore
  queue : List QueueKey
  next : Nat
  deriving DecidableEq, Repr

/-- CTGEN in progress (R211): the walks still to make (node, path from the root), in the order they are made, how many
node visits are left, and the shadow code table. -/
structure CtgenWork where
  pending : List (Nat × Code)
  visits : Nat
  codes : CodeTable
  deriving DecidableEq, Repr

/-- PACK in progress (R227): the next source byte, the pending bits and their number, the code bits so far and the
bytes written. -/
structure PackWork where
  i : Nat
  acc : Byte
  nacc : Nat
  nbits : Nat
  out : Nat
  deriving DecidableEq, Repr

/-- UNPACK in progress (R243): the stream length, the next stream bit, the payload byte in hand, the current node, the
first bit of the current code and the bytes written. -/
structure UnpackWork where
  nbits : Nat
  t : Nat
  byte : Byte
  node : Nat
  start : Nat
  out : Nat
  deriving DecidableEq, Repr

/-- What the engine is doing (R275): idle, about to dispatch an accepted word, or inside a command. -/
inductive Work where
  | idle
  | accepted
  | fcount (w : FcountWork)
  | fload (w : FloadWork)
  | fstore (w : FstoreWork)
  | tbuild (w : TbuildWork)
  | ctgen (w : CtgenWork)
  | pack (w : PackWork)
  | unpack (w : UnpackWork)
  deriving DecidableEq, Repr

/-! ### The host (R40) -/

/-- The width of a register-bus access (R68). -/
inductive AccessSize where
  | b8
  | b16
  | b32
  | b64
  deriving DecidableEq, Repr

/-- One thing that happens next: an action of the host or of the reset input, or the engine being given time. The list
of these in `State` says in which order they land (log entry 5). -/
inductive Input where
  /-- A register-bus read at a bus address. -/
  | busRead (addr : Nat) (size : AccessSize)
  /-- A register-bus write at a bus address; `data` is what a 32-bit write carries (other widths have no effect). -/
  | busWrite (addr : Nat) (size : AccessSize) (data : Word)
  /-- The host, or any other agent, reads a byte of system memory (R114, R115). -/
  | memRead (addr : Word)
  /-- The host, or any other agent, writes a byte of system memory (R114, R115). -/
  | memWrite (addr : Word) (value : Byte)
  /-- The reset input is asserted (R320). -/
  | hardReset
  /-- The engine makes one engine step (R340). -/
  | engineStep
  /-- The host waits until STATUS.BUSY = 0 (R147 WAIT): the engine runs to the completion of its command. -/
  | wait
  /-- The host reads ERR and abandons its program if ERR.CODE is not 0 (R148 CHK). -/
  | chk
  deriving DecidableEq, Repr

/-- What the last access of the host was answered with. -/
inductive BusResp where
  /-- No access yet. -/
  | none
  /-- A 32-bit register read. -/
  | data (w : Word)
  /-- An accepted 32-bit register write. -/
  | ok
  /-- The error response of R68. -/
  | error
  /-- The access does not address this block (R101, R296). -/
  | elsewhere
  /-- A byte of system memory. -/
  | byte (b : Byte)
  deriving DecidableEq, Repr

/-! ### The state -/

/-- The machine (R42). BUSY, ERRF, EMPTY (R53, R80), IRQ (R290), ID (R51) and the windows (R71 to R77) are views of these
fields. -/
structure State where
  /-- CTRL.IE (R52). -/
  ie : Bool
  /-- STATUS.DONE (R53). -/
  done : Bool
  /-- STATUS.OVR (R53, R277). -/
  ovr : Bool
  /-- STATUS.TREE_VALID (R78). -/
  treeValid : Bool
  /-- STATUS.CODE_VALID (R78). -/
  codeValid : Bool
  /-- CMD: the last accepted command word (R54). -/
  cmd : Word
  /-- SRC_ADDR (R55). -/
  srcAddr : Word
  /-- SRC_LEN (R56). -/
  srcLen : Word
  /-- DST_ADDR (R57). -/
  dstAddr : Word
  /-- DST_CAP (R58). -/
  dstCap : Word
  /-- ERR.CODE (R60). -/
  err : ErrCode
  /-- ERR_INFO (R61). -/
  errInfo : Word
  /-- RES_LEN (R62). -/
  resLen : Word
  /-- RES_PAD.PAD (R63). -/
  resPad : BitVec 3
  /-- RES_BITS, read as RES_BITS_LO and RES_BITS_HI (R64). -/
  resBits : BitVec 64
  /-- NSYM (R65). -/
  nsym : BitVec 9
  /-- NNODE (R66). -/
  nnode : BitVec 10
  /-- FREQ (R70). -/
  freq : FreqTable
  /-- NODE (R72). -/
  nodes : NodeStore
  /-- CODE (R75). -/
  codes : CodeTable
  /-- The latched command word and arguments (R276, R278). -/
  latch : Latch
  /-- The engine's state and the running command's progress (R85, R275). -/
  work : Work
  /-- The model's own: another agent broke a duty of R115 while the running command was running. -/
  raced : Bool
  /-- System memory (R102). -/
  mem : Memory
  /-- The platform's open parameters (R109, R110, R120). -/
  platform : Platform
  /-- The model's own: what happens next, in order (R40; log entry 5). -/
  inputs : List Input
  /-- The model's own: the answer to the host's last access (R68). -/
  resp : BusResp
  /-- The model's own: how many free values have been drawn (log entry 3). -/
  draws : Nat
  deriving DecidableEq, Repr

/-- The empty frequency table (R70). -/
def FreqTable.empty : FreqTable := Vector.replicate 256 0

/-- The all-zero node store (R72). -/
def NodeStore.empty : NodeStore := Vector.replicate 511 Node.zero

/-- The code table in which no symbol has a code (R75). -/
def CodeTable.empty : CodeTable := Vector.replicate 256 []

/-- The state after reset (R90, R320, R321). The platform and memory are not HUFFCORE's; their values here are log
entries 1 and 2. -/
def State.reset : State where
  ie := false
  done := false
  ovr := false
  treeValid := false
  codeValid := false
  cmd := 0
  srcAddr := 0
  srcLen := 0
  dstAddr := 0
  dstCap := 0
  err := .none
  errInfo := 0
  resLen := 0
  resPad := 0
  resBits := 0
  nsym := 0
  nnode := 0
  freq := FreqTable.empty
  nodes := NodeStore.empty
  codes := CodeTable.empty
  latch := Latch.clear
  work := .idle
  raced := false
  mem := ⟨[], []⟩
  platform := ⟨0, [], []⟩
  inputs := []
  resp := .none
  draws := 0

/-! ### Why a step can stop -/

/-- Faults: none. HUFFCORE has no traps (60_exceptions.md): an error of a command is a completion (R285), so no step ever
stops with a fault. -/
inductive Fault where
  deriving DecidableEq, Repr

/-- Refusals. -/
inductive Refusal where
  /-- An instruction without a meaning yet, raised by `exec`'s arm alone. Safe. No arm uses it. -/
  | notModelled (mnemonic : String)
  /-- A command whose buffer shares a byte with a device region of the platform: R110 gives such a command no defined
  behaviour, and 93_implementation_defined.md says `refuse`. Raised by FCOUNT, FLOAD, FSTORE, PACK and UNPACK after their
  pre-checks. Safe. -/
  | deviceBuffer
  deriving DecidableEq, Repr

end Sys2Proof.Machine
end

