-- ==== Sys2Proof/Machine/Ops.lean ====
section
/-! DEFINITION. The shared operations: system memory (20_memory.md), the tables, the memory port (R105), and the lifecycle
of a command: acceptance (R276), completion (R284) and completion with an error (R285). -/

namespace Sys2Proof.Machine

/-! ### System memory -/

/-- What an address nothing has written reads as (log entry 1). -/
def Memory.background (_addr : Nat) : Byte := 0

/-- Whether a range of unspecified bytes holds the address. -/
def FreeRegion.covers (r : FreeRegion) (a : Nat) : Bool := decide (r.lo ≤ a) && decide (a < r.hi)

/-- The listed byte at an address. -/
def lookupCell (a : Nat) : List Host.Cell → Option Byte
  | [] => none
  | c :: cs => if c.1 = a then some c.2 else lookupCell a cs

/-- List `v` at `a`, keeping the order of the addresses. -/
def insertCell (a : Nat) (v : Byte) : List Host.Cell → List Host.Cell
  | [] => [(a, v)]
  | c :: cs =>
    if a < c.1 then (a, v) :: c :: cs
    else if a = c.1 then (a, v) :: cs
    else c :: insertCell a v cs

/-- Unlist the addresses `lo ≤ a < hi`. -/
def dropCells (lo hi : Nat) (cs : List Host.Cell) : List Host.Cell :=
  cs.filter fun c => decide (c.1 < lo) || decide (hi ≤ c.1)

/-- What is left of a range of unspecified bytes outside `lo ≤ a < hi`. -/
def FreeRegion.carve (lo hi : Nat) (r : FreeRegion) : List FreeRegion :=
  (if r.lo < min lo r.hi then [⟨r.lo, min lo r.hi, r.draw⟩] else []) ++
    (if max hi r.lo < r.hi then [⟨max hi r.lo, r.hi, r.draw⟩] else [])

/-- Put a range in its place by rising address. -/
def insertRegion (r : FreeRegion) : List FreeRegion → List FreeRegion
  | [] => [r]
  | q :: qs => if r.lo < q.lo then r :: q :: qs else q :: insertRegion r qs

/-- One byte of memory. -/
def Memory.read (m : Memory) (a : Nat) : Byte :=
  match m.free.find? (fun r => r.covers a) with
  | some r => Config.freeByte r.draw a
  | none => (lookupCell a m.cells).getD (Memory.background a)

/-- Write one byte, keeping the canonical form: writing what an unlisted address reads as unlists the address. -/
def Memory.write (m : Memory) (a : Nat) (v : Byte) : Memory where
  cells :=
    if v = Memory.background a then dropCells a (a + 1) m.cells else insertCell a v m.cells
  free := m.free.flatMap (FreeRegion.carve a (a + 1))

/-- Give every byte `lo ≤ a < hi` an unspecified value, that of the free draw `draw` (R287, R320, R115). -/
def Memory.havoc (m : Memory) (lo hi draw : Nat) : Memory :=
  if lo < hi then
    ⟨dropCells lo hi m.cells, insertRegion ⟨lo, hi, draw⟩ (m.free.flatMap (FreeRegion.carve lo hi))⟩
  else m

/-- The canonical form of memory: strictly rising addresses inside the address space, no entry equal to what an
unlisted address reads as, ranges of unspecified bytes rising, not empty, disjoint, and holding no listed address. -/
abbrev Memory.wf (m : Memory) : Prop :=
  m.cells.Pairwise (fun c d => c.1 < d.1) ∧
  (∀ c ∈ m.cells, c.1 < 2 ^ 32 ∧ c.2 ≠ Memory.background c.1 ∧ ∀ r ∈ m.free, r.covers c.1 = false) ∧
  m.free.Pairwise (fun r q => r.hi ≤ q.lo) ∧
  (∀ r ∈ m.free, r.lo < r.hi ∧ r.hi ≤ 2 ^ 32)

/-! ### The tables -/

/-- Entry `s` of a table with one entry per symbol. -/
def tableGet {α : Type} (t : Vector α 256) (s : Byte) : α := t[s.toNat]'s.isLt

/-- A table with entry `s` replaced. -/
def tableSet {α : Type} (t : Vector α 256) (s : Byte) (v : α) : Vector α 256 := t.set s.toNat v s.isLt

/-- `|{ s : F[s] != 0 }|` (R65, R171). -/
def symbolCount (t : FreqTable) : Nat := t.toList.countP (fun f => f != 0)

/-- Entry `i` of a node store; the store has no entry 511 or above, which reads as all-zero. -/
def nodeAt (t : NodeStore) (i : Nat) : Node := t[i]?.getD Node.zero

/-! ### The memory port (R104, R105) -/

/-- What a running command's accesses change: memory, and the number of free values drawn. -/
structure Port where
  mem : Memory
  draws : Nat
  deriving DecidableEq, Repr

/-- What a part of a command's body ends in: a result, or the first `raise` (R15, R16). -/
inductive Result (α : Type) where
  | ok (a : α) (p : Port)
  | raise (e : Raise) (p : Port)
  deriving DecidableEq, Repr

/-- Go on with the result; after a raise nothing executes (R15). -/
def Result.bind {α β : Type} (r : Result α) (f : α → Port → Result β) : Result β :=
  match r with
  | .ok a p => f a p
  | .raise e p => .raise e p

/-- The port of a state. -/
def State.port (s : State) : Port := ⟨s.mem, s.draws⟩

/-- The state with the port's memory and draws. -/
def State.withPort (s : State) (p : Port) : State := { s with mem := p.mem, draws := p.draws }

/-- Whether a failing range holds the access (R109). -/
def FaultRegion.covers (r : FaultRegion) (a : Nat) (k : AccessKind) : Bool :=
  decide (r.kind = k) && decide (r.base ≤ a) && decide (a < r.base + r.size)

/-- `memFault(addr, kind)` (R109). -/
def Platform.memFault (pl : Platform) (a : Word) (k : AccessKind) : Bool :=
  pl.failing.any fun r => r.covers a.toNat k

/-- MemRead1 (R105). After another agent has broken a duty of R115 the byte read is any value. -/
def memRead1 (s : State) (a : Word) (p : Port) : Result Byte :=
  if s.platform.memFault a .read then .raise ⟨.bus, a⟩ p
  else if s.raced then .ok (Config.freeByte p.draws a.toNat) { p with draws := p.draws + 1 }
  else .ok (p.mem.read a.toNat) p

/-- MemWrite1 (R105). -/
def memWrite1 (s : State) (a : Word) (v : Byte) (p : Port) : Result Unit :=
  if s.platform.memFault a .write then .raise ⟨.bus, a⟩ p
  else .ok () { p with mem := p.mem.write a.toNat v }

/-- MemRead(addr, n) (R105): `n` single-byte reads at ascending addresses. -/
def memReadN (s : State) (a : Word) : Nat → Port → Result (List Byte)
  | 0, p => .ok [] p
  | n + 1, p =>
    (memRead1 s a p).bind fun b p₁ => (memReadN s (a + 1) n p₁).bind fun bs p₂ => .ok (b :: bs) p₂

/-- MemWrite(addr, n, v) (R105): single-byte writes at ascending addresses. -/
def memWriteN (s : State) (a : Word) : List Byte → Port → Result Unit
  | [], p => .ok () p
  | v :: vs, p => (memWrite1 s a v p).bind fun _ p₁ => memWriteN s (a + 1) vs p₁

/-- The address at an offset of the latched source buffer (R103). -/
def State.srcAt (s : State) (i : Nat) : Word := s.latch.srcAddr + BitVec.ofNat 32 i

/-- The address at an offset of the latched destination buffer (R103). -/
def State.dstAt (s : State) (i : Nat) : Word := s.latch.dstAddr + BitVec.ofNat 32 i

/-- A bounded loop of a command's body: `n` iterations, ended at once by a raise. -/
def iterate {α : Type} (body : Port → α → Result α) : Nat → Port → α → Result α
  | 0, p, a => .ok a p
  | n + 1, p, a => (body p a).bind fun a₁ p₁ => iterate body n p₁ a₁

/-- A bounded loop that reaches no memory and raises nothing. -/
def repeatN {α : Type} (f : α → α) : Nat → α → α
  | 0, a => a
  | n + 1, a => repeatN f n (f a)

/-! ### Lifecycle of a command -/

/-- The result registers a completion writes (R62, R63, R64). -/
structure Results where
  len : Word
  pad : BitVec 3
  bits : BitVec 64
  deriving DecidableEq, Repr

/-- The result registers of a command that reports nothing. -/
def Results.zero : Results := ⟨0, 0, 0⟩

/-- `accept(w)` (R276): the latch takes the word and the argument registers, DONE, ERR and the results are cleared, BUSY
becomes 1. -/
def State.accept (w : Word) (s : State) : State :=
  { s with
    cmd := w
    latch := ⟨w, s.srcAddr, s.srcLen, s.dstAddr, s.dstCap⟩
    done := false
    err := .none
    errInfo := 0
    resLen := 0
    resPad := 0
    resBits := 0
    work := .accepted
    raced := false }

/-- `complete()` (R284) with the command's result registers; the hidden engine state ends (R85). -/
def State.complete (r : Results) (s : State) : State :=
  { s with
    err := .none
    errInfo := 0
    resLen := r.len
    resPad := r.pad
    resBits := r.bits
    done := true
    latch := Latch.clear
    work := .idle
    raced := false }

/-- `raise E(info)` (R285), the one way a command ends with an error: the code and its information are recorded, the
results are 0, BUSY falls and DONE rises; there is no other effect. -/
def State.raise (e : Raise) (s : State) : State :=
  { s with
    err := e.code
    errInfo := e.info
    resLen := 0
    resPad := 0
    resBits := 0
    done := true
    latch := Latch.clear
    work := .idle
    raced := false }

/-- The address just past the latched destination buffer, inside the address space (R102, R103). -/
def State.dstEnd (s : State) : Nat := min (s.latch.dstAddr.toNat + s.latch.dstCap.toNat) (2 ^ 32)

/-- Every byte of the latched destination buffer takes an unspecified value (R115, R287, R320). -/
def State.havocDst (s : State) : State :=
  { s with mem := s.mem.havoc s.latch.dstAddr.toNat s.dstEnd s.draws, draws := s.draws + 1 }

/-- What the end of a command with a destination buffer does to it when another agent broke a duty of R115: its bytes
are any values. -/
def State.settleDst (s : State) : State := if s.raced then s.havocDst else s

/-- Empty tree (R72, R66): every entry all-zero, NNODE 0, TREE_VALID 0. -/
def State.dropTree (s : State) : State :=
  { s with nodes := NodeStore.empty, nnode := 0, treeValid := false }

/-- Empty code table (R75): every code empty, CODE_VALID 0. -/
def State.dropCodes (s : State) : State := { s with codes := CodeTable.empty, codeValid := false }

/-- A new frequency table (R70): FREQ and NSYM; the tree and the codes of the old one are discarded (R78). -/
def State.commitFreq (t : FreqTable) (n : Nat) (s : State) : State :=
  { s.dropTree.dropCodes with freq := t, nsym := BitVec.ofNat 9 n }

end Sys2Proof.Machine
end

