-- ==== Sys2Proof/Machine/Operands.lean ====
section
/-! DEFINITION. The operands of a command: its buffers and the pre-checks on them (R103, R107, R108, R110, R288), the
big-endian integers (R111) and the frequency section (R173). -/

namespace Sys2Proof.Machine

/-! ### Which buffers a command uses (R102, R143) -/

/-- The commands that read a source buffer. -/
def usesSrc : Instr → Bool
  | .fcount | .fload | .pack | .unpack _ => true
  | .nop | .fstore | .tbuild | .ctgen | .clear => false

/-- The commands that write a destination buffer. -/
def usesDst : Instr → Bool
  | .fstore | .pack | .unpack _ => true
  | .nop | .fcount | .fload | .tbuild | .ctgen | .clear => false

/-- Whether the address lies in `[base, base + len)`, computed without wrap-around (R103). -/
def inBuffer (base len : Word) (a : Nat) : Bool :=
  decide (base.toNat ≤ a) && decide (a < base.toNat + len.toNat)

/-! ### Pre-checks (R288 steps 2 to 5) -/

/-- A check that raises when its condition holds. -/
def raiseIf (bad : Bool) (e : Raise) : Option Raise := if bad then some e else none

/-- NOT_READY(0) when the table a command needs is not valid (R279). -/
def checkReady (valid : Bool) : Option Raise := raiseIf (!valid) ⟨.notReady, 0⟩

/-- RANGE(0): the source buffer runs past 2^32 (R107). -/
def checkSrcRange (l : Latch) : Option Raise :=
  raiseIf (decide (l.srcAddr.toNat + l.srcLen.toNat > 2 ^ 32)) ⟨.range, 0⟩

/-- RANGE(1): the destination buffer runs past 2^32 (R107). -/
def checkDstRange (l : Latch) : Option Raise :=
  raiseIf (decide (l.dstAddr.toNat + l.dstCap.toNat > 2 ^ 32)) ⟨.range, 1⟩

/-- Whether the two buffers share a byte (R108). -/
def buffersOverlap (l : Latch) : Bool :=
  decide (l.srcLen.toNat > 0) && decide (l.dstCap.toNat > 0) &&
    decide (l.srcAddr.toNat < l.dstAddr.toNat + l.dstCap.toNat) &&
    decide (l.dstAddr.toNat < l.srcAddr.toNat + l.srcLen.toNat)

/-- OVERLAP(0) (R108). -/
def checkOverlap (l : Latch) : Option Raise := raiseIf (buffersOverlap l) ⟨.overlap, 0⟩

/-- The first error of a list of pre-checks (R288). -/
def firstError : List (Option Raise) → Option Raise
  | [] => none
  | some e :: _ => some e
  | none :: cs => firstError cs

/-- Whether a buffer shares a byte with a device region (R110). -/
def DeviceRegion.touches (d : DeviceRegion) (base len : Word) : Bool :=
  decide (d.size > 0) && decide (len.toNat > 0) && decide (d.base < base.toNat + len.toNat) &&
    decide (base.toNat < d.base + d.size)

/-- The source buffer lies on a device (R110). -/
def State.srcOnDevice (s : State) : Bool :=
  s.platform.devices.any fun d => d.touches s.latch.srcAddr s.latch.srcLen

/-- The destination buffer lies on a device (R110). -/
def State.dstOnDevice (s : State) : Bool :=
  s.platform.devices.any fun d => d.touches s.latch.dstAddr s.latch.dstCap

/-- An error of a command's body (R285, R288 step 6). After it each byte of the destination buffer, of a command that has
one, holds an unspecified value: its old value or a value the command wrote (R287). -/
def State.fail (usesDst : Bool) (e : Raise) (s : State) : State := (if usesDst then s.havocDst else s).raise e

/-- Run a command's pre-checks, then go on: the first error in the order of R288 ends the command with nothing read
or written, so the destination bytes are the old ones (R288 steps 1 to 5, R177; 95_test_vectors.md V-FS2 and P3); a buffer
on a device has no meaning (R110). A command with a destination buffer that another agent touched leaves any bytes there
(R115). -/
def preChecked (s : State) (checks : List (Option Raise)) (onDevice usesDst : Bool)
    (go : Host.Outcome State Fault Refusal) : Host.Outcome State Fault Refusal :=
  match firstError checks with
  | some e => .next ((if usesDst then s.settleDst else s).raise e)
  | none => if onDevice then .refused .deviceBuffer else go

/-- End a part of a body: go on after a result; a raise completes the command with that error. -/
def endBody {α : Type} (s : State) (usesDst : Bool) (r : Result α)
    (go : α → Port → Host.Outcome State Fault Refusal) : Host.Outcome State Fault Refusal :=
  match r with
  | .ok a p => go a p
  | .raise e p => .next ((s.withPort p).fail usesDst e)

/-- A loop of a command run to its end: `left` iterations of `body`, then `finish`. -/
def runLoop {α : Type} (s : State) (usesDst : Bool) (body : Port → α → Result α) (left : Nat)
    (finish : α → Port → Host.Outcome State Fault Refusal) (w : α) : Host.Outcome State Fault Refusal :=
  endBody s usesDst (iterate body left s.port w) finish

/-- One engine step of a loop (R340): one iteration of `body`, whose progress the state then holds, or `finish` when no
iteration is left. -/
def tickLoop {α : Type} (s : State) (usesDst : Bool) (body : Port → α → Result α) (left : Nat)
    (finish : α → Port → Host.Outcome State Fault Refusal) (again : α → Work) (w : α) :
    Host.Outcome State Fault Refusal :=
  if left = 0 then finish w s.port
  else endBody s usesDst (body s.port w) fun w₁ p₁ => .next { s.withPort p₁ with work := again w₁ }

/-! ### Big-endian integers (R111) -/

/-- The bytes of a 32-bit value at ascending addresses: v[31:24], v[23:16], v[15:8], v[7:0]. -/
def beBytes (v : Word) : List Byte :=
  [v.extractLsb' 24 8, v.extractLsb' 16 8, v.extractLsb' 8 8, v.extractLsb' 0 8]

/-- BE32 (R15): `b0<<24 | b1<<16 | b2<<8 | b3`. -/
def be32 (b0 b1 b2 b3 : Byte) : Word := b0 ++ b1 ++ b2 ++ b3

/-- BE32(MemRead(addr, 4)) (R15). -/
def memReadBE32 (s : State) (a : Word) (p : Port) : Result Word :=
  (memReadN s a 4 p).bind fun bs p₁ =>
    .ok (be32 (bs.getD 0 0) (bs.getD 1 0) (bs.getD 2 0) (bs.getD 3 0)) p₁

/-! ### Emitting one byte of output (R227, R243) -/

/-- `emit(v)`: the next byte of the destination buffer; DST_OVERFLOW(DST_CAP) when the buffer is full. -/
def emit (s : State) (out : Nat) (v : Byte) (p : Port) : Result Nat :=
  if out = s.latch.dstCap.toNat then .raise ⟨.dstOverflow, s.latch.dstCap⟩ p
  else (memWrite1 s (s.dstAt out) v p).bind fun _ p₁ => .ok (out + 1) p₁

end Sys2Proof.Machine
end

