-- ==== Sys2Proof/Machine/CodeTable.lean ====
section
/-! DEFINITION. The code-table generator: CTGEN (spec 43_code_table.md R210 to R212). -/

namespace Sys2Proof.Machine

def ctgenChecks (s : State) : List (Option Raise) := [checkReady s.treeValid]

/-- The start of the traversal (R211): a leaf root gives its symbol the code "0"; otherwise walk from the root, node
NNODE - 1, with the empty path. -/
def ctgenInit (nodes : NodeStore) (nnode : Nat) : CtgenWork :=
  if nnode = 1 then ⟨[], 0, tableSet CodeTable.empty (nodeAt nodes 0).sym [false]⟩
  else if nnode > 1 then ⟨[(nnode - 1, [])], nnode, CodeTable.empty⟩
  else ⟨[], 0, CodeTable.empty⟩

/-- One node visit, `walk(i, p)` (R211): a leaf takes the path as its symbol's code; an internal node is walked on to its
left child with "0" and then to its right child with "1". A tree of NNODE nodes takes NNODE visits. -/
def visitOnce (nodes : NodeStore) (w : CtgenWork) : CtgenWork :=
  match w.pending with
  | [] => ⟨[], w.visits - 1, w.codes⟩
  | (i, path) :: rest =>
    let n := nodeAt nodes i
    if n.internal then
      ⟨(n.left.toNat, path ++ [false]) :: (n.right.toNat, path ++ [true]) :: rest, w.visits - 1, w.codes⟩
    else ⟨rest, w.visits - 1, tableSet w.codes n.sym path⟩

/-- The visits still to make, made: the finished code table. -/
def visitAll (nodes : NodeStore) (w : CtgenWork) : CodeTable := (repeatN (visitOnce nodes) w.visits w).codes

/-- The code table of a tree (R211), a function of the node store and its count alone. -/
def codesOf (nodes : NodeStore) (nnode : Nat) : CodeTable := visitAll nodes (ctgenInit nodes nnode)

/-- Commit (R211): CODE, CODE_VALID 1. -/
def State.commitCodes (c : CodeTable) (s : State) : State := { s with codes := c, codeValid := true }

/-- Commit and `complete()`. -/
def ctgenFinish (s : State) (c : CodeTable) : Host.Outcome State Fault Refusal :=
  .next ((s.commitCodes c).complete Results.zero)

/-- CTGEN from some progress on to its completion. -/
def runCtgen (s : State) (w : CtgenWork) : Host.Outcome State Fault Refusal :=
  ctgenFinish s (visitAll s.nodes w)

/-- CTGEN: derive the code table from the tree in the node store (R211). -/
def execCtgen (s : State) : Host.Outcome State Fault Refusal :=
  preChecked s (ctgenChecks s) false false (runCtgen s (ctgenInit s.nodes s.nnode.toNat))

end Sys2Proof.Machine
end

