-- ==== Sys2Proof/Machine/Control.lean ====
section
/-! DEFINITION. The control commands NOP and CLEAR (spec 46_control.md R260, R261), and reset (70_reset_and_hazards.md R320 to
R323). -/

namespace Sys2Proof.Machine

/-- NOP: do nothing and complete (R260). -/
def execNop (s : State) : Host.Outcome State Fault Refusal := .next (s.complete Results.zero)

/-- CLEAR: discard the frequency table, the tree and the code table (R261). -/
def execClear (s : State) : Host.Outcome State Fault Refusal :=
  .next ((s.commitFreq FreqTable.empty 0).complete Results.zero)

/-- Whether the running command has a destination buffer. -/
def State.runningDst (s : State) : Bool :=
  match s.work with
  | .idle => false
  | .accepted | .fcount _ | .fload _ | .fstore _ | .tbuild _ | .ctgen _ | .pack _ | .unpack _ =>
    (decodeWord s.latch.word).any usesDst

/-- Whether the running command has a source buffer. -/
def State.runningSrc (s : State) : Bool :=
  match s.work with
  | .idle => false
  | .accepted | .fcount _ | .fload _ | .fstore _ | .tbuild _ | .ctgen _ | .pack _ | .unpack _ =>
    (decodeWord s.latch.word).any usesSrc

/-- The effect of the reset input and of CTRL.SRST on the block (R320, R322): every piece of state takes its reset value
and a running command is aborted, which leaves any bytes in its destination buffer (R323). What is not HUFFCORE's
stays: the rest of memory, the platform, the host's pending actions. -/
def State.resetBlock (s : State) : State :=
  let s₁ := if s.runningDst then s.havocDst else s
  { State.reset with
    mem := s₁.mem
    draws := s₁.draws
    platform := s.platform
    inputs := s.inputs
    resp := s.resp }

end Sys2Proof.Machine
end

