-- ==== Sys2Proof/Machine/Frequency.lean ====
section
/-! DEFINITION. The frequency counter: FCOUNT, FLOAD and FSTORE (spec 41_frequency_counter.md R170 to R177). -/

namespace Sys2Proof.Machine

/-! ### FCOUNT (R171) -/

def fcountChecks (s : State) : List (Option Raise) := [checkSrcRange s.latch]

def fcountInit : FcountWork := ⟨0, FreqTable.empty⟩

/-- Source bytes left to count. -/
def fcountLeft (s : State) (w : FcountWork) : Nat := s.latch.srcLen.toNat - w.i

/-- One iteration: `s <- MemRead(SRC_ADDR + i, 1)`, `F[s] <- F[s] + 1`. -/
def fcountBody (s : State) (p : Port) (w : FcountWork) : Result FcountWork :=
  (memRead1 s (s.srcAt w.i) p).bind fun b p₁ =>
    .ok ⟨w.i + 1, tableSet w.table b (tableGet w.table b + 1)⟩ p₁

/-- Commit and `complete()` with RES_LEN = SRC_LEN. -/
def fcountFinish (s : State) (w : FcountWork) (p : Port) : Host.Outcome State Fault Refusal :=
  .next (((s.withPort p).commitFreq w.table (symbolCount w.table)).complete ⟨s.latch.srcLen, 0, 0⟩)

/-- FCOUNT from some progress on to its completion. -/
def runFcount (s : State) (w : FcountWork) : Host.Outcome State Fault Refusal :=
  runLoop s false (fcountBody s) (fcountLeft s w) (fcountFinish s) w

/-- FCOUNT: count the symbols of the source buffer (R171). -/
def execFcount (s : State) : Host.Outcome State Fault Refusal :=
  preChecked s (fcountChecks s) s.srcOnDevice false (runFcount s fcountInit)

/-! ### FLOAD (R175) -/

def floadChecks (s : State) : List (Option Raise) :=
  [checkSrcRange s.latch, raiseIf (decide (s.latch.srcLen.toNat < 4)) ⟨.malformed, 0⟩]

/-- The count field: read N, refuse N > 256 and a section shorter than 4 + 5N. -/
def floadBegin (s : State) (p : Port) : Result FloadWork :=
  (memReadBE32 s (s.srcAt 0) p).bind fun n p₁ =>
    if n.toNat > 256 then .raise ⟨.malformed, 0⟩ p₁
    else if s.latch.srcLen.toNat < 4 + 5 * n.toNat then .raise ⟨.malformed, 0⟩ p₁
    else .ok ⟨n.toNat, 0, FreqTable.empty⟩ p₁

/-- Records left to read. -/
def floadLeft (w : FloadWork) : Nat := w.n - w.i

/-- One record: its symbol must be new and its frequency not 0. -/
def floadBody (s : State) (p : Port) (w : FloadWork) : Result FloadWork :=
  (memRead1 s (s.srcAt (4 + 5 * w.i)) p).bind fun sym p₁ =>
    (memReadBE32 s (s.srcAt (4 + 5 * w.i + 1)) p₁).bind fun f p₂ =>
      if tableGet w.table sym ≠ 0 then .raise ⟨.malformed, BitVec.ofNat 32 (4 + 5 * w.i)⟩ p₂
      else if f = 0 then .raise ⟨.malformed, BitVec.ofNat 32 (4 + 5 * w.i + 1)⟩ p₂
      else .ok ⟨w.n, w.i + 1, tableSet w.table sym f⟩ p₂

/-- Commit and `complete()` with RES_LEN = 4 + 5N. -/
def floadFinish (s : State) (w : FloadWork) (p : Port) : Host.Outcome State Fault Refusal :=
  .next (((s.withPort p).commitFreq w.table w.n).complete ⟨BitVec.ofNat 32 (4 + 5 * w.n), 0, 0⟩)

/-- FLOAD from some progress on to its completion. -/
def runFload (s : State) (w : FloadWork) : Host.Outcome State Fault Refusal :=
  runLoop s false (floadBody s) (floadLeft w) (floadFinish s) w

/-- FLOAD: load FREQ from a frequency section (R175). -/
def execFload (s : State) : Host.Outcome State Fault Refusal :=
  preChecked s (floadChecks s) s.srcOnDevice false
    (endBody s false (floadBegin s s.port) fun w p => runFload (s.withPort p) w)

/-! ### FSTORE (R177) -/

/-- The length of the frequency section of the current table, 4 + 5N (R173). -/
def State.sectionLength (s : State) : Nat := 4 + 5 * s.nsym.toNat

def fstoreChecks (s : State) : List (Option Raise) :=
  [checkDstRange s.latch,
    raiseIf (decide (s.latch.dstCap.toNat < s.sectionLength)) ⟨.dstOverflow, s.latch.dstCap⟩]

/-- The count field: N, big-endian. -/
def fstoreBegin (s : State) (p : Port) : Result FstoreWork :=
  (memWriteN s (s.dstAt 0) (beBytes (s.nsym.setWidth 32)) p).bind fun _ p₁ => .ok ⟨0, 0⟩ p₁

/-- Symbols left to look at. -/
def fstoreLeft (w : FstoreWork) : Nat := 256 - w.s

/-- One symbol, in ascending order: a record for it when its count is not 0. -/
def fstoreBody (s : State) (p : Port) (w : FstoreWork) : Result FstoreWork :=
  let sym := BitVec.ofNat 8 w.s
  let f := tableGet s.freq sym
  if f ≠ 0 then
    (memWriteN s (s.dstAt (4 + 5 * w.k)) [sym] p).bind fun _ p₁ =>
      (memWriteN s (s.dstAt (4 + 5 * w.k + 1)) (beBytes f) p₁).bind fun _ p₂ =>
        .ok ⟨w.s + 1, w.k + 1⟩ p₂
  else .ok ⟨w.s + 1, w.k⟩ p

/-- `complete()` with RES_LEN = 4 + 5N. -/
def fstoreFinish (s : State) (_w : FstoreWork) (p : Port) : Host.Outcome State Fault Refusal :=
  .next ((s.withPort p).settleDst.complete ⟨BitVec.ofNat 32 s.sectionLength, 0, 0⟩)

/-- FSTORE from some progress on to its completion. -/
def runFstore (s : State) (w : FstoreWork) : Host.Outcome State Fault Refusal :=
  runLoop s true (fstoreBody s) (fstoreLeft w) (fstoreFinish s) w

/-- FSTORE: write FREQ as a frequency section (R177). -/
def execFstore (s : State) : Host.Outcome State Fault Refusal :=
  preChecked s (fstoreChecks s) s.dstOnDevice true
    (endBody s true (fstoreBegin s s.port) fun w p => runFstore (s.withPort p) w)

end Sys2Proof.Machine
end

