-- ==== Sys2Proof/Machine/Packer.lean ====
section
/-! DEFINITION. The bit packer: PACK (spec 44_bit_packer.md R225 to R230). -/

namespace Sys2Proof.Machine

def packChecks (s : State) : List (Option Raise) :=
  [checkReady s.codeValid, checkSrcRange s.latch, checkDstRange s.latch, checkOverlap s.latch]

def packInit : PackWork := ⟨0, 0, 0, 0, 0⟩

/-- Source bytes left to encode. -/
def packLeft (s : State) (w : PackWork) : Nat := s.latch.srcLen.toNat - w.i

/-- One code bit (R227): shifted into the accumulator; a full accumulator is emitted. -/
def packBit (s : State) (p : Port) (w : PackWork) (bit : Bool) : Result PackWork :=
  let acc := (w.acc <<< 1) ||| (BitVec.ofBool bit).setWidth 8
  if w.nacc + 1 = 8 then
    (emit s w.out acc p).bind fun out p₁ => .ok { w with acc := 0, nacc := 0, nbits := w.nbits + 1, out := out } p₁
  else .ok { w with acc := acc, nacc := w.nacc + 1, nbits := w.nbits + 1 } p

/-- The bits of one code, in order (R229). -/
def packCode (s : State) : List Bool → Port → PackWork → Result PackWork
  | [], p, w => .ok w p
  | b :: bs, p, w => (packBit s p w b).bind fun w₁ p₁ => packCode s bs p₁ w₁

/-- One source byte: its code, or NO_CODE(i). -/
def packBody (s : State) (p : Port) (w : PackWork) : Result PackWork :=
  (memRead1 s (s.srcAt w.i) p).bind fun b p₁ =>
    match tableGet s.codes b with
    | [] => .raise ⟨.noCode, BitVec.ofNat 32 w.i⟩ p₁
    | code => (packCode s code p₁ w).bind fun w₁ p₂ => .ok { w₁ with i := w.i + 1 } p₂

/-- The padding count (R227): `(8 - (nbits mod 8)) mod 8`. -/
def padCount (nbits : Nat) : Nat := (8 - nbits % 8) % 8

/-- The last byte, padded with zero bits on the right (R225, R227). -/
def packFlush (s : State) (w : PackWork) (p : Port) : Result PackWork :=
  if w.nacc > 0 then
    (emit s w.out (w.acc <<< padCount w.nbits) p).bind fun out p₁ => .ok { w with out := out } p₁
  else .ok w p

/-- The last byte, then `complete()` with the byte, padding and bit counts. -/
def packFinish (s : State) (w : PackWork) (p : Port) : Host.Outcome State Fault Refusal :=
  endBody s true (packFlush s w p) fun w₁ p₁ =>
    .next ((s.withPort p₁).settleDst.complete
      ⟨BitVec.ofNat 32 w₁.out, BitVec.ofNat 3 (padCount w₁.nbits), BitVec.ofNat 64 w₁.nbits⟩)

/-- PACK from some progress on to its completion. -/
def runPack (s : State) (w : PackWork) : Host.Outcome State Fault Refusal :=
  runLoop s true (packBody s) (packLeft s w) (packFinish s) w

/-- PACK: encode the source buffer with the code table into the destination buffer (R227). -/
def execPack (s : State) : Host.Outcome State Fault Refusal :=
  preChecked s (packChecks s) (s.srcOnDevice || s.dstOnDevice) true (runPack s packInit)

end Sys2Proof.Machine
end

