-- ==== Sys2Proof/Machine/Tree.lean ====
section
/-! DEFINITION. The tree builder: TBUILD (spec 42_tree_builder.md R190 to R197). -/

namespace Sys2Proof.Machine

/-- `leaf(s, w)` (R191). -/
def Node.leaf (s : Byte) (w : BitVec 64) : Node := ⟨true, false, s, 0, 0, w⟩

/-- `inner(w, a, b)` (R191). -/
def Node.inner (w : BitVec 64) (a b : Nat) : Node :=
  ⟨true, true, 0, BitVec.ofNat 9 a, BitVec.ofNat 9 b, w⟩

/-- The symbols with a non-zero count, in ascending order (R192). -/
def presentSymbols (t : FreqTable) : List Byte :=
  ((List.range 256).map (BitVec.ofNat 8)).filter fun s => tableGet t s != 0

/-- The leaves in insertion order (R191, R192). -/
def leavesOf (t : FreqTable) : List Node :=
  (presentSymbols t).map fun s => Node.leaf s ((tableGet t s).setWidth 64)

/-- Nodes put into a node store from index `k` on. -/
def placeNodes : List Node → Nat → NodeStore → NodeStore
  | [], _, t => t
  | n :: ns, k, t => placeNodes ns (k + 1) (t.setIfInBounds k n)

/-- The queue entries of nodes with indices from `k` on. -/
def queueOf : List Node → Nat → List QueueKey
  | [], _ => []
  | n :: ns, k => ⟨n.weight, k⟩ :: queueOf ns (k + 1)

/-- Queue order (R193): lower weight first, and of equal weights the lower index. -/
def QueueKey.before (a b : QueueKey) : Bool :=
  decide (a.weight.toNat < b.weight.toNat) || (decide (a.weight = b.weight) && decide (a.index < b.index))

/-- The least key of `k` and a list. -/
def leastKey (k : QueueKey) : List QueueKey → QueueKey
  | [] => k
  | q :: qs => leastKey (if q.before k then q else k) qs

/-- Extract the node with the least key (R191, R193). -/
def extractMin : List QueueKey → Option (QueueKey × List QueueKey)
  | [] => none
  | q :: qs => some (leastKey q qs, (q :: qs).erase (leastKey q qs))

/-- The leaves placed and queued; no merge has run. -/
def tbuildInit (t : FreqTable) : TbuildWork :=
  ⟨placeNodes (leavesOf t) 0 NodeStore.empty, queueOf (leavesOf t) 0, (leavesOf t).length⟩

/-- Merges left: one less than the queue holds. -/
def tbuildLeft (w : TbuildWork) : Nat := w.queue.length - 1

/-- One merge (R191, R194): the first extracted node is the left child, the second the right child. -/
def mergeOnce (w : TbuildWork) : TbuildWork :=
  match extractMin w.queue with
  | none => w
  | some (a, q₁) =>
    match extractMin q₁ with
    | none => w
    | some (b, q₂) =>
      ⟨w.nodes.setIfInBounds w.next (Node.inner (a.weight + b.weight) a.index b.index),
        q₂ ++ [⟨a.weight + b.weight, w.next⟩], w.next + 1⟩

/-- The merges still to run, run: the finished node store. -/
def mergeAll (w : TbuildWork) : NodeStore := (repeatN mergeOnce (tbuildLeft w) w).nodes

/-- The tree of a frequency table, a function of the table alone (R191, R197). -/
def treeOf (t : FreqTable) : NodeStore := mergeAll (tbuildInit t)

/-- The number of nodes of the tree of a table: `(n = 0 ? 0 : 2*n - 1)` (R191). -/
def treeSize (t : FreqTable) : Nat :=
  if symbolCount t = 0 then 0 else 2 * symbolCount t - 1

/-- Commit (R191): NODE, NNODE, an empty code table, TREE_VALID 1, CODE_VALID 0. -/
def State.commitTree (t : NodeStore) (s : State) : State :=
  { s.dropCodes with nodes := t, nnode := BitVec.ofNat 10 (treeSize s.freq), treeValid := true }

/-- Commit and `complete()`. -/
def tbuildFinish (s : State) (t : NodeStore) : Host.Outcome State Fault Refusal :=
  .next ((s.commitTree t).complete Results.zero)

/-- TBUILD from some progress on to its completion. -/
def runTbuild (s : State) (w : TbuildWork) : Host.Outcome State Fault Refusal :=
  tbuildFinish s (mergeAll w)

/-- TBUILD: build the Huffman tree from FREQ into the node store (R191). It has no error of its own. -/
def execTbuild (s : State) : Host.Outcome State Fault Refusal := runTbuild s (tbuildInit s.freq)

end Sys2Proof.Machine
end

