-- ==== Sys2Proof/Machine/Unpacker.lean ====
section
/-! DEFINITION. The bit unpacker: UNPACK (spec 45_bit_unpacker.md R240 to R248). -/

namespace Sys2Proof.Machine

/-- Structural checks (R245): a payload for the empty tree, or padding for an empty payload. -/
def unpackMalformed (pad : BitVec 3) (s : State) : Bool :=
  (decide (s.nnode.toNat = 0) && decide (s.latch.srcLen.toNat > 0)) ||
    (decide (s.latch.srcLen.toNat = 0) && decide (pad ≠ 0))

def unpackChecks (pad : BitVec 3) (s : State) : List (Option Raise) :=
  [checkReady s.treeValid, checkSrcRange s.latch, checkDstRange s.latch, checkOverlap s.latch,
    raiseIf (unpackMalformed pad s) ⟨.malformed, 0⟩]

/-- The root's node index (R66). -/
def State.root (s : State) : Nat := s.nnode.toNat - 1

/-- The walk stands at the root before the first of the `8 * SRC_LEN - PAD` stream bits (R242, R243). -/
def unpackInit (pad : BitVec 3) (s : State) : UnpackWork :=
  ⟨8 * s.latch.srcLen.toNat - pad.toNat, 0, 0, s.root, 0, 0⟩

/-- Stream bits left. -/
def unpackLeft (w : UnpackWork) : Nat := w.nbits - w.t

/-- The payload byte that holds stream bit `t`: read when its first bit is reached (R243). -/
def unpackByte (s : State) (p : Port) (w : UnpackWork) : Result Byte :=
  if w.t % 8 = 0 then memRead1 s (s.srcAt (w.t / 8)) p else .ok w.byte p

/-- Stream bit `t` of the byte in hand: bit 7 - (t mod 8) (R242). -/
def streamBit (byte : Byte) (t : Nat) : Bool := byte.getLsbD (7 - t % 8)

/-- One stream bit (R243): a leaf root decodes each 0 to its symbol and stops at a 1 (R247); otherwise the walk goes left
on 0 and right on 1, and a leaf reached is emitted and the walk restarts from the root. -/
def unpackBody (s : State) (p : Port) (w : UnpackWork) : Result UnpackWork :=
  (unpackByte s p w).bind fun byte p₁ =>
    let bit := streamBit byte w.t
    if s.nnode.toNat = 1 then
      if bit then .raise ⟨.truncated, BitVec.ofNat 32 w.t⟩ p₁
      else (emit s w.out (nodeAt s.nodes 0).sym p₁).bind fun out p₂ =>
        .ok { w with t := w.t + 1, byte := byte, start := w.t + 1, out := out } p₂
    else
      let child := if bit then (nodeAt s.nodes w.node).right.toNat else (nodeAt s.nodes w.node).left.toNat
      if (nodeAt s.nodes child).internal then
        .ok { w with t := w.t + 1, byte := byte, node := child } p₁
      else (emit s w.out (nodeAt s.nodes child).sym p₁).bind fun out p₂ =>
        .ok { w with t := w.t + 1, byte := byte, node := s.root, start := w.t + 1, out := out } p₂

/-- The end of the stream: TRUNCATED(start) inside a code (R246), else `complete()`. -/
def unpackFinish (s : State) (w : UnpackWork) (p : Port) : Host.Outcome State Fault Refusal :=
  if s.nnode.toNat > 1 ∧ w.node ≠ s.root then
    .next ((s.withPort p).fail true ⟨.truncated, BitVec.ofNat 32 w.start⟩)
  else
    .next ((s.withPort p).settleDst.complete ⟨BitVec.ofNat 32 w.out, 0, BitVec.ofNat 64 w.nbits⟩)

/-- UNPACK from some progress on to its completion. -/
def runUnpack (s : State) (w : UnpackWork) : Host.Outcome State Fault Refusal :=
  runLoop s true (unpackBody s) (unpackLeft w) (unpackFinish s) w

/-- UNPACK: decode the payload in the source buffer with the tree into the destination buffer (R243). -/
def execUnpack (pad : BitVec 3) (s : State) : Host.Outcome State Fault Refusal :=
  preChecked s (unpackChecks pad s) (s.srcOnDevice || s.dstOnDevice) true (runUnpack s (unpackInit pad s))

end Sys2Proof.Machine
end

