-- ==== Sys2Proof/Machine/Dispatch.lean ====
section
/-! DEFINITION. The dispatch of a command to its meaning (spec 60_exceptions.md R283): the accepted command run to its
completion. -/

namespace Sys2Proof.Machine

def exec (i : Instr) (s : State) : Host.Outcome State Fault Refusal :=
  match i with
  | .nop => Sys2Proof.Machine.execNop s
  | .fcount => Sys2Proof.Machine.execFcount s
  | .fload => Sys2Proof.Machine.execFload s
  | .fstore => Sys2Proof.Machine.execFstore s
  | .tbuild => Sys2Proof.Machine.execTbuild s
  | .ctgen => Sys2Proof.Machine.execCtgen s
  | .pack => Sys2Proof.Machine.execPack s
  | .unpack pad => Sys2Proof.Machine.execUnpack pad s
  | .clear => Sys2Proof.Machine.execClear s

end Sys2Proof.Machine
end

