-- ==== Sys2Proof/Machine/Flags.lean ====
section
/-! DEFINITION. The STATUS bits and the interrupt line as views of the state (R52, R53, R80, R275, R290). -/

namespace Sys2Proof.Machine

/-- Whether the engine is running (R275). -/
def Work.running : Work → Bool
  | .idle => false
  | .accepted | .fcount _ | .fload _ | .fstore _ | .tbuild _ | .ctgen _ | .pack _ | .unpack _ => true

/-- STATUS.BUSY (R53, R275). -/
def State.busy (s : State) : Bool := s.work.running

/-- The 8-bit value of an error code (R279). -/
def ErrCode.toByte : ErrCode → Byte
  | .none => 0x00
  | .illegalCmd => 0x01
  | .notReady => 0x02
  | .malformed => 0x03
  | .truncated => 0x04
  | .noCode => 0x05
  | .dstOverflow => 0x06
  | .range => 0x07
  | .overlap => 0x08
  | .bus => 0x09

/-- STATUS.ERRF: ERR.CODE is not 0 (R53). -/
def State.errf (s : State) : Bool := s.err.toByte != 0

/-- STATUS.EMPTY: NSYM is 0 (R53, R80). -/
def State.isEmpty (s : State) : Bool := s.nsym == 0

/-- STATUS as read (R53): bits 31:7 read 0, then EMPTY, CODE_VALID, TREE_VALID, OVR, ERRF, DONE, BUSY. -/
def State.statusWord (s : State) : Word :=
  (0 : BitVec 25) ++ BitVec.ofBool s.isEmpty ++ BitVec.ofBool s.codeValid ++ BitVec.ofBool s.treeValid ++
    BitVec.ofBool s.ovr ++ BitVec.ofBool s.errf ++ BitVec.ofBool s.done ++ BitVec.ofBool s.busy

/-- A write to STATUS (R53): bit 1 clears DONE, bit 3 clears OVR, nothing else happens. -/
def State.writeStatus (w : Word) (s : State) : State :=
  { s with done := s.done && !w.getLsbD 1, ovr := s.ovr && !w.getLsbD 3 }

/-- CTRL as read (R52): IE in bit 0; SRST and the reserved bits read 0. -/
def State.ctrlWord (s : State) : Word := (0 : BitVec 31) ++ BitVec.ofBool s.ie

/-- The interrupt line IRQ, a level (R290). -/
def State.irq (s : State) : Bool := s.ie && s.done

end Sys2Proof.Machine
end

