-- ==== Sys2Proof/Machine/Engine.lean ====
section
/-! DEFINITION. The engine (spec 60_exceptions.md R275, R283; 70_reset_and_hazards.md R340): dispatching the accepted word,
single engine steps, and running on to the completion. -/

namespace Sys2Proof.Machine

/-- The error completion of an illegal command word (R144, R283): ILLEGAL_CMD with the whole word. -/
def illegalCommand (s : State) : Host.Outcome State Fault Refusal :=
  .next (s.raise ⟨.illegalCmd, s.latch.word⟩)

/-- `dispatch(w)` of the latched word (R283), with the selected command run to its completion. -/
def dispatchRun (s : State) : Host.Outcome State Fault Refusal :=
  match decodeWord s.latch.word with
  | none => illegalCommand s
  | some i => exec i s

/-- The engine given all the time it needs: the accepted word, or the command in progress, run to its completion. An
idle engine does nothing (R275, R298). -/
def engineRun (s : State) : Host.Outcome State Fault Refusal :=
  match s.work with
  | .idle => .next s
  | .accepted => dispatchRun s
  | .fcount w => runFcount s w
  | .fload w => runFload s w
  | .fstore w => runFstore s w
  | .tbuild w => runTbuild s w
  | .ctgen w => runCtgen s w
  | .pack w => runPack s w
  | .unpack w => runUnpack s w

/-- The first engine step of a command: its pre-checks (R288) and what stands before its loop. -/
def startCommand (i : Instr) (s : State) : Host.Outcome State Fault Refusal :=
  match i with
  | .nop => execNop s
  | .fcount =>
    preChecked s (fcountChecks s) s.srcOnDevice false (.next { s with work := .fcount fcountInit })
  | .fload =>
    preChecked s (floadChecks s) s.srcOnDevice false
      (endBody s false (floadBegin s s.port) fun w p => .next { s.withPort p with work := .fload w })
  | .fstore =>
    preChecked s (fstoreChecks s) s.dstOnDevice true
      (endBody s true (fstoreBegin s s.port) fun w p => .next { s.withPort p with work := .fstore w })
  | .tbuild => .next { s with work := .tbuild (tbuildInit s.freq) }
  | .ctgen => preChecked s (ctgenChecks s) false false (.next { s with work := .ctgen (ctgenInit s.nodes s.nnode.toNat) })
  | .pack =>
    preChecked s (packChecks s) (s.srcOnDevice || s.dstOnDevice) true
      (.next { s with work := .pack packInit })
  | .unpack pad =>
    preChecked s (unpackChecks pad s) (s.srcOnDevice || s.dstOnDevice) true
      (.next { s with work := .unpack (unpackInit pad s) })
  | .clear => execClear s

/-- One engine step (R340): the dispatch of the accepted word, one iteration of the running command's loop, or its
completion when no iteration is left. -/
def engineStep (s : State) : Host.Outcome State Fault Refusal :=
  match s.work with
  | .idle => .next s
  | .accepted =>
    match decodeWord s.latch.word with
    | none => illegalCommand s
    | some i => startCommand i s
  | .fcount w => tickLoop s false (fcountBody s) (fcountLeft s w) (fcountFinish s) .fcount w
  | .fload w => tickLoop s false (floadBody s) (floadLeft w) (floadFinish s) .fload w
  | .fstore w => tickLoop s true (fstoreBody s) (fstoreLeft w) (fstoreFinish s) .fstore w
  | .tbuild w =>
    if tbuildLeft w = 0 then tbuildFinish s w.nodes else .next { s with work := .tbuild (mergeOnce w) }
  | .ctgen w =>
    if w.visits = 0 then ctgenFinish s w.codes else .next { s with work := .ctgen (visitOnce s.nodes w) }
  | .pack w => tickLoop s true (packBody s) (packLeft s w) (packFinish s) .pack w
  | .unpack w => tickLoop s true (unpackBody s) (unpackLeft w) (unpackFinish s) .unpack w

end Sys2Proof.Machine
end

