-- ==== Sys2Proof/Machine/Registers.lean ====
section
/-! DEFINITION. The register block (spec 10_state.md R50 to R77): the register map, reads, writes and the access rules of the
register bus. -/

namespace Sys2Proof.Machine

/-- What an offset of the register map names (R50). -/
inductive Target where
  | id
  | ctrl
  | status
  | cmd
  | srcAddr
  | srcLen
  | dstAddr
  | dstCap
  | err
  | errInfo
  | resLen
  | resPad
  | resBitsLo
  | resBitsHi
  | nsym
  | nnode
  | freq (s : Byte)
  | codeLen (s : Byte)
  | codeBits (s : Byte) (k : Nat)
  | node (i w : Nat)
  | reserved
  deriving DecidableEq, Repr

/-- The size of the register space (R50, R101). -/
def blockSize : Nat := 0x6000

/-- The sixteen registers at 0x000 to 0x03C (R50). -/
def registerAt (index : Nat) : Target :=
  match index with
  | 0 => .id
  | 1 => .ctrl
  | 2 => .status
  | 3 => .cmd
  | 4 => .srcAddr
  | 5 => .srcLen
  | 6 => .dstAddr
  | 7 => .dstCap
  | 8 => .err
  | 9 => .errInfo
  | 10 => .resLen
  | 11 => .resPad
  | 12 => .resBitsLo
  | 13 => .resBitsHi
  | 14 => .nsym
  | 15 => .nnode
  | _ => .reserved

/-- The register map (R50), by byte offset from HUF_BASE. -/
def targetAt (off : Nat) : Target :=
  if off < 0x040 then registerAt (off / 4)
  else if off < 0x400 then .reserved
  else if off < 0x800 then .freq (BitVec.ofNat 8 ((off - 0x400) / 4))
  else if off < 0xC00 then .codeLen (BitVec.ofNat 8 ((off - 0x800) / 4))
  else if off < 0x1000 then .reserved
  else if off < 0x3000 then .codeBits (BitVec.ofNat 8 ((off - 0x1000) / 32)) ((off - 0x1000) / 4 % 8)
  else if off < 0x4000 then .reserved
  else if off < 0x5FF0 then .node ((off - 0x4000) / 16) ((off - 0x4000) / 4 % 4)
  else .reserved

/-- ID (R51): "HUF1". -/
def idWord : Word := 0x48554631

/-- CODE_LEN[s] (R75, R76). -/
def codeLength (c : Code) : BitVec 8 := BitVec.ofNat 8 c.length

/-- Bit position `c[j]` of a code; the positions from the code's length on are 0 (R75). -/
def codeBit (c : Code) (j : Nat) : Bool := c.getD j false

/-- Bits read as a number, the first bit the most significant. -/
def bitsToNat (bits : List Bool) : Nat := bits.foldl (fun n b => 2 * n + b.toNat) 0

/-- CODE_BITS word `k` (R77): bit 31 - j of the word is c[32k + j]. -/
def codeWord (c : Code) (k : Nat) : Word :=
  BitVec.ofNat 32 (bitsToNat ((List.range 32).map fun j => codeBit c (32 * k + j)))

/-- Word `w` of a node (R73). -/
def nodeWord (n : Node) (w : Nat) : Word :=
  match w with
  | 0 => (0 : BitVec 16) ++ n.sym ++ (0 : BitVec 6) ++ BitVec.ofBool n.internal ++ BitVec.ofBool n.valid
  | 1 => (0 : BitVec 7) ++ n.right ++ (0 : BitVec 7) ++ n.left
  | 2 => n.weight.extractLsb' 0 32
  | _ => n.weight.extractLsb' 32 32

/-- The value a register reads as while the engine is idle; ID, CTRL, STATUS, CMD and the argument registers read so at
any time (R51 to R77). -/
def State.readTarget (s : State) : Target → Word
  | .id => idWord
  | .ctrl => s.ctrlWord
  | .status => s.statusWord
  | .cmd => s.cmd
  | .srcAddr => s.srcAddr
  | .srcLen => s.srcLen
  | .dstAddr => s.dstAddr
  | .dstCap => s.dstCap
  | .err => (0 : BitVec 24) ++ s.err.toByte
  | .errInfo => s.errInfo
  | .resLen => s.resLen
  | .resPad => s.resPad.setWidth 32
  | .resBitsLo => s.resBits.extractLsb' 0 32
  | .resBitsHi => s.resBits.extractLsb' 32 32
  | .nsym => s.nsym.setWidth 32
  | .nnode => s.nnode.setWidth 32
  | .freq sym => tableGet s.freq sym
  | .codeLen sym => (codeLength (tableGet s.codes sym)).setWidth 32
  | .codeBits sym k => codeWord (tableGet s.codes sym) k
  | .node i w => nodeWord (nodeAt s.nodes i) w
  | .reserved => 0

/-- The registers and windows whose reads are unspecified while BUSY (R69). -/
def Target.hiddenWhileBusy : Target → Bool
  | .err | .errInfo | .resLen | .resPad | .resBitsLo | .resBitsHi | .nsym | .nnode => true
  | .freq _ | .codeLen _ | .codeBits _ _ | .node _ _ => true
  | .id | .ctrl | .status | .cmd | .srcAddr | .srcLen | .dstAddr | .dstCap | .reserved => false

/-- A 32-bit write (R52 to R59, R67, R277): the read-only and reserved offsets ignore it. -/
def State.writeTarget (s : State) (w : Word) : Target → State
  | .ctrl => if w.getLsbD 1 then s.resetBlock else { s with ie := w.getLsbD 0 }
  | .status => s.writeStatus w
  | .cmd => if s.busy then { s with ovr := true } else s.accept w
  | .srcAddr => { s with srcAddr := w }
  | .srcLen => { s with srcLen := w }
  | .dstAddr => { s with dstAddr := w }
  | .dstCap => { s with dstCap := w }
  | .id | .err | .errInfo | .resLen | .resPad | .resBitsLo | .resBitsHi | .nsym | .nnode => s
  | .freq _ | .codeLen _ | .codeBits _ _ | .node _ _ | .reserved => s

/-! ### The register bus (R68, R101) -/

/-- What the bus makes of an access: not this block's, an error response, or a register. -/
inductive BusDecode where
  | elsewhere
  | error
  | reg (t : Target)
  deriving DecidableEq, Repr

/-- Only 32-bit accesses at offsets that are multiples of 4 are accepted (R68). -/
def State.busDecode (s : State) (addr : Nat) (size : AccessSize) : BusDecode :=
  if addr < s.platform.hufBase then .elsewhere
  else if s.platform.hufBase + blockSize ≤ addr then .elsewhere
  else if size ≠ .b32 then .error
  else if (addr - s.platform.hufBase) % 4 ≠ 0 then .error
  else .reg (targetAt (addr - s.platform.hufBase))

/-- A register-bus read: the answer stands in `resp`; no register changes. A hidden register reads as any value while
BUSY (R69). -/
def busRead (addr : Nat) (size : AccessSize) (s : State) : State :=
  match s.busDecode addr size with
  | .elsewhere => { s with resp := .elsewhere }
  | .error => { s with resp := .error }
  | .reg t =>
    if s.busy && t.hiddenWhileBusy then
      { s with resp := .data (Config.freeWord s.draws), draws := s.draws + 1 }
    else { s with resp := .data (s.readTarget t) }

/-- A register-bus write. -/
def busWrite (addr : Nat) (size : AccessSize) (data : Word) (s : State) : State :=
  match s.busDecode addr size with
  | .elsewhere => { s with resp := .elsewhere }
  | .error => { s with resp := .error }
  | .reg t => { s.writeTarget data t with resp := .ok }

end Sys2Proof.Machine
end

