-- ==== Sys2Proof/Machine/HostSide.lean ====
section
/-! DEFINITION. The host's side (spec R40, R114, R115, R147, R148): its accesses to system memory, the order of its actions
and the engine's, and the host-program statements. -/

namespace Sys2Proof.Machine

/-! ### System memory seen by other agents (R114, R115) -/

/-- Another agent broke a duty of R115 while a command was running: from here on every source byte of the command's run is
any value, the run counted from its start, since R110 leaves open when and how often a byte is read (log entry 6). -/
def State.race (s : State) : State := { s with raced := true, work := .accepted }

/-- Whether the address lies in the running command's source buffer. -/
def State.inRunningSrc (s : State) (a : Nat) : Bool :=
  s.runningSrc && inBuffer s.latch.srcAddr s.latch.srcLen a

/-- Whether the address lies in the running command's destination buffer. -/
def State.inRunningDst (s : State) (a : Nat) : Bool :=
  s.runningDst && inBuffer s.latch.dstAddr s.latch.dstCap a

/-- Another agent writes a byte of system memory. -/
def hostMemWrite (a : Word) (v : Byte) (s : State) : State :=
  let s₁ := { s with mem := s.mem.write a.toNat v, resp := .ok }
  if s.inRunningSrc a.toNat || s.inRunningDst a.toNat then s₁.race else s₁

/-- Another agent reads a byte of system memory; a byte of the running command's destination buffer reads as any
value. -/
def hostMemRead (a : Word) (s : State) : State :=
  if s.inRunningDst a.toNat then
    { s with resp := .byte (Config.freeByte s.draws a.toNat), draws := s.draws + 1 }.race
  else { s with resp := .byte (s.mem.read a.toNat) }

/-! ### What happens next -/

/-- CHK (R148): `RD ERR`, and the program is abandoned when ERR.CODE is not 0. -/
def hostCheck (s : State) : State :=
  let s₁ := busRead (s.platform.hufBase + 0x020) .b32 s
  match s₁.resp with
  | .data w => if w.extractLsb' 0 8 = 0 then s₁ else { s₁ with inputs := [] }
  | .none | .ok | .error | .elsewhere | .byte _ => s₁

/-- One thing happens. -/
def applyInput (a : Input) (s : State) : Host.Outcome State Fault Refusal :=
  match a with
  | .busRead addr size => .next (busRead addr size s)
  | .busWrite addr size data => .next (busWrite addr size data s)
  | .memRead addr => .next (hostMemRead addr s)
  | .memWrite addr v => .next (hostMemWrite addr v s)
  | .hardReset => .next s.resetBlock
  | .engineStep => engineStep s
  | .wait => engineRun s
  | .chk => .next (hostCheck s)

/-! ### Host programs (R147, R148) -/

/-- The register names of R50. -/
inductive RegName where
  | ID
  | CTRL
  | STATUS
  | CMD
  | SRC_ADDR
  | SRC_LEN
  | DST_ADDR
  | DST_CAP
  | ERR
  | ERR_INFO
  | RES_LEN
  | RES_PAD
  | RES_BITS_LO
  | RES_BITS_HI
  | NSYM
  | NNODE
  deriving DecidableEq, Repr

/-- The offset of a register (R50). -/
def RegName.offset : RegName → Nat
  | .ID => 0x000
  | .CTRL => 0x004
  | .STATUS => 0x008
  | .CMD => 0x00C
  | .SRC_ADDR => 0x010
  | .SRC_LEN => 0x014
  | .DST_ADDR => 0x018
  | .DST_CAP => 0x01C
  | .ERR => 0x020
  | .ERR_INFO => 0x024
  | .RES_LEN => 0x028
  | .RES_PAD => 0x02C
  | .RES_BITS_LO => 0x030
  | .RES_BITS_HI => 0x034
  | .NSYM => 0x038
  | .NNODE => 0x03C

/-- A host-program statement (R147) or pseudo-instruction (R148). -/
inductive Stmt where
  /-- `WR reg, value`. -/
  | WR (r : RegName) (value : Word)
  /-- `RD reg`. -/
  | RD (r : RegName)
  /-- `WAIT`. -/
  | WAIT
  /-- `RUN command`. -/
  | RUN (i : Instr)
  /-- `SRC addr, len`. -/
  | SRC (addr len : Word)
  /-- `DST addr, cap`. -/
  | DST (addr cap : Word)
  /-- `ACK`. -/
  | ACK
  /-- `CHK`. -/
  | CHK
  /-- `ENCODE`. -/
  | ENCODE
  /-- `DECODE pad`. -/
  | DECODE (pad : BitVec 3)
  deriving DecidableEq, Repr

/-- `WR reg, value`: a 32-bit host write at HUF_BASE + the register's offset (R147). -/
def wr (base : Nat) (r : RegName) (value : Word) : Input := .busWrite (base + r.offset) .b32 value

/-- `RUN command`: `WR CMD, word` then `WAIT` (R148). -/
def runCommand (base : Nat) (i : Instr) : List Input := [wr base .CMD (encode i), .wait]

/-- The expansion of a statement to host actions (R147, R148). -/
def Stmt.expand (base : Nat) : Stmt → List Input
  | .WR r value => [wr base r value]
  | .RD r => [.busRead (base + r.offset) .b32]
  | .WAIT => [.wait]
  | .RUN i => runCommand base i
  | .SRC addr len => [wr base .SRC_ADDR addr, wr base .SRC_LEN len]
  | .DST addr cap => [wr base .DST_ADDR addr, wr base .DST_CAP cap]
  | .ACK => [wr base .STATUS 0x00000002]
  | .CHK => [.chk]
  | .ENCODE =>
    runCommand base .fcount ++ [.chk] ++ runCommand base .tbuild ++ [.chk] ++ runCommand base .ctgen ++ [.chk] ++
      runCommand base .pack ++ [.chk]
  | .DECODE pad => runCommand base .tbuild ++ [.chk] ++ runCommand base (.unpack pad) ++ [.chk]

/-- A host program as the list of what happens next. -/
def hostProgram (base : Nat) (p : List Stmt) : List Input := p.flatMap (Stmt.expand base)

end Sys2Proof.Machine
end

