-- ==== Sys2Proof/Machine/Step.lean ====
section
/-! DEFINITION. One step of the machine. HUFFCORE fetches nothing (R41): what happens next is the host's next action, or the
engine's; with no action pending a running engine runs to its completion and an idle one waits (R275, R298). -/

namespace Sys2Proof.Machine

/-- One step. -/
def step (s : State) : Host.Outcome State Fault Refusal :=
  match s.inputs with
  | [] => engineRun s
  | a :: rest => applyInput a { s with inputs := rest }

/-- The command word an accepted host write has put where the engine takes it (R276): the state right after the
acceptance of `w` by an idle engine, with no other action pending, so that the next step dispatches and runs `w`. -/
def State.withFetchWord (s : State) (nbits w : Nat) : State :=
  { s with work := .idle, inputs := [] }.accept (BitVec.ofNat 32 (w % 2 ^ nbits))

end Sys2Proof.Machine
end

