-- ==== Sys2Proof/Machine/Formats.lean ====
section
/-! DEFINITION. The byte formats: the frequency section (R173), the packed payload (R226, R242) and the host's Container
(R125 to R128). The commands do not read these definitions; they say what the commands' bytes mean. -/

namespace Sys2Proof.Machine

/-- One record of the frequency section (R173): the symbol, then its frequency, big-endian. -/
def freqRecord (t : FreqTable) (s : Byte) : List Byte := s :: beBytes (tableGet t s)

/-- The frequency section FSTORE writes for a table (R173): N, then the records by ascending symbol. -/
def freqSection (t : FreqTable) : List Byte :=
  beBytes (BitVec.ofNat 32 (symbolCount t)) ++ (presentSymbols t).flatMap (freqRecord t)

/-- Payload byte `j` of a bit stream (R226): `sum over t in 0..7 of b[8j + t] * 2^(7 - t)`, bits past the end being 0. -/
def payloadByte (bits : List Bool) (j : Nat) : Byte :=
  BitVec.ofNat 8 (((List.range 8).map fun t => (bits.getD (8 * j + t) false).toNat * 2 ^ (7 - t)).sum)

/-- The payload of a bit stream: `ceil(L / 8)` bytes (R226). -/
def payloadOf (bits : List Bool) : List Byte := (List.range ((bits.length + 7) / 8)).map (payloadByte bits)

/-- The code bits of a byte sequence, in input order and without gaps (R229). -/
def codeStream (c : CodeTable) (xs : List Byte) : List Bool := xs.flatMap (tableGet c)

/-- The host's Container (R125), with the open parameter CONTAINER_MAGIC (R126). -/
def containerBytes (magic : Word) (t : FreqTable) (pad : BitVec 3) (payload : List Byte) : List Byte :=
  beBytes magic ++ freqSection t ++ [pad.setWidth 8] ++ beBytes (BitVec.ofNat 32 payload.length) ++ payload

end Sys2Proof.Machine
end

