-- ==== Sys2Proof/Safety.lean ====
section
/-! DEFINITION. The terms the claims use: what stays the same, how a command has ended, the bytes of a buffer, the invariant of
the machine (spec 10_state.md R78, R79), the walk in a tree, and runs of the engine. -/

namespace Sys2Proof.Machine

/-! ### What stays the same -/

/-- FREQ, NSYM, NODE, NNODE, CODE, TREE_VALID and CODE_VALID are as before (R286). -/
structure SameTables (s t : State) : Prop where
  freq : t.freq = s.freq
  nsym : t.nsym = s.nsym
  nodes : t.nodes = s.nodes
  nnode : t.nnode = s.nnode
  codes : t.codes = s.codes
  treeValid : t.treeValid = s.treeValid
  codeValid : t.codeValid = s.codeValid

/-- What only the host writes is as before: CTRL.IE, OVR, the CMD readback, the argument registers (R59), and what is not
HUFFCORE's. -/
structure SameHost (s t : State) : Prop where
  ie : t.ie = s.ie
  ovr : t.ovr = s.ovr
  cmd : t.cmd = s.cmd
  srcAddr : t.srcAddr = s.srcAddr
  srcLen : t.srcLen = s.srcLen
  dstAddr : t.dstAddr = s.dstAddr
  dstCap : t.dstCap = s.dstCap
  platform : t.platform = s.platform
  inputs : t.inputs = s.inputs
  resp : t.resp = s.resp

/-- Every byte of memory reads as before. -/
def SameMem (s t : State) : Prop := ∀ a, t.mem.read a = s.mem.read a

/-- Every byte of memory outside `lo ≤ a < hi` reads as before. -/
def SameMemOutside (s t : State) (lo hi : Nat) : Prop :=
  ∀ a, a < lo ∨ hi ≤ a → t.mem.read a = s.mem.read a

/-! ### How a command has ended -/

/-- Completed without error with the given results (R284): ERR and ERR_INFO 0, DONE 1, the engine idle. -/
structure CompletedOk (t : State) (len : Word) (pad : BitVec 3) (bits : BitVec 64) : Prop where
  err : t.err = .none
  errInfo : t.errInfo = 0
  resLen : t.resLen = len
  resPad : t.resPad = pad
  resBits : t.resBits = bits
  done : t.done = true
  busy : t.busy = false
  latch : t.latch = Latch.clear

/-- Completed with an error (R285): ERR.CODE and ERR_INFO, results 0, DONE 1, ERRF 1, the engine idle. -/
structure CompletedErr (t : State) (code : ErrCode) (info : Word) : Prop where
  err : t.err = code
  errInfo : t.errInfo = info
  resLen : t.resLen = 0
  resPad : t.resPad = 0
  resBits : t.resBits = 0
  done : t.done = true
  busy : t.busy = false
  errf : t.errf = true
  latch : t.latch = Latch.clear

/-- FREQ and NSYM as before, the tree and the code table discarded (R78). -/
structure NoTreeNoCodes (t : State) : Prop where
  nodes : t.nodes = NodeStore.empty
  nnode : t.nnode = 0
  codes : t.codes = CodeTable.empty
  treeValid : t.treeValid = false
  codeValid : t.codeValid = false

/-- None of the errors that the platform, the host's choice of buffers or their capacities cause (R244: "provided no BUS
error occurs and the destination capacities suffice"). -/
def NoBufferError (t : State) : Prop :=
  t.err ≠ .bus ∧ t.err ≠ .dstOverflow ∧ t.err ≠ .range ∧ t.err ≠ .overlap

/-! ### Buffers -/

/-- `n` bytes of memory from an address on. -/
def bytesAt (m : Memory) (a n : Nat) : List Byte := (List.range n).map fun i => m.read (a + i)

/-- The bytes of the latched source buffer (R103). -/
def State.sourceBytes (s : State) : List Byte := bytesAt s.mem s.latch.srcAddr.toNat s.latch.srcLen.toNat

/-- The latched source buffer ends at or below 2^32 (R107). -/
def State.SrcFits (s : State) : Prop := s.latch.srcAddr.toNat + s.latch.srcLen.toNat ≤ 2 ^ 32

/-- The latched destination buffer ends at or below 2^32 (R107). -/
def State.DstFits (s : State) : Prop := s.latch.dstAddr.toNat + s.latch.dstCap.toNat ≤ 2 ^ 32

/-- No read of the first `n` source bytes fails (R109). -/
def State.SrcReadable (s : State) (n : Nat) : Prop :=
  ∀ i < n, s.platform.memFault (BitVec.ofNat 32 (s.latch.srcAddr.toNat + i)) .read = false

/-- No write of the first `n` destination bytes fails (R109). -/
def State.DstWritable (s : State) (n : Nat) : Prop :=
  ∀ i < n, s.platform.memFault (BitVec.ofNat 32 (s.latch.dstAddr.toNat + i)) .write = false

/-- The two latched buffers share no byte (R108). -/
def State.BuffersApart (s : State) : Prop :=
  s.latch.srcLen = 0 ∨ s.latch.dstCap = 0 ∨
    s.latch.dstAddr.toNat + s.latch.dstCap.toNat ≤ s.latch.srcAddr.toNat ∨
    s.latch.srcAddr.toNat + s.latch.srcLen.toNat ≤ s.latch.dstAddr.toNat

/-! ### The invariant -/

/-- What holds of a command in progress: run on, it gives what it would give run from its start. -/
def WorkInv (s : State) : Prop :=
  match s.work with
  | .idle => s.latch = Latch.clear ∧ s.raced = false
  | .accepted => True
  | .fcount _ => True
  | .fload w => symbolCount w.table = w.i ∧ w.i ≤ w.n ∧ w.n ≤ 256
  | .fstore _ => True
  | .tbuild w => mergeAll w = treeOf s.freq
  | .ctgen w => s.treeValid = true ∧ visitAll s.nodes w = codesOf s.nodes s.nnode.toNat
  | .pack _ => True
  | .unpack _ => True

/-- The invariant of the machine (R65, R78, R79, R85), and the canonical form of memory. -/
structure State.Inv (s : State) : Prop where
  mem : s.mem.wf
  nsym : s.nsym.toNat = symbolCount s.freq
  noTree : s.treeValid = false → s.nnode = 0 ∧ s.nodes = NodeStore.empty
  noCodes : s.codeValid = false → s.codes = CodeTable.empty
  codesNeedTree : s.codeValid = true → s.treeValid = true
  tree : s.treeValid = true → s.nnode.toNat = treeSize s.freq ∧ s.nodes = treeOf s.freq
  codes : s.codeValid = true → s.codes = codesOf s.nodes s.nnode.toNat
  work : WorkInv s

/-! ### Walks in a tree -/

/-- The node reached from node `i` by a bit string (R210): 0 to the left child, 1 to the right; none when the string goes
on past a leaf. -/
def descend (nodes : NodeStore) (i : Nat) : List Bool → Option Nat
  | [] => some i
  | b :: bs =>
    let n := nodeAt nodes i
    if n.internal then descend nodes (if b then n.right.toNat else n.left.toNat) bs else none

/-- Queue order on the nodes of a store (R193): lower weight first, then lower index. -/
def keyBefore (nodes : NodeStore) (q r : Nat) : Prop :=
  (nodeAt nodes q).weight.toNat < (nodeAt nodes r).weight.toNat ∨
    ((nodeAt nodes q).weight = (nodeAt nodes r).weight ∧ q < r)

/-- Node `q` is a child of node `p`. -/
def isChild (nodes : NodeStore) (p q : Nat) : Prop :=
  (nodeAt nodes p).internal = true ∧ ((nodeAt nodes p).left.toNat = q ∨ (nodeAt nodes p).right.toNat = q)

/-- The queue just before merge `j` of a tree with `n` leaves (R191): the nodes made so far that are not yet a child. -/
def waiting (nodes : NodeStore) (n j q : Nat) : Prop :=
  q < n + j ∧ ∀ p, n ≤ p → p < n + j → ¬ isChild nodes p q

/-! ### Bit streams -/

/-- The meaningful bits of a payload (R242): bit `t` is bit 7 - (t mod 8) of byte t div 8, and the last `pad` bits are
dropped. -/
def streamOf (payload : List Byte) (pad : Nat) : List Bool :=
  (List.range (8 * payload.length - pad)).map fun t => (payload.getD (t / 8) 0).getLsbD (7 - t % 8)

/-! ### Pre-checks -/

/-- The pre-check error of a command and its ERR_INFO by the list of R288, steps 2 to 5, in plain arithmetic. -/
def preError (i : Instr) (s : State) : Option (ErrCode × Word) :=
  let srcOut := s.latch.srcAddr.toNat + s.latch.srcLen.toNat > 2 ^ 32
  let dstOut := s.latch.dstAddr.toNat + s.latch.dstCap.toNat > 2 ^ 32
  let shared := s.latch.srcLen.toNat > 0 ∧ s.latch.dstCap.toNat > 0 ∧
    s.latch.srcAddr.toNat < s.latch.dstAddr.toNat + s.latch.dstCap.toNat ∧
    s.latch.dstAddr.toNat < s.latch.srcAddr.toNat + s.latch.srcLen.toNat
  match i with
  | .nop => none
  | .fcount => if srcOut then some (.range, 0) else none
  | .fload =>
    if srcOut then some (.range, 0) else if s.latch.srcLen.toNat < 4 then some (.malformed, 0) else none
  | .fstore =>
    if dstOut then some (.range, 1)
    else if s.latch.dstCap.toNat < 4 + 5 * s.nsym.toNat then some (.dstOverflow, s.latch.dstCap) else none
  | .tbuild => none
  | .ctgen => if s.treeValid = false then some (.notReady, 0) else none
  | .pack =>
    if s.codeValid = false then some (.notReady, 0)
    else if srcOut then some (.range, 0)
    else if dstOut then some (.range, 1)
    else if shared then some (.overlap, 0) else none
  | .unpack pad =>
    if s.treeValid = false then some (.notReady, 0)
    else if srcOut then some (.range, 0)
    else if dstOut then some (.range, 1)
    else if shared then some (.overlap, 0)
    else if s.nnode.toNat = 0 ∧ s.latch.srcLen.toNat > 0 then some (.malformed, 0)
    else if s.latch.srcLen.toNat = 0 ∧ pad.toNat ≠ 0 then some (.malformed, 0) else none
  | .clear => none

/-- The errors a command may end with (R279, column "raised by"). -/
def errorsOf : Instr → List ErrCode
  | .nop => []
  | .fcount => [.range, .bus]
  | .fload => [.malformed, .range, .bus]
  | .fstore => [.dstOverflow, .range, .bus]
  | .tbuild => []
  | .ctgen => [.notReady]
  | .pack => [.notReady, .noCode, .dstOverflow, .range, .overlap, .bus]
  | .unpack _ => [.notReady, .malformed, .truncated, .dstOverflow, .range, .overlap, .bus]
  | .clear => []

/-! ### Runs -/

/-- The outcome with its next state changed. -/
def mapNext (f : State → State) : Host.Outcome State Fault Refusal → Host.Outcome State Fault Refusal
  | .next t => .next (f t)
  | .fault r => .fault r
  | .refused r => .refused r

/-- The state without its memory. -/
def State.noMem (s : State) : State := { s with mem := ⟨[], []⟩ }

/-- The state with other argument registers. -/
def State.withArgs (s : State) (srcAddr srcLen dstAddr dstCap : Word) : State :=
  { s with srcAddr := srcAddr, srcLen := srcLen, dstAddr := dstAddr, dstCap := dstCap }

/-- `n` engine steps. -/
def engineSteps : Nat → State → Host.Outcome State Fault Refusal
  | 0, s => .next s
  | n + 1, s =>
    match engineStep s with
    | .next t => engineSteps n t
    | .fault r => .fault r
    | .refused r => .refused r

/-- The state after the host has set the argument registers and its CMD write has been accepted (R276, R325). -/
def State.issue (s : State) (i : Instr) (srcAddr srcLen dstAddr dstCap : Word) : State :=
  (s.withArgs srcAddr srcLen dstAddr dstCap).accept (encode i)

end Sys2Proof.Machine
end

