-- ==== Sys2Proof/Certificates/Slice0/Obligations.lean ====
section
/-! DEFINITION. The statements for the provers. Each cites the rule of the spec it formalises; where a statement rests on a
choice of the model, its docstring names the log entry. -/

open Sys2Proof Sys2Proof.Machine

/-! ### Encoding -/

/-- R149: the table of command words, read both ways. -/
def Obligations.CommandWordsAreThoseOfTheTable : Prop :=
  (encode .nop = 0x00000000 ∧ encode .fcount = 0x00000001 ∧ encode .fload = 0x00000002 ∧
    encode .fstore = 0x00000003 ∧ encode .tbuild = 0x00000004 ∧ encode .ctgen = 0x00000005 ∧
    encode .pack = 0x00000006 ∧ encode .clear = 0x00000008 ∧
    ∀ p : BitVec 3, (encode (.unpack p)).toNat = 0x00000007 + 0x100 * p.toNat) ∧
  (decodeWord 0x00000000 = some .nop ∧ decodeWord 0x00000001 = some .fcount ∧
    decodeWord 0x00000002 = some .fload ∧ decodeWord 0x00000003 = some .fstore ∧
    decodeWord 0x00000004 = some .tbuild ∧ decodeWord 0x00000005 = some .ctgen ∧
    decodeWord 0x00000006 = some .pack ∧ decodeWord 0x00000008 = some .clear ∧
    ∀ p : BitVec 3, decodeWord (BitVec.ofNat 32 (0x00000007 + 0x100 * p.toNat)) = some (.unpack p))

/-- Decoding and encoding agree in both directions: no bit of a command word is dropped, and no two words mean the same
command (R140, R141, R145). -/
def Obligations.DecodeAndEncodeAgree : Prop :=
  ∀ (w : Word) (i : Instr), decodeWord w = some i ↔ w = encode i

/-- R145: decoding is total, with its three cases in plain arithmetic on the word. -/
def Obligations.DecodingIsTotalInThreeCases : Prop :=
  ∀ w : Word,
    let opc := w.toNat % 256
    let pad := w.toNat / 256 % 8
    let rsv := w.toNat / 2048
    let illegal := 9 ≤ opc ∨ rsv ≠ 0 ∨ (opc ≠ 7 ∧ pad ≠ 0)
    (illegal → decodeWord w = none) ∧
    (¬ illegal → opc ≠ 7 → w.toNat = opc ∧
      ∃ i, (opc, i) ∈ [(0, Instr.nop), (1, .fcount), (2, .fload), (3, .fstore), (4, .tbuild), (5, .ctgen),
        (6, .pack), (8, .clear)] ∧ decodeWord w = some i) ∧
    (¬ illegal → opc = 7 → decodeWord w = some (.unpack (BitVec.ofNat 3 pad)))

/-- R144: which words are illegal, and that running one raises ILLEGAL_CMD with the whole word and does nothing else. -/
def Obligations.IllegalWordOnlyReportsItself : Prop :=
  (∀ w : Word, decodeWord w = none ↔
    (9 ≤ w.toNat % 256 ∨ w.toNat / 2048 ≠ 0 ∨ (w.toNat % 256 ≠ 7 ∧ w.toNat / 256 % 8 ≠ 0))) ∧
  (∀ s : State, s.inputs = [] → s.work = .accepted → decodeWord s.latch.word = none →
    ∃ t, step s = .next t ∧ CompletedErr t .illegalCmd s.latch.word ∧ SameTables s t ∧ SameHost s t ∧
      t.mem = s.mem)

/-! ### The step -/

/-- A step runs the decoded command: with the accepted word latched and no action pending (or the host waiting), the step
is `exec` of the command the word decodes to (R283); and so is the step from `withFetchWord`. That one step with nothing
pending runs the whole command, and that `withFetchWord` stands for the host's CMD write, is the model's choice (log
entry 5); that a wait does so in one step is log entry 13. -/
def Obligations.StepRunsTheDecodedCommand : Prop :=
  (∀ (s : State) (i : Instr), s.inputs = [] → s.work = .accepted → decodeWord s.latch.word = some i →
    step s = exec i s) ∧
  (∀ (s : State) (i : Instr) (rest : List Input), s.inputs = .wait :: rest → s.work = .accepted →
    decodeWord s.latch.word = some i → step s = exec i { s with inputs := rest }) ∧
  (∀ (s : State) (i : Instr) (nbits w : Nat), decodeTableWord nbits w = some i →
    step (s.withFetchWord nbits w) = exec i (s.withFetchWord nbits w))

/-- R276: a host write to CMD while idle is accepted, as one step. -/
def Obligations.CommandWriteWhileIdleIsAccepted : Prop :=
  ∀ (s : State) (w : Word) (rest : List Input),
    s.inputs = .busWrite (s.platform.hufBase + 0x00C) .b32 w :: rest → s.busy = false →
    ∃ t, step s = .next t ∧
      t.cmd = w ∧ t.latch = ⟨w, s.srcAddr, s.srcLen, s.dstAddr, s.dstCap⟩ ∧
      t.done = false ∧ t.err = .none ∧ t.errInfo = 0 ∧ t.resLen = 0 ∧ t.resPad = 0 ∧ t.resBits = 0 ∧
      t.busy = true ∧ t.work = .accepted ∧ engineRun t = dispatchRun t ∧ t.irq = false ∧ t.inputs = rest ∧
      SameTables s t ∧ t.mem = s.mem ∧
      t.srcAddr = s.srcAddr ∧ t.srcLen = s.srcLen ∧ t.dstAddr = s.dstAddr ∧ t.dstCap = s.dstCap

/-- R277: a host write to CMD while busy is dropped and sets OVR, and OVR stays 1 until a 1 is written to it or a reset:
every step that lowers OVR is one of these. -/
def Obligations.CommandWriteWhileBusyIsDropped : Prop :=
  (∀ (s : State) (w : Word) (rest : List Input),
    s.inputs = .busWrite (s.platform.hufBase + 0x00C) .b32 w :: rest → s.busy = true →
    step s = .next { s with ovr := true, inputs := rest, resp := .ok }) ∧
  (∀ s t : State, step s = .next t → s.ovr = true → t.ovr = false →
    ∃ rest, s.inputs = .hardReset :: rest ∨
      (∃ w : Word, s.inputs = .busWrite (s.platform.hufBase + 0x008) .b32 w :: rest ∧ w.getLsbD 3 = true) ∨
      (∃ w : Word, s.inputs = .busWrite (s.platform.hufBase + 0x004) .b32 w :: rest ∧ w.getLsbD 1 = true))

/-- R278: a running command uses the latched word and arguments: running on from any point with other argument registers
gives the same outcome but for those registers; a host write to an argument register, while busy or idle, changes that
register alone, at once (R55 to R59), and a read returns its value; the next acceptance latches it. -/
def Obligations.RunningCommandUsesLatchedArguments : Prop :=
  (∀ (s : State) (a b c d : Word), s.busy = true →
    engineRun (s.withArgs a b c d) = mapNext (fun t => t.withArgs a b c d) (engineRun s) ∧
    engineStep (s.withArgs a b c d) = mapNext (fun t => t.withArgs a b c d) (engineStep s)) ∧
  (∀ (s : State) (w : Word) (rest : List Input),
    (s.inputs = .busWrite (s.platform.hufBase + 0x010) .b32 w :: rest →
      step s = .next { s with srcAddr := w, inputs := rest, resp := .ok }) ∧
    (s.inputs = .busWrite (s.platform.hufBase + 0x014) .b32 w :: rest →
      step s = .next { s with srcLen := w, inputs := rest, resp := .ok }) ∧
    (s.inputs = .busWrite (s.platform.hufBase + 0x018) .b32 w :: rest →
      step s = .next { s with dstAddr := w, inputs := rest, resp := .ok }) ∧
    (s.inputs = .busWrite (s.platform.hufBase + 0x01C) .b32 w :: rest →
      step s = .next { s with dstCap := w, inputs := rest, resp := .ok })) ∧
  (∀ s : State, (busRead (s.platform.hufBase + 0x010) .b32 s).resp = .data s.srcAddr ∧
    (busRead (s.platform.hufBase + 0x014) .b32 s).resp = .data s.srcLen ∧
    (busRead (s.platform.hufBase + 0x018) .b32 s).resp = .data s.dstAddr ∧
    (busRead (s.platform.hufBase + 0x01C) .b32 s).resp = .data s.dstCap) ∧
  (∀ (s : State) (w : Word), (s.accept w).latch = ⟨w, s.srcAddr, s.srcLen, s.dstAddr, s.dstCap⟩)

/-! ### What every command keeps -/

/-- No command writes what only the host writes, and every command ends idle with DONE set, ERR_INFO 0 if it had no error,
and results 0 if it had one (R59, R284, R285). -/
def Obligations.EveryCommandEndsIdleAndKeepsHostRegisters : Prop :=
  ∀ (i : Instr) (s t : State), exec i s = .next t →
    SameHost s t ∧ t.done = true ∧ t.busy = false ∧ t.latch = Latch.clear ∧
    (t.err = .none → t.errInfo = 0) ∧
    (t.err ≠ .none → t.errf = true ∧ t.resLen = 0 ∧ t.resPad = 0 ∧ t.resBits = 0)

/-- R286: a command that completes with an error leaves every table as it was at its acceptance: the engine changes no
table while it runs, and none at a completion with an error. -/
def Obligations.ErrorLeavesEveryTable : Prop :=
  (∀ s t : State, s.busy = true → engineRun s = .next t → t.err ≠ .none → SameTables s t) ∧
  (∀ s t : State, s.busy = true → engineStep s = .next t → t.busy = true ∨ t.err ≠ .none → SameTables s t)

/-- Which errors each command can end with (R279, column "raised by"; ILLEGAL_CMD is the dispatch's). -/
def Obligations.EachCommandRaisesOnlyItsErrors : Prop :=
  ∀ (i : Instr) (s t : State), exec i s = .next t → t.err = .none ∨ t.err ∈ errorsOf i

/-- A command writes no byte outside its destination buffer, and a command without one writes no byte (R102, R103). NSYM is
the number of symbols with a count (R65; `InvariantHoldsAtReset` and `EveryStepKeepsTheInvariant`): FSTORE measures its
section by it. -/
def Obligations.CommandsWriteOnlyTheirDestination : Prop :=
  ∀ (i : Instr) (s t : State), s.nsym.toNat = symbolCount s.freq → exec i s = .next t →
    (usesDst i = true →
      SameMemOutside s t s.latch.dstAddr.toNat (s.latch.dstAddr.toNat + s.latch.dstCap.toNat)) ∧
    (usesDst i = false → t.mem = s.mem)

/-- A command reads no byte outside its source buffer: with any other contents of memory outside it, the outcome is the same
but for memory, and each byte of memory is afterwards either the same in both runs, or in both what it was before
(R102, R103). -/
def Obligations.CommandsReadOnlyTheirSource : Prop :=
  ∀ (i : Instr) (s : State) (m : Memory),
    (usesSrc i = true → ∀ a, s.latch.srcAddr.toNat ≤ a → a < s.latch.srcAddr.toNat + s.latch.srcLen.toNat →
      m.read a = s.mem.read a) →
    mapNext State.noMem (exec i { s with mem := m }) = mapNext State.noMem (exec i s) ∧
    ∀ t t' : State, exec i s = .next t → exec i { s with mem := m } = .next t' → ∀ a,
      t'.mem.read a = t.mem.read a ∨ (t.mem.read a = s.mem.read a ∧ t'.mem.read a = m.read a)

/-- The pre-checks of R288, steps 2 to 5: the first that applies is the error reported, with nothing read or written; and
where none applies, none of NOT_READY, RANGE and OVERLAP is reported. No other agent has broken a duty of R115. For FSTORE,
PACK and UNPACK, that memory is as it was takes R288 ("write nothing"; so R177, and 95_test_vectors.md V-FS2 and P3)
beside R287, of whose two possible values of a byte only the old one is then left; log entry 4 says so. -/
def Obligations.PreChecksReportTheFirstError : Prop :=
  ∀ (i : Instr) (s : State), s.raced = false →
    (∀ e info, preError i s = some (e, info) →
      ∃ t, exec i s = .next t ∧ CompletedErr t e info ∧ SameTables s t ∧ SameHost s t ∧ t.mem = s.mem) ∧
    (preError i s = none → ∀ t, exec i s = .next t →
      t.err ≠ .notReady ∧ t.err ≠ .range ∧ t.err ≠ .overlap)

/-- After FSTORE, PACK or UNPACK completes with an error, no byte outside the destination buffer has changed, and either
nothing was written (R288, steps 1 to 5) or every byte of the buffer holds an unspecified value, the free value of one draw
made by this command (R287; the form of the free value is log entries 3 and 4). The premise on NSYM is R65, kept by every step. -/
def Obligations.FailedOutputIsUnspecified : Prop :=
  ∀ (i : Instr) (s t : State), s.nsym.toNat = symbolCount s.freq → usesDst i = true → exec i s = .next t →
    t.err ≠ .none →
    t.resLen = 0 ∧
    SameMemOutside s t s.latch.dstAddr.toNat (s.latch.dstAddr.toNat + s.latch.dstCap.toNat) ∧
    (t.mem = s.mem ∨
      ∃ d, s.draws ≤ d ∧ d < t.draws ∧ ∀ a, s.latch.dstAddr.toNat ≤ a →
        a < s.latch.dstAddr.toNat + s.latch.dstCap.toNat → a < 2 ^ 32 → t.mem.read a = Config.freeByte d a)

/-- The machine never faults, and refuses only a command with a buffer byte in a device region (R110). -/
def Obligations.RefusesOnlyBuffersOnDevices : Prop :=
  ∀ s : State, (∀ r, step s ≠ .fault r) ∧
    ∀ r, step s = .refused r → r = .deviceBuffer ∧
      ∃ d ∈ s.platform.devices, ∃ a, d.base ≤ a ∧ a < d.base + d.size ∧
        ((s.latch.srcAddr.toNat ≤ a ∧ a < s.latch.srcAddr.toNat + s.latch.srcLen.toNat) ∨
          (s.latch.dstAddr.toNat ≤ a ∧ a < s.latch.dstAddr.toNat + s.latch.dstCap.toNat))

/-! ### NOP and CLEAR -/

/-- R260: NOP completes with ERR and the results 0 and changes nothing else; it raises the interrupt when IE is 1; a word
with OPC 0x00 and anything else set is illegal. -/
def Obligations.NopOnlyCompletes : Prop :=
  decodeWord 0x00000000 = some .nop ∧
  (∀ w : Word, w.toNat % 256 = 0 → w ≠ 0 → decodeWord w = none) ∧
  (∀ s : State, ∃ t, exec .nop s = .next t ∧ CompletedOk t 0 0 0 ∧ SameTables s t ∧ SameHost s t ∧
    t.mem = s.mem ∧ t.irq = s.ie)

/-- R261: CLEAR puts the tables at their reset values, with EMPTY 1, and touches nothing else; a malformed word is
illegal. -/
def Obligations.ClearDiscardsTheTables : Prop :=
  decodeWord 0x00000008 = some .clear ∧
  (∀ w : Word, w.toNat % 256 = 8 → w ≠ 0x00000008 → decodeWord w = none) ∧
  (∀ s : State, ∃ t, exec .clear s = .next t ∧ CompletedOk t 0 0 0 ∧ SameTables State.reset t ∧
    NoTreeNoCodes t ∧ (∀ x, tableGet t.freq x = 0) ∧ t.nsym = 0 ∧ t.isEmpty = true ∧ SameHost s t ∧
    t.mem = s.mem)

/-! ### The frequency counter -/

/-- FCOUNT completes, with each symbol's count the number of its occurrences in the source buffer, NSYM the number of
symbols that occur, the tree and the codes discarded, RES_LEN = SRC_LEN, and nothing else changed (R171). -/
def Obligations.FcountCountsTheSource : Prop :=
  ∀ s : State, s.SrcFits → s.srcOnDevice = false → s.raced = false → s.SrcReadable s.latch.srcLen.toNat →
    ∃ t, exec .fcount s = .next t ∧ CompletedOk t s.latch.srcLen 0 0 ∧
      (∀ x, (tableGet t.freq x).toNat = s.sourceBytes.count x) ∧
      t.nsym.toNat = s.sourceBytes.dedup.length ∧ (t.isEmpty = true ↔ s.latch.srcLen = 0) ∧
      NoTreeNoCodes t ∧ SameHost s t ∧ t.mem = s.mem

/-- R172: FCOUNT's result depends only on how often each byte value occurs in the source buffer, not on the order. -/
def Obligations.FcountIgnoresTheOrder : Prop :=
  ∀ s₁ s₂ t₁ t₂ : State, s₁.raced = false → s₂.raced = false → s₁.sourceBytes.Perm s₂.sourceBytes →
    exec .fcount s₁ = .next t₁ → exec .fcount s₂ = .next t₂ → t₁.err = .none → t₂.err = .none →
    SameTables t₁ t₂ ∧ t₁.resLen = t₂.resLen

/-- FCOUNT stops at the first failing read of the source buffer with BUS and its address, and leaves every table
(R105, R171). -/
def Obligations.FcountStopsAtTheFirstFailingRead : Prop :=
  ∀ (s : State) (k : Nat), s.SrcFits → s.srcOnDevice = false → k < s.latch.srcLen.toNat → s.SrcReadable k →
    s.platform.memFault (BitVec.ofNat 32 (s.latch.srcAddr.toNat + k)) .read = true →
    ∃ t, exec .fcount s = .next t ∧
      CompletedErr t .bus (BitVec.ofNat 32 (s.latch.srcAddr.toNat + k)) ∧ SameTables s t ∧ SameHost s t ∧
      t.mem = s.mem

/-- FLOAD of a well-formed frequency section, its records in any order, gives each recorded symbol its frequency and every
other symbol 0, with NSYM = N and RES_LEN = 4 + 5N; bytes after the section are not looked at (R173, R175). -/
def Obligations.FloadLoadsTheSection : Prop :=
  ∀ (s : State) (records : List (Byte × Word)) (rest : List Byte),
    s.SrcFits → s.srcOnDevice = false → s.raced = false → s.SrcReadable (4 + 5 * records.length) →
    s.sourceBytes = beBytes (BitVec.ofNat 32 records.length) ++
      records.flatMap (fun r => r.1 :: beBytes r.2) ++ rest →
    (records.map Prod.fst).Nodup → (∀ r ∈ records, r.2 ≠ 0) →
    ∃ t, exec .fload s = .next t ∧ CompletedOk t (BitVec.ofNat 32 (4 + 5 * records.length)) 0 0 ∧
      (∀ r ∈ records, tableGet t.freq r.1 = r.2) ∧
      (∀ x, x ∉ records.map Prod.fst → tableGet t.freq x = 0) ∧
      t.nsym.toNat = records.length ∧ (t.isEmpty = true ↔ records = []) ∧ NoTreeNoCodes t ∧ SameHost s t ∧
      t.mem = s.mem

/-- FLOAD refuses a section whose declared count is above 256 or does not fit the source length, with MALFORMED(0)
(R175). -/
def Obligations.FloadRefusesABadCount : Prop :=
  ∀ (s : State) (n : Word) (rest : List Byte), s.SrcFits → s.srcOnDevice = false → s.raced = false →
    s.SrcReadable 4 → s.sourceBytes = beBytes n ++ rest →
    (n.toNat > 256 ∨ s.latch.srcLen.toNat < 4 + 5 * n.toNat) →
    ∃ t, exec .fload s = .next t ∧ CompletedErr t .malformed 0 ∧ SameTables s t ∧ SameHost s t ∧ t.mem = s.mem

/-- FLOAD refuses the first record that repeats an earlier record's symbol, with MALFORMED(4 + 5i), or whose frequency is
0, with MALFORMED(4 + 5i + 1); a record with both is reported as the repeated symbol (R175). -/
def Obligations.FloadRefusesTheFirstBadRecord : Prop :=
  ∀ (s : State) (n : Nat) (good : List (Byte × Word)) (x : Byte) (f : Word) (rest : List Byte),
    s.SrcFits → s.srcOnDevice = false → s.raced = false → n ≤ 256 → 4 + 5 * n ≤ s.latch.srcLen.toNat →
    good.length < n → s.SrcReadable (4 + 5 * n) →
    s.sourceBytes = beBytes (BitVec.ofNat 32 n) ++ good.flatMap (fun r => r.1 :: beBytes r.2) ++
      (x :: beBytes f) ++ rest →
    (good.map Prod.fst).Nodup → (∀ r ∈ good, r.2 ≠ 0) →
    (x ∈ good.map Prod.fst →
      ∃ t, exec .fload s = .next t ∧ CompletedErr t .malformed (BitVec.ofNat 32 (4 + 5 * good.length)) ∧
        SameTables s t ∧ SameHost s t ∧ t.mem = s.mem) ∧
    (x ∉ good.map Prod.fst → f = 0 →
      ∃ t, exec .fload s = .next t ∧ CompletedErr t .malformed (BitVec.ofNat 32 (4 + 5 * good.length + 1)) ∧
        SameTables s t ∧ SameHost s t ∧ t.mem = s.mem)

/-- FSTORE writes the frequency section of FREQ, the records by ascending symbol, to the first 4 + 5N bytes of the
destination buffer and no other byte, and reports its length (R173, R177). NSYM is the number of symbols with a count
(R65, `InvariantHoldsAtReset` and `EveryStepKeepsTheInvariant`). -/
def Obligations.FstoreWritesTheSection : Prop :=
  ∀ s : State, s.nsym.toNat = symbolCount s.freq → s.DstFits → s.dstOnDevice = false → s.raced = false →
    (freqSection s.freq).length ≤ s.latch.dstCap.toNat → s.DstWritable (freqSection s.freq).length →
    (freqSection s.freq).length = 4 + 5 * symbolCount s.freq ∧
    ∃ t, exec .fstore s = .next t ∧ CompletedOk t (BitVec.ofNat 32 (freqSection s.freq).length) 0 0 ∧
      bytesAt t.mem s.latch.dstAddr.toNat (freqSection s.freq).length = freqSection s.freq ∧
      SameMemOutside s t s.latch.dstAddr.toNat (s.latch.dstAddr.toNat + (freqSection s.freq).length) ∧
      SameTables s t ∧ SameHost s t

/-- R176: FLOAD of a section FSTORE wrote gives the table back, and TBUILD after it builds the tree TBUILD builds from the
original table. -/
def Obligations.FloadAfterFstoreGivesTheTableBack : Prop :=
  ∀ s t u v : State, s.nsym.toNat = symbolCount s.freq → s.raced = false → u.raced = false →
    exec .fstore s = .next t → t.err = .none →
    t.resLen.toNat ≤ u.latch.srcLen.toNat →
    u.sourceBytes.take t.resLen.toNat = bytesAt t.mem s.latch.dstAddr.toNat t.resLen.toNat →
    exec .fload u = .next v → v.err ≠ .bus → v.err ≠ .range →
    v.err = .none ∧ v.freq = s.freq ∧ v.nsym = s.nsym ∧
    ∀ w x : State, exec .tbuild v = .next w → exec .tbuild s = .next x → w.nodes = x.nodes ∧ w.nnode = x.nnode

/-! ### The tree builder -/

/-- TBUILD completes from every state, with NNODE 0 for the empty table and 2*NSYM - 1 otherwise, every entry from NNODE
on all-zero, TREE_VALID 1, the code table emptied, and nothing else changed (R72, R191). -/
def Obligations.TbuildCompletes : Prop :=
  ∀ s : State, ∃ t, exec .tbuild s = .next t ∧ CompletedOk t 0 0 0 ∧
    t.nnode.toNat = (if symbolCount s.freq = 0 then 0 else 2 * symbolCount s.freq - 1) ∧
    (∀ i, t.nnode.toNat ≤ i → nodeAt t.nodes i = Node.zero) ∧
    (∀ i, i < t.nnode.toNat → (nodeAt t.nodes i).valid = true) ∧
    t.treeValid = true ∧ t.codeValid = false ∧ t.codes = CodeTable.empty ∧ t.freq = s.freq ∧ t.nsym = s.nsym ∧
    SameHost s t ∧ t.mem = s.mem

/-- R192, leaves: leaf k is the k-th smallest symbol with a count, with its frequency as weight. -/
def Obligations.TbuildPlacesTheLeavesInOrder : Prop :=
  ∀ (s t : State) (x : Byte), exec .tbuild s = .next t → tableGet s.freq x ≠ 0 →
    nodeAt t.nodes ((List.range x.toNat).countP fun y => tableGet s.freq (BitVec.ofNat 8 y) != 0) =
      Node.leaf x ((tableGet s.freq x).setWidth 64)

/-- R193, R194: merge j makes node n + j of the two least nodes of the queue by (weight, index); the first extracted, the
lower key, is the left child and the second the right child. -/
def Obligations.EachMergeTakesTheTwoLeastNodes : Prop :=
  ∀ (s t : State) (j : Nat), exec .tbuild s = .next t → j + 1 < symbolCount s.freq →
    let n := symbolCount s.freq
    ∃ a b, waiting t.nodes n j a ∧ waiting t.nodes n j b ∧ a ≠ b ∧
      (∀ q, waiting t.nodes n j q → q ≠ a → keyBefore t.nodes a q) ∧
      (∀ q, waiting t.nodes n j q → q ≠ a → q ≠ b → keyBefore t.nodes b q) ∧
      nodeAt t.nodes (n + j) = Node.inner ((nodeAt t.nodes a).weight + (nodeAt t.nodes b).weight) a b

/-- R197: the properties of every tree TBUILD builds. -/
def Obligations.EveryTreeIsAFullTreeOfItsSymbols : Prop :=
  ∀ s t : State, exec .tbuild s = .next t → symbolCount s.freq ≥ 1 →
    let n := symbolCount s.freq
    let leaf := fun i => i < 2 * n - 1 ∧ (nodeAt t.nodes i).internal = false
    let inner := fun i => i < 2 * n - 1 ∧ (nodeAt t.nodes i).internal = true
    ((List.range (2 * n - 1)).countP fun i => !(nodeAt t.nodes i).internal) = n ∧
    ((List.range (2 * n - 1)).countP fun i => (nodeAt t.nodes i).internal) = n - 1 ∧
    (∀ x, tableGet s.freq x ≠ 0 → ∃ i, leaf i ∧ (nodeAt t.nodes i).sym = x) ∧
    (∀ i, leaf i → tableGet s.freq (nodeAt t.nodes i).sym ≠ 0) ∧
    (∀ i j, leaf i → leaf j → (nodeAt t.nodes i).sym = (nodeAt t.nodes j).sym → i = j) ∧
    (∀ i, inner i → (nodeAt t.nodes i).left ≠ (nodeAt t.nodes i).right) ∧
    (∀ i, inner i → (nodeAt t.nodes i).left.toNat < i ∧ (nodeAt t.nodes i).right.toNat < i) ∧
    (∀ i, i < 2 * n - 2 → ∃ p, inner p ∧ isChild t.nodes p i ∧ ∀ q, inner q → isChild t.nodes q i → q = p) ∧
    t.root = 2 * n - 2 ∧
    (∀ i, inner i → (nodeAt t.nodes i).weight.toNat =
      (nodeAt t.nodes (nodeAt t.nodes i).left.toNat).weight.toNat +
        (nodeAt t.nodes (nodeAt t.nodes i).right.toNat).weight.toNat) ∧
    (nodeAt t.nodes t.root).weight.toNat = (s.freq.toList.map BitVec.toNat).sum ∧
    (∀ i j, inner i → inner j → i ≤ j → (nodeAt t.nodes i).weight.toNat ≤ (nodeAt t.nodes j).weight.toNat) ∧
    (∀ s' t' : State, s'.freq = s.freq → exec .tbuild s' = .next t' → t'.nodes = t.nodes ∧ t'.nnode = t.nnode)

/-- One distinct symbol gives its single leaf as the root (R195), and CTGEN the code "0" (R211); the empty table gives the
empty tree, valid, with no error (R196), and CTGEN the empty code table (R211; 90_conflicts.md C1, C4). -/
def Obligations.DegenerateTables : Prop :=
  (∀ (s : State) (x : Byte), tableGet s.freq x ≠ 0 → (∀ y, y ≠ x → tableGet s.freq y = 0) →
    ∃ t, exec .tbuild s = .next t ∧ t.err = .none ∧ t.treeValid = true ∧ t.nnode = 1 ∧ t.root = 0 ∧
      nodeAt t.nodes 0 = Node.leaf x ((tableGet s.freq x).setWidth 64) ∧
      (∀ i, 1 ≤ i → nodeAt t.nodes i = Node.zero) ∧
      ∃ u, exec .ctgen t = .next u ∧ u.err = .none ∧ tableGet u.codes x = [false] ∧
        ∀ y, y ≠ x → tableGet u.codes y = []) ∧
  (∀ s : State, (∀ y, tableGet s.freq y = 0) → s.nsym = 0 →
    ∃ t, exec .tbuild s = .next t ∧ t.err = .none ∧ t.treeValid = true ∧ t.nnode = 0 ∧
      t.nodes = NodeStore.empty ∧ t.isEmpty = true ∧
      ∃ u, exec .ctgen t = .next u ∧ u.err = .none ∧ u.codeValid = true ∧ u.codes = CodeTable.empty)

/-! ### The code-table generator -/

/-- CTGEN completes whenever the tree is valid, sets CODE_VALID, writes the code table and changes nothing else (R211). -/
def Obligations.CtgenCompletesOnAValidTree : Prop :=
  ∀ s : State, s.treeValid = true →
    ∃ t, exec .ctgen s = .next t ∧ CompletedOk t 0 0 0 ∧ t.codeValid = true ∧
      t.codes = codesOf s.nodes s.nnode.toNat ∧
      t.freq = s.freq ∧ t.nsym = s.nsym ∧ t.nodes = s.nodes ∧ t.nnode = s.nnode ∧ t.treeValid = s.treeValid ∧
      SameHost s t ∧ t.mem = s.mem

/-- In a state of the invariant with a valid tree, CTGEN gives a code to exactly the symbols with a count; the code is "0"
for a leaf root, and otherwise the path from the root to the symbol's leaf (R210, R211, R212). -/
def Obligations.CodesArePathsToLeaves : Prop :=
  ∀ s t : State, s.Inv → s.treeValid = true → exec .ctgen s = .next t →
    ∀ x : Byte,
      (tableGet s.freq x = 0 → tableGet t.codes x = []) ∧
      (tableGet s.freq x ≠ 0 → tableGet t.codes x ≠ [] ∧ (tableGet t.codes x).length ≤ 255 ∧
        (symbolCount s.freq = 1 → tableGet t.codes x = [false]) ∧
        (symbolCount s.freq ≥ 2 → ∃ l, descend s.nodes s.root (tableGet t.codes x) = some l ∧
          (nodeAt s.nodes l).internal = false ∧ (nodeAt s.nodes l).sym = x))

/-- No code is the start of another symbol's code, so the codes are all different (R75, R212). -/
def Obligations.CodesAreFreeOfCommonStarts : Prop :=
  ∀ s : State, s.Inv → s.codeValid = true → ∀ x y : Byte, x ≠ y →
    tableGet s.freq x ≠ 0 → tableGet s.freq y ≠ 0 →
    ¬ (tableGet s.codes x).IsPrefix (tableGet s.codes y)

/-- The Kraft sum of the code table is 1 for two symbols or more and 1/2 for one (R212), in units of 2^-255. -/
def Obligations.KraftSumOfTheCodeTable : Prop :=
  ∀ s : State, s.Inv → s.codeValid = true →
    let kraft := ((s.codes.toList.filter fun c => !c.isEmpty).map fun c => 2 ^ (255 - c.length)).sum
    (symbolCount s.freq ≥ 2 → kraft = 2 ^ 255) ∧ (symbolCount s.freq = 1 → kraft = 2 ^ 254)

/-! ### The bit packer -/

/-- PACK completes and writes the payload of the source's code bits, in input order and most significant bit first with
zero bits on the right, to the first bytes of the destination buffer and no other byte; it reports their number, the
padding count and the bit count, and changes nothing else (R225 to R229). -/
def Obligations.PackWritesThePayload : Prop :=
  ∀ s : State, s.codeValid = true → s.SrcFits → s.DstFits → s.BuffersApart → s.srcOnDevice = false →
    s.dstOnDevice = false → s.raced = false → s.SrcReadable s.latch.srcLen.toNat →
    (∀ x ∈ s.sourceBytes, tableGet s.codes x ≠ []) →
    let bits := codeStream s.codes s.sourceBytes
    let len := (bits.length + 7) / 8
    len ≤ s.latch.dstCap.toNat → s.DstWritable len →
    ∃ t, exec .pack s = .next t ∧
      CompletedOk t (BitVec.ofNat 32 len) (BitVec.ofNat 3 (8 * len - bits.length)) (BitVec.ofNat 64 bits.length) ∧
      bytesAt t.mem s.latch.dstAddr.toNat len = payloadOf bits ∧
      SameMemOutside s t s.latch.dstAddr.toNat (s.latch.dstAddr.toNat + len) ∧ SameTables s t ∧ SameHost s t

/-- PACK stops at the first source byte without a code with NO_CODE and its offset (R227), when what comes before it fits
and no access fails. -/
def Obligations.PackStopsAtAByteWithoutACode : Prop :=
  ∀ (s : State) (k : Nat) (x : Byte), s.codeValid = true → s.SrcFits → s.DstFits → s.BuffersApart →
    s.srcOnDevice = false → s.dstOnDevice = false → s.raced = false → s.SrcReadable (k + 1) →
    s.sourceBytes[k]? = some x → tableGet s.codes x = [] →
    (∀ y ∈ s.sourceBytes.take k, tableGet s.codes y ≠ []) →
    (codeStream s.codes (s.sourceBytes.take k)).length / 8 ≤ s.latch.dstCap.toNat →
    s.DstWritable ((codeStream s.codes (s.sourceBytes.take k)).length / 8) →
    ∃ t, exec .pack s = .next t ∧ CompletedErr t .noCode (BitVec.ofNat 32 k) ∧ SameTables s t ∧ SameHost s t ∧
      SameMemOutside s t s.latch.dstAddr.toNat (s.latch.dstAddr.toNat + s.latch.dstCap.toNat)

/-- When FREQ counts the source buffer, RES_BITS after PACK is the sum over the symbols of FREQ[s] * CODE_LEN[s] (first
sentence of R230). -/
def Obligations.PackedBitsAreTheWeightedCodeLengths : Prop :=
  ∀ s t : State, s.raced = false → (∀ x, (tableGet s.freq x).toNat = s.sourceBytes.count x) →
    exec .pack s = .next t → t.err = .none →
    t.resBits = BitVec.ofNat 64 (((List.range 256).map fun x =>
      (tableGet s.freq (BitVec.ofNat 8 x)).toNat * (tableGet s.codes (BitVec.ofNat 8 x)).length).sum)

/-! ### The bit unpacker -/

/-- UNPACK of a payload whose meaningful bits are the codes of `xs`, one after the other, completes and writes `xs` to the
destination buffer and no other byte, reports its length and the bit count, and changes nothing else. The codes are those
CTGEN gives for the tree (R240 to R243, R247). -/
def Obligations.UnpackDecodesTheCodeStream : Prop :=
  ∀ (s : State) (pad : BitVec 3) (xs : List Byte), s.treeValid = true → s.SrcFits → s.DstFits → s.BuffersApart →
    s.srcOnDevice = false → s.dstOnDevice = false → s.raced = false → s.SrcReadable s.latch.srcLen.toNat →
    (s.latch.srcLen = 0 → pad = 0) →
    (∀ x ∈ xs, tableGet (codesOf s.nodes s.nnode.toNat) x ≠ []) →
    streamOf s.sourceBytes pad.toNat = codeStream (codesOf s.nodes s.nnode.toNat) xs →
    xs.length ≤ s.latch.dstCap.toNat → s.DstWritable xs.length →
    ∃ t, exec (.unpack pad) s = .next t ∧
      CompletedOk t (BitVec.ofNat 32 xs.length) 0 (BitVec.ofNat 64 (8 * s.latch.srcLen.toNat - pad.toNat)) ∧
      bytesAt t.mem s.latch.dstAddr.toNat xs.length = xs ∧
      SameMemOutside s t s.latch.dstAddr.toNat (s.latch.dstAddr.toNat + xs.length) ∧ SameTables s t ∧ SameHost s t

/-- UNPACK of a stream that ends inside a code raises TRUNCATED with the position of that code's first bit (R246). -/
def Obligations.UnpackReportsAStreamCutInsideACode : Prop :=
  ∀ (s : State) (pad : BitVec 3) (xs : List Byte) (cut : List Bool) (i : Nat), s.treeValid = true → s.SrcFits →
    s.DstFits → s.BuffersApart → s.srcOnDevice = false → s.dstOnDevice = false → s.raced = false →
    s.SrcReadable s.latch.srcLen.toNat → s.nnode.toNat > 1 →
    (∀ x ∈ xs, tableGet (codesOf s.nodes s.nnode.toNat) x ≠ []) →
    streamOf s.sourceBytes pad.toNat = codeStream (codesOf s.nodes s.nnode.toNat) xs ++ cut →
    descend s.nodes s.root cut = some i → i ≠ s.root → (nodeAt s.nodes i).internal = true →
    xs.length ≤ s.latch.dstCap.toNat → s.DstWritable xs.length →
    ∃ t, exec (.unpack pad) s = .next t ∧
      CompletedErr t .truncated
        (BitVec.ofNat 32 (codeStream (codesOf s.nodes s.nnode.toNat) xs).length) ∧
      SameTables s t ∧ SameHost s t ∧
      SameMemOutside s t s.latch.dstAddr.toNat (s.latch.dstAddr.toNat + s.latch.dstCap.toNat)

/-- R247: with a leaf root the only code is "0"; each stream bit 0 decodes to one copy of the symbol, and a stream bit 1 raises
TRUNCATED with its position. -/
def Obligations.LeafRootDecodesZerosOnly : Prop :=
  ∀ (s : State) (pad : BitVec 3), s.treeValid = true → s.nnode = 1 → s.SrcFits → s.DstFits → s.BuffersApart →
    s.srcOnDevice = false → s.dstOnDevice = false → s.raced = false → s.SrcReadable s.latch.srcLen.toNat →
    (s.latch.srcLen = 0 → pad = 0) →
    (∀ x, tableGet (codesOf s.nodes 1) x = if x = (nodeAt s.nodes 0).sym then [false] else []) ∧
    (∀ k, streamOf s.sourceBytes pad.toNat = List.replicate k false → k ≤ s.latch.dstCap.toNat → s.DstWritable k →
      ∃ t, exec (.unpack pad) s = .next t ∧ CompletedOk t (BitVec.ofNat 32 k) 0 (BitVec.ofNat 64 k) ∧
        bytesAt t.mem s.latch.dstAddr.toNat k = List.replicate k (nodeAt s.nodes 0).sym ∧ SameTables s t) ∧
    (∀ k rest, streamOf s.sourceBytes pad.toNat = List.replicate k false ++ true :: rest →
      k ≤ s.latch.dstCap.toNat → s.DstWritable k →
      ∃ t, exec (.unpack pad) s = .next t ∧ CompletedErr t .truncated (BitVec.ofNat 32 k) ∧ SameTables s t)

/-- R248: UNPACK does not read the dropped padding bits: a payload that differs only in them decodes exactly alike. -/
def Obligations.UnpackIgnoresThePaddingBits : Prop :=
  ∀ (s : State) (m : Memory) (pad : BitVec 3),
    let last := s.latch.srcAddr.toNat + s.latch.srcLen.toNat - 1
    (∀ a, a ≠ last → m.read a = s.mem.read a) →
    (∀ k, pad.toNat ≤ k → (m.read last).getLsbD k = (s.mem.read last).getLsbD k) →
    s.latch.srcLen ≠ 0 →
    mapNext State.noMem (exec (.unpack pad) { s with mem := m }) = mapNext State.noMem (exec (.unpack pad) s) ∧
    ∀ t t' : State, exec (.unpack pad) s = .next t → exec (.unpack pad) { s with mem := m } = .next t' →
      ∀ a, a ≠ last → t'.mem.read a = t.mem.read a

/-- PACK and UNPACK whose output needs one byte more than DST_CAP, or more, end with DST_OVERFLOW(DST_CAP) and write no byte
at or beyond DST_ADDR + DST_CAP (R58, R227, R243), when no access fails before it. -/
def Obligations.OutputBeyondTheCapacityOverflows : Prop :=
  (∀ s : State, s.codeValid = true → s.SrcFits → s.DstFits → s.BuffersApart → s.srcOnDevice = false →
    s.dstOnDevice = false → s.raced = false → s.SrcReadable s.latch.srcLen.toNat →
    (∀ x ∈ s.sourceBytes, tableGet s.codes x ≠ []) →
    s.latch.dstCap.toNat < ((codeStream s.codes s.sourceBytes).length + 7) / 8 → s.DstWritable s.latch.dstCap.toNat →
    ∃ t, exec .pack s = .next t ∧ CompletedErr t .dstOverflow s.latch.dstCap ∧ SameTables s t ∧ SameHost s t ∧
      SameMemOutside s t s.latch.dstAddr.toNat (s.latch.dstAddr.toNat + s.latch.dstCap.toNat)) ∧
  (∀ (s : State) (pad : BitVec 3) (xs : List Byte) (rest : List Bool), s.treeValid = true → s.SrcFits → s.DstFits →
    s.BuffersApart → s.srcOnDevice = false → s.dstOnDevice = false → s.raced = false →
    s.SrcReadable s.latch.srcLen.toNat → (∀ x ∈ xs, tableGet (codesOf s.nodes s.nnode.toNat) x ≠ []) →
    streamOf s.sourceBytes pad.toNat = codeStream (codesOf s.nodes s.nnode.toNat) xs ++ rest →
    s.latch.dstCap.toNat < xs.length → s.DstWritable s.latch.dstCap.toNat →
    ∃ t, exec (.unpack pad) s = .next t ∧ CompletedErr t .dstOverflow s.latch.dstCap ∧ SameTables s t ∧
      SameHost s t ∧ SameMemOutside s t s.latch.dstAddr.toNat (s.latch.dstAddr.toNat + s.latch.dstCap.toNat))

/-! ### The whole codec -/

/-- R244: the round trip. FCOUNT, TBUILD, CTGEN and PACK of a byte sequence, FSTORE of the table, then FLOAD of that
section, TBUILD, and UNPACK of the payload with the reported padding count, give the byte sequence back, when no BUS error
occurs and the buffers suffice; the section buffer leaves the payload alone. -/
def Obligations.RoundTripGivesTheInputBack : Prop :=
  ∀ (s t₁ t₂ t₃ t₄ t₅ t₆ t₇ t₈ : State) (src n pay payCap sec secCap out outCap : Word),
    exec .fcount (s.issue .fcount src n pay payCap) = .next t₁ →
    exec .tbuild (t₁.issue .tbuild src n pay payCap) = .next t₂ →
    exec .ctgen (t₂.issue .ctgen src n pay payCap) = .next t₃ →
    exec .pack (t₃.issue .pack src n pay payCap) = .next t₄ →
    exec .fstore (t₄.issue .fstore src n sec secCap) = .next t₅ →
    exec .fload (t₅.issue .fload sec t₅.resLen out outCap) = .next t₆ →
    exec .tbuild (t₆.issue .tbuild pay t₄.resLen out outCap) = .next t₇ →
    exec (.unpack t₄.resPad) (t₇.issue (.unpack t₄.resPad) pay t₄.resLen out outCap) = .next t₈ →
    NoBufferError t₁ → NoBufferError t₄ → NoBufferError t₅ → NoBufferError t₆ → NoBufferError t₈ →
    (sec.toNat + secCap.toNat ≤ pay.toNat ∨ pay.toNat + payCap.toNat ≤ sec.toNat) →
    t₄.err = .none ∧ t₈.err = .none ∧ t₈.resLen = n ∧
      bytesAt t₈.mem out.toNat n.toNat = bytesAt s.mem src.toNat n.toNat

/-! ### The invariant and the engine -/

/-- The invariant holds at reset. -/
def Obligations.InvariantHoldsAtReset : Prop := State.reset.Inv

/-- The invariant is kept by every step, from every state that meets it: memory's canonical form, NSYM the count of FREQ
(R65), the validity flags and what they say of the node store and the code table (R78, R79). -/
def Obligations.EveryStepKeepsTheInvariant : Prop :=
  ∀ s t : State, s.Inv → step s = .next t → t.Inv

/-- Every accepted command completes after a finite number of engine steps, and the steps end as the run does (R275,
R340). -/
def Obligations.EngineStepsReachTheCompletion : Prop :=
  ∀ s : State, ∃ n, engineSteps n s = engineRun s

/-- What each command does to the validity flags (R78, the list of writers). -/
def Obligations.ValidityFlagsChangeAsListed : Prop :=
  ∀ (i : Instr) (s t : State), exec i s = .next t →
    (t.err ≠ .none → t.treeValid = s.treeValid ∧ t.codeValid = s.codeValid) ∧
    (t.err = .none →
      match i with
      | .tbuild => t.treeValid = true ∧ t.codeValid = false
      | .ctgen => t.treeValid = s.treeValid ∧ t.codeValid = true
      | .fcount | .fload | .clear => t.treeValid = false ∧ t.codeValid = false
      | .nop | .fstore | .pack | .unpack _ => t.treeValid = s.treeValid ∧ t.codeValid = s.codeValid)

/-! ### Registers, interrupt and reset -/

/-- R71, R74, R76, R77: what a 32-bit read of each window returns while the engine is idle. -/
def Obligations.WindowsShowTheTables : Prop :=
  ∀ (s : State) (x : Byte), s.busy = false →
    busRead (s.platform.hufBase + 0x400 + 4 * x.toNat) .b32 s = { s with resp := .data (tableGet s.freq x) } ∧
    ((tableGet s.codes x).length ≤ 255 →
      busRead (s.platform.hufBase + 0x800 + 4 * x.toNat) .b32 s =
        { s with resp := .data (BitVec.ofNat 32 (tableGet s.codes x).length) }) ∧
    (∀ k, k < 8 → ∃ w : Word,
      busRead (s.platform.hufBase + 0x1000 + 32 * x.toNat + 4 * k) .b32 s = { s with resp := .data w } ∧
      ∀ j, j < 32 → w.getLsbD (31 - j) = (tableGet s.codes x).getD (32 * k + j) false) ∧
    (∀ i, i ≤ 510 →
      busRead (s.platform.hufBase + 0x4000 + 16 * i) .b32 s = { s with resp := .data (BitVec.ofNat 32
        ((nodeAt s.nodes i).valid.toNat + 2 * (nodeAt s.nodes i).internal.toNat +
          2 ^ 8 * (nodeAt s.nodes i).sym.toNat)) } ∧
      busRead (s.platform.hufBase + 0x4000 + 16 * i + 4) .b32 s = { s with resp := .data (BitVec.ofNat 32
        ((nodeAt s.nodes i).left.toNat + 2 ^ 16 * (nodeAt s.nodes i).right.toNat)) } ∧
      busRead (s.platform.hufBase + 0x4000 + 16 * i + 8) .b32 s =
        { s with resp := .data (BitVec.ofNat 32 ((nodeAt s.nodes i).weight.toNat % 2 ^ 32)) } ∧
      busRead (s.platform.hufBase + 0x4000 + 16 * i + 12) .b32 s =
        { s with resp := .data (BitVec.ofNat 32 ((nodeAt s.nodes i).weight.toNat / 2 ^ 32)) })

/-- While BUSY, the result registers, NSYM, NNODE and the windows read as an unspecified value, and ID, CTRL, STATUS, CMD and
the argument registers read as usual (R69). That the unspecified value is `Config.freeWord` of the draw counter, which then
advances, is the model's choice of form (log entry 3). -/
def Obligations.ReadsWhileBusy : Prop :=
  ∀ (s : State), s.busy = true →
    (∀ off, off % 4 = 0 → (0x020 ≤ off ∧ off < 0x040) ∨ (0x400 ≤ off ∧ off < 0xC00) ∨
        (0x1000 ≤ off ∧ off < 0x3000) ∨ (0x4000 ≤ off ∧ off < 0x5FF0) →
      busRead (s.platform.hufBase + off) .b32 s =
        { s with resp := .data (Config.freeWord s.draws), draws := s.draws + 1 }) ∧
    (∀ r : RegName, r.offset < 0x020 → ∃ w, busRead (s.platform.hufBase + r.offset) .b32 s = { s with resp := .data w } ∧
      w = match r with
        | .ID => 0x48554631
        | .CTRL => s.ctrlWord
        | .STATUS => s.statusWord
        | .CMD => s.cmd
        | .SRC_ADDR => s.srcAddr
        | .SRC_LEN => s.srcLen
        | .DST_ADDR => s.dstAddr
        | .DST_CAP => s.dstCap
        | .ERR | .ERR_INFO | .RES_LEN | .RES_PAD | .RES_BITS_LO | .RES_BITS_HI | .NSYM | .NNODE => w)

/-- R67: a read of a reserved offset returns 0 and a write to it is ignored. -/
def Obligations.ReservedOffsetsReadZero : Prop :=
  ∀ (s : State) (off : Nat) (w : Word), off % 4 = 0 →
    (0x040 ≤ off ∧ off ≤ 0x3FC) ∨ (0xC00 ≤ off ∧ off ≤ 0xFFC) ∨ (0x3000 ≤ off ∧ off ≤ 0x3FFC) ∨
      (0x5FF0 ≤ off ∧ off ≤ 0x5FFC) →
    busRead (s.platform.hufBase + off) .b32 s = { s with resp := .data 0 } ∧
    busWrite (s.platform.hufBase + off) .b32 w s = { s with resp := .ok }

/-- Every access that is not 32 bits wide at a multiple of 4 gets an error response and has no effect (R68). -/
def Obligations.OtherAccessesAreErrors : Prop :=
  ∀ (s : State) (off : Nat) (size : AccessSize) (w : Word), off < 0x6000 → (size ≠ .b32 ∨ off % 4 ≠ 0) →
    busRead (s.platform.hufBase + off) size s = { s with resp := .error } ∧
    busWrite (s.platform.hufBase + off) size w s = { s with resp := .error }

/-- A read of STATUS at any time gives its seven bits and 0 above them, and a write clears DONE and OVR where it has a 1 and
does nothing else (R53, R80). -/
def Obligations.StatusBitsAndWrites : Prop :=
  ∀ (s : State) (w : Word),
    s.statusWord.toNat = s.busy.toNat + 2 * s.done.toNat + 4 * (decide (s.err ≠ .none)).toNat + 8 * s.ovr.toNat +
      16 * s.treeValid.toNat + 32 * s.codeValid.toNat + 64 * (decide (s.nsym = 0)).toNat ∧
    busRead (s.platform.hufBase + 0x008) .b32 s = { s with resp := .data s.statusWord } ∧
    busWrite (s.platform.hufBase + 0x008) .b32 w s =
      { s with done := s.done && !w.getLsbD 1, ovr := s.ovr && !w.getLsbD 3, resp := .ok }

/-- R290: IRQ is the level CTRL.IE AND STATUS.DONE; it rises at a completion when IE is 1, falls when 1 is written to DONE,
at an acceptance, when IE is written 0 and at reset, rises at once when IE is set while DONE is 1, and has no other
source: every step that raises it is a completion or a write of IE. -/
def Obligations.InterruptIsALevelOfDone : Prop :=
  (∀ s : State, s.irq = (s.ie && s.done)) ∧
  (∀ s t : State, s.busy = true → (engineRun s = .next t ∨ engineStep s = .next t) → t.busy = false → t.irq = s.ie) ∧
  (∀ (s : State) (w : Word), w.getLsbD 1 = true → (busWrite (s.platform.hufBase + 0x008) .b32 w s).irq = false) ∧
  (∀ (s : State) (w : Word), s.busy = false → (busWrite (s.platform.hufBase + 0x00C) .b32 w s).irq = false) ∧
  (∀ (s : State) (w : Word), w.getLsbD 0 = false → (busWrite (s.platform.hufBase + 0x004) .b32 w s).irq = false) ∧
  (∀ s : State, s.resetBlock.irq = false) ∧
  (∀ (s : State) (w : Word), w.getLsbD 0 = true → w.getLsbD 1 = false → s.done = true →
    (busWrite (s.platform.hufBase + 0x004) .b32 w s).irq = true) ∧
  (∀ s t : State, step s = .next t → s.irq = false → t.irq = true →
    (s.busy = true ∧ t.busy = false) ∨
    ∃ (w : Word) (rest : List Input), s.inputs = .busWrite (s.platform.hufBase + 0x004) .b32 w :: rest ∧
      w.getLsbD 0 = true)

/-- The reset input, and a write of 1 to CTRL.SRST whatever the other bits, put every piece of HUFFCORE's state at its reset
value, abort a running command with no completion, and leave unspecified bytes in its destination buffer (R320, R322). The
form of those bytes is log entries 3 and 4. That every other byte of memory, and what else of `State` is not HUFFCORE's,
stays as it was is the model's reading (log entry 7). -/
def Obligations.ResetPutsEveryRegister : Prop :=
  ∀ (s t : State) (rest : List Input),
    (s.inputs = .hardReset :: rest ∨
      ∃ w : Word, s.inputs = .busWrite (s.platform.hufBase + 0x004) .b32 w :: rest ∧ w.getLsbD 1 = true) →
    step s = .next t →
    t = { State.reset with mem := t.mem, draws := t.draws, platform := s.platform, inputs := rest, resp := t.resp } ∧
    t.irq = false ∧ t.busy = false ∧ t.done = false ∧ t.ctrlWord = 0 ∧
    (s.runningDst = false → t.mem = s.mem) ∧
    (s.runningDst = true →
      (∀ a, a < s.latch.dstAddr.toNat ∨ s.latch.dstAddr.toNat + s.latch.dstCap.toNat ≤ a →
        t.mem.read a = s.mem.read a) ∧
      (∀ a, s.latch.dstAddr.toNat ≤ a → a < s.latch.dstAddr.toNat + s.latch.dstCap.toNat → a < 2 ^ 32 →
        t.mem.read a = Config.freeByte s.draws a))

/-- R321: the state after reset is a valid empty configuration: the first TBUILD builds the empty tree, and CTGEN or PACK
before TBUILD raises NOT_READY. -/
def Obligations.ResetIsAValidEmptyConfiguration : Prop :=
  (∀ x, tableGet State.reset.freq x = 0) ∧ State.reset.statusWord = 0x00000040 ∧
  State.reset.isEmpty = true ∧ State.reset.treeValid = false ∧ State.reset.codeValid = false ∧
  (∃ t, exec .tbuild (State.reset.accept (encode .tbuild)) = .next t ∧ t.err = .none ∧ t.treeValid = true ∧
    t.nnode = 0 ∧ t.nodes = NodeStore.empty) ∧
  (∃ t, exec .ctgen (State.reset.accept (encode .ctgen)) = .next t ∧ CompletedErr t .notReady 0) ∧
  (∃ t, exec .pack (State.reset.accept (encode .pack)) = .next t ∧ CompletedErr t .notReady 0)

/-- While a command with a source buffer runs, another agent's write to it makes every source byte of the command's run any
value, and the destination bytes after the completion are any values: free values (R115; their form is log entry 3, and that the run is
counted from its start is log entry 6). -/
def Obligations.BrokenDutiesGiveAnyValues : Prop :=
  (∀ (s t : State) (a : Word) (v : Byte) (rest : List Input), s.inputs = .memWrite a v :: rest → step s = .next t →
    (s.inRunningSrc a.toNat = true ∨ s.inRunningDst a.toNat = true) → t.raced = true ∧ t.work = .accepted) ∧
  (∀ (s t : State) (a : Word) (rest : List Input), s.inputs = .memRead a :: rest → step s = .next t →
    s.inRunningDst a.toNat = true →
    t.raced = true ∧ t.work = .accepted ∧ t.resp = .byte (Config.freeByte s.draws a.toNat)) ∧
  (∀ (s : State) (a : Word) (p : Port), s.raced = true → s.platform.memFault a .read = false →
    memRead1 s a p = .ok (Config.freeByte p.draws a.toNat) { p with draws := p.draws + 1 }) ∧
  (∀ (i : Instr) (s t : State), usesDst i = true → s.raced = true → exec i s = .next t →
    ∃ d, s.draws ≤ d ∧ d < t.draws ∧ ∀ a, s.latch.dstAddr.toNat ≤ a →
      a < s.latch.dstAddr.toNat + s.latch.dstCap.toNat → a < 2 ^ 32 → t.mem.read a = Config.freeByte d a)

/-! ### Register accesses while idle -/

/-- What a 32-bit read of each register at 0x000 to 0x03C returns while the engine is idle, and that it changes no register
(R51 to R66; the error codes are those of R279). -/
def Obligations.RegistersReadTheirValues : Prop :=
  ∀ (s : State) (r : RegName), s.busy = false →
    ∃ w : Word, busRead (s.platform.hufBase + r.offset) .b32 s = { s with resp := .data w } ∧
      w.toNat = match r with
        | .ID => 0x48554631
        | .CTRL => s.ie.toNat
        | .STATUS => 2 * s.done.toNat + 4 * (decide (s.err ≠ .none)).toNat + 8 * s.ovr.toNat +
            16 * s.treeValid.toNat + 32 * s.codeValid.toNat + 64 * (decide (s.nsym = 0)).toNat
        | .CMD => s.cmd.toNat
        | .SRC_ADDR => s.srcAddr.toNat
        | .SRC_LEN => s.srcLen.toNat
        | .DST_ADDR => s.dstAddr.toNat
        | .DST_CAP => s.dstCap.toNat
        | .ERR => match s.err with
          | .none => 0x00
          | .illegalCmd => 0x01
          | .notReady => 0x02
          | .malformed => 0x03
          | .truncated => 0x04
          | .noCode => 0x05
          | .dstOverflow => 0x06
          | .range => 0x07
          | .overlap => 0x08
          | .bus => 0x09
        | .ERR_INFO => s.errInfo.toNat
        | .RES_LEN => s.resLen.toNat
        | .RES_PAD => s.resPad.toNat
        | .RES_BITS_LO => s.resBits.toNat % 2 ^ 32
        | .RES_BITS_HI => s.resBits.toNat / 2 ^ 32
        | .NSYM => s.nsym.toNat
        | .NNODE => s.nnode.toNat

/-- A write to a read-only register or to a word of a window is ignored and has no effect, while busy or idle (R50). -/
def Obligations.ReadOnlyOffsetsIgnoreWrites : Prop :=
  ∀ (s : State) (off : Nat) (w : Word), off % 4 = 0 →
    off = 0x000 ∨ (0x020 ≤ off ∧ off ≤ 0x03C) ∨ (0x400 ≤ off ∧ off ≤ 0xBFC) ∨ (0x1000 ≤ off ∧ off ≤ 0x2FFC) ∨
      (0x4000 ≤ off ∧ off ≤ 0x5FEC) →
    busWrite (s.platform.hufBase + off) .b32 w s = { s with resp := .ok }

/-- R52: CTRL reads IE in bit 0 and 0 in every other bit, 0 after reset; a write with SRST 0, whatever its other bits, sets IE
to bit 0 of the written value, at once and while busy or idle, and changes nothing else; a write with SRST 1 performs the
soft reset. -/
def Obligations.CtrlReadsAndWrites : Prop :=
  State.reset.ctrlWord = 0 ∧
  ∀ (s : State) (w : Word),
    busRead (s.platform.hufBase + 0x004) .b32 s = { s with resp := .data (BitVec.ofNat 32 s.ie.toNat) } ∧
    (w.getLsbD 1 = false →
      busWrite (s.platform.hufBase + 0x004) .b32 w s = { s with ie := w.getLsbD 0, resp := .ok }) ∧
    (w.getLsbD 1 = true →
      busWrite (s.platform.hufBase + 0x004) .b32 w s = { s.resetBlock with resp := .ok })
end

