-- ==== Sys2Proof/Laws/Memory.lean ====
section
/-! SUPPORT. The laws of system memory: what a byte reads as after a write and after a range becomes unspecified, and that
every operation keeps the canonical form. -/

namespace Sys2Proof.Machine

/-! ### Cells -/

@[simp] theorem lookupCell_insertCell (a b : Nat) (v : Byte) (cs : List Host.Cell) :
    lookupCell b (insertCell a v cs) = if b = a then some v else lookupCell b cs := by
  induction cs with
  | nil => simp [insertCell, lookupCell, eq_comm]
  | cons c cs ih =>
    unfold insertCell
    by_cases hb : b = a
    · subst hb
      split
      · simp [lookupCell]
      · split
        · simp [lookupCell]
        · next h => simp [lookupCell, ih, Ne.symm h]
    · have hab : ¬ a = b := fun h => hb h.symm
      split
      · simp [lookupCell, hab]
      · split
        · next h => simp [lookupCell, hab, ← h]
        · simp only [lookupCell, ih, if_neg hb]

theorem lookupCell_dropCells (lo hi b : Nat) (cs : List Host.Cell) :
    lookupCell b (dropCells lo hi cs) = if lo ≤ b ∧ b < hi then none else lookupCell b cs := by
  induction cs with
  | nil => simp [dropCells, lookupCell]
  | cons c cs ih =>
    unfold dropCells at ih ⊢
    rw [List.filter_cons]
    by_cases hin : lo ≤ b ∧ b < hi
    · rw [if_pos hin] at ih ⊢
      split
      · next h =>
        have hcb : ¬ c.1 = b := by simp at h; omega
        simp only [lookupCell, if_neg hcb, ih]
      · exact ih
    · rw [if_neg hin] at ih ⊢
      split
      · simp only [lookupCell, ih]
      · next h =>
        have hcb : ¬ c.1 = b := by simp at h; omega
        simp only [lookupCell, if_neg hcb, ih]

/-! ### Ranges of unspecified bytes -/

/-- The free draw an address takes its value from, if its byte is unspecified. -/
def Memory.drawAt (m : Memory) (a : Nat) : Option Nat :=
  (m.free.find? fun r => r.covers a).map FreeRegion.draw

theorem Memory.read_eq (m : Memory) (a : Nat) :
    m.read a = match m.drawAt a with
      | some d => Config.freeByte d a
      | none => (lookupCell a m.cells).getD (Memory.background a) := by
  unfold Memory.read Memory.drawAt
  cases m.free.find? fun r => r.covers a <;> rfl

theorem find_if_singleton {c : Prop} [Decidable c] (f : FreeRegion → Bool) (x : FreeRegion) :
    (if c then [x] else []).find? f = if c ∧ f x = true then some x else none := by
  by_cases hc : c <;> cases hx : f x <;> simp [hc, hx]

theorem carve_find (lo hi a : Nat) (h : lo < hi) (rs : List FreeRegion) :
    ((rs.flatMap (FreeRegion.carve lo hi)).find? fun r => r.covers a).map FreeRegion.draw =
      if lo ≤ a ∧ a < hi then none else (rs.find? fun r => r.covers a).map FreeRegion.draw := by
  induction rs with
  | nil => simp
  | cons r rs ih =>
    rw [List.flatMap_cons, List.find?_append]
    have key : ((FreeRegion.carve lo hi r).find? fun r => r.covers a).map FreeRegion.draw =
        if r.covers a ∧ ¬ (lo ≤ a ∧ a < hi) then some r.draw else none := by
      unfold FreeRegion.carve
      rw [List.find?_append, find_if_singleton, find_if_singleton]
      simp only [FreeRegion.covers, Bool.and_eq_true, decide_eq_true_eq]
      by_cases h1 : r.lo < min lo r.hi ∧ r.lo ≤ a ∧ a < min lo r.hi
      · rw [if_pos h1, if_pos (c := (r.lo ≤ a ∧ a < r.hi) ∧ ¬(lo ≤ a ∧ a < hi)) (by omega)]; rfl
      · rw [if_neg h1]
        by_cases h2 : max hi r.lo < r.hi ∧ max hi r.lo ≤ a ∧ a < r.hi
        · rw [if_pos h2, if_pos (c := (r.lo ≤ a ∧ a < r.hi) ∧ ¬(lo ≤ a ∧ a < hi)) (by omega)]; rfl
        · rw [if_neg h2, if_neg (c := (r.lo ≤ a ∧ a < r.hi) ∧ ¬(lo ≤ a ∧ a < hi)) (by omega)]; rfl
    cases hf : (FreeRegion.carve lo hi r).find? fun r => r.covers a with
    | some q =>
      rw [hf] at key
      simp only [Option.map_some] at key
      by_cases hc : r.covers a = true ∧ ¬ (lo ≤ a ∧ a < hi)
      · rw [if_pos hc] at key
        simp only [Option.some_or, Option.map_some, List.find?_cons, hc.1, if_neg hc.2]
        exact key
      · rw [if_neg hc] at key; cases key
    | none =>
      rw [hf] at key
      simp only [Option.none_or, ih, List.find?_cons]
      by_cases hin : lo ≤ a ∧ a < hi
      · simp [hin]
      · cases hr : r.covers a
        · rfl
        · rw [if_pos ⟨hr, hin⟩] at key; cases key

theorem insertRegion_find (r : FreeRegion) (a : Nat) (rs : List FreeRegion)
    (h : r.covers a = true → ∀ q ∈ rs, q.covers a = false) :
    ((insertRegion r rs).find? fun q => q.covers a).map FreeRegion.draw =
      if r.covers a then some r.draw else (rs.find? fun q => q.covers a).map FreeRegion.draw := by
  induction rs with
  | nil => cases hr : r.covers a <;> simp [insertRegion, hr]
  | cons q qs ih =>
    unfold insertRegion
    split
    · cases hr : r.covers a <;> simp [List.find?_cons, hr]
    · have ih' := ih fun hr q hq => h hr q (List.mem_cons_of_mem _ hq)
      cases hr : r.covers a
      · rw [hr] at ih'; cases hq : q.covers a <;> simp_all
      · have := h hr q (by simp)
        rw [hr] at ih'; simp_all

/-! ### Reading -/

theorem Memory.drawAt_write (m : Memory) (a b : Nat) (v : Byte) :
    (m.write a v).drawAt b = if b = a then none else m.drawAt b := by
  unfold Memory.drawAt Memory.write
  rw [carve_find a (a + 1) b (by omega)]
  by_cases h : b = a
  · simp [h]
  · rw [if_neg (by omega), if_neg h]

/-- A read gives the value last written. -/
@[simp] theorem Memory.read_write_same (m : Memory) (a : Nat) (v : Byte) : (m.write a v).read a = v := by
  rw [Memory.read_eq, Memory.drawAt_write, if_pos rfl]
  unfold Memory.write
  simp only
  split
  · next h => simp [lookupCell_dropCells, h]
  · simp

/-- A write leaves every other byte alone. -/
theorem Memory.read_write_other (m : Memory) {a b : Nat} (v : Byte) (h : b ≠ a) :
    (m.write a v).read b = m.read b := by
  rw [Memory.read_eq, Memory.read_eq, Memory.drawAt_write, if_neg h]
  have : lookupCell b (m.write a v).cells = lookupCell b m.cells := by
    unfold Memory.write
    simp only
    split
    · rw [lookupCell_dropCells, if_neg (by omega)]
    · rw [lookupCell_insertCell, if_neg h]
  rw [this]

theorem Memory.read_write (m : Memory) (a b : Nat) (v : Byte) :
    (m.write a v).read b = if b = a then v else m.read b := by
  split
  · next h => subst h; simp
  · next h => exact m.read_write_other v h

theorem Memory.drawAt_havoc (m : Memory) (lo hi draw a : Nat) :
    (m.havoc lo hi draw).drawAt a = if lo ≤ a ∧ a < hi then some draw else m.drawAt a := by
  unfold Memory.havoc
  split
  · next h =>
    unfold Memory.drawAt
    simp only
    rw [insertRegion_find]
    · rw [carve_find lo hi a h]
      by_cases hin : lo ≤ a ∧ a < hi
      · simp [FreeRegion.covers, hin.1, hin.2]
      · rw [if_neg hin, if_neg hin, if_neg]
        simp [FreeRegion.covers]; omega
    · intro hc q hq
      have hin : lo ≤ a ∧ a < hi := by simpa [FreeRegion.covers] using hc
      have := carve_find lo hi a h m.free
      rw [if_pos hin, Option.map_eq_none_iff, List.find?_eq_none] at this
      simpa using this q hq
  · next h => rw [if_neg (by omega)]

/-- A byte of an unspecified range reads as the free value of its draw. -/
theorem Memory.read_havoc_inside (m : Memory) {lo hi draw a : Nat} (h : lo ≤ a ∧ a < hi) :
    (m.havoc lo hi draw).read a = Config.freeByte draw a := by
  rw [Memory.read_eq, Memory.drawAt_havoc, if_pos h]

/-- A range becoming unspecified leaves every byte outside it alone. -/
theorem Memory.read_havoc_outside (m : Memory) {lo hi draw a : Nat} (h : a < lo ∨ hi ≤ a) :
    (m.havoc lo hi draw).read a = m.read a := by
  rw [Memory.read_eq, Memory.read_eq, Memory.drawAt_havoc, if_neg (by omega)]
  have : lookupCell a (m.havoc lo hi draw).cells = lookupCell a m.cells := by
    unfold Memory.havoc
    split
    · simp only; rw [lookupCell_dropCells, if_neg (by omega)]
    · rfl
  rw [this]

/-! ### The canonical form -/

theorem mem_insertCell {a : Nat} {v : Byte} {c : Host.Cell} {cs : List Host.Cell} (h : c ∈ insertCell a v cs) :
    c = (a, v) ∨ c ∈ cs := by
  induction cs with
  | nil => simpa [insertCell] using h
  | cons d ds ih =>
    unfold insertCell at h
    split at h
    · simpa using h
    · split at h
      · simp only [List.mem_cons] at h ⊢; tauto
      · simp only [List.mem_cons] at h ⊢
        rcases h with h | h
        · exact .inr (.inl h)
        · rcases ih h with h | h <;> tauto

theorem insertCell_sorted {a : Nat} {v : Byte} {cs : List Host.Cell}
    (h : cs.Pairwise fun c d => c.1 < d.1) : (insertCell a v cs).Pairwise fun c d => c.1 < d.1 := by
  induction cs with
  | nil => simp [insertCell]
  | cons c cs ih =>
    rw [List.pairwise_cons] at h
    unfold insertCell
    split
    · next hac =>
      rw [List.pairwise_cons, List.pairwise_cons]
      refine ⟨fun d hd => ?_, h⟩
      rcases List.mem_cons.1 hd with rfl | hd
      · exact hac
      · exact hac.trans (h.1 d hd)
    · split
      · next hac => rw [List.pairwise_cons]; exact ⟨fun d hd => hac ▸ h.1 d hd, h.2⟩
      · next h1 h2 =>
        rw [List.pairwise_cons]
        refine ⟨fun d hd => ?_, ih h.2⟩
        rcases mem_insertCell hd with rfl | hd
        · simp only; omega
        · exact h.1 d hd

theorem mem_carve {lo hi : Nat} {r q : FreeRegion} (h : q ∈ FreeRegion.carve lo hi r) :
    r.lo ≤ q.lo ∧ q.lo < q.hi ∧ q.hi ≤ r.hi ∧ (q.hi ≤ lo ∨ hi ≤ q.lo) := by
  unfold FreeRegion.carve at h
  rw [List.mem_append] at h
  rcases h with h | h
  · split at h
    · rw [List.mem_singleton] at h; subst h; simp only; omega
    · cases h
  · split at h
    · rw [List.mem_singleton] at h; subst h; simp only; omega
    · cases h

theorem mem_carved {lo hi : Nat} {rs : List FreeRegion} {q : FreeRegion} (h : q ∈ rs.flatMap (FreeRegion.carve lo hi)) :
    ∃ r ∈ rs, r.lo ≤ q.lo ∧ q.lo < q.hi ∧ q.hi ≤ r.hi ∧ (q.hi ≤ lo ∨ hi ≤ q.lo) := by
  obtain ⟨r, hr, hq⟩ := List.mem_flatMap.1 h
  exact ⟨r, hr, mem_carve hq⟩

theorem carved_rising {lo hi : Nat} (hlt : lo < hi) {rs : List FreeRegion} (h : rs.Pairwise fun r q => r.hi ≤ q.lo) :
    (rs.flatMap (FreeRegion.carve lo hi)).Pairwise fun r q => r.hi ≤ q.lo := by
  induction rs with
  | nil => simp
  | cons r rs ih =>
    rw [List.pairwise_cons] at h
    rw [List.flatMap_cons, List.pairwise_append]
    refine ⟨?_, ih h.2, fun q hq p hp => ?_⟩
    · unfold FreeRegion.carve
      split <;> split <;> simp
      omega
    · obtain ⟨r', hr', h'⟩ := mem_carved hp
      have := mem_carve hq
      have := h.1 r' hr'
      omega

theorem mem_insertRegion {r q : FreeRegion} {rs : List FreeRegion} (h : q ∈ insertRegion r rs) : q = r ∨ q ∈ rs := by
  induction rs with
  | nil => simpa [insertRegion] using h
  | cons p ps ih =>
    unfold insertRegion at h
    split at h
    · simpa using h
    · rcases List.mem_cons.1 h with h | h
      · exact .inr (h ▸ List.mem_cons_self)
      · rcases ih h with h | h
        · exact .inl h
        · exact .inr (List.mem_cons_of_mem _ h)

theorem insertRegion_rising {r : FreeRegion} {rs : List FreeRegion} (hr : r.lo < r.hi)
    (h : rs.Pairwise fun p q => p.hi ≤ q.lo) (hne : ∀ q ∈ rs, q.lo < q.hi)
    (hap : ∀ q ∈ rs, q.hi ≤ r.lo ∨ r.hi ≤ q.lo) : (insertRegion r rs).Pairwise fun p q => p.hi ≤ q.lo := by
  induction rs with
  | nil => simp [insertRegion]
  | cons p ps ih =>
    rw [List.pairwise_cons] at h
    have hp := hne p List.mem_cons_self
    have hap' := hap p List.mem_cons_self
    unfold insertRegion
    split
    · rw [List.pairwise_cons, List.pairwise_cons]
      refine ⟨fun q hq => ?_, h⟩
      rcases List.mem_cons.1 hq with rfl | hq
      · omega
      · have := h.1 q hq; omega
    · rw [List.pairwise_cons]
      refine ⟨fun q hq => ?_, ih h.2 (fun q hq => hne q (List.mem_cons_of_mem _ hq))
        fun q hq => hap q (List.mem_cons_of_mem _ hq)⟩
      rcases mem_insertRegion hq with rfl | hq
      · omega
      · exact h.1 q hq

theorem Memory.empty_wf : Memory.wf ⟨[], []⟩ := by simp [Memory.wf]

/-- Writing a byte of the address space keeps the canonical form. -/
theorem Memory.write_wf {m : Memory} (h : m.wf) {a : Nat} (v : Byte) (ha : a < 2 ^ 32) : (m.write a v).wf := by
  obtain ⟨hs, hc, hr, hb⟩ := h
  have hfree : ∀ b, b ≠ a → (∀ r ∈ m.free, r.covers b = false) →
      ∀ r ∈ m.free.flatMap (FreeRegion.carve a (a + 1)), r.covers b = false := by
    intro b _ hm q hq
    obtain ⟨r, hr, h'⟩ := mem_carved hq
    have := hm r hr
    simp [FreeRegion.covers] at this ⊢
    omega
  refine ⟨?_, ?_, carved_rising (by omega) hr, ?_⟩
  · unfold Memory.write
    simp only
    split
    · exact hs.filter _
    · exact insertCell_sorted hs
  · intro c hcm
    unfold Memory.write at hcm ⊢
    simp only at hcm ⊢
    split at hcm
    · unfold dropCells at hcm
      rw [List.mem_filter] at hcm
      obtain ⟨h1, h2, h3⟩ := hc c hcm.1
      refine ⟨h1, h2, hfree c.1 ?_ h3⟩
      have := hcm.2
      simp at this
      omega
    · next hv =>
      rcases mem_insertCell hcm with rfl | hcm'
      · refine ⟨ha, hv, fun q hq => ?_⟩
        obtain ⟨r, hr, h'⟩ := mem_carved hq
        simp [FreeRegion.covers]
        omega
      · by_cases hca : c.1 = a
        · obtain ⟨h1, h2, -⟩ := hc c hcm'
          refine ⟨h1, h2, fun q hq => ?_⟩
          obtain ⟨r, hr, h'⟩ := mem_carved hq
          simp [FreeRegion.covers]
          omega
        · obtain ⟨h1, h2, h3⟩ := hc c hcm'
          exact ⟨h1, h2, hfree c.1 hca h3⟩
  · intro q hq
    obtain ⟨r, hr, h'⟩ := mem_carved hq
    have := hb r hr
    omega

/-- A range of the address space becoming unspecified keeps the canonical form. -/
theorem Memory.havoc_wf {m : Memory} (h : m.wf) {lo hi : Nat} (draw : Nat) (hhi : hi ≤ 2 ^ 32) :
    (m.havoc lo hi draw).wf := by
  unfold Memory.havoc
  split
  · next hlt =>
    obtain ⟨hs, hc, hr, hb⟩ := h
    refine ⟨hs.filter _, ?_, ?_, ?_⟩
    · intro c hcm
      simp only [dropCells, List.mem_filter] at hcm
      obtain ⟨h1, h2, h3⟩ := hc c hcm.1
      refine ⟨h1, h2, fun q hq => ?_⟩
      have hout := hcm.2
      simp at hout
      rcases mem_insertRegion hq with rfl | hq
      · simp [FreeRegion.covers]; omega
      · obtain ⟨r, hr, h'⟩ := mem_carved hq
        have := h3 r hr
        simp [FreeRegion.covers] at this ⊢
        omega
    · refine insertRegion_rising hlt (carved_rising hlt hr) (fun q hq => ?_) fun q hq => ?_
      · obtain ⟨r, hr, h'⟩ := mem_carved hq; exact h'.2.1
      · obtain ⟨r, hr, h'⟩ := mem_carved hq; exact h'.2.2.2
    · intro q hq
      rcases mem_insertRegion hq with rfl | hq
      · exact ⟨hlt, hhi⟩
      · obtain ⟨r, hr, h'⟩ := mem_carved hq
        have := hb r hr
        omega
  · exact h

/-- Reset memory is in canonical form. -/
theorem State.reset_mem_wf : State.reset.mem.wf := Memory.empty_wf

end Sys2Proof.Machine
end

