-- ==== Sys2Proof/Laws/State.lean ====
section
/-! SUPPORT. What each shared update of the state does to each field: one lemma per field per update, so that no later proof
unfolds a record update. -/

namespace Sys2Proof.Machine

/-! ### withPort -/

@[simp] theorem State.withPort_ie (p : Port) (s : State) : (s.withPort p).ie = s.ie := rfl
@[simp] theorem State.withPort_done (p : Port) (s : State) : (s.withPort p).done = s.done := rfl
@[simp] theorem State.withPort_ovr (p : Port) (s : State) : (s.withPort p).ovr = s.ovr := rfl
@[simp] theorem State.withPort_treeValid (p : Port) (s : State) : (s.withPort p).treeValid = s.treeValid := rfl
@[simp] theorem State.withPort_codeValid (p : Port) (s : State) : (s.withPort p).codeValid = s.codeValid := rfl
@[simp] theorem State.withPort_cmd (p : Port) (s : State) : (s.withPort p).cmd = s.cmd := rfl
@[simp] theorem State.withPort_srcAddr (p : Port) (s : State) : (s.withPort p).srcAddr = s.srcAddr := rfl
@[simp] theorem State.withPort_srcLen (p : Port) (s : State) : (s.withPort p).srcLen = s.srcLen := rfl
@[simp] theorem State.withPort_dstAddr (p : Port) (s : State) : (s.withPort p).dstAddr = s.dstAddr := rfl
@[simp] theorem State.withPort_dstCap (p : Port) (s : State) : (s.withPort p).dstCap = s.dstCap := rfl
@[simp] theorem State.withPort_err (p : Port) (s : State) : (s.withPort p).err = s.err := rfl
@[simp] theorem State.withPort_errInfo (p : Port) (s : State) : (s.withPort p).errInfo = s.errInfo := rfl
@[simp] theorem State.withPort_resLen (p : Port) (s : State) : (s.withPort p).resLen = s.resLen := rfl
@[simp] theorem State.withPort_resPad (p : Port) (s : State) : (s.withPort p).resPad = s.resPad := rfl
@[simp] theorem State.withPort_resBits (p : Port) (s : State) : (s.withPort p).resBits = s.resBits := rfl
@[simp] theorem State.withPort_nsym (p : Port) (s : State) : (s.withPort p).nsym = s.nsym := rfl
@[simp] theorem State.withPort_nnode (p : Port) (s : State) : (s.withPort p).nnode = s.nnode := rfl
@[simp] theorem State.withPort_freq (p : Port) (s : State) : (s.withPort p).freq = s.freq := rfl
@[simp] theorem State.withPort_nodes (p : Port) (s : State) : (s.withPort p).nodes = s.nodes := rfl
@[simp] theorem State.withPort_codes (p : Port) (s : State) : (s.withPort p).codes = s.codes := rfl
@[simp] theorem State.withPort_latch (p : Port) (s : State) : (s.withPort p).latch = s.latch := rfl
@[simp] theorem State.withPort_work (p : Port) (s : State) : (s.withPort p).work = s.work := rfl
@[simp] theorem State.withPort_raced (p : Port) (s : State) : (s.withPort p).raced = s.raced := rfl
@[simp] theorem State.withPort_mem (p : Port) (s : State) : (s.withPort p).mem = p.mem := rfl
@[simp] theorem State.withPort_platform (p : Port) (s : State) : (s.withPort p).platform = s.platform := rfl
@[simp] theorem State.withPort_inputs (p : Port) (s : State) : (s.withPort p).inputs = s.inputs := rfl
@[simp] theorem State.withPort_resp (p : Port) (s : State) : (s.withPort p).resp = s.resp := rfl
@[simp] theorem State.withPort_draws (p : Port) (s : State) : (s.withPort p).draws = p.draws := rfl

/-! ### accept -/

@[simp] theorem State.accept_ie (w : Word) (s : State) : (s.accept w).ie = s.ie := rfl
@[simp] theorem State.accept_done (w : Word) (s : State) : (s.accept w).done = false := rfl
@[simp] theorem State.accept_ovr (w : Word) (s : State) : (s.accept w).ovr = s.ovr := rfl
@[simp] theorem State.accept_treeValid (w : Word) (s : State) : (s.accept w).treeValid = s.treeValid := rfl
@[simp] theorem State.accept_codeValid (w : Word) (s : State) : (s.accept w).codeValid = s.codeValid := rfl
@[simp] theorem State.accept_cmd (w : Word) (s : State) : (s.accept w).cmd = w := rfl
@[simp] theorem State.accept_srcAddr (w : Word) (s : State) : (s.accept w).srcAddr = s.srcAddr := rfl
@[simp] theorem State.accept_srcLen (w : Word) (s : State) : (s.accept w).srcLen = s.srcLen := rfl
@[simp] theorem State.accept_dstAddr (w : Word) (s : State) : (s.accept w).dstAddr = s.dstAddr := rfl
@[simp] theorem State.accept_dstCap (w : Word) (s : State) : (s.accept w).dstCap = s.dstCap := rfl
@[simp] theorem State.accept_err (w : Word) (s : State) : (s.accept w).err = .none := rfl
@[simp] theorem State.accept_errInfo (w : Word) (s : State) : (s.accept w).errInfo = 0 := rfl
@[simp] theorem State.accept_resLen (w : Word) (s : State) : (s.accept w).resLen = 0 := rfl
@[simp] theorem State.accept_resPad (w : Word) (s : State) : (s.accept w).resPad = 0 := rfl
@[simp] theorem State.accept_resBits (w : Word) (s : State) : (s.accept w).resBits = 0 := rfl
@[simp] theorem State.accept_nsym (w : Word) (s : State) : (s.accept w).nsym = s.nsym := rfl
@[simp] theorem State.accept_nnode (w : Word) (s : State) : (s.accept w).nnode = s.nnode := rfl
@[simp] theorem State.accept_freq (w : Word) (s : State) : (s.accept w).freq = s.freq := rfl
@[simp] theorem State.accept_nodes (w : Word) (s : State) : (s.accept w).nodes = s.nodes := rfl
@[simp] theorem State.accept_codes (w : Word) (s : State) : (s.accept w).codes = s.codes := rfl
@[simp] theorem State.accept_latch (w : Word) (s : State) : (s.accept w).latch = ⟨w, s.srcAddr, s.srcLen, s.dstAddr, s.dstCap⟩ := rfl
@[simp] theorem State.accept_work (w : Word) (s : State) : (s.accept w).work = .accepted := rfl
@[simp] theorem State.accept_raced (w : Word) (s : State) : (s.accept w).raced = false := rfl
@[simp] theorem State.accept_mem (w : Word) (s : State) : (s.accept w).mem = s.mem := rfl
@[simp] theorem State.accept_platform (w : Word) (s : State) : (s.accept w).platform = s.platform := rfl
@[simp] theorem State.accept_inputs (w : Word) (s : State) : (s.accept w).inputs = s.inputs := rfl
@[simp] theorem State.accept_resp (w : Word) (s : State) : (s.accept w).resp = s.resp := rfl
@[simp] theorem State.accept_draws (w : Word) (s : State) : (s.accept w).draws = s.draws := rfl

/-! ### complete -/

@[simp] theorem State.complete_ie (r : Results) (s : State) : (s.complete r).ie = s.ie := rfl
@[simp] theorem State.complete_done (r : Results) (s : State) : (s.complete r).done = true := rfl
@[simp] theorem State.complete_ovr (r : Results) (s : State) : (s.complete r).ovr = s.ovr := rfl
@[simp] theorem State.complete_treeValid (r : Results) (s : State) : (s.complete r).treeValid = s.treeValid := rfl
@[simp] theorem State.complete_codeValid (r : Results) (s : State) : (s.complete r).codeValid = s.codeValid := rfl
@[simp] theorem State.complete_cmd (r : Results) (s : State) : (s.complete r).cmd = s.cmd := rfl
@[simp] theorem State.complete_srcAddr (r : Results) (s : State) : (s.complete r).srcAddr = s.srcAddr := rfl
@[simp] theorem State.complete_srcLen (r : Results) (s : State) : (s.complete r).srcLen = s.srcLen := rfl
@[simp] theorem State.complete_dstAddr (r : Results) (s : State) : (s.complete r).dstAddr = s.dstAddr := rfl
@[simp] theorem State.complete_dstCap (r : Results) (s : State) : (s.complete r).dstCap = s.dstCap := rfl
@[simp] theorem State.complete_err (r : Results) (s : State) : (s.complete r).err = .none := rfl
@[simp] theorem State.complete_errInfo (r : Results) (s : State) : (s.complete r).errInfo = 0 := rfl
@[simp] theorem State.complete_resLen (r : Results) (s : State) : (s.complete r).resLen = r.len := rfl
@[simp] theorem State.complete_resPad (r : Results) (s : State) : (s.complete r).resPad = r.pad := rfl
@[simp] theorem State.complete_resBits (r : Results) (s : State) : (s.complete r).resBits = r.bits := rfl
@[simp] theorem State.complete_nsym (r : Results) (s : State) : (s.complete r).nsym = s.nsym := rfl
@[simp] theorem State.complete_nnode (r : Results) (s : State) : (s.complete r).nnode = s.nnode := rfl
@[simp] theorem State.complete_freq (r : Results) (s : State) : (s.complete r).freq = s.freq := rfl
@[simp] theorem State.complete_nodes (r : Results) (s : State) : (s.complete r).nodes = s.nodes := rfl
@[simp] theorem State.complete_codes (r : Results) (s : State) : (s.complete r).codes = s.codes := rfl
@[simp] theorem State.complete_latch (r : Results) (s : State) : (s.complete r).latch = Latch.clear := rfl
@[simp] theorem State.complete_work (r : Results) (s : State) : (s.complete r).work = .idle := rfl
@[simp] theorem State.complete_raced (r : Results) (s : State) : (s.complete r).raced = false := rfl
@[simp] theorem State.complete_mem (r : Results) (s : State) : (s.complete r).mem = s.mem := rfl
@[simp] theorem State.complete_platform (r : Results) (s : State) : (s.complete r).platform = s.platform := rfl
@[simp] theorem State.complete_inputs (r : Results) (s : State) : (s.complete r).inputs = s.inputs := rfl
@[simp] theorem State.complete_resp (r : Results) (s : State) : (s.complete r).resp = s.resp := rfl
@[simp] theorem State.complete_draws (r : Results) (s : State) : (s.complete r).draws = s.draws := rfl

/-! ### raise -/

@[simp] theorem State.raise_ie (e : Raise) (s : State) : (s.raise e).ie = s.ie := rfl
@[simp] theorem State.raise_done (e : Raise) (s : State) : (s.raise e).done = true := rfl
@[simp] theorem State.raise_ovr (e : Raise) (s : State) : (s.raise e).ovr = s.ovr := rfl
@[simp] theorem State.raise_treeValid (e : Raise) (s : State) : (s.raise e).treeValid = s.treeValid := rfl
@[simp] theorem State.raise_codeValid (e : Raise) (s : State) : (s.raise e).codeValid = s.codeValid := rfl
@[simp] theorem State.raise_cmd (e : Raise) (s : State) : (s.raise e).cmd = s.cmd := rfl
@[simp] theorem State.raise_srcAddr (e : Raise) (s : State) : (s.raise e).srcAddr = s.srcAddr := rfl
@[simp] theorem State.raise_srcLen (e : Raise) (s : State) : (s.raise e).srcLen = s.srcLen := rfl
@[simp] theorem State.raise_dstAddr (e : Raise) (s : State) : (s.raise e).dstAddr = s.dstAddr := rfl
@[simp] theorem State.raise_dstCap (e : Raise) (s : State) : (s.raise e).dstCap = s.dstCap := rfl
@[simp] theorem State.raise_err (e : Raise) (s : State) : (s.raise e).err = e.code := rfl
@[simp] theorem State.raise_errInfo (e : Raise) (s : State) : (s.raise e).errInfo = e.info := rfl
@[simp] theorem State.raise_resLen (e : Raise) (s : State) : (s.raise e).resLen = 0 := rfl
@[simp] theorem State.raise_resPad (e : Raise) (s : State) : (s.raise e).resPad = 0 := rfl
@[simp] theorem State.raise_resBits (e : Raise) (s : State) : (s.raise e).resBits = 0 := rfl
@[simp] theorem State.raise_nsym (e : Raise) (s : State) : (s.raise e).nsym = s.nsym := rfl
@[simp] theorem State.raise_nnode (e : Raise) (s : State) : (s.raise e).nnode = s.nnode := rfl
@[simp] theorem State.raise_freq (e : Raise) (s : State) : (s.raise e).freq = s.freq := rfl
@[simp] theorem State.raise_nodes (e : Raise) (s : State) : (s.raise e).nodes = s.nodes := rfl
@[simp] theorem State.raise_codes (e : Raise) (s : State) : (s.raise e).codes = s.codes := rfl
@[simp] theorem State.raise_latch (e : Raise) (s : State) : (s.raise e).latch = Latch.clear := rfl
@[simp] theorem State.raise_work (e : Raise) (s : State) : (s.raise e).work = .idle := rfl
@[simp] theorem State.raise_raced (e : Raise) (s : State) : (s.raise e).raced = false := rfl
@[simp] theorem State.raise_mem (e : Raise) (s : State) : (s.raise e).mem = s.mem := rfl
@[simp] theorem State.raise_platform (e : Raise) (s : State) : (s.raise e).platform = s.platform := rfl
@[simp] theorem State.raise_inputs (e : Raise) (s : State) : (s.raise e).inputs = s.inputs := rfl
@[simp] theorem State.raise_resp (e : Raise) (s : State) : (s.raise e).resp = s.resp := rfl
@[simp] theorem State.raise_draws (e : Raise) (s : State) : (s.raise e).draws = s.draws := rfl

/-! ### havocDst -/

@[simp] theorem State.havocDst_ie (s : State) : (s.havocDst).ie = s.ie := rfl
@[simp] theorem State.havocDst_done (s : State) : (s.havocDst).done = s.done := rfl
@[simp] theorem State.havocDst_ovr (s : State) : (s.havocDst).ovr = s.ovr := rfl
@[simp] theorem State.havocDst_treeValid (s : State) : (s.havocDst).treeValid = s.treeValid := rfl
@[simp] theorem State.havocDst_codeValid (s : State) : (s.havocDst).codeValid = s.codeValid := rfl
@[simp] theorem State.havocDst_cmd (s : State) : (s.havocDst).cmd = s.cmd := rfl
@[simp] theorem State.havocDst_srcAddr (s : State) : (s.havocDst).srcAddr = s.srcAddr := rfl
@[simp] theorem State.havocDst_srcLen (s : State) : (s.havocDst).srcLen = s.srcLen := rfl
@[simp] theorem State.havocDst_dstAddr (s : State) : (s.havocDst).dstAddr = s.dstAddr := rfl
@[simp] theorem State.havocDst_dstCap (s : State) : (s.havocDst).dstCap = s.dstCap := rfl
@[simp] theorem State.havocDst_err (s : State) : (s.havocDst).err = s.err := rfl
@[simp] theorem State.havocDst_errInfo (s : State) : (s.havocDst).errInfo = s.errInfo := rfl
@[simp] theorem State.havocDst_resLen (s : State) : (s.havocDst).resLen = s.resLen := rfl
@[simp] theorem State.havocDst_resPad (s : State) : (s.havocDst).resPad = s.resPad := rfl
@[simp] theorem State.havocDst_resBits (s : State) : (s.havocDst).resBits = s.resBits := rfl
@[simp] theorem State.havocDst_nsym (s : State) : (s.havocDst).nsym = s.nsym := rfl
@[simp] theorem State.havocDst_nnode (s : State) : (s.havocDst).nnode = s.nnode := rfl
@[simp] theorem State.havocDst_freq (s : State) : (s.havocDst).freq = s.freq := rfl
@[simp] theorem State.havocDst_nodes (s : State) : (s.havocDst).nodes = s.nodes := rfl
@[simp] theorem State.havocDst_codes (s : State) : (s.havocDst).codes = s.codes := rfl
@[simp] theorem State.havocDst_latch (s : State) : (s.havocDst).latch = s.latch := rfl
@[simp] theorem State.havocDst_work (s : State) : (s.havocDst).work = s.work := rfl
@[simp] theorem State.havocDst_raced (s : State) : (s.havocDst).raced = s.raced := rfl
@[simp] theorem State.havocDst_mem (s : State) : (s.havocDst).mem = s.mem.havoc s.latch.dstAddr.toNat s.dstEnd s.draws := rfl
@[simp] theorem State.havocDst_platform (s : State) : (s.havocDst).platform = s.platform := rfl
@[simp] theorem State.havocDst_inputs (s : State) : (s.havocDst).inputs = s.inputs := rfl
@[simp] theorem State.havocDst_resp (s : State) : (s.havocDst).resp = s.resp := rfl
@[simp] theorem State.havocDst_draws (s : State) : (s.havocDst).draws = s.draws + 1 := rfl

/-! ### settleDst -/

@[simp] theorem State.settleDst_ie (s : State) : (s.settleDst).ie = s.ie := by
  unfold State.settleDst; split <;> rfl
@[simp] theorem State.settleDst_done (s : State) : (s.settleDst).done = s.done := by
  unfold State.settleDst; split <;> rfl
@[simp] theorem State.settleDst_ovr (s : State) : (s.settleDst).ovr = s.ovr := by
  unfold State.settleDst; split <;> rfl
@[simp] theorem State.settleDst_treeValid (s : State) : (s.settleDst).treeValid = s.treeValid := by
  unfold State.settleDst; split <;> rfl
@[simp] theorem State.settleDst_codeValid (s : State) : (s.settleDst).codeValid = s.codeValid := by
  unfold State.settleDst; split <;> rfl
@[simp] theorem State.settleDst_cmd (s : State) : (s.settleDst).cmd = s.cmd := by
  unfold State.settleDst; split <;> rfl
@[simp] theorem State.settleDst_srcAddr (s : State) : (s.settleDst).srcAddr = s.srcAddr := by
  unfold State.settleDst; split <;> rfl
@[simp] theorem State.settleDst_srcLen (s : State) : (s.settleDst).srcLen = s.srcLen := by
  unfold State.settleDst; split <;> rfl
@[simp] theorem State.settleDst_dstAddr (s : State) : (s.settleDst).dstAddr = s.dstAddr := by
  unfold State.settleDst; split <;> rfl
@[simp] theorem State.settleDst_dstCap (s : State) : (s.settleDst).dstCap = s.dstCap := by
  unfold State.settleDst; split <;> rfl
@[simp] theorem State.settleDst_err (s : State) : (s.settleDst).err = s.err := by
  unfold State.settleDst; split <;> rfl
@[simp] theorem State.settleDst_errInfo (s : State) : (s.settleDst).errInfo = s.errInfo := by
  unfold State.settleDst; split <;> rfl
@[simp] theorem State.settleDst_resLen (s : State) : (s.settleDst).resLen = s.resLen := by
  unfold State.settleDst; split <;> rfl
@[simp] theorem State.settleDst_resPad (s : State) : (s.settleDst).resPad = s.resPad := by
  unfold State.settleDst; split <;> rfl
@[simp] theorem State.settleDst_resBits (s : State) : (s.settleDst).resBits = s.resBits := by
  unfold State.settleDst; split <;> rfl
@[simp] theorem State.settleDst_nsym (s : State) : (s.settleDst).nsym = s.nsym := by
  unfold State.settleDst; split <;> rfl
@[simp] theorem State.settleDst_nnode (s : State) : (s.settleDst).nnode = s.nnode := by
  unfold State.settleDst; split <;> rfl
@[simp] theorem State.settleDst_freq (s : State) : (s.settleDst).freq = s.freq := by
  unfold State.settleDst; split <;> rfl
@[simp] theorem State.settleDst_nodes (s : State) : (s.settleDst).nodes = s.nodes := by
  unfold State.settleDst; split <;> rfl
@[simp] theorem State.settleDst_codes (s : State) : (s.settleDst).codes = s.codes := by
  unfold State.settleDst; split <;> rfl
@[simp] theorem State.settleDst_latch (s : State) : (s.settleDst).latch = s.latch := by
  unfold State.settleDst; split <;> rfl
@[simp] theorem State.settleDst_work (s : State) : (s.settleDst).work = s.work := by
  unfold State.settleDst; split <;> rfl
@[simp] theorem State.settleDst_raced (s : State) : (s.settleDst).raced = s.raced := by
  unfold State.settleDst; split <;> rfl
@[simp] theorem State.settleDst_mem (s : State) : (s.settleDst).mem = if s.raced then s.mem.havoc s.latch.dstAddr.toNat s.dstEnd s.draws else s.mem := by
  unfold State.settleDst; split <;> rfl
@[simp] theorem State.settleDst_platform (s : State) : (s.settleDst).platform = s.platform := by
  unfold State.settleDst; split <;> rfl
@[simp] theorem State.settleDst_inputs (s : State) : (s.settleDst).inputs = s.inputs := by
  unfold State.settleDst; split <;> rfl
@[simp] theorem State.settleDst_resp (s : State) : (s.settleDst).resp = s.resp := by
  unfold State.settleDst; split <;> rfl
@[simp] theorem State.settleDst_draws (s : State) : (s.settleDst).draws = if s.raced then s.draws + 1 else s.draws := by
  unfold State.settleDst; split <;> rfl

/-! ### fail -/

/-- What an error does to memory and to the draws: nothing, or the destination buffer becomes unspecified (R287). -/
theorem State.fail_eq (usesDst : Bool) (e : Raise) (s : State) :
    s.fail usesDst e = if usesDst then s.havocDst.raise e else s.raise e := by cases usesDst <;> rfl

@[simp] theorem State.fail_ie (u : Bool) (e : Raise) (s : State) : (s.fail u e).ie = s.ie := by cases u <;> rfl
@[simp] theorem State.fail_done (u : Bool) (e : Raise) (s : State) : (s.fail u e).done = true := by cases u <;> rfl
@[simp] theorem State.fail_ovr (u : Bool) (e : Raise) (s : State) : (s.fail u e).ovr = s.ovr := by cases u <;> rfl
@[simp] theorem State.fail_treeValid (u : Bool) (e : Raise) (s : State) : (s.fail u e).treeValid = s.treeValid := by cases u <;> rfl
@[simp] theorem State.fail_codeValid (u : Bool) (e : Raise) (s : State) : (s.fail u e).codeValid = s.codeValid := by cases u <;> rfl
@[simp] theorem State.fail_cmd (u : Bool) (e : Raise) (s : State) : (s.fail u e).cmd = s.cmd := by cases u <;> rfl
@[simp] theorem State.fail_srcAddr (u : Bool) (e : Raise) (s : State) : (s.fail u e).srcAddr = s.srcAddr := by cases u <;> rfl
@[simp] theorem State.fail_srcLen (u : Bool) (e : Raise) (s : State) : (s.fail u e).srcLen = s.srcLen := by cases u <;> rfl
@[simp] theorem State.fail_dstAddr (u : Bool) (e : Raise) (s : State) : (s.fail u e).dstAddr = s.dstAddr := by cases u <;> rfl
@[simp] theorem State.fail_dstCap (u : Bool) (e : Raise) (s : State) : (s.fail u e).dstCap = s.dstCap := by cases u <;> rfl
@[simp] theorem State.fail_err (u : Bool) (e : Raise) (s : State) : (s.fail u e).err = e.code := by cases u <;> rfl
@[simp] theorem State.fail_errInfo (u : Bool) (e : Raise) (s : State) : (s.fail u e).errInfo = e.info := by cases u <;> rfl
@[simp] theorem State.fail_resLen (u : Bool) (e : Raise) (s : State) : (s.fail u e).resLen = 0 := by cases u <;> rfl
@[simp] theorem State.fail_resPad (u : Bool) (e : Raise) (s : State) : (s.fail u e).resPad = 0 := by cases u <;> rfl
@[simp] theorem State.fail_resBits (u : Bool) (e : Raise) (s : State) : (s.fail u e).resBits = 0 := by cases u <;> rfl
@[simp] theorem State.fail_nsym (u : Bool) (e : Raise) (s : State) : (s.fail u e).nsym = s.nsym := by cases u <;> rfl
@[simp] theorem State.fail_nnode (u : Bool) (e : Raise) (s : State) : (s.fail u e).nnode = s.nnode := by cases u <;> rfl
@[simp] theorem State.fail_freq (u : Bool) (e : Raise) (s : State) : (s.fail u e).freq = s.freq := by cases u <;> rfl
@[simp] theorem State.fail_nodes (u : Bool) (e : Raise) (s : State) : (s.fail u e).nodes = s.nodes := by cases u <;> rfl
@[simp] theorem State.fail_codes (u : Bool) (e : Raise) (s : State) : (s.fail u e).codes = s.codes := by cases u <;> rfl
@[simp] theorem State.fail_latch (u : Bool) (e : Raise) (s : State) : (s.fail u e).latch = Latch.clear := by cases u <;> rfl
@[simp] theorem State.fail_work (u : Bool) (e : Raise) (s : State) : (s.fail u e).work = .idle := by cases u <;> rfl
@[simp] theorem State.fail_raced (u : Bool) (e : Raise) (s : State) : (s.fail u e).raced = false := by cases u <;> rfl
@[simp] theorem State.fail_mem (usesDst : Bool) (e : Raise) (s : State) :
    (s.fail usesDst e).mem = if usesDst then s.havocDst.mem else s.mem := by cases usesDst <;> rfl
@[simp] theorem State.fail_platform (u : Bool) (e : Raise) (s : State) : (s.fail u e).platform = s.platform := by cases u <;> rfl
@[simp] theorem State.fail_inputs (u : Bool) (e : Raise) (s : State) : (s.fail u e).inputs = s.inputs := by cases u <;> rfl
@[simp] theorem State.fail_resp (u : Bool) (e : Raise) (s : State) : (s.fail u e).resp = s.resp := by cases u <;> rfl
@[simp] theorem State.fail_draws (usesDst : Bool) (e : Raise) (s : State) :
    (s.fail usesDst e).draws = if usesDst then s.havocDst.draws else s.draws := by cases usesDst <;> rfl

/-! ### dropTree -/

@[simp] theorem State.dropTree_ie (s : State) : (s.dropTree).ie = s.ie := rfl
@[simp] theorem State.dropTree_done (s : State) : (s.dropTree).done = s.done := rfl
@[simp] theorem State.dropTree_ovr (s : State) : (s.dropTree).ovr = s.ovr := rfl
@[simp] theorem State.dropTree_treeValid (s : State) : (s.dropTree).treeValid = false := rfl
@[simp] theorem State.dropTree_codeValid (s : State) : (s.dropTree).codeValid = s.codeValid := rfl
@[simp] theorem State.dropTree_cmd (s : State) : (s.dropTree).cmd = s.cmd := rfl
@[simp] theorem State.dropTree_srcAddr (s : State) : (s.dropTree).srcAddr = s.srcAddr := rfl
@[simp] theorem State.dropTree_srcLen (s : State) : (s.dropTree).srcLen = s.srcLen := rfl
@[simp] theorem State.dropTree_dstAddr (s : State) : (s.dropTree).dstAddr = s.dstAddr := rfl
@[simp] theorem State.dropTree_dstCap (s : State) : (s.dropTree).dstCap = s.dstCap := rfl
@[simp] theorem State.dropTree_err (s : State) : (s.dropTree).err = s.err := rfl
@[simp] theorem State.dropTree_errInfo (s : State) : (s.dropTree).errInfo = s.errInfo := rfl
@[simp] theorem State.dropTree_resLen (s : State) : (s.dropTree).resLen = s.resLen := rfl
@[simp] theorem State.dropTree_resPad (s : State) : (s.dropTree).resPad = s.resPad := rfl
@[simp] theorem State.dropTree_resBits (s : State) : (s.dropTree).resBits = s.resBits := rfl
@[simp] theorem State.dropTree_nsym (s : State) : (s.dropTree).nsym = s.nsym := rfl
@[simp] theorem State.dropTree_nnode (s : State) : (s.dropTree).nnode = 0 := rfl
@[simp] theorem State.dropTree_freq (s : State) : (s.dropTree).freq = s.freq := rfl
@[simp] theorem State.dropTree_nodes (s : State) : (s.dropTree).nodes = NodeStore.empty := rfl
@[simp] theorem State.dropTree_codes (s : State) : (s.dropTree).codes = s.codes := rfl
@[simp] theorem State.dropTree_latch (s : State) : (s.dropTree).latch = s.latch := rfl
@[simp] theorem State.dropTree_work (s : State) : (s.dropTree).work = s.work := rfl
@[simp] theorem State.dropTree_raced (s : State) : (s.dropTree).raced = s.raced := rfl
@[simp] theorem State.dropTree_mem (s : State) : (s.dropTree).mem = s.mem := rfl
@[simp] theorem State.dropTree_platform (s : State) : (s.dropTree).platform = s.platform := rfl
@[simp] theorem State.dropTree_inputs (s : State) : (s.dropTree).inputs = s.inputs := rfl
@[simp] theorem State.dropTree_resp (s : State) : (s.dropTree).resp = s.resp := rfl
@[simp] theorem State.dropTree_draws (s : State) : (s.dropTree).draws = s.draws := rfl

/-! ### dropCodes -/

@[simp] theorem State.dropCodes_ie (s : State) : (s.dropCodes).ie = s.ie := rfl
@[simp] theorem State.dropCodes_done (s : State) : (s.dropCodes).done = s.done := rfl
@[simp] theorem State.dropCodes_ovr (s : State) : (s.dropCodes).ovr = s.ovr := rfl
@[simp] theorem State.dropCodes_treeValid (s : State) : (s.dropCodes).treeValid = s.treeValid := rfl
@[simp] theorem State.dropCodes_codeValid (s : State) : (s.dropCodes).codeValid = false := rfl
@[simp] theorem State.dropCodes_cmd (s : State) : (s.dropCodes).cmd = s.cmd := rfl
@[simp] theorem State.dropCodes_srcAddr (s : State) : (s.dropCodes).srcAddr = s.srcAddr := rfl
@[simp] theorem State.dropCodes_srcLen (s : State) : (s.dropCodes).srcLen = s.srcLen := rfl
@[simp] theorem State.dropCodes_dstAddr (s : State) : (s.dropCodes).dstAddr = s.dstAddr := rfl
@[simp] theorem State.dropCodes_dstCap (s : State) : (s.dropCodes).dstCap = s.dstCap := rfl
@[simp] theorem State.dropCodes_err (s : State) : (s.dropCodes).err = s.err := rfl
@[simp] theorem State.dropCodes_errInfo (s : State) : (s.dropCodes).errInfo = s.errInfo := rfl
@[simp] theorem State.dropCodes_resLen (s : State) : (s.dropCodes).resLen = s.resLen := rfl
@[simp] theorem State.dropCodes_resPad (s : State) : (s.dropCodes).resPad = s.resPad := rfl
@[simp] theorem State.dropCodes_resBits (s : State) : (s.dropCodes).resBits = s.resBits := rfl
@[simp] theorem State.dropCodes_nsym (s : State) : (s.dropCodes).nsym = s.nsym := rfl
@[simp] theorem State.dropCodes_nnode (s : State) : (s.dropCodes).nnode = s.nnode := rfl
@[simp] theorem State.dropCodes_freq (s : State) : (s.dropCodes).freq = s.freq := rfl
@[simp] theorem State.dropCodes_nodes (s : State) : (s.dropCodes).nodes = s.nodes := rfl
@[simp] theorem State.dropCodes_codes (s : State) : (s.dropCodes).codes = CodeTable.empty := rfl
@[simp] theorem State.dropCodes_latch (s : State) : (s.dropCodes).latch = s.latch := rfl
@[simp] theorem State.dropCodes_work (s : State) : (s.dropCodes).work = s.work := rfl
@[simp] theorem State.dropCodes_raced (s : State) : (s.dropCodes).raced = s.raced := rfl
@[simp] theorem State.dropCodes_mem (s : State) : (s.dropCodes).mem = s.mem := rfl
@[simp] theorem State.dropCodes_platform (s : State) : (s.dropCodes).platform = s.platform := rfl
@[simp] theorem State.dropCodes_inputs (s : State) : (s.dropCodes).inputs = s.inputs := rfl
@[simp] theorem State.dropCodes_resp (s : State) : (s.dropCodes).resp = s.resp := rfl
@[simp] theorem State.dropCodes_draws (s : State) : (s.dropCodes).draws = s.draws := rfl

/-! ### commitFreq -/

@[simp] theorem State.commitFreq_ie (t : FreqTable) (n : Nat) (s : State) : (s.commitFreq t n).ie = s.ie := rfl
@[simp] theorem State.commitFreq_done (t : FreqTable) (n : Nat) (s : State) : (s.commitFreq t n).done = s.done := rfl
@[simp] theorem State.commitFreq_ovr (t : FreqTable) (n : Nat) (s : State) : (s.commitFreq t n).ovr = s.ovr := rfl
@[simp] theorem State.commitFreq_treeValid (t : FreqTable) (n : Nat) (s : State) : (s.commitFreq t n).treeValid = false := rfl
@[simp] theorem State.commitFreq_codeValid (t : FreqTable) (n : Nat) (s : State) : (s.commitFreq t n).codeValid = false := rfl
@[simp] theorem State.commitFreq_cmd (t : FreqTable) (n : Nat) (s : State) : (s.commitFreq t n).cmd = s.cmd := rfl
@[simp] theorem State.commitFreq_srcAddr (t : FreqTable) (n : Nat) (s : State) : (s.commitFreq t n).srcAddr = s.srcAddr := rfl
@[simp] theorem State.commitFreq_srcLen (t : FreqTable) (n : Nat) (s : State) : (s.commitFreq t n).srcLen = s.srcLen := rfl
@[simp] theorem State.commitFreq_dstAddr (t : FreqTable) (n : Nat) (s : State) : (s.commitFreq t n).dstAddr = s.dstAddr := rfl
@[simp] theorem State.commitFreq_dstCap (t : FreqTable) (n : Nat) (s : State) : (s.commitFreq t n).dstCap = s.dstCap := rfl
@[simp] theorem State.commitFreq_err (t : FreqTable) (n : Nat) (s : State) : (s.commitFreq t n).err = s.err := rfl
@[simp] theorem State.commitFreq_errInfo (t : FreqTable) (n : Nat) (s : State) : (s.commitFreq t n).errInfo = s.errInfo := rfl
@[simp] theorem State.commitFreq_resLen (t : FreqTable) (n : Nat) (s : State) : (s.commitFreq t n).resLen = s.resLen := rfl
@[simp] theorem State.commitFreq_resPad (t : FreqTable) (n : Nat) (s : State) : (s.commitFreq t n).resPad = s.resPad := rfl
@[simp] theorem State.commitFreq_resBits (t : FreqTable) (n : Nat) (s : State) : (s.commitFreq t n).resBits = s.resBits := rfl
@[simp] theorem State.commitFreq_nsym (t : FreqTable) (n : Nat) (s : State) : (s.commitFreq t n).nsym = BitVec.ofNat 9 n := rfl
@[simp] theorem State.commitFreq_nnode (t : FreqTable) (n : Nat) (s : State) : (s.commitFreq t n).nnode = 0 := rfl
@[simp] theorem State.commitFreq_freq (t : FreqTable) (n : Nat) (s : State) : (s.commitFreq t n).freq = t := rfl
@[simp] theorem State.commitFreq_nodes (t : FreqTable) (n : Nat) (s : State) : (s.commitFreq t n).nodes = NodeStore.empty := rfl
@[simp] theorem State.commitFreq_codes (t : FreqTable) (n : Nat) (s : State) : (s.commitFreq t n).codes = CodeTable.empty := rfl
@[simp] theorem State.commitFreq_latch (t : FreqTable) (n : Nat) (s : State) : (s.commitFreq t n).latch = s.latch := rfl
@[simp] theorem State.commitFreq_work (t : FreqTable) (n : Nat) (s : State) : (s.commitFreq t n).work = s.work := rfl
@[simp] theorem State.commitFreq_raced (t : FreqTable) (n : Nat) (s : State) : (s.commitFreq t n).raced = s.raced := rfl
@[simp] theorem State.commitFreq_mem (t : FreqTable) (n : Nat) (s : State) : (s.commitFreq t n).mem = s.mem := rfl
@[simp] theorem State.commitFreq_platform (t : FreqTable) (n : Nat) (s : State) : (s.commitFreq t n).platform = s.platform := rfl
@[simp] theorem State.commitFreq_inputs (t : FreqTable) (n : Nat) (s : State) : (s.commitFreq t n).inputs = s.inputs := rfl
@[simp] theorem State.commitFreq_resp (t : FreqTable) (n : Nat) (s : State) : (s.commitFreq t n).resp = s.resp := rfl
@[simp] theorem State.commitFreq_draws (t : FreqTable) (n : Nat) (s : State) : (s.commitFreq t n).draws = s.draws := rfl

/-! ### commitTree -/

@[simp] theorem State.commitTree_ie (t : NodeStore) (s : State) : (s.commitTree t).ie = s.ie := rfl
@[simp] theorem State.commitTree_done (t : NodeStore) (s : State) : (s.commitTree t).done = s.done := rfl
@[simp] theorem State.commitTree_ovr (t : NodeStore) (s : State) : (s.commitTree t).ovr = s.ovr := rfl
@[simp] theorem State.commitTree_treeValid (t : NodeStore) (s : State) : (s.commitTree t).treeValid = true := rfl
@[simp] theorem State.commitTree_codeValid (t : NodeStore) (s : State) : (s.commitTree t).codeValid = false := rfl
@[simp] theorem State.commitTree_cmd (t : NodeStore) (s : State) : (s.commitTree t).cmd = s.cmd := rfl
@[simp] theorem State.commitTree_srcAddr (t : NodeStore) (s : State) : (s.commitTree t).srcAddr = s.srcAddr := rfl
@[simp] theorem State.commitTree_srcLen (t : NodeStore) (s : State) : (s.commitTree t).srcLen = s.srcLen := rfl
@[simp] theorem State.commitTree_dstAddr (t : NodeStore) (s : State) : (s.commitTree t).dstAddr = s.dstAddr := rfl
@[simp] theorem State.commitTree_dstCap (t : NodeStore) (s : State) : (s.commitTree t).dstCap = s.dstCap := rfl
@[simp] theorem State.commitTree_err (t : NodeStore) (s : State) : (s.commitTree t).err = s.err := rfl
@[simp] theorem State.commitTree_errInfo (t : NodeStore) (s : State) : (s.commitTree t).errInfo = s.errInfo := rfl
@[simp] theorem State.commitTree_resLen (t : NodeStore) (s : State) : (s.commitTree t).resLen = s.resLen := rfl
@[simp] theorem State.commitTree_resPad (t : NodeStore) (s : State) : (s.commitTree t).resPad = s.resPad := rfl
@[simp] theorem State.commitTree_resBits (t : NodeStore) (s : State) : (s.commitTree t).resBits = s.resBits := rfl
@[simp] theorem State.commitTree_nsym (t : NodeStore) (s : State) : (s.commitTree t).nsym = s.nsym := rfl
@[simp] theorem State.commitTree_nnode (t : NodeStore) (s : State) : (s.commitTree t).nnode = BitVec.ofNat 10 (treeSize s.freq) := rfl
@[simp] theorem State.commitTree_freq (t : NodeStore) (s : State) : (s.commitTree t).freq = s.freq := rfl
@[simp] theorem State.commitTree_nodes (t : NodeStore) (s : State) : (s.commitTree t).nodes = t := rfl
@[simp] theorem State.commitTree_codes (t : NodeStore) (s : State) : (s.commitTree t).codes = CodeTable.empty := rfl
@[simp] theorem State.commitTree_latch (t : NodeStore) (s : State) : (s.commitTree t).latch = s.latch := rfl
@[simp] theorem State.commitTree_work (t : NodeStore) (s : State) : (s.commitTree t).work = s.work := rfl
@[simp] theorem State.commitTree_raced (t : NodeStore) (s : State) : (s.commitTree t).raced = s.raced := rfl
@[simp] theorem State.commitTree_mem (t : NodeStore) (s : State) : (s.commitTree t).mem = s.mem := rfl
@[simp] theorem State.commitTree_platform (t : NodeStore) (s : State) : (s.commitTree t).platform = s.platform := rfl
@[simp] theorem State.commitTree_inputs (t : NodeStore) (s : State) : (s.commitTree t).inputs = s.inputs := rfl
@[simp] theorem State.commitTree_resp (t : NodeStore) (s : State) : (s.commitTree t).resp = s.resp := rfl
@[simp] theorem State.commitTree_draws (t : NodeStore) (s : State) : (s.commitTree t).draws = s.draws := rfl

/-! ### commitCodes -/

@[simp] theorem State.commitCodes_ie (c : CodeTable) (s : State) : (s.commitCodes c).ie = s.ie := rfl
@[simp] theorem State.commitCodes_done (c : CodeTable) (s : State) : (s.commitCodes c).done = s.done := rfl
@[simp] theorem State.commitCodes_ovr (c : CodeTable) (s : State) : (s.commitCodes c).ovr = s.ovr := rfl
@[simp] theorem State.commitCodes_treeValid (c : CodeTable) (s : State) : (s.commitCodes c).treeValid = s.treeValid := rfl
@[simp] theorem State.commitCodes_codeValid (c : CodeTable) (s : State) : (s.commitCodes c).codeValid = true := rfl
@[simp] theorem State.commitCodes_cmd (c : CodeTable) (s : State) : (s.commitCodes c).cmd = s.cmd := rfl
@[simp] theorem State.commitCodes_srcAddr (c : CodeTable) (s : State) : (s.commitCodes c).srcAddr = s.srcAddr := rfl
@[simp] theorem State.commitCodes_srcLen (c : CodeTable) (s : State) : (s.commitCodes c).srcLen = s.srcLen := rfl
@[simp] theorem State.commitCodes_dstAddr (c : CodeTable) (s : State) : (s.commitCodes c).dstAddr = s.dstAddr := rfl
@[simp] theorem State.commitCodes_dstCap (c : CodeTable) (s : State) : (s.commitCodes c).dstCap = s.dstCap := rfl
@[simp] theorem State.commitCodes_err (c : CodeTable) (s : State) : (s.commitCodes c).err = s.err := rfl
@[simp] theorem State.commitCodes_errInfo (c : CodeTable) (s : State) : (s.commitCodes c).errInfo = s.errInfo := rfl
@[simp] theorem State.commitCodes_resLen (c : CodeTable) (s : State) : (s.commitCodes c).resLen = s.resLen := rfl
@[simp] theorem State.commitCodes_resPad (c : CodeTable) (s : State) : (s.commitCodes c).resPad = s.resPad := rfl
@[simp] theorem State.commitCodes_resBits (c : CodeTable) (s : State) : (s.commitCodes c).resBits = s.resBits := rfl
@[simp] theorem State.commitCodes_nsym (c : CodeTable) (s : State) : (s.commitCodes c).nsym = s.nsym := rfl
@[simp] theorem State.commitCodes_nnode (c : CodeTable) (s : State) : (s.commitCodes c).nnode = s.nnode := rfl
@[simp] theorem State.commitCodes_freq (c : CodeTable) (s : State) : (s.commitCodes c).freq = s.freq := rfl
@[simp] theorem State.commitCodes_nodes (c : CodeTable) (s : State) : (s.commitCodes c).nodes = s.nodes := rfl
@[simp] theorem State.commitCodes_codes (c : CodeTable) (s : State) : (s.commitCodes c).codes = c := rfl
@[simp] theorem State.commitCodes_latch (c : CodeTable) (s : State) : (s.commitCodes c).latch = s.latch := rfl
@[simp] theorem State.commitCodes_work (c : CodeTable) (s : State) : (s.commitCodes c).work = s.work := rfl
@[simp] theorem State.commitCodes_raced (c : CodeTable) (s : State) : (s.commitCodes c).raced = s.raced := rfl
@[simp] theorem State.commitCodes_mem (c : CodeTable) (s : State) : (s.commitCodes c).mem = s.mem := rfl
@[simp] theorem State.commitCodes_platform (c : CodeTable) (s : State) : (s.commitCodes c).platform = s.platform := rfl
@[simp] theorem State.commitCodes_inputs (c : CodeTable) (s : State) : (s.commitCodes c).inputs = s.inputs := rfl
@[simp] theorem State.commitCodes_resp (c : CodeTable) (s : State) : (s.commitCodes c).resp = s.resp := rfl
@[simp] theorem State.commitCodes_draws (c : CodeTable) (s : State) : (s.commitCodes c).draws = s.draws := rfl

/-! ### race -/

@[simp] theorem State.race_ie (s : State) : (s.race).ie = s.ie := rfl
@[simp] theorem State.race_done (s : State) : (s.race).done = s.done := rfl
@[simp] theorem State.race_ovr (s : State) : (s.race).ovr = s.ovr := rfl
@[simp] theorem State.race_treeValid (s : State) : (s.race).treeValid = s.treeValid := rfl
@[simp] theorem State.race_codeValid (s : State) : (s.race).codeValid = s.codeValid := rfl
@[simp] theorem State.race_cmd (s : State) : (s.race).cmd = s.cmd := rfl
@[simp] theorem State.race_srcAddr (s : State) : (s.race).srcAddr = s.srcAddr := rfl
@[simp] theorem State.race_srcLen (s : State) : (s.race).srcLen = s.srcLen := rfl
@[simp] theorem State.race_dstAddr (s : State) : (s.race).dstAddr = s.dstAddr := rfl
@[simp] theorem State.race_dstCap (s : State) : (s.race).dstCap = s.dstCap := rfl
@[simp] theorem State.race_err (s : State) : (s.race).err = s.err := rfl
@[simp] theorem State.race_errInfo (s : State) : (s.race).errInfo = s.errInfo := rfl
@[simp] theorem State.race_resLen (s : State) : (s.race).resLen = s.resLen := rfl
@[simp] theorem State.race_resPad (s : State) : (s.race).resPad = s.resPad := rfl
@[simp] theorem State.race_resBits (s : State) : (s.race).resBits = s.resBits := rfl
@[simp] theorem State.race_nsym (s : State) : (s.race).nsym = s.nsym := rfl
@[simp] theorem State.race_nnode (s : State) : (s.race).nnode = s.nnode := rfl
@[simp] theorem State.race_freq (s : State) : (s.race).freq = s.freq := rfl
@[simp] theorem State.race_nodes (s : State) : (s.race).nodes = s.nodes := rfl
@[simp] theorem State.race_codes (s : State) : (s.race).codes = s.codes := rfl
@[simp] theorem State.race_latch (s : State) : (s.race).latch = s.latch := rfl
@[simp] theorem State.race_work (s : State) : (s.race).work = .accepted := rfl
@[simp] theorem State.race_raced (s : State) : (s.race).raced = true := rfl
@[simp] theorem State.race_mem (s : State) : (s.race).mem = s.mem := rfl
@[simp] theorem State.race_platform (s : State) : (s.race).platform = s.platform := rfl
@[simp] theorem State.race_inputs (s : State) : (s.race).inputs = s.inputs := rfl
@[simp] theorem State.race_resp (s : State) : (s.race).resp = s.resp := rfl
@[simp] theorem State.race_draws (s : State) : (s.race).draws = s.draws := rfl

/-! ### writeStatus -/

@[simp] theorem State.writeStatus_ie (w : Word) (s : State) : (s.writeStatus w).ie = s.ie := rfl
@[simp] theorem State.writeStatus_done (w : Word) (s : State) : (s.writeStatus w).done = (s.done && !w.getLsbD 1) := rfl
@[simp] theorem State.writeStatus_ovr (w : Word) (s : State) : (s.writeStatus w).ovr = (s.ovr && !w.getLsbD 3) := rfl
@[simp] theorem State.writeStatus_treeValid (w : Word) (s : State) : (s.writeStatus w).treeValid = s.treeValid := rfl
@[simp] theorem State.writeStatus_codeValid (w : Word) (s : State) : (s.writeStatus w).codeValid = s.codeValid := rfl
@[simp] theorem State.writeStatus_cmd (w : Word) (s : State) : (s.writeStatus w).cmd = s.cmd := rfl
@[simp] theorem State.writeStatus_srcAddr (w : Word) (s : State) : (s.writeStatus w).srcAddr = s.srcAddr := rfl
@[simp] theorem State.writeStatus_srcLen (w : Word) (s : State) : (s.writeStatus w).srcLen = s.srcLen := rfl
@[simp] theorem State.writeStatus_dstAddr (w : Word) (s : State) : (s.writeStatus w).dstAddr = s.dstAddr := rfl
@[simp] theorem State.writeStatus_dstCap (w : Word) (s : State) : (s.writeStatus w).dstCap = s.dstCap := rfl
@[simp] theorem State.writeStatus_err (w : Word) (s : State) : (s.writeStatus w).err = s.err := rfl
@[simp] theorem State.writeStatus_errInfo (w : Word) (s : State) : (s.writeStatus w).errInfo = s.errInfo := rfl
@[simp] theorem State.writeStatus_resLen (w : Word) (s : State) : (s.writeStatus w).resLen = s.resLen := rfl
@[simp] theorem State.writeStatus_resPad (w : Word) (s : State) : (s.writeStatus w).resPad = s.resPad := rfl
@[simp] theorem State.writeStatus_resBits (w : Word) (s : State) : (s.writeStatus w).resBits = s.resBits := rfl
@[simp] theorem State.writeStatus_nsym (w : Word) (s : State) : (s.writeStatus w).nsym = s.nsym := rfl
@[simp] theorem State.writeStatus_nnode (w : Word) (s : State) : (s.writeStatus w).nnode = s.nnode := rfl
@[simp] theorem State.writeStatus_freq (w : Word) (s : State) : (s.writeStatus w).freq = s.freq := rfl
@[simp] theorem State.writeStatus_nodes (w : Word) (s : State) : (s.writeStatus w).nodes = s.nodes := rfl
@[simp] theorem State.writeStatus_codes (w : Word) (s : State) : (s.writeStatus w).codes = s.codes := rfl
@[simp] theorem State.writeStatus_latch (w : Word) (s : State) : (s.writeStatus w).latch = s.latch := rfl
@[simp] theorem State.writeStatus_work (w : Word) (s : State) : (s.writeStatus w).work = s.work := rfl
@[simp] theorem State.writeStatus_raced (w : Word) (s : State) : (s.writeStatus w).raced = s.raced := rfl
@[simp] theorem State.writeStatus_mem (w : Word) (s : State) : (s.writeStatus w).mem = s.mem := rfl
@[simp] theorem State.writeStatus_platform (w : Word) (s : State) : (s.writeStatus w).platform = s.platform := rfl
@[simp] theorem State.writeStatus_inputs (w : Word) (s : State) : (s.writeStatus w).inputs = s.inputs := rfl
@[simp] theorem State.writeStatus_resp (w : Word) (s : State) : (s.writeStatus w).resp = s.resp := rfl
@[simp] theorem State.writeStatus_draws (w : Word) (s : State) : (s.writeStatus w).draws = s.draws := rfl

/-! ### resetBlock -/

@[simp] theorem State.resetBlock_ie (s : State) : (s.resetBlock).ie = State.reset.ie := by
  unfold State.resetBlock; split <;> simp_all
@[simp] theorem State.resetBlock_done (s : State) : (s.resetBlock).done = State.reset.done := by
  unfold State.resetBlock; split <;> simp_all
@[simp] theorem State.resetBlock_ovr (s : State) : (s.resetBlock).ovr = State.reset.ovr := by
  unfold State.resetBlock; split <;> simp_all
@[simp] theorem State.resetBlock_treeValid (s : State) : (s.resetBlock).treeValid = State.reset.treeValid := by
  unfold State.resetBlock; split <;> simp_all
@[simp] theorem State.resetBlock_codeValid (s : State) : (s.resetBlock).codeValid = State.reset.codeValid := by
  unfold State.resetBlock; split <;> simp_all
@[simp] theorem State.resetBlock_cmd (s : State) : (s.resetBlock).cmd = State.reset.cmd := by
  unfold State.resetBlock; split <;> simp_all
@[simp] theorem State.resetBlock_srcAddr (s : State) : (s.resetBlock).srcAddr = State.reset.srcAddr := by
  unfold State.resetBlock; split <;> simp_all
@[simp] theorem State.resetBlock_srcLen (s : State) : (s.resetBlock).srcLen = State.reset.srcLen := by
  unfold State.resetBlock; split <;> simp_all
@[simp] theorem State.resetBlock_dstAddr (s : State) : (s.resetBlock).dstAddr = State.reset.dstAddr := by
  unfold State.resetBlock; split <;> simp_all
@[simp] theorem State.resetBlock_dstCap (s : State) : (s.resetBlock).dstCap = State.reset.dstCap := by
  unfold State.resetBlock; split <;> simp_all
@[simp] theorem State.resetBlock_err (s : State) : (s.resetBlock).err = State.reset.err := by
  unfold State.resetBlock; split <;> simp_all
@[simp] theorem State.resetBlock_errInfo (s : State) : (s.resetBlock).errInfo = State.reset.errInfo := by
  unfold State.resetBlock; split <;> simp_all
@[simp] theorem State.resetBlock_resLen (s : State) : (s.resetBlock).resLen = State.reset.resLen := by
  unfold State.resetBlock; split <;> simp_all
@[simp] theorem State.resetBlock_resPad (s : State) : (s.resetBlock).resPad = State.reset.resPad := by
  unfold State.resetBlock; split <;> simp_all
@[simp] theorem State.resetBlock_resBits (s : State) : (s.resetBlock).resBits = State.reset.resBits := by
  unfold State.resetBlock; split <;> simp_all
@[simp] theorem State.resetBlock_nsym (s : State) : (s.resetBlock).nsym = State.reset.nsym := by
  unfold State.resetBlock; split <;> simp_all
@[simp] theorem State.resetBlock_nnode (s : State) : (s.resetBlock).nnode = State.reset.nnode := by
  unfold State.resetBlock; split <;> simp_all
@[simp] theorem State.resetBlock_freq (s : State) : (s.resetBlock).freq = State.reset.freq := by
  unfold State.resetBlock; split <;> simp_all
@[simp] theorem State.resetBlock_nodes (s : State) : (s.resetBlock).nodes = State.reset.nodes := by
  unfold State.resetBlock; split <;> simp_all
@[simp] theorem State.resetBlock_codes (s : State) : (s.resetBlock).codes = State.reset.codes := by
  unfold State.resetBlock; split <;> simp_all
@[simp] theorem State.resetBlock_latch (s : State) : (s.resetBlock).latch = State.reset.latch := by
  unfold State.resetBlock; split <;> simp_all
@[simp] theorem State.resetBlock_work (s : State) : (s.resetBlock).work = State.reset.work := by
  unfold State.resetBlock; split <;> simp_all
@[simp] theorem State.resetBlock_raced (s : State) : (s.resetBlock).raced = State.reset.raced := by
  unfold State.resetBlock; split <;> simp_all
@[simp] theorem State.resetBlock_mem (s : State) : (s.resetBlock).mem = if s.runningDst then s.mem.havoc s.latch.dstAddr.toNat s.dstEnd s.draws else s.mem := by
  unfold State.resetBlock; split <;> simp_all
@[simp] theorem State.resetBlock_platform (s : State) : (s.resetBlock).platform = s.platform := by
  unfold State.resetBlock; split <;> simp_all
@[simp] theorem State.resetBlock_inputs (s : State) : (s.resetBlock).inputs = s.inputs := by
  unfold State.resetBlock; split <;> simp_all
@[simp] theorem State.resetBlock_resp (s : State) : (s.resetBlock).resp = s.resp := by
  unfold State.resetBlock; split <;> simp_all
@[simp] theorem State.resetBlock_draws (s : State) : (s.resetBlock).draws = if s.runningDst then s.draws + 1 else s.draws := by
  unfold State.resetBlock; split <;> simp_all

end Sys2Proof.Machine
end

