-- ==== Sys2Proof/Laws/Ops.lean ====
section
/-! SUPPORT. One lemma for each shared operation that says what it can do: the tables, the memory port, the loops, the
pre-checks and the end of a body. -/

namespace Sys2Proof.Machine

/-! ### Tables -/

@[simp] theorem tableGet_tableSet {α : Type} (t : Vector α 256) (a b : Byte) (v : α) :
    tableGet (tableSet t a v) b = if b = a then v else tableGet t b := by
  unfold tableGet tableSet
  rw [Vector.getElem_set]
  by_cases h : b = a
  · simp [h]
  · rw [if_neg h, if_neg]
    intro h'
    exact h (BitVec.eq_of_toNat_eq h'.symm)

@[simp] theorem tableGet_replicate {α : Type} (v : α) (a : Byte) : tableGet (Vector.replicate 256 v) a = v := by
  simp [tableGet]

theorem nodeAt_setIfInBounds (t : NodeStore) (i j : Nat) (n : Node) :
    nodeAt (t.setIfInBounds i n) j = if i = j ∧ j < 511 then n else nodeAt t j := by
  unfold nodeAt
  rw [Vector.getElem?_setIfInBounds]
  by_cases h : i = j
  · subst h; by_cases h' : i < 511 <;> simp [h']
  · simp [h]

theorem nodeAt_empty (i : Nat) : nodeAt NodeStore.empty i = Node.zero := by
  unfold nodeAt NodeStore.empty
  by_cases h : i < 511 <;> simp [h]

/-! ### The memory port -/

@[simp] theorem State.port_mem (s : State) : s.port.mem = s.mem := rfl
@[simp] theorem State.port_draws (s : State) : s.port.draws = s.draws := rfl
@[simp] theorem State.withPort_port (s : State) : s.withPort s.port = s := rfl

/-- The port a result leaves. -/
def Result.port {α : Type} : Result α → Port
  | .ok _ p => p
  | .raise _ p => p

@[simp] theorem Result.bind_ok {α β : Type} (a : α) (p : Port) (f : α → Port → Result β) :
    (Result.ok a p).bind f = f a p := rfl

@[simp] theorem Result.bind_raise {α β : Type} (e : Raise) (p : Port) (f : α → Port → Result β) :
    (Result.raise e p : Result α).bind f = .raise e p := rfl

/-- A result of a sequence comes from a result of its first part. -/
theorem Result.bind_eq_ok {α β : Type} {r : Result α} {f : α → Port → Result β} {b : β} {q : Port} :
    r.bind f = .ok b q ↔ ∃ a p, r = .ok a p ∧ f a p = .ok b q := by
  cases r <;> simp

/-- A raise of a sequence comes from its first part, or from the rest after a result. -/
theorem Result.bind_eq_raise {α β : Type} {r : Result α} {f : α → Port → Result β} {e : Raise} {q : Port} :
    r.bind f = .raise e q ↔ r = .raise e q ∨ ∃ a p, r = .ok a p ∧ f a p = .raise e q := by
  cases r <;> simp

/-- A read that does not fail, with no duty broken, gives the byte in memory and changes nothing. -/
theorem memRead1_ok {s : State} {a : Word} {p : Port} (hf : s.platform.memFault a .read = false)
    (hr : s.raced = false) : memRead1 s a p = .ok (p.mem.read a.toNat) p := by
  simp [memRead1, hf, hr]

/-- A failing read raises BUS with its address. -/
theorem memRead1_fault {s : State} {a : Word} {p : Port} (hf : s.platform.memFault a .read = true) :
    memRead1 s a p = .raise ⟨.bus, a⟩ p := by
  simp [memRead1, hf]

/-- A read never changes memory and never gives back a draw. -/
theorem memRead1_port (s : State) (a : Word) (p : Port) :
    (memRead1 s a p).port.mem = p.mem ∧ p.draws ≤ (memRead1 s a p).port.draws := by
  unfold memRead1
  split
  · exact ⟨rfl, le_rfl⟩
  · split
    · exact ⟨rfl, Nat.le_succ _⟩
    · exact ⟨rfl, le_rfl⟩

theorem memWrite1_ok {s : State} {a : Word} {v : Byte} {p : Port} (hf : s.platform.memFault a .write = false) :
    memWrite1 s a v p = .ok () { p with mem := p.mem.write a.toNat v } := by
  simp [memWrite1, hf]

theorem memWrite1_fault {s : State} {a : Word} {v : Byte} {p : Port} (hf : s.platform.memFault a .write = true) :
    memWrite1 s a v p = .raise ⟨.bus, a⟩ p := by
  simp [memWrite1, hf]

/-- What a part of a command's body may do to the port: memory changes only in `[lo, hi)`, its canonical form stays, and
free values are only drawn. -/
structure Port.Within (lo hi : Nat) (p q : Port) : Prop where
  read : ∀ a, a < lo ∨ hi ≤ a → q.mem.read a = p.mem.read a
  wf : p.mem.wf → q.mem.wf
  draws : p.draws ≤ q.draws

theorem Port.Within.refl (lo hi : Nat) (p : Port) : Port.Within lo hi p p := ⟨fun _ _ => rfl, id, le_rfl⟩

theorem Port.Within.trans {lo hi : Nat} {p q r : Port} (h : Port.Within lo hi p q) (h' : Port.Within lo hi q r) :
    Port.Within lo hi p r :=
  ⟨fun a ha => (h'.read a ha).trans (h.read a ha), fun hw => h'.wf (h.wf hw), h.draws.trans h'.draws⟩

theorem Port.Within.mono {lo hi lo' hi' : Nat} {p q : Port} (h : Port.Within lo hi p q) (hl : lo' ≤ lo)
    (hh : hi ≤ hi') : Port.Within lo' hi' p q :=
  ⟨fun a ha => h.read a (by omega), h.wf, h.draws⟩

theorem memRead1_within (s : State) (a : Word) (p : Port) (lo hi : Nat) :
    Port.Within lo hi p (memRead1 s a p).port := by
  obtain ⟨hm, hd⟩ := memRead1_port s a p
  exact ⟨fun b _ => by rw [hm], fun hw => by rw [hm]; exact hw, hd⟩

theorem memWrite1_within {s : State} {a : Word} {v : Byte} {p : Port} {lo hi : Nat} (hl : lo ≤ a.toNat)
    (hh : a.toNat < hi) : Port.Within lo hi p (memWrite1 s a v p).port := by
  unfold memWrite1
  split
  · exact .refl _ _ _
  · refine ⟨fun b hb => ?_, fun hw => Memory.write_wf hw v a.isLt, le_rfl⟩
    exact p.mem.read_write_other v (by omega)

theorem Result.bind_within {α β : Type} {r : Result α} {f : α → Port → Result β} {p : Port} {lo hi : Nat}
    (h : Port.Within lo hi p r.port) (hf : ∀ a q, r = .ok a q → Port.Within lo hi q (f a q).port) :
    Port.Within lo hi p (r.bind f).port := by
  cases r with
  | raise e q => exact h
  | ok a q => exact h.trans (hf a q rfl)

theorem memReadN_within (s : State) (lo hi n : Nat) : ∀ (a : Word) (p : Port),
    Port.Within lo hi p (memReadN s a n p).port := by
  induction n with
  | zero => exact fun _ p => .refl _ _ p
  | succ n ih =>
    intro a p
    exact Result.bind_within (memRead1_within ..) fun _ _ _ =>
      Result.bind_within (ih ..) fun _ q _ => .refl _ _ q

theorem memReadBE32_within (s : State) (a : Word) (p : Port) (lo hi : Nat) :
    Port.Within lo hi p (memReadBE32 s a p).port :=
  Result.bind_within (memReadN_within ..) fun _ q _ => .refl _ _ q

theorem memWriteN_within {s : State} {lo hi : Nat} (vs : List Byte) : ∀ {a : Word} {p : Port}, lo ≤ a.toNat →
    a.toNat + vs.length ≤ hi → hi ≤ 2 ^ 32 → Port.Within lo hi p (memWriteN s a vs p).port := by
  induction vs with
  | nil => exact fun _ _ _ => .refl _ _ _
  | cons v vs ih =>
    intro a p hl hh hb
    simp only [List.length_cons] at hh
    refine Result.bind_within (memWrite1_within hl (by omega)) fun _ q _ => ?_
    cases vs with
    | nil => exact .refl _ _ _
    | cons w ws =>
      simp only [List.length_cons] at hh
      have ha : (a + 1).toNat = a.toNat + 1 := by
        rw [BitVec.toNat_add]; simp; omega
      exact ih (by omega) (by simp only [List.length_cons]; omega) hb

/-- The address of a destination byte does not wrap inside a buffer that fits (R105). -/
theorem State.dstAt_toNat {s : State} {i : Nat} (h : s.latch.dstAddr.toNat + i < 2 ^ 32) :
    (s.dstAt i).toNat = s.latch.dstAddr.toNat + i := by
  unfold State.dstAt
  rw [BitVec.toNat_add, BitVec.toNat_ofNat]
  omega

/-- The address of a source byte does not wrap inside a buffer that fits (R105). -/
theorem State.srcAt_toNat {s : State} {i : Nat} (h : s.latch.srcAddr.toNat + i < 2 ^ 32) :
    (s.srcAt i).toNat = s.latch.srcAddr.toNat + i := by
  unfold State.srcAt
  rw [BitVec.toNat_add, BitVec.toNat_ofNat]
  omega

/-- `emit` writes the next byte of the buffer, or raises and writes nothing. -/
theorem emit_within {s : State} {out : Nat} {v : Byte} {p : Port} (hd : s.DstFits)
    (ho : out ≤ s.latch.dstCap.toNat) :
    Port.Within s.latch.dstAddr.toNat (s.latch.dstAddr.toNat + s.latch.dstCap.toNat) p (emit s out v p).port := by
  unfold emit
  unfold State.DstFits at hd
  split
  · exact .refl _ _ _
  · next hne =>
    have := State.dstAt_toNat (s := s) (i := out) (by omega)
    exact Result.bind_within (memWrite1_within (by omega) (by omega)) fun _ q _ => .refl _ _ q

/-- A result of `emit` counts one byte more and stays inside the capacity. -/
theorem emit_ok {s : State} {out out' : Nat} {v : Byte} {p q : Port} (h : emit s out v p = .ok out' q)
    (ho : out ≤ s.latch.dstCap.toNat) : out' = out + 1 ∧ out' ≤ s.latch.dstCap.toNat := by
  unfold emit at h
  split at h
  · cases h
  · obtain ⟨_, _, _, h'⟩ := Result.bind_eq_ok.1 h
    cases h'
    omega

/-! ### Loops -/

@[simp] theorem iterate_zero {α : Type} (body : Port → α → Result α) (p : Port) (a : α) :
    iterate body 0 p a = .ok a p := rfl

theorem iterate_succ {α : Type} (body : Port → α → Result α) (n : Nat) (p : Port) (a : α) :
    iterate body (n + 1) p a = (body p a).bind fun a₁ p₁ => iterate body n p₁ a₁ := rfl

@[simp] theorem repeatN_zero {α : Type} (f : α → α) (a : α) : repeatN f 0 a = a := rfl

theorem repeatN_succ {α : Type} (f : α → α) (n : Nat) (a : α) : repeatN f (n + 1) a = repeatN f n (f a) := rfl

/-- What every iteration keeps, the loop keeps. -/
theorem iterate_invariant {α : Type} {body : Port → α → Result α} (P : α → Port → Prop)
    (hb : ∀ a p a' p', P a p → body p a = .ok a' p' → P a' p') :
    ∀ n a p a' p', P a p → iterate body n p a = .ok a' p' → P a' p' := by
  intro n
  induction n with
  | zero => intro a p a' p' h he; cases he; exact h
  | succ n ih =>
    intro a p a' p' h he
    obtain ⟨a₁, p₁, h₁, h₂⟩ := Result.bind_eq_ok.1 ((iterate_succ ..).symm.trans he)
    exact ih a₁ p₁ a' p' (hb a p a₁ p₁ h h₁) h₂

/-- A loop whose iterations stay inside a range stays inside it, and so does a raise of one. -/
theorem iterate_within {α : Type} {body : Port → α → Result α} {lo hi : Nat} (P : α → Prop)
    (hb : ∀ a p, P a → Port.Within lo hi p (body p a).port)
    (hk : ∀ a p a' p', P a → body p a = .ok a' p' → P a') :
    ∀ n a p, P a → Port.Within lo hi p (iterate body n p a).port := by
  intro n
  induction n with
  | zero => exact fun _ p _ => .refl _ _ p
  | succ n ih =>
    intro a p h
    rw [iterate_succ]
    exact Result.bind_within (hb a p h) fun a₁ p₁ h₁ => ih a₁ p₁ (hk a p a₁ p₁ h h₁)

theorem repeatN_invariant {α : Type} {f : α → α} (P : α → Prop) (hf : ∀ a, P a → P (f a)) :
    ∀ n a, P a → P (repeatN f n a) := by
  intro n
  induction n with
  | zero => exact fun _ h => h
  | succ n ih => exact fun a h => ih (f a) (hf a h)

/-! ### Pre-checks and the end of a body -/

@[simp] theorem firstError_nil : firstError [] = none := rfl
@[simp] theorem firstError_none (cs : List (Option Raise)) : firstError (none :: cs) = firstError cs := rfl
@[simp] theorem firstError_some (e : Raise) (cs : List (Option Raise)) : firstError (some e :: cs) = some e := rfl

@[simp] theorem raiseIf_false (e : Raise) : raiseIf false e = none := rfl
@[simp] theorem raiseIf_true (e : Raise) : raiseIf true e = some e := rfl

/-- No pre-check raises exactly when every one passes. -/
theorem firstError_eq_none {cs : List (Option Raise)} : firstError cs = none ↔ ∀ c ∈ cs, c = none := by
  induction cs with
  | nil => simp
  | cons c cs ih => cases c <;> simp [ih]

/-- A command's pre-checks end it with the first error, refuse a buffer on a device, or let it
go on. -/
theorem preChecked_eq (s : State) (checks : List (Option Raise)) (onDevice usesDst : Bool)
    (go : Host.Outcome State Fault Refusal) :
    (∃ e, firstError checks = some e ∧
        preChecked s checks onDevice usesDst go = .next ((if usesDst then s.settleDst else s).raise e)) ∨
    (firstError checks = none ∧ onDevice = true ∧ preChecked s checks onDevice usesDst go = .refused .deviceBuffer) ∨
    (firstError checks = none ∧ onDevice = false ∧ preChecked s checks onDevice usesDst go = go) := by
  unfold preChecked
  cases h : firstError checks with
  | some e => exact .inl ⟨e, rfl, rfl⟩
  | none => cases onDevice <;> simp

@[simp] theorem endBody_ok {α : Type} (s : State) (usesDst : Bool) (a : α) (p : Port)
    (go : α → Port → Host.Outcome State Fault Refusal) : endBody s usesDst (.ok a p) go = go a p := rfl

@[simp] theorem endBody_raise {α : Type} (s : State) (usesDst : Bool) (e : Raise) (p : Port)
    (go : α → Port → Host.Outcome State Fault Refusal) :
    endBody s usesDst (.raise e p) go =
      .next ((s.withPort p).fail usesDst e) := rfl

/-- An engine step of a loop followed by the rest of the loop is the loop: the state after one iteration, given all the
time it needs, ends as the loop does. -/
theorem runLoop_after_step {α : Type} {s s₁ : State} {usesDst : Bool} {body : Port → α → Result α} {left : Nat}
    {finish : α → Port → Host.Outcome State Fault Refusal} {w w₁ : α} {p₁ : Port}
    (hb : body s.port w = .ok w₁ p₁) (hs : s₁.port = p₁)
    (hfin : ∀ e p, (s₁.withPort p).fail usesDst e = (s.withPort p).fail usesDst e) :
    runLoop s usesDst body (left + 1) finish w = runLoop s₁ usesDst body left finish w₁ := by
  unfold runLoop
  rw [iterate_succ, hb, Result.bind_ok, hs]
  cases iterate body left p₁ w₁ with
  | ok a p => rfl
  | raise e p => simp only [endBody_raise, hfin]

end Sys2Proof.Machine
end

