-- ==== Sys2Proof/Laws/Exec.lean ====
section
/-! SUPPORT. What each command can end in, said once: the pre-check error, the error of the body, or the completion, with what
the command did to the memory port. Later proofs cite `exec_ends` instead of unfolding a command. -/

namespace Sys2Proof.Machine

/-! ### Reasoning about a body -/

/-- `P` holds of a result and its port, `Q` of a raise and its port. -/
def Result.All {α : Type} (P : α → Port → Prop) (Q : Raise → Port → Prop) : Result α → Prop
  | .ok a p => P a p
  | .raise e p => Q e p

theorem Result.All.mono {α : Type} {P P' : α → Port → Prop} {Q Q' : Raise → Port → Prop} {r : Result α}
    (h : r.All P Q) (hp : ∀ a p, P a p → P' a p) (hq : ∀ e p, Q e p → Q' e p) : r.All P' Q' := by
  cases r with
  | ok a p => exact hp a p h
  | raise e p => exact hq e p h

theorem Result.All.bind {α β : Type} {P : α → Port → Prop} {P' : β → Port → Prop} {Q : Raise → Port → Prop}
    {r : Result α} {f : α → Port → Result β} (h : r.All P Q) (hf : ∀ a p, P a p → (f a p).All P' Q) :
    (r.bind f).All P' Q := by
  cases r with
  | ok a p => exact hf a p h
  | raise e p => exact h

/-- What holds before a loop and is kept by every iteration holds after it; a raise satisfies what every iteration's raise
satisfies. -/
theorem iterate_all {α : Type} {body : Port → α → Result α} (I : α → Port → Prop) {Q : Raise → Port → Prop}
    (hb : ∀ a p, I a p → (body p a).All I Q) : ∀ n a p, I a p → (iterate body n p a).All I Q := by
  intro n
  induction n with
  | zero => exact fun _ _ h => h
  | succ n ih => exact fun a p h => (iterate_succ body n p a) ▸ (hb a p h).bind ih

/-- The port of a body that only reads. -/
def Port.ReadFrom (p q : Port) : Prop := q.mem = p.mem ∧ p.draws ≤ q.draws

theorem Port.ReadFrom.refl (p : Port) : Port.ReadFrom p p := ⟨rfl, le_rfl⟩

theorem Port.ReadFrom.trans {p q r : Port} (h : Port.ReadFrom p q) (h' : Port.ReadFrom q r) : Port.ReadFrom p r :=
  ⟨h'.1.trans h.1, h.2.trans h'.2⟩

theorem Port.ReadFrom.within {p q : Port} (h : Port.ReadFrom p q) (lo hi : Nat) : Port.Within lo hi p q :=
  ⟨fun _ _ => by rw [h.1], fun hw => by rw [h.1]; exact hw, h.2⟩

theorem memRead1_all (s : State) (a : Word) (p : Port) :
    (memRead1 s a p).All (fun _ q => Port.ReadFrom p q) (fun e q => e.code = .bus ∧ Port.ReadFrom p q) := by
  unfold memRead1
  split
  · exact ⟨rfl, .refl p⟩
  · split
    · exact ⟨rfl, Nat.le_succ _⟩
    · exact Port.ReadFrom.refl p

theorem memReadN_all (s : State) (n : Nat) : ∀ (a : Word) (p : Port),
    (memReadN s a n p).All (fun bs q => bs.length = n ∧ Port.ReadFrom p q)
      (fun e q => e.code = .bus ∧ Port.ReadFrom p q) := by
  induction n with
  | zero => exact fun _ p => ⟨rfl, Port.ReadFrom.refl p⟩
  | succ n ih =>
    intro a p
    refine (memRead1_all s a p).bind fun b q hq => ?_
    have h := (ih (a + 1) q).mono (fun bs r hr => (⟨hr.1, hq.trans hr.2⟩ : bs.length = n ∧ Port.ReadFrom p r))
      (fun e r hr => (⟨hr.1, hq.trans hr.2⟩ : e.code = .bus ∧ Port.ReadFrom p r))
    exact h.bind fun bs r hr => ⟨by simp [hr.1], hr.2⟩

theorem memReadBE32_all (s : State) (a : Word) (p : Port) :
    (memReadBE32 s a p).All (fun _ q => Port.ReadFrom p q) (fun e q => e.code = .bus ∧ Port.ReadFrom p q) :=
  (memReadN_all s 4 a p).bind fun _ _ h => h.2

theorem memWrite1_all {s : State} {a : Word} {v : Byte} {p : Port} {lo hi : Nat} (hl : lo ≤ a.toNat)
    (hh : a.toNat < hi) :
    (memWrite1 s a v p).All (fun _ q => Port.Within lo hi p q)
      (fun e q => e.code = .bus ∧ Port.Within lo hi p q) := by
  have h := memWrite1_within (s := s) (v := v) (p := p) hl hh
  unfold memWrite1 at h ⊢
  split at h
  · next hf => simp only [hf, if_true]; exact ⟨rfl, h⟩
  · next hf => simp only [hf]; exact h

theorem memWriteN_all {s : State} {lo hi : Nat} (vs : List Byte) : ∀ {a : Word} {p : Port}, lo ≤ a.toNat →
    a.toNat + vs.length ≤ hi → hi ≤ 2 ^ 32 →
    (memWriteN s a vs p).All (fun _ q => Port.Within lo hi p q)
      (fun e q => e.code = .bus ∧ Port.Within lo hi p q) := by
  induction vs with
  | nil => exact fun _ _ _ => Port.Within.refl _ _ _
  | cons v vs ih =>
    intro a p hl hh hb
    simp only [List.length_cons] at hh
    refine (memWrite1_all hl (by omega)).bind fun _ q hq => ?_
    cases vs with
    | nil => exact hq
    | cons w ws =>
      simp only [List.length_cons] at hh
      have ha : (a + 1).toNat = a.toNat + 1 := by
        rw [BitVec.toNat_add]; simp; omega
      exact (ih (a := a + 1) (p := q) (by omega) (by simp only [List.length_cons]; omega) hb).mono
        (fun _ _ h => hq.trans h) (fun _ _ h => ⟨h.1, hq.trans h.2⟩)

/-- The bytes of the latched destination buffer, as a range of the port. -/
abbrev State.WithinDst (s : State) (p q : Port) : Prop :=
  Port.Within s.latch.dstAddr.toNat (s.latch.dstAddr.toNat + s.latch.dstCap.toNat) p q

theorem emit_all {s : State} {out : Nat} {v : Byte} {p : Port} (hd : s.DstFits) (ho : out ≤ s.latch.dstCap.toNat) :
    (emit s out v p).All (fun out' q => out' = out + 1 ∧ out' ≤ s.latch.dstCap.toNat ∧ s.WithinDst p q)
      (fun e q => (e.code = .dstOverflow ∨ e.code = .bus) ∧ s.WithinDst p q) := by
  unfold State.DstFits at hd
  unfold emit
  split
  · exact ⟨.inl rfl, .refl _ _ _⟩
  · next hne =>
    have := State.dstAt_toNat (s := s) (i := out) (by omega)
    exact ((memWrite1_all (by omega) (by omega)).mono (fun _ _ h => h) fun _ _ h =>
      (⟨.inr h.1, h.2⟩ : _ ∧ _)).bind fun _ q hq => ⟨rfl, by omega, hq⟩

/-! ### The ends of a command -/

/-- What a command did to the port: one without a destination buffer only read; one with a destination buffer changed
memory inside it only. -/
def PortOf (i : Instr) (s : State) (p : Port) : Prop :=
  if usesDst i then s.WithinDst s.port p else Port.ReadFrom s.port p

/-- The commit of each command (R284), before `complete()`. -/
def Commits (i : Instr) (s u : State) : Prop :=
  match i with
  | .nop => u = s
  | .fcount => ∃ p t, PortOf i s p ∧ u = (s.withPort p).commitFreq t (symbolCount t)
  | .fload => ∃ p t, PortOf i s p ∧ symbolCount t ≤ 256 ∧ u = (s.withPort p).commitFreq t (symbolCount t)
  | .tbuild => u = s.commitTree (treeOf s.freq)
  | .ctgen => s.treeValid = true ∧ u = s.commitCodes (codesOf s.nodes s.nnode.toNat)
  | .fstore | .pack | .unpack _ => ∃ p, PortOf i s p ∧ u = (s.withPort p).settleDst
  | .clear => u = s.commitFreq FreqTable.empty 0

/-- The ways a command ends. -/
inductive Ends (i : Instr) (s : State) : State → Prop
  /-- A pre-check error: nothing read or written (R288). -/
  | pre (e : Raise) : e.code ∈ errorsOf i → Ends i s ((if usesDst i then s.settleDst else s).raise e)
  /-- An error of the body (R285, R286, R287). -/
  | body (e : Raise) (p : Port) : e.code ∈ errorsOf i → PortOf i s p → Ends i s ((s.withPort p).fail (usesDst i) e)
  /-- Completion without error (R284). -/
  | done (u : State) (r : Results) : Commits i s u → Ends i s (u.complete r)

theorem firstError_mem {cs : List (Option Raise)} {e : Raise} (h : firstError cs = some e) : some e ∈ cs := by
  induction cs with
  | nil => cases h
  | cons c cs ih =>
    cases c with
    | none => exact List.mem_cons_of_mem _ (ih h)
    | some e' => cases h; exact List.mem_cons_self

theorem raiseIf_eq_some {bad : Bool} {e e' : Raise} (h : raiseIf bad e = some e') : bad = true ∧ e' = e := by
  cases bad <;> simp_all [raiseIf]

theorem raiseIf_eq_none {bad : Bool} {e : Raise} : raiseIf bad e = none ↔ bad = false := by
  cases bad <;> simp [raiseIf]

/-- A next state of a pre-checked command is its pre-check error or a next state of what follows. -/
theorem preChecked_next {i : Instr} {s t : State} {checks : List (Option Raise)} {onDevice : Bool}
    {go : Host.Outcome State Fault Refusal} (h : preChecked s checks onDevice (usesDst i) go = .next t)
    (hc : ∀ e, some e ∈ checks → e.code ∈ errorsOf i) :
    Ends i s t ∨ firstError checks = none ∧ go = .next t := by
  rcases preChecked_eq s checks onDevice (usesDst i) go with ⟨e, he, h'⟩ | ⟨he, -, h'⟩ | ⟨he, -, h'⟩
  · rw [h'] at h; cases h; exact .inl (.pre e (hc e (firstError_mem he)))
  · rw [h'] at h; cases h
  · exact .inr ⟨he, h' ▸ h⟩

/-- A next state of a body's end is the error of the body or a next state of what follows. -/
theorem endBody_next {α : Type} {i : Instr} {s s₀ t : State} {r : Result α} {P : α → Port → Prop}
    {go : α → Port → Host.Outcome State Fault Refusal} (h : endBody s (usesDst i) r go = .next t)
    (hr : r.All P fun e p => e.code ∈ errorsOf i ∧ PortOf i s₀ p) (hs : ∀ p, s.withPort p = s₀.withPort p) :
    Ends i s₀ t ∨ ∃ a p, P a p ∧ go a p = .next t := by
  cases r with
  | ok a p => exact .inr ⟨a, p, hr, h⟩
  | raise e p =>
    rw [endBody_raise] at h
    cases h
    rw [hs]
    exact .inl (.body e p hr.1 hr.2)

theorem portOf_readFrom {i : Instr} {s : State} {p : Port} (hi : usesDst i = false) (h : Port.ReadFrom s.port p) :
    PortOf i s p := by simp [PortOf, hi, h]

theorem portOf_withinDst {i : Instr} {s : State} {p : Port} (hi : usesDst i = true) (h : s.WithinDst s.port p) :
    PortOf i s p := by simp [PortOf, hi, h]

/-! ### FCOUNT and FLOAD -/

theorem fcountBody_all (s : State) (p : Port) (w : FcountWork) :
    (fcountBody s p w).All (fun w' q => w'.i = w.i + 1 ∧ Port.ReadFrom p q)
      (fun e q => e.code = .bus ∧ Port.ReadFrom p q) :=
  (memRead1_all s _ p).bind fun _ _ h => ⟨rfl, h⟩

theorem execFcount_ends {s t : State} (h : execFcount s = .next t) : Ends .fcount s t := by
  rcases preChecked_next (i := .fcount) h (by
      intro e he
      simp only [fcountChecks, List.mem_singleton] at he
      obtain ⟨-, rfl⟩ := raiseIf_eq_some he.symm
      simp [errorsOf]) with h | ⟨-, h⟩
  · exact h
  · have hl := iterate_all (body := fcountBody s) (fun _ p => Port.ReadFrom s.port p)
      (Q := fun e p => e.code ∈ errorsOf .fcount ∧ PortOf .fcount s p)
      (fun w p hp => (fcountBody_all s p w).mono (fun _ _ h => hp.trans h.2) fun e _ h =>
        ⟨by simp [errorsOf, h.1], portOf_readFrom rfl (hp.trans h.2)⟩)
      (fcountLeft s fcountInit) fcountInit s.port (Port.ReadFrom.refl _)
    rcases endBody_next (i := .fcount) (s₀ := s) h hl (fun _ => rfl) with h | ⟨w, p, hp, h⟩
    · exact h
    · cases h
      exact .done _ _ ⟨p, w.table, portOf_readFrom rfl hp, rfl⟩

theorem symbolCount_le (t : FreqTable) : symbolCount t ≤ 256 := by
  unfold symbolCount
  exact List.countP_le_length.trans (by simp)

@[simp] theorem symbolCount_empty : symbolCount FreqTable.empty = 0 := by
  unfold symbolCount FreqTable.empty
  rw [Vector.toList_replicate, List.countP_replicate]
  rfl

/-- A new symbol with a count is one symbol more. -/
theorem symbolCount_tableSet {t : FreqTable} {x : Byte} {f : Word} (hx : tableGet t x = 0) (hf : f ≠ 0) :
    symbolCount (tableSet t x f) = symbolCount t + 1 := by
  have hx' : t[x.toNat]'x.isLt = 0 := hx
  have hl : x.toNat < t.toList.length := by simpa using x.isLt
  have hg : t.toList[x.toNat] = 0 := by simpa using hx'
  unfold symbolCount tableSet
  rw [Vector.toList_set, List.countP_set hl, hg, if_neg (by simp), if_pos (by simpa using hf)]
  rfl

theorem memReadBE32_ends {i : Instr} (hi : usesDst i = false) (hb : .bus ∈ errorsOf i) {s₀ s : State} {a : Word}
    {p : Port} (hp : Port.ReadFrom s₀.port p) :
    (memReadBE32 s a p).All (fun _ q => Port.ReadFrom s₀.port q)
      (fun e q => e.code ∈ errorsOf i ∧ PortOf i s₀ q) :=
  (memReadBE32_all s a p).mono (fun _ _ h => hp.trans h) fun _ _ h => ⟨h.1 ▸ hb, portOf_readFrom hi (hp.trans h.2)⟩

theorem floadBegin_all (s : State) :
    (floadBegin s s.port).All
      (fun w q => (symbolCount w.table = w.i ∧ w.i ≤ w.n ∧ w.n ≤ 256) ∧ Port.ReadFrom s.port q)
      (fun e q => e.code ∈ errorsOf .fload ∧ PortOf .fload s q) := by
  refine (memReadBE32_ends rfl (by simp [errorsOf]) (Port.ReadFrom.refl _)).bind fun n p hp => ?_
  split
  · exact ⟨by simp [errorsOf], portOf_readFrom rfl hp⟩
  · split
    · exact ⟨by simp [errorsOf], portOf_readFrom rfl hp⟩
    · exact ⟨⟨symbolCount_empty, Nat.zero_le _, by simp only; omega⟩, hp⟩

/-- One record keeps the table's count equal to the number of records read. -/
theorem floadBody_all {s₀ s : State} {p : Port} {w : FloadWork} (hp : Port.ReadFrom s₀.port p)
    (hw : symbolCount w.table = w.i) :
    (floadBody s p w).All
      (fun w' q => (w'.n = w.n ∧ w'.i = w.i + 1 ∧ symbolCount w'.table = w'.i) ∧ Port.ReadFrom s₀.port q)
      (fun e q => e.code ∈ errorsOf .fload ∧ PortOf .fload s₀ q) := by
  refine ((memRead1_all s _ p).mono (P' := fun _ q => Port.ReadFrom s₀.port q)
    (Q' := fun e q => e.code ∈ errorsOf .fload ∧ PortOf .fload s₀ q) (fun _ _ h => hp.trans h) fun e _ h =>
    ⟨by simp [errorsOf, h.1], portOf_readFrom rfl (hp.trans h.2)⟩).bind fun sym p₁ hp₁ => ?_
  refine (memReadBE32_ends rfl (by simp [errorsOf]) hp₁).bind fun f p₂ hp₂ => ?_
  split
  · exact ⟨by simp [errorsOf], portOf_readFrom rfl hp₂⟩
  · next h₁ =>
    split
    · exact ⟨by simp [errorsOf], portOf_readFrom rfl hp₂⟩
    · next h₂ => exact ⟨⟨rfl, rfl, (symbolCount_tableSet (by simpa using h₁) h₂).trans (by rw [hw])⟩, hp₂⟩

/-- A loop whose iterations take what holds at count `k` to what holds at `k + 1`, up to a bound. -/
theorem iterate_counts {α : Type} {body : Port → α → Result α} (I : Nat → α → Port → Prop)
    {Q : Raise → Port → Prop} {m : Nat} (hb : ∀ k a p, k < m → I k a p → (body p a).All (I (k + 1)) Q) :
    ∀ n k a p, k + n = m → I k a p → (iterate body n p a).All (I m) Q := by
  intro n
  induction n with
  | zero => exact fun k _ _ hk h => by subst hk; exact h
  | succ n ih =>
    intro k a p hk h
    rw [iterate_succ]
    exact (hb k a p (by omega) h).bind fun a' p' h' => ih (k + 1) a' p' (by omega) h'

theorem runFload_ends {s₀ s t : State} {w : FloadWork} (hs : ∀ p, s.withPort p = s₀.withPort p)
    (hp : Port.ReadFrom s₀.port s.port) (hw : symbolCount w.table = w.i ∧ w.i ≤ w.n ∧ w.n ≤ 256)
    (h : runFload s w = .next t) : Ends .fload s₀ t := by
  have hl := iterate_counts (body := floadBody s)
    (fun k w' p => (w'.n = w.n ∧ w'.i = k ∧ symbolCount w'.table = k) ∧ Port.ReadFrom s₀.port p)
    (Q := fun e p => e.code ∈ errorsOf .fload ∧ PortOf .fload s₀ p)
    (m := w.n) (fun k a p _ ha => (floadBody_all ha.2 (ha.1.2.2.trans ha.1.2.1.symm)).mono (fun b q hb =>
      ⟨⟨hb.1.1.trans ha.1.1, hb.1.2.1.trans (by rw [ha.1.2.1]), hb.1.2.2.trans (hb.1.2.1.trans (by rw [ha.1.2.1]))⟩,
        hb.2⟩) fun _ _ h => h)
    (floadLeft w) w.i w s.port (by unfold floadLeft; omega) ⟨⟨rfl, rfl, hw.1⟩, hp⟩
  rcases endBody_next (i := .fload) (s₀ := s₀) h hl hs with h | ⟨w', p, ⟨⟨h1, -, h3⟩, h4⟩, h⟩
  · exact h
  · cases h
    have hn : symbolCount w'.table = w'.n := h3.trans h1.symm
    rw [hs, ← hn]
    exact .done _ _ ⟨p, w'.table, portOf_readFrom rfl h4, symbolCount_le _, rfl⟩

theorem execFload_ends {s t : State} (h : execFload s = .next t) : Ends .fload s t := by
  rcases preChecked_next (i := .fload) h (by
      intro e he
      simp only [floadChecks, List.mem_cons, List.not_mem_nil, or_false] at he
      rcases he with he | he <;> obtain ⟨-, rfl⟩ := raiseIf_eq_some he.symm <;> simp [errorsOf]) with h | ⟨-, h⟩
  · exact h
  · rcases endBody_next (i := .fload) (s₀ := s) h (floadBegin_all s) (fun _ => rfl) with h | ⟨w, p, hp, h⟩
    · exact h
    · exact runFload_ends (s := s.withPort p) (fun _ => rfl) hp.2 hp.1 h

/-! ### FSTORE -/

/-- The entries of a table, one per symbol in ascending order. -/
theorem toList_eq_map (t : FreqTable) : t.toList = (List.range 256).map fun x => tableGet t (BitVec.ofNat 8 x) := by
  apply List.ext_getElem
  · simp
  · intro i h₁ h₂
    have hi : i < 256 := by simpa using h₁
    simp [tableGet, Nat.mod_eq_of_lt hi]

/-- How many of the first `n` symbols have a count. -/
def countBelow (t : FreqTable) (n : Nat) : Nat :=
  (List.range n).countP fun x => tableGet t (BitVec.ofNat 8 x) != 0

theorem countBelow_succ (t : FreqTable) (n : Nat) :
    countBelow t (n + 1) = countBelow t n + if tableGet t (BitVec.ofNat 8 n) ≠ 0 then 1 else 0 := by
  unfold countBelow
  rw [List.range_succ, List.countP_append]
  simp [List.countP_cons]

theorem symbolCount_eq_countBelow (t : FreqTable) : symbolCount t = countBelow t 256 := by
  unfold symbolCount countBelow
  rw [toList_eq_map, List.countP_map]
  rfl

theorem countBelow_mono (t : FreqTable) {m n : Nat} (h : m ≤ n) : countBelow t m ≤ countBelow t n := by
  induction n with
  | zero => rw [Nat.le_zero.1 h]
  | succ n ih =>
    rcases Nat.lt_or_eq_of_le h with h | rfl
    · exact (ih (by omega)).trans (by rw [countBelow_succ]; omega)
    · exact le_rfl

/-- FSTORE's checks and NSYM = |FREQ| keep every record inside the destination buffer. -/
theorem fstoreBody_all {s₀ s : State} {p : Port} {w : FstoreWork} {k : Nat} (hl : s.latch = s₀.latch)
    (hd : s₀.DstFits) (hc : 4 + 5 * symbolCount s.freq ≤ s₀.latch.dstCap.toNat) (hk : k < 256) (hw : w.s = k)
    (hwk : w.k = countBelow s.freq k) (hp : s₀.WithinDst s₀.port p) :
    (fstoreBody s p w).All (fun w' q => (w'.s = k + 1 ∧ w'.k = countBelow s.freq (k + 1)) ∧ s₀.WithinDst s₀.port q)
      (fun e q => e.code ∈ errorsOf .fstore ∧ PortOf .fstore s₀ q) := by
  have hd' : s₀.latch.dstAddr.toNat + s₀.latch.dstCap.toNat ≤ 2 ^ 32 := hd
  have hs := countBelow_succ s.freq k
  have hle : countBelow s.freq (k + 1) ≤ symbolCount s.freq :=
    symbolCount_eq_countBelow s.freq ▸ countBelow_mono _ hk
  unfold fstoreBody
  simp only
  rw [hw]
  split
  · next hf =>
    rw [if_pos hf] at hs
    have hb : s₀.latch.dstAddr.toNat + (4 + 5 * w.k) + 5 ≤ s₀.latch.dstAddr.toNat + s₀.latch.dstCap.toNat := by
      omega
    have h₁ : (s.dstAt (4 + 5 * w.k)).toNat = s₀.latch.dstAddr.toNat + (4 + 5 * w.k) := by
      rw [State.dstAt_toNat (by rw [hl]; omega), hl]
    have h₂ : (s.dstAt (4 + 5 * w.k + 1)).toNat = s₀.latch.dstAddr.toNat + (4 + 5 * w.k + 1) := by
      rw [State.dstAt_toNat (by rw [hl]; omega), hl]
    refine ((memWriteN_all (s := s) (p := p) (lo := s₀.latch.dstAddr.toNat)
      (hi := s₀.latch.dstAddr.toNat + s₀.latch.dstCap.toNat) [BitVec.ofNat 8 k] (a := s.dstAt (4 + 5 * w.k)) (by omega)
      (by simp only [List.length_cons, List.length_nil]; omega) hd').mono
      (fun _ _ h => hp.trans h) fun e q h => (⟨by simp [errorsOf, h.1], portOf_withinDst rfl (hp.trans h.2)⟩ :
        e.code ∈ errorsOf .fstore ∧ PortOf .fstore s₀ q)).bind fun _ p₁ hp₁ => ?_
    refine ((memWriteN_all (s := s) (p := p₁) (lo := s₀.latch.dstAddr.toNat)
      (hi := s₀.latch.dstAddr.toNat + s₀.latch.dstCap.toNat) (beBytes (tableGet s.freq (BitVec.ofNat 8 k)))
      (a := s.dstAt (4 + 5 * w.k + 1)) (by omega) (by simp only [beBytes, List.length_cons, List.length_nil]; omega)
      hd').mono (fun _ _ h => hp₁.trans h) fun e q h =>
      (⟨by simp [errorsOf, h.1], portOf_withinDst rfl (hp₁.trans h.2)⟩ :
        e.code ∈ errorsOf .fstore ∧ PortOf .fstore s₀ q)).bind fun _ p₂ hp₂ => ?_
    exact ⟨⟨rfl, by simp only; omega⟩, hp₂⟩
  · next hf =>
    rw [if_neg hf] at hs
    exact ⟨⟨rfl, by simp only; omega⟩, hp⟩

theorem execFstore_ends {s t : State} (hn : s.nsym.toNat = symbolCount s.freq) (h : execFstore s = .next t) :
    Ends .fstore s t := by
  rcases preChecked_next (i := .fstore) h (by
      intro e he
      simp only [fstoreChecks, List.mem_cons, List.not_mem_nil, or_false] at he
      rcases he with he | he <;> obtain ⟨-, rfl⟩ := raiseIf_eq_some he.symm <;> simp [errorsOf]) with h | ⟨hc, h⟩
  · exact h
  · simp only [fstoreChecks, firstError_eq_none, List.mem_cons, List.not_mem_nil, or_false, forall_eq_or_imp, forall_eq,
      checkDstRange, raiseIf_eq_none, decide_eq_false_iff_not, State.sectionLength] at hc
    have hs := of_decide_eq_false hc.2
    have hd : s.DstFits := by unfold State.DstFits; omega
    have hd' : s.latch.dstAddr.toNat + s.latch.dstCap.toNat ≤ 2 ^ 32 := hd
    have h0 : (s.dstAt 0).toNat = s.latch.dstAddr.toNat := State.dstAt_toNat (by omega)
    have hb : (fstoreBegin s s.port).All
        (fun w q => (w.s = 0 ∧ w.k = countBelow s.freq 0) ∧ s.WithinDst s.port q)
        (fun e q => e.code ∈ errorsOf .fstore ∧ PortOf .fstore s q) :=
      ((memWriteN_all (s := s) (p := s.port) (lo := s.latch.dstAddr.toNat)
        (hi := s.latch.dstAddr.toNat + s.latch.dstCap.toNat) (beBytes (s.nsym.setWidth 32)) (a := s.dstAt 0) (by omega)
        (by simp only [beBytes, List.length_cons, List.length_nil]; omega) hd').mono (fun _ _ h => h) fun e q h =>
        (⟨by simp [errorsOf, h.1], portOf_withinDst rfl h.2⟩ :
          e.code ∈ errorsOf .fstore ∧ PortOf .fstore s q)).bind fun _ q hq => ⟨⟨rfl, rfl⟩, hq⟩
    rcases endBody_next (i := .fstore) (s₀ := s) h hb (fun _ => rfl) with h | ⟨w, p, hp, h⟩
    · exact h
    · have hl := iterate_counts (body := fstoreBody (s.withPort p)) (m := 256)
        (fun k w' q => (w'.s = k ∧ w'.k = countBelow s.freq k) ∧ s.WithinDst s.port q)
        (Q := fun e q => e.code ∈ errorsOf .fstore ∧ PortOf .fstore s q)
        (fun k a q hk ha => fstoreBody_all (s := s.withPort p) rfl hd (show _ ≤ _ by simp only [State.withPort_freq]; omega)
          hk ha.1.1 ha.1.2 ha.2)
        (fstoreLeft w) 0 w p (by unfold fstoreLeft; omega) hp
      rcases endBody_next (i := .fstore) (s₀ := s) h hl (fun _ => rfl) with h | ⟨w', q, hq, h⟩
      · exact h
      · cases h
        exact .done _ _ ⟨q, portOf_withinDst rfl hq.2, rfl⟩

/-! ### PACK -/

/-- What every part of PACK and UNPACK keeps: the output stays inside the capacity. -/
abbrev InCap (s : State) (out : Nat) (p : Port) : Prop := out ≤ s.latch.dstCap.toNat ∧ s.WithinDst s.port p

theorem emit_ends {i : Instr} (hi : usesDst i = true) (hb : .bus ∈ errorsOf i) (ho : .dstOverflow ∈ errorsOf i)
    {s : State} {out : Nat} {v : Byte} {p : Port} (hd : s.DstFits) (h : InCap s out p) :
    (emit s out v p).All (fun out' q => InCap s out' q) (fun e q => e.code ∈ errorsOf i ∧ PortOf i s q) :=
  (emit_all hd h.1).mono (fun _ _ h' => ⟨h'.2.1, h.2.trans h'.2.2⟩) fun _ _ h' =>
    ⟨by rcases h'.1 with h' | h' <;> rw [h'] <;> assumption, portOf_withinDst hi (h.2.trans h'.2)⟩

theorem memRead1_ends {i : Instr} (hi : usesDst i = true) (hb : .bus ∈ errorsOf i) {s : State} {a : Word} {out : Nat}
    {p : Port} (h : InCap s out p) :
    (memRead1 s a p).All (fun _ q => InCap s out q) (fun e q => e.code ∈ errorsOf i ∧ PortOf i s q) :=
  (memRead1_all s a p).mono (fun _ _ h' => ⟨h.1, h.2.trans (h'.within ..)⟩) fun _ _ h' =>
    ⟨h'.1 ▸ hb, portOf_withinDst hi (h.2.trans (h'.2.within ..))⟩

theorem packBit_all {s : State} {p : Port} {w : PackWork} (b : Bool) (hd : s.DstFits) (h : InCap s w.out p) :
    (packBit s p w b).All (fun w' q => w'.i = w.i ∧ InCap s w'.out q)
      (fun e q => e.code ∈ errorsOf .pack ∧ PortOf .pack s q) := by
  unfold packBit
  simp only
  split
  · exact (emit_ends rfl (by simp [errorsOf]) (by simp [errorsOf]) hd h).bind fun _ _ h => ⟨rfl, h⟩
  · exact ⟨rfl, h⟩

theorem packCode_all {s : State} (hd : s.DstFits) (bs : List Bool) : ∀ {p : Port} {w : PackWork}, InCap s w.out p →
    (packCode s bs p w).All (fun w' q => w'.i = w.i ∧ InCap s w'.out q)
      (fun e q => e.code ∈ errorsOf .pack ∧ PortOf .pack s q) := by
  induction bs with
  | nil => exact fun h => ⟨rfl, h⟩
  | cons b bs ih =>
    exact fun h => (packBit_all b hd h).bind fun _ _ h' =>
      (ih h'.2).mono (fun _ _ h'' => ⟨h''.1.trans h'.1, h''.2⟩) fun _ _ h => h

theorem packBody_all {s : State} {p : Port} {w : PackWork} (hd : s.DstFits) (h : InCap s w.out p) :
    (packBody s p w).All (fun w' q => w'.i = w.i + 1 ∧ InCap s w'.out q)
      (fun e q => e.code ∈ errorsOf .pack ∧ PortOf .pack s q) := by
  refine (memRead1_ends rfl (by simp [errorsOf]) h).bind fun b q hq => ?_
  split
  · exact ⟨by simp [errorsOf], portOf_withinDst rfl hq.2⟩
  · exact (packCode_all hd _ hq).bind fun w' r hr => ⟨rfl, hr.2⟩

theorem packFlush_all {s : State} {p : Port} {w : PackWork} (hd : s.DstFits) (h : InCap s w.out p) :
    (packFlush s w p).All (fun w' q => InCap s w'.out q)
      (fun e q => e.code ∈ errorsOf .pack ∧ PortOf .pack s q) := by
  unfold packFlush
  split
  · exact (emit_ends rfl (by simp [errorsOf]) (by simp [errorsOf]) hd h).bind fun _ _ h => h
  · exact h

theorem execPack_ends {s t : State} (h : execPack s = .next t) : Ends .pack s t := by
  rcases preChecked_next (i := .pack) h (by
      intro e he
      simp only [packChecks, List.mem_cons, List.not_mem_nil, or_false] at he
      rcases he with he | he | he | he <;> obtain ⟨-, rfl⟩ := raiseIf_eq_some he.symm <;> simp [errorsOf])
    with h | ⟨hc, h⟩
  · exact h
  · simp only [packChecks, firstError_eq_none, List.mem_cons, List.not_mem_nil, or_false, forall_eq_or_imp, forall_eq,
      checkDstRange, raiseIf_eq_none, decide_eq_false_iff_not] at hc
    have hd : s.DstFits := by unfold State.DstFits; omega
    have hl := iterate_all (body := packBody s) (fun w p => InCap s w.out p)
      (Q := fun e p => e.code ∈ errorsOf .pack ∧ PortOf .pack s p)
      (fun w p hp => (packBody_all hd hp).mono (fun _ _ h => h.2) fun _ _ h => h)
      (packLeft s packInit) packInit s.port ⟨Nat.zero_le _, .refl ..⟩
    rcases endBody_next (i := .pack) (s₀ := s) h hl (fun _ => rfl) with h | ⟨w, p, hp, h⟩
    · exact h
    · rcases endBody_next (i := .pack) (s₀ := s) h (packFlush_all hd hp) (fun _ => rfl) with h | ⟨w', q, hq, h⟩
      · exact h
      · cases h
        exact .done _ _ ⟨q, portOf_withinDst rfl hq.2, rfl⟩

/-! ### UNPACK -/

theorem unpackBody_all {pad : BitVec 3} {s : State} {p : Port} {w : UnpackWork} (hd : s.DstFits) (h : InCap s w.out p) :
    (unpackBody s p w).All (fun w' q => w'.nbits = w.nbits ∧ w'.t = w.t + 1 ∧ InCap s w'.out q)
      (fun e q => e.code ∈ errorsOf (.unpack pad) ∧ PortOf (.unpack pad) s q) := by
  have hb : (unpackByte s p w).All (fun _ q => InCap s w.out q)
      (fun e q => e.code ∈ errorsOf (.unpack pad) ∧ PortOf (.unpack pad) s q) := by
    unfold unpackByte
    split
    · exact memRead1_ends rfl (by simp [errorsOf]) h
    · exact h
  refine hb.bind fun byte q hq => ?_
  simp only
  split
  · split
    · exact ⟨by simp [errorsOf], portOf_withinDst rfl hq.2⟩
    · exact (emit_ends rfl (by simp [errorsOf]) (by simp [errorsOf]) hd hq).bind fun _ _ h => ⟨rfl, rfl, h⟩
  · generalize (if streamBit byte w.t = true then (nodeAt s.nodes w.node).right.toNat
      else (nodeAt s.nodes w.node).left.toNat) = child
    split
    · exact ⟨rfl, rfl, hq⟩
    · exact (emit_ends rfl (by simp [errorsOf]) (by simp [errorsOf]) hd hq).bind fun _ _ h => ⟨rfl, rfl, h⟩

theorem execUnpack_ends {pad : BitVec 3} {s t : State} (h : execUnpack pad s = .next t) : Ends (.unpack pad) s t := by
  rcases preChecked_next (i := .unpack pad) h (by
      intro e he
      simp only [unpackChecks, List.mem_cons, List.not_mem_nil, or_false] at he
      rcases he with he | he | he | he | he <;> obtain ⟨-, rfl⟩ := raiseIf_eq_some he.symm <;> simp [errorsOf])
    with h | ⟨hc, h⟩
  · exact h
  · simp only [unpackChecks, firstError_eq_none, List.mem_cons, List.not_mem_nil, or_false, forall_eq_or_imp, forall_eq,
      checkDstRange, raiseIf_eq_none, decide_eq_false_iff_not] at hc
    have hd : s.DstFits := by unfold State.DstFits; omega
    have hl := iterate_all (body := unpackBody s) (fun w p => InCap s w.out p)
      (Q := fun e p => e.code ∈ errorsOf (.unpack pad) ∧ PortOf (.unpack pad) s p)
      (fun w p hp => (unpackBody_all (pad := pad) hd hp).mono (fun _ _ h => h.2.2) fun _ _ h => h)
      (unpackLeft (unpackInit pad s)) (unpackInit pad s) s.port ⟨Nat.zero_le _, .refl ..⟩
    rcases endBody_next (i := .unpack pad) (s₀ := s) h hl (fun _ => rfl) with h | ⟨w, p, hp, h⟩
    · exact h
    · unfold unpackFinish at h
      split at h
      · cases h
        exact .body _ p (by simp [errorsOf]) (portOf_withinDst rfl hp.2)
      · cases h
        exact .done _ _ ⟨p, portOf_withinDst rfl hp.2, rfl⟩

/-! ### Every command -/

/-- Every command that gives a next state ends in one of the ways of `Ends`. NSYM = |FREQ| (R65) is what FSTORE needs to
stay inside its buffer. -/
theorem exec_ends {i : Instr} {s t : State} (hn : i = .fstore → s.nsym.toNat = symbolCount s.freq)
    (h : exec i s = .next t) : Ends i s t := by
  cases i with
  | nop => cases h; exact .done _ _ rfl
  | fcount => exact execFcount_ends h
  | fload => exact execFload_ends h
  | fstore => exact execFstore_ends (hn rfl) h
  | tbuild => cases h; exact .done _ _ rfl
  | ctgen =>
    rcases preChecked_next (i := .ctgen) h (by
        intro e he
        simp only [ctgenChecks, List.mem_singleton] at he
        obtain ⟨-, rfl⟩ := raiseIf_eq_some he.symm
        simp [errorsOf]) with h | ⟨hc, h⟩
    · exact h
    · simp only [ctgenChecks, firstError_eq_none, List.mem_singleton, forall_eq, checkReady, raiseIf_eq_none,
        Bool.not_eq_false'] at hc
      cases h
      exact .done _ _ ⟨hc, rfl⟩
  | pack => exact execPack_ends h
  | unpack pad => exact execUnpack_ends h
  | clear => cases h; exact .done _ _ rfl

end Sys2Proof.Machine
end

