-- ==== Sys2Proof/Laws/PerInstr.lean ====
section
/-! SUPPORT. What holds of every command as syntax, one lemma per constructor: its word passes the three checks of R144, its
operand is in range, and its OPC and PAD fields are those of R140. -/

namespace Sys2Proof.Laws.Legal

/-- The command is well formed, its word is legal, and the word's fields are the command's. -/
def Statement (i : Instr) : Prop :=
  i.wellFormed = true ∧ legalWord (encode i) = true ∧ (encode i).opc = i.opcode ∧ (encode i).pad = i.padField ∧
    (encode i).rsv = 0

theorem nop : Statement .nop := by unfold Statement; decide
theorem fcount : Statement .fcount := by unfold Statement; decide
theorem fload : Statement .fload := by unfold Statement; decide
theorem fstore : Statement .fstore := by unfold Statement; decide
theorem tbuild : Statement .tbuild := by unfold Statement; decide
theorem ctgen : Statement .ctgen := by unfold Statement; decide
theorem pack : Statement .pack := by unfold Statement; decide
theorem unpack (pad : BitVec 3) : Statement (.unpack pad) := by unfold Statement; revert pad; decide
theorem clear : Statement .clear := by unfold Statement; decide

end Sys2Proof.Laws.Legal
end

