-- ==== Sys2Proof/Tests/Slice0.lean ====
section
/-! SUPPORT. Tests: the checks of well-formedness refuse ill-formed words, words written out from the spec's encoding decode to
their commands, small runs whose expected results are the spec's own, and for every obligation with hypotheses a concrete
state that meets them. -/

set_option Elab.async false

namespace Sys2Proof.Tests

open Sys2Proof.Machine

/-! ### Helpers -/

/-- The next state of an outcome. -/
def after (o : Host.Outcome State Fault Refusal) : State :=
  match o with
  | .next t => t
  | .fault _ => State.reset
  | .refused _ => State.reset

/-- Whether the outcome is a next state. -/
def goesOn (o : Host.Outcome State Fault Refusal) : Bool :=
  match o with
  | .next _ => true
  | .fault _ => false
  | .refused _ => false

theorem goesOn_next {o : Host.Outcome State Fault Refusal} (h : goesOn o = true) : o = .next (after o) := by
  cases o <;> simp_all [goesOn, after]

/-- Bytes put into memory from an address on. -/
def putBytes (a : Nat) : List Byte → Memory → Memory
  | [], m => m
  | b :: bs, m => putBytes (a + 1) bs (m.write a b)

/-- An accepted command with a source buffer at 0x1000 that holds the bytes, and a destination buffer at 0x2000. -/
def withSource (bytes : List Byte) (cap : Word) : State :=
  { State.reset with
    mem := putBytes 0x1000 bytes ⟨[], []⟩
    latch := ⟨0, 0x1000, BitVec.ofNat 32 bytes.length, 0x2000, cap⟩
    work := .accepted }

/-- FREQ of V-FQ-1: eight 0x61 and one 0x62. -/
def freqAB : FreqTable := tableSet (tableSet FreqTable.empty 0x61 8) 0x62 1

/-- The tree of `freqAB`: leaves 0x61 (8) and 0x62 (1), and the root with the lighter 0x62 on the left (R194). -/
def nodesAB : NodeStore :=
  ((NodeStore.empty.setIfInBounds 0 ⟨true, false, 0x61, 0, 0, 8⟩).setIfInBounds 1 ⟨true, false, 0x62, 0, 0, 1⟩).setIfInBounds
    2 ⟨true, true, 0, 1, 0, 9⟩

/-- The codes of `nodesAB`. -/
def codesAB : CodeTable := tableSet (tableSet CodeTable.empty 0x61 [true]) 0x62 [false]

/-- The machine with that table, tree and code table, and a source buffer. -/
def coder (bytes : List Byte) (cap : Word) : State :=
  { withSource bytes cap with
    freq := freqAB, nsym := 2, nodes := nodesAB, nnode := 3, codes := codesAB, treeValid := true, codeValid := true }

/-- The machine with the single-leaf tree of three 0x78. -/
def oneLeaf (bytes : List Byte) (cap : Word) : State :=
  { withSource bytes cap with
    freq := tableSet FreqTable.empty 0x78 3, nsym := 1
    nodes := NodeStore.empty.setIfInBounds 0 ⟨true, false, 0x78, 0, 0, 3⟩, nnode := 1
    codes := tableSet CodeTable.empty 0x78 [false], treeValid := true, codeValid := true }

/-! ### Well-formedness: one ill-formed word for each check of R144 -/

theorem test_opcode_above_8_refused : opcodeDefined 0x00000009 = false ∧ decodeWord 0x00000009 = none := by decide
theorem test_reserved_bit_refused : reservedClear 0x00000801 = false ∧ decodeWord 0x00000801 = none := by decide
theorem test_top_reserved_bit_refused : reservedClear 0x80000006 = false ∧ decodeWord 0x80000006 = none := by decide
theorem test_pad_outside_unpack_refused : padAllowed 0x00000106 = false ∧ decodeWord 0x00000106 = none := by decide
theorem test_bad_pad_and_reserved_refused : decodeWord 0xFFFFFFFF = none ∧ decodeWord 0x00000807 = none := by decide

/-! ### Decoding: words written out from R140 and R141, RSV (21 bits), PAD (3 bits), OPC (8 bits) -/

theorem test_decode_nop : decodeWord 0b000000000000000000000_000_00000000 = some .nop := by decide
theorem test_decode_fcount : decodeWord 0b000000000000000000000_000_00000001 = some .fcount := by decide
theorem test_decode_fload : decodeWord 0b000000000000000000000_000_00000010 = some .fload := by decide
theorem test_decode_fstore : decodeWord 0b000000000000000000000_000_00000011 = some .fstore := by decide
theorem test_decode_tbuild : decodeWord 0b000000000000000000000_000_00000100 = some .tbuild := by decide
theorem test_decode_ctgen : decodeWord 0b000000000000000000000_000_00000101 = some .ctgen := by decide
theorem test_decode_pack : decodeWord 0b000000000000000000000_000_00000110 = some .pack := by decide
theorem test_decode_unpack_0 : decodeWord 0b000000000000000000000_000_00000111 = some (.unpack 0) := by decide
theorem test_decode_unpack_4 : decodeWord 0b000000000000000000000_100_00000111 = some (.unpack 4) := by decide
theorem test_decode_unpack_7 : decodeWord 0b000000000000000000000_111_00000111 = some (.unpack 7) := by decide
theorem test_decode_clear : decodeWord 0b000000000000000000000_000_00001000 = some .clear := by decide
theorem test_table_word : decodeTableWord 32 0x00000307 = some (.unpack 3) := by decide

/-! ### One step each -/

theorem test_nop : (after (step (State.reset.withFetchWord 32 0))).statusWord = 0x00000042 := by decide +kernel

/-- V-FQ-1's input: eight 0x61, one 0x62. -/
theorem test_fcount :
    let t := after (exec .fcount (withSource [0x61, 0x61, 0x61, 0x61, 0x61, 0x61, 0x61, 0x61, 0x62] 0))
    tableGet t.freq 0x61 = 8 ∧ tableGet t.freq 0x62 = 1 ∧ t.nsym = 2 ∧ t.resLen = 9 ∧ t.err = .none := by
  decide +kernel

theorem test_fload :
    let t := after (exec .fload (withSource [0, 0, 0, 2, 0x62, 0, 0, 0, 1, 0x61, 0, 0, 1, 8] 0))
    tableGet t.freq 0x61 = 0x108 ∧ t.nsym = 2 ∧ t.resLen = 14 := by decide +kernel

theorem test_fload_repeated_symbol :
    let t := after (exec .fload (withSource [0, 0, 0, 2, 0x62, 0, 0, 0, 1, 0x62, 0, 0, 0, 0] 0))
    t.err = .malformed ∧ t.errInfo = 9 := by decide +kernel

theorem test_fstore :
    let t := after (exec .fstore (coder [] 14))
    bytesAt t.mem 0x2000 14 = [0, 0, 0, 2, 0x61, 0, 0, 0, 8, 0x62, 0, 0, 0, 1] ∧ t.resLen = 14 := by decide +kernel

theorem test_tbuild :
    let t := after (exec .tbuild (coder [] 0))
    (t.nodes.toList.take 3).map (·.weight) = [8, 1, 9] ∧ (nodeAt t.nodes 2).left = 1 ∧ t.codeValid = false := by
  decide +kernel

theorem test_ctgen :
    let t := after (exec .ctgen (coder [] 0))
    tableGet t.codes 0x61 = [true] ∧ tableGet t.codes 0x62 = [false] := by decide +kernel

theorem test_pack :
    let t := after (exec .pack (coder [0x61, 0x62, 0x61] 1))
    t.mem.read 0x2000 = 0xA0 ∧ t.resPad = 5 ∧ t.resBits = 3 ∧ t.resLen = 1 := by decide +kernel

/-- The PACK of P3's line 12: source 0x2000/1 and destination 0x2000/4 overlap, and 0x2000 stays 08. -/
theorem test_pack_overlap_writes_nothing :
    let t := after (exec .pack { oneLeaf [] 0 with mem := putBytes 0x2000 [0x08] ⟨[], []⟩, latch := ⟨6, 0x2000, 1, 0x2000, 4⟩ })
    t.err = .overlap ∧ t.errInfo = 0 ∧ t.mem.read 0x2000 = 0x08 := by decide +kernel

theorem test_unpack :
    let t := after (exec (.unpack 5) (coder [0xBF] 3))
    bytesAt t.mem 0x2000 3 = [0x61, 0x62, 0x61] ∧ t.resBits = 3 ∧ t.err = .none := by decide +kernel

theorem test_unpack_leaf_root_bit_1 :
    let t := after (exec (.unpack 0) (oneLeaf [0x20] 8))
    t.err = .truncated ∧ t.errInfo = 2 := by decide +kernel

theorem test_clear : (after (exec .clear (coder [] 0))).statusWord = 0x00000042 := by decide +kernel

/-! ### Witnesses: a state and operands that meet the hypotheses of each statement together -/

theorem witness_DecodingIsTotalInThreeCases :
    (9 ≤ (0x00000009 : Word).toNat % 256) ∧ ((0x00000800 : Word).toNat / 2048 ≠ 0) ∧
    ((0x00000106 : Word).toNat % 256 ≠ 7 ∧ (0x00000106 : Word).toNat / 256 % 8 ≠ 0) ∧
    (¬ (9 ≤ (0x00000008 : Word).toNat % 256 ∨ (0x00000008 : Word).toNat / 2048 ≠ 0 ∨
      ((0x00000008 : Word).toNat % 256 ≠ 7 ∧ (0x00000008 : Word).toNat / 256 % 8 ≠ 0)) ∧
      (0x00000008 : Word).toNat % 256 ≠ 7) ∧
    (¬ (9 ≤ (0x00000707 : Word).toNat % 256 ∨ (0x00000707 : Word).toNat / 2048 ≠ 0 ∨
      ((0x00000707 : Word).toNat % 256 ≠ 7 ∧ (0x00000707 : Word).toNat / 256 % 8 ≠ 0)) ∧
      (0x00000707 : Word).toNat % 256 = 7) := by decide

theorem witness_IllegalWordOnlyReportsItself :
    (State.reset.accept 0x00000009).inputs = [] ∧ (State.reset.accept 0x00000009).work = .accepted ∧
      decodeWord (State.reset.accept 0x00000009).latch.word = none := by decide +kernel

theorem witness_StepRunsTheDecodedCommand :
    (State.reset.accept 0x00000707).inputs = [] ∧ (State.reset.accept 0x00000707).work = .accepted ∧
    decodeWord (State.reset.accept 0x00000707).latch.word = some (.unpack 7) ∧
    ({ State.reset.accept 0x00000707 with inputs := [.wait] } : State).inputs = .wait :: [] ∧
    decodeTableWord 32 0x00000008 = some .clear := by decide +kernel

/-- The reset state with one host action pending. -/
def given (a : Input) : State := { State.reset with inputs := [a] }

/-- A running FCOUNT with one host action pending, and OVR 1. -/
def runningGiven (a : Input) : State := { withSource [0x61] 4 with inputs := [a], ovr := true }

theorem witness_CommandWriteWhileIdleIsAccepted :
    (given (.busWrite 0x00C .b32 0x00000001)).busy = false ∧
      (given (.busWrite 0x00C .b32 0x00000001)).inputs =
        .busWrite (State.reset.platform.hufBase + 0x00C) .b32 0x00000001 :: [] := by decide +kernel

theorem witness_CommandWriteWhileBusyIsDropped :
    ((runningGiven (.busWrite 0x00C .b32 0x00000001)).busy = true ∧
      (runningGiven (.busWrite 0x00C .b32 0x00000001)).inputs =
        .busWrite (State.reset.platform.hufBase + 0x00C) .b32 0x00000001 :: []) ∧
    (∃ t, step (runningGiven .hardReset) = .next t ∧ (runningGiven .hardReset).ovr = true ∧ t.ovr = false) ∧
    (∃ t, step (runningGiven (.busWrite 0x008 .b32 0x00000008)) = .next t ∧ t.ovr = false) ∧
    (∃ t, step (runningGiven (.busWrite 0x004 .b32 0x00000002)) = .next t ∧ t.ovr = false) :=
  ⟨by decide +kernel, ⟨_, goesOn_next (by decide +kernel), by decide +kernel, by decide +kernel⟩,
    ⟨_, goesOn_next (by decide +kernel), by decide +kernel⟩, ⟨_, goesOn_next (by decide +kernel), by decide +kernel⟩⟩

theorem witness_RunningCommandUsesLatchedArguments :
    (runningGiven .wait).busy = true ∧
    (∀ off ∈ [0x010, 0x014, 0x018, 0x01C],
      (given (.busWrite off .b32 5)).busy = false ∧
        (given (.busWrite off .b32 5)).inputs = .busWrite (State.reset.platform.hufBase + off) .b32 5 :: []) ∧
    (∀ off ∈ [0x010, 0x014, 0x018, 0x01C],
      (runningGiven (.busWrite off .b32 5)).busy = true ∧
        (runningGiven (.busWrite off .b32 5)).inputs =
          .busWrite (State.reset.platform.hufBase + off) .b32 5 :: []) := by decide +kernel

theorem witness_EveryCommandEndsIdleAndKeepsHostRegisters :
    (∃ t, exec .nop State.reset = .next t ∧ t.err = .none) ∧
    (∃ t, exec .ctgen State.reset = .next t ∧ t.err ≠ .none) :=
  ⟨⟨_, goesOn_next (by decide +kernel), by decide +kernel⟩, ⟨_, goesOn_next (by decide +kernel), by decide +kernel⟩⟩

/-- CTGEN accepted with no tree. -/
def ctgenTooEarly : State := State.reset.accept 0x00000005

theorem witness_ErrorLeavesEveryTable :
    ctgenTooEarly.busy = true ∧ (∃ t, engineRun ctgenTooEarly = .next t ∧ t.err ≠ .none) ∧
    (∃ t, engineStep ctgenTooEarly = .next t ∧ t.err ≠ .none) ∧
    (State.reset.accept 0x00000001).busy = true ∧
    (∃ t, engineStep (State.reset.accept 0x00000001) = .next t ∧ t.busy = true) :=
  ⟨by decide +kernel, ⟨_, goesOn_next (by decide +kernel), by decide +kernel⟩,
    ⟨_, goesOn_next (by decide +kernel), by decide +kernel⟩, by decide +kernel,
    ⟨_, goesOn_next (by decide +kernel), by decide +kernel⟩⟩

theorem witness_EachCommandRaisesOnlyItsErrors : ∃ t, exec .ctgen State.reset = .next t ∧ t.err = .notReady :=
  ⟨_, goesOn_next (by decide +kernel), by decide +kernel⟩

theorem witness_CommandsWriteOnlyTheirDestination :
    (coder [0x61] 1).nsym.toNat = symbolCount (coder [0x61] 1).freq ∧
    (∃ t, exec .pack (coder [0x61] 1) = .next t ∧ t.err = .none) ∧ usesDst .pack = true ∧
    (∃ t, exec .fcount (coder [0x61] 1) = .next t ∧ t.err = .none) ∧ usesDst .fcount = false :=
  ⟨by decide +kernel, ⟨_, goesOn_next (by decide +kernel), by decide +kernel⟩, rfl,
    ⟨_, goesOn_next (by decide +kernel), by decide +kernel⟩, rfl⟩

theorem witness_CommandsReadOnlyTheirSource :
    let s := coder [0x61] 1
    usesSrc .pack = true ∧ s.mem.write 0x3000 7 ≠ s.mem ∧
      (∀ a, s.latch.srcAddr.toNat ≤ a → a < s.latch.srcAddr.toNat + s.latch.srcLen.toNat →
        (s.mem.write 0x3000 7).read a = s.mem.read a) ∧
      (∃ t, exec .pack s = .next t) ∧ ∃ t, exec .pack { s with mem := s.mem.write 0x3000 7 } = .next t := by
  refine ⟨rfl, by decide +kernel, fun a h₁ h₂ => ?_, ⟨_, goesOn_next (by decide +kernel)⟩,
    ⟨_, goesOn_next (by decide +kernel)⟩⟩
  have : a = 0x1000 := by
    have h₁' : 0x1000 ≤ a := h₁
    have h₂' : a < 0x1000 + 1 := h₂
    omega
  subst this
  decide +kernel

/-- Each pre-check error at the least value that raises it. -/
theorem witness_PreChecksReportTheFirstError :
    preError .ctgen State.reset = some (.notReady, 0) ∧
    preError .fcount { State.reset with latch := ⟨1, 0xFFFFFFFF, 2, 0, 0⟩ } = some (.range, 0) ∧
    preError .fcount { State.reset with latch := ⟨1, 0xFFFFFFFF, 1, 0, 0⟩ } = none ∧
    preError .fload { State.reset with latch := ⟨2, 0, 3, 0, 0⟩ } = some (.malformed, 0) ∧
    preError .fload { State.reset with latch := ⟨2, 0, 4, 0, 0⟩ } = none ∧
    preError .fstore { State.reset with latch := ⟨3, 0, 0, 0xFFFFFFFF, 2⟩ } = some (.range, 1) ∧
    preError .fstore (coder [] 13) = some (.dstOverflow, 13) ∧ preError .fstore (coder [] 14) = none ∧
    preError .pack { coder [] 0 with latch := ⟨6, 0x1000, 2, 0x1001, 1⟩ } = some (.overlap, 0) ∧
    preError .pack { coder [] 0 with latch := ⟨6, 0x1000, 1, 0x1001, 1⟩ } = none ∧
    preError (.unpack 1) (coder [] 0) = some (.malformed, 0) ∧ preError (.unpack 0) (coder [] 0) = none ∧
    (coder [] 0).raced = false := by decide +kernel

theorem witness_FailedOutputIsUnspecified :
    (coder [0x63] 1).nsym.toNat = symbolCount (coder [0x63] 1).freq ∧ usesDst .pack = true ∧
    (∃ t, exec .pack (coder [0x63] 1) = .next t ∧ t.err = .noCode ∧ t.draws = 1) ∧
    (∃ t, exec .fstore (coder [0x63] 1) = .next t ∧ t.err = .dstOverflow ∧ t.mem = (coder [0x63] 1).mem) :=
  ⟨by decide +kernel, rfl, ⟨_, goesOn_next (by decide +kernel), by decide +kernel, by decide +kernel⟩,
    ⟨_, goesOn_next (by decide +kernel), by decide +kernel, by decide +kernel⟩⟩

theorem witness_RefusesOnlyBuffersOnDevices :
    step { withSource [0x61] 1 with
      latch := ⟨1, 0x1000, 1, 0x2000, 1⟩, platform := ⟨0, [], [⟨0x1000, 1⟩]⟩ } = .refused .deviceBuffer := rfl

theorem witness_NopOnlyCompletes : (0x00000100 : Word).toNat % 256 = 0 ∧ (0x00000100 : Word) ≠ 0 := by decide
theorem witness_ClearDiscardsTheTables :
    (0x00000108 : Word).toNat % 256 = 8 ∧ (0x00000108 : Word) ≠ 0x00000008 := by decide

/-- A source buffer, an empty one, and one that ends at the top of the address space. -/
theorem witness_FcountCountsTheSource :
    let top : State := { State.reset with latch := ⟨1, 0xFFFFFFFF, 1, 0, 0⟩ }
    (∀ s ∈ [withSource [0x61, 0x62] 0, withSource [] 0, top],
      s.latch.srcAddr.toNat + s.latch.srcLen.toNat ≤ 2 ^ 32 ∧ s.srcOnDevice = false ∧ s.raced = false ∧
        ∀ i < s.latch.srcLen.toNat,
          s.platform.memFault (BitVec.ofNat 32 (s.latch.srcAddr.toNat + i)) .read = false) := by
  decide +kernel

theorem witness_FcountIgnoresTheOrder :
    let s₁ := withSource [0x61, 0x62, 0x61] 0
    let s₂ := withSource [0x62, 0x61, 0x61] 0
    s₁.raced = false ∧ s₂.raced = false ∧ s₁.sourceBytes.Perm s₂.sourceBytes ∧
    (∃ t, exec .fcount s₁ = .next t ∧ t.err = .none) ∧ (∃ t, exec .fcount s₂ = .next t ∧ t.err = .none) :=
  ⟨rfl, rfl, by decide +kernel, ⟨_, goesOn_next (by decide +kernel), by decide +kernel⟩,
    ⟨_, goesOn_next (by decide +kernel), by decide +kernel⟩⟩

theorem witness_FcountStopsAtTheFirstFailingRead :
    let s : State := { withSource [0x61, 0x62] 0 with platform := ⟨0, [⟨0x1001, 1, .read⟩], []⟩ }
    s.SrcFits ∧ s.srcOnDevice = false ∧ 1 < s.latch.srcLen.toNat ∧ s.SrcReadable 1 ∧
      s.platform.memFault (BitVec.ofNat 32 (s.latch.srcAddr.toNat + 1)) .read = true := by
  unfold State.SrcFits State.SrcReadable; decide +kernel

theorem witness_FloadLoadsTheSection :
    let s := withSource [0, 0, 0, 2, 0x62, 0, 0, 0, 1, 0x61, 0, 0, 1, 8, 0x99] 0
    let records : List (Byte × Word) := [(0x62, 1), (0x61, 0x108)]
    s.SrcFits ∧ s.srcOnDevice = false ∧ s.raced = false ∧ s.SrcReadable (4 + 5 * records.length) ∧
      s.sourceBytes = beBytes (BitVec.ofNat 32 records.length) ++
        records.flatMap (fun r => r.1 :: beBytes r.2) ++ [0x99] ∧
      (records.map Prod.fst).Nodup ∧ (∀ r ∈ records, r.2 ≠ 0) :=
  ⟨by unfold State.SrcFits; decide +kernel, rfl, rfl, fun _ _ => rfl, by decide +kernel, by simp, by simp⟩

/-- N = 257, and N = 1 with one byte missing. -/
theorem witness_FloadRefusesABadCount :
    let s := withSource [0, 0, 1, 1] 0
    let s' := withSource [0, 0, 0, 1, 0x61, 0, 0, 0] 0
    (s.SrcFits ∧ s.srcOnDevice = false ∧ s.raced = false ∧ s.SrcReadable 4 ∧ s.sourceBytes = beBytes 257 ++ [] ∧
      (257 : Word).toNat > 256) ∧
    (s'.SrcFits ∧ s'.srcOnDevice = false ∧ s'.raced = false ∧ s'.SrcReadable 4 ∧
      s'.sourceBytes = beBytes 1 ++ [0x61, 0, 0, 0] ∧ s'.latch.srcLen.toNat < 4 + 5 * (1 : Word).toNat) := by
  unfold State.SrcFits State.SrcReadable; decide +kernel

/-- A section of two records, the first one good. -/
def secondRecord (x f : Byte) : State := withSource [0, 0, 0, 2, 0x62, 0, 0, 0, 1, x, 0, 0, 0, f] 0

/-- The second record repeats the symbol, with a frequency and without one, or has the frequency 0. -/
theorem witness_FloadRefusesTheFirstBadRecord :
    let good : List (Byte × Word) := [(0x62, 1)]
    (∀ x f, (secondRecord x f).SrcFits ∧ (secondRecord x f).srcOnDevice = false ∧ (secondRecord x f).raced = false ∧
      (secondRecord x f).SrcReadable (4 + 5 * 2)) ∧
    2 ≤ 256 ∧ 4 + 5 * 2 ≤ (secondRecord 0x62 5).latch.srcLen.toNat ∧ good.length < 2 ∧
    (secondRecord 0x62 5).sourceBytes = beBytes (BitVec.ofNat 32 2) ++ good.flatMap (fun r => r.1 :: beBytes r.2) ++
      (0x62 :: beBytes 5) ++ [] ∧
    (secondRecord 0x62 0).sourceBytes = beBytes (BitVec.ofNat 32 2) ++ good.flatMap (fun r => r.1 :: beBytes r.2) ++
      (0x62 :: beBytes 0) ++ [] ∧
    (secondRecord 0x61 0).sourceBytes = beBytes (BitVec.ofNat 32 2) ++ good.flatMap (fun r => r.1 :: beBytes r.2) ++
      (0x61 :: beBytes 0) ++ [] ∧
    (good.map Prod.fst).Nodup ∧ (∀ r ∈ good, r.2 ≠ 0) ∧ (0x62 : Byte) ∈ good.map Prod.fst ∧
    (0x61 : Byte) ∉ good.map Prod.fst :=
  ⟨fun _ _ => ⟨by unfold State.SrcFits; show 0x1000 + 14 ≤ 2 ^ 32; decide, rfl, rfl, fun _ _ => rfl⟩, by decide,
    by decide +kernel, by decide, by decide +kernel, by decide +kernel, by decide +kernel, by simp, by simp, by simp,
    by simp⟩

/-- A destination buffer of exactly 4 + 5N bytes. -/
theorem witness_FstoreWritesTheSection :
    let s := coder [] 14
    s.nsym.toNat = symbolCount s.freq ∧ s.DstFits ∧ s.dstOnDevice = false ∧ s.raced = false ∧
      (freqSection s.freq).length ≤ s.latch.dstCap.toNat ∧ s.DstWritable (freqSection s.freq).length := by
  unfold State.DstFits State.DstWritable; decide +kernel

/-- FSTORE of a table into 9 bytes, and FLOAD of those bytes accepted after it. -/
def stored : State := after (exec .fstore (oneLeaf [] 9))
def reloading : State := { stored with latch := ⟨2, 0x2000, 9, 0, 0⟩, work := .accepted }

theorem witness_FloadAfterFstoreGivesTheTableBack :
    ((oneLeaf [] 9).nsym.toNat = symbolCount (oneLeaf [] 9).freq ∧ (oneLeaf [] 9).raced = false ∧
      reloading.raced = false ∧ goesOn (exec .fstore (oneLeaf [] 9)) = true ∧
      stored.err = .none ∧ stored.resLen.toNat ≤ reloading.latch.srcLen.toNat ∧
      reloading.sourceBytes.take stored.resLen.toNat = bytesAt stored.mem 0x2000 stored.resLen.toNat ∧
      goesOn (exec .fload reloading) = true ∧ (after (exec .fload reloading)).err = .none) ∧
    exec .fstore (oneLeaf [] 9) = .next stored ∧ exec .fload reloading = .next (after (exec .fload reloading)) ∧
    (∃ w, exec .tbuild (after (exec .fload reloading)) = .next w) ∧ ∃ x, exec .tbuild (oneLeaf [] 9) = .next x := by
  refine (fun h => ⟨h, goesOn_next h.2.2.2.1, goesOn_next h.2.2.2.2.2.2.2.1, ⟨_, rfl⟩, ⟨_, rfl⟩⟩) ?_
  decide +kernel

/-- Used for every statement about the tree TBUILD builds: two symbols, one merge. -/
theorem witness_TreeStatements :
    (∃ t, exec .tbuild (coder [] 0) = .next t) ∧ tableGet (coder [] 0).freq 0x62 ≠ 0 ∧
      0 + 1 < symbolCount (coder [] 0).freq ∧ symbolCount (coder [] 0).freq ≥ 1 :=
  ⟨⟨_, goesOn_next (by decide +kernel)⟩, by decide +kernel, by decide +kernel, by decide +kernel⟩

/-- The least and the greatest symbol alone, and the empty table. -/
theorem witness_DegenerateTables :
    (∀ x ∈ [(0 : Byte), 255], tableGet (tableSet FreqTable.empty x 3) x ≠ 0 ∧
      ∀ y : Byte, y ≠ x → tableGet (tableSet FreqTable.empty x 3) y = 0) ∧
    (∀ y : Byte, tableGet State.reset.freq y = 0) ∧ State.reset.nsym = 0 := by
  refine ⟨fun x _ => ⟨?_, fun y h => ?_⟩, fun y => ?_, rfl⟩
  · rw [tableGet_tableSet, if_pos rfl]; decide
  · rw [tableGet_tableSet, if_neg h]; exact tableGet_replicate _ _
  · exact tableGet_replicate _ _

theorem witness_CtgenCompletesOnAValidTree : (coder [] 0).treeValid = true := rfl

/-- A state of the invariant with a tree of two leaves and its codes. -/
theorem coder_inv (bytes : List Byte) (cap : Word) (h : (putBytes 0x1000 bytes ⟨[], []⟩).wf) : (coder bytes cap).Inv where
  mem := h
  nsym := show (2 : BitVec 9).toNat = symbolCount freqAB by decide +kernel
  noTree := fun h => by cases h
  noCodes := fun h => by cases h
  codesNeedTree := fun _ => rfl
  tree := fun _ => 
    ⟨show (3 : BitVec 10).toNat = treeSize freqAB by decide +kernel,
      show nodesAB = treeOf freqAB from Vector.toList_inj.1 (by decide +kernel)⟩
  codes := fun _ => show codesAB = codesOf nodesAB 3 from Vector.toList_inj.1 (by decide +kernel)
  work := trivial

/-- The same for the single leaf. -/
theorem oneLeaf_inv (bytes : List Byte) (cap : Word) (h : (putBytes 0x1000 bytes ⟨[], []⟩).wf) :
    (oneLeaf bytes cap).Inv where
  mem := h
  nsym := show (1 : BitVec 9).toNat = symbolCount (tableSet FreqTable.empty 0x78 3) by decide +kernel
  noTree := fun h => by cases h
  noCodes := fun h => by cases h
  codesNeedTree := fun _ => rfl
  tree := fun _ => ⟨show (1 : BitVec 10).toNat = treeSize (tableSet FreqTable.empty 0x78 3) by decide +kernel,
    show NodeStore.empty.setIfInBounds 0 ⟨true, false, 0x78, 0, 0, 3⟩ = treeOf (tableSet FreqTable.empty 0x78 3) from
      Vector.toList_inj.1 (by decide +kernel)⟩
  codes := fun _ => show tableSet CodeTable.empty 0x78 [false] =
    codesOf (NodeStore.empty.setIfInBounds 0 ⟨true, false, 0x78, 0, 0, 3⟩) 1 from
      Vector.toList_inj.1 (by decide +kernel)
  work := trivial

/-- For CodesArePathsToLeaves, CodesAreFreeOfCommonStarts, KraftSumOfTheCodeTable and EveryStepKeepsTheInvariant. -/
theorem witness_InvariantStatements :
    (coder [] 0).Inv ∧ (oneLeaf [] 0).Inv ∧ (coder [] 0).treeValid = true ∧ (coder [] 0).codeValid = true ∧
    (oneLeaf [] 0).codeValid = true ∧ (∃ t, exec .ctgen (coder [] 0) = .next t) ∧
    (∃ t, exec .ctgen (oneLeaf [] 0) = .next t) ∧ (∃ t, step { coder [] 0 with inputs := [.engineStep] } = .next t) ∧
    tableGet (coder [] 0).freq 0x61 ≠ 0 ∧ tableGet (coder [] 0).freq 0x62 ≠ 0 ∧
    tableGet (coder [] 0).freq 0x63 = 0 ∧
    symbolCount (coder [] 0).freq ≥ 2 ∧ symbolCount (oneLeaf [] 0).freq = 1 :=
  ⟨coder_inv [] 0 Memory.empty_wf, oneLeaf_inv [] 0 Memory.empty_wf, rfl, rfl, rfl,
    ⟨_, goesOn_next (by decide +kernel)⟩, ⟨_, goesOn_next (by decide +kernel)⟩, ⟨_, goesOn_next (by decide +kernel)⟩,
    by decide +kernel, by decide +kernel, by decide +kernel, by decide +kernel, by decide +kernel⟩

/-- Three source bytes into exactly one destination byte. -/
theorem witness_PackWritesThePayload :
    let s := coder [0x61, 0x62, 0x61] 1
    let len := ((codeStream s.codes s.sourceBytes).length + 7) / 8
    s.codeValid = true ∧ s.SrcFits ∧ s.DstFits ∧ s.BuffersApart ∧ s.srcOnDevice = false ∧ s.dstOnDevice = false ∧
      s.raced = false ∧ s.SrcReadable s.latch.srcLen.toNat ∧ (∀ x ∈ s.sourceBytes, tableGet s.codes x ≠ []) ∧
      len ≤ s.latch.dstCap.toNat ∧ s.DstWritable len := by
  unfold State.SrcFits State.DstFits State.BuffersApart State.SrcReadable State.DstWritable; decide +kernel

theorem witness_PackStopsAtAByteWithoutACode :
    let s := coder [0x61, 0x63, 0x61] 0
    s.codeValid = true ∧ s.SrcFits ∧ s.DstFits ∧ s.BuffersApart ∧ s.srcOnDevice = false ∧ s.dstOnDevice = false ∧
      s.raced = false ∧ s.SrcReadable (1 + 1) ∧ s.sourceBytes[1]? = some 0x63 ∧ tableGet s.codes 0x63 = [] ∧
      (∀ y ∈ s.sourceBytes.take 1, tableGet s.codes y ≠ []) ∧
      (codeStream s.codes (s.sourceBytes.take 1)).length / 8 ≤ s.latch.dstCap.toNat ∧
      s.DstWritable ((codeStream s.codes (s.sourceBytes.take 1)).length / 8) := by
  unfold State.SrcFits State.DstFits State.BuffersApart State.SrcReadable State.DstWritable; decide +kernel

theorem witness_PackedBitsAreTheWeightedCodeLengths :
    let s := coder [0x61, 0x61, 0x61, 0x61, 0x62, 0x61, 0x61, 0x61, 0x61] 2
    s.raced = false ∧ (∀ x, (tableGet s.freq x).toNat = s.sourceBytes.count x) ∧
      exec .pack s = .next (after (exec .pack s)) ∧ (after (exec .pack s)).err = .none :=
  ⟨rfl, by decide +kernel, goesOn_next (by decide +kernel), by decide +kernel⟩

/-- A payload that fills the destination buffer, and the empty one. -/
theorem witness_UnpackDecodesTheCodeStream :
    (∀ c ∈ [((coder [0xBF] 3), (5 : BitVec 3), [(0x61 : Byte), 0x62, 0x61]), (coder [] 0, 0, [])],
      c.1.treeValid = true ∧ c.1.latch.srcAddr.toNat + c.1.latch.srcLen.toNat ≤ 2 ^ 32 ∧
      c.1.latch.dstAddr.toNat + c.1.latch.dstCap.toNat ≤ 2 ^ 32 ∧
      (c.1.latch.srcLen = 0 ∨ c.1.latch.dstCap = 0 ∨
        c.1.latch.dstAddr.toNat + c.1.latch.dstCap.toNat ≤ c.1.latch.srcAddr.toNat ∨
        c.1.latch.srcAddr.toNat + c.1.latch.srcLen.toNat ≤ c.1.latch.dstAddr.toNat) ∧
      c.1.srcOnDevice = false ∧ c.1.dstOnDevice = false ∧ c.1.raced = false ∧
      (∀ i < c.1.latch.srcLen.toNat,
        c.1.platform.memFault (BitVec.ofNat 32 (c.1.latch.srcAddr.toNat + i)) .read = false) ∧
      (c.1.latch.srcLen = 0 → c.2.1 = 0) ∧
      (∀ x ∈ c.2.2, tableGet (codesOf c.1.nodes c.1.nnode.toNat) x ≠ []) ∧
      streamOf c.1.sourceBytes c.2.1.toNat = codeStream (codesOf c.1.nodes c.1.nnode.toNat) c.2.2 ∧
      c.2.2.length ≤ c.1.latch.dstCap.toNat ∧
      (∀ i < c.2.2.length,
        c.1.platform.memFault (BitVec.ofNat 32 (c.1.latch.dstAddr.toNat + i)) .write = false)) := by
  decide +kernel

/-- A tree of three leaves: 0x61 has the code 0, 0x62 the code 10 and 0x63 the code 11. -/
def nodesABC : NodeStore :=
  ((((NodeStore.empty.setIfInBounds 0 ⟨true, false, 0x61, 0, 0, 2⟩).setIfInBounds 1
    ⟨true, false, 0x62, 0, 0, 1⟩).setIfInBounds 2 ⟨true, false, 0x63, 0, 0, 1⟩).setIfInBounds 3
    ⟨true, true, 0, 1, 2, 2⟩).setIfInBounds 4 ⟨true, true, 0, 0, 3, 4⟩

/-- The stream 0 1: the code of 0x61, then half of a code. -/
theorem witness_UnpackReportsAStreamCutInsideACode :
    let s : State := { withSource [0x40] 1 with nodes := nodesABC, nnode := 5, treeValid := true }
    s.treeValid = true ∧ s.SrcFits ∧ s.DstFits ∧ s.BuffersApart ∧ s.srcOnDevice = false ∧ s.dstOnDevice = false ∧
      s.raced = false ∧ s.SrcReadable s.latch.srcLen.toNat ∧ s.nnode.toNat > 1 ∧
      (∀ x ∈ [(0x61 : Byte)], tableGet (codesOf s.nodes s.nnode.toNat) x ≠ []) ∧
      streamOf s.sourceBytes (6 : BitVec 3).toNat =
        codeStream (codesOf s.nodes s.nnode.toNat) [0x61] ++ [true] ∧
      descend s.nodes s.root [true] = some 3 ∧ 3 ≠ s.root ∧ (nodeAt s.nodes 3).internal = true ∧
      [(0x61 : Byte)].length ≤ s.latch.dstCap.toNat ∧ s.DstWritable [(0x61 : Byte)].length := by
  unfold State.SrcFits State.DstFits State.BuffersApart State.SrcReadable State.DstWritable; decide +kernel

/-- Two zeros, the empty stream, and a 1 after one zero. -/
theorem witness_LeafRootDecodesZerosOnly :
    (∀ c ∈ [(oneLeaf [0x00] 2, (6 : BitVec 3)), (oneLeaf [] 0, 0), (oneLeaf [0x40] 1, 0)],
      c.1.treeValid = true ∧ c.1.nnode = 1 ∧ c.1.latch.srcAddr.toNat + c.1.latch.srcLen.toNat ≤ 2 ^ 32 ∧
      c.1.latch.dstAddr.toNat + c.1.latch.dstCap.toNat ≤ 2 ^ 32 ∧
      (c.1.latch.srcLen = 0 ∨ c.1.latch.dstCap = 0 ∨
        c.1.latch.dstAddr.toNat + c.1.latch.dstCap.toNat ≤ c.1.latch.srcAddr.toNat ∨
        c.1.latch.srcAddr.toNat + c.1.latch.srcLen.toNat ≤ c.1.latch.dstAddr.toNat) ∧
      c.1.srcOnDevice = false ∧ c.1.dstOnDevice = false ∧ c.1.raced = false ∧ (c.1.latch.srcLen = 0 → c.2 = 0) ∧
      (∀ i < c.1.latch.srcLen.toNat,
        c.1.platform.memFault (BitVec.ofNat 32 (c.1.latch.srcAddr.toNat + i)) .read = false) ∧
      (∀ i < 2, c.1.platform.memFault (BitVec.ofNat 32 (c.1.latch.dstAddr.toNat + i)) .write = false)) ∧
    streamOf (oneLeaf [0x00] 2).sourceBytes 6 = List.replicate 2 false ∧
    streamOf (oneLeaf [] 0).sourceBytes 0 = List.replicate 0 false ∧
    streamOf (oneLeaf [0x40] 1).sourceBytes 0 =
      List.replicate 1 false ++ true :: [false, false, false, false, false, false] := by
  decide +kernel

/-- Nine code bits into one byte, and two symbols into one byte. -/
theorem witness_OutputBeyondTheCapacityOverflows :
    let s := coder [0x61, 0x61, 0x61, 0x61, 0x61, 0x61, 0x61, 0x61, 0x62] 1
    let u := coder [0xBF] 1
    (s.codeValid = true ∧ s.SrcFits ∧ s.DstFits ∧ s.BuffersApart ∧ s.srcOnDevice = false ∧ s.dstOnDevice = false ∧
      s.raced = false ∧ s.SrcReadable s.latch.srcLen.toNat ∧ (∀ x ∈ s.sourceBytes, tableGet s.codes x ≠ []) ∧
      s.latch.dstCap.toNat < ((codeStream s.codes s.sourceBytes).length + 7) / 8 ∧
      s.DstWritable s.latch.dstCap.toNat) ∧
    (u.treeValid = true ∧ u.SrcFits ∧ u.DstFits ∧ u.BuffersApart ∧ u.srcOnDevice = false ∧ u.dstOnDevice = false ∧
      u.raced = false ∧ u.SrcReadable u.latch.srcLen.toNat ∧
      (∀ x ∈ [(0x61 : Byte), 0x62], tableGet (codesOf u.nodes u.nnode.toNat) x ≠ []) ∧
      streamOf u.sourceBytes (5 : BitVec 3).toNat =
        codeStream (codesOf u.nodes u.nnode.toNat) [0x61, 0x62] ++ [true] ∧
      u.latch.dstCap.toNat < [(0x61 : Byte), 0x62].length ∧ u.DstWritable u.latch.dstCap.toNat) := by
  unfold State.SrcFits State.DstFits State.BuffersApart State.SrcReadable State.DstWritable; decide +kernel

/-- The payload 0xA0 and 0xBF with five padding bits. -/
theorem witness_UnpackIgnoresThePaddingBits :
    let s := coder [0xA0] 3
    let m := s.mem.write 0x1000 0xBF
    (∀ a, a ≠ 0x1000 + 1 - 1 → m.read a = s.mem.read a) ∧
      (∀ k, k < 8 → (5 : BitVec 3).toNat ≤ k → (m.read 0x1000).getLsbD k = (s.mem.read 0x1000).getLsbD k) ∧
      (∀ k, 8 ≤ k → (m.read 0x1000).getLsbD k = (s.mem.read 0x1000).getLsbD k) ∧
      s.latch.srcAddr.toNat + s.latch.srcLen.toNat - 1 = 0x1000 ∧ s.latch.srcLen ≠ 0 ∧
      (∃ t, exec (.unpack 5) s = .next t) ∧ (∃ t, exec (.unpack 5) { s with mem := m } = .next t) :=
  ⟨fun a h => Memory.read_write_other _ _ h, by decide +kernel,
    fun k h => by rw [BitVec.getLsbD_of_ge _ _ h, BitVec.getLsbD_of_ge _ _ h], by decide +kernel, by decide +kernel,
    ⟨_, goesOn_next (by decide +kernel)⟩, ⟨_, goesOn_next (by decide +kernel)⟩⟩

/-- The chain of the round trip for the two bytes 0x61 0x62. -/
def roundTrip (src n pay payCap sec secCap out outCap : Word) (s : State) : List State :=
  let t₁ := after (exec .fcount (s.issue .fcount src n pay payCap))
  let t₂ := after (exec .tbuild (t₁.issue .tbuild src n pay payCap))
  let t₃ := after (exec .ctgen (t₂.issue .ctgen src n pay payCap))
  let t₄ := after (exec .pack (t₃.issue .pack src n pay payCap))
  let t₅ := after (exec .fstore (t₄.issue .fstore src n sec secCap))
  let t₆ := after (exec .fload (t₅.issue .fload sec t₅.resLen out outCap))
  let t₇ := after (exec .tbuild (t₆.issue .tbuild pay t₄.resLen out outCap))
  let t₈ := after (exec (.unpack t₄.resPad) (t₇.issue (.unpack t₄.resPad) pay t₄.resLen out outCap))
  [t₁, t₂, t₃, t₄, t₅, t₆, t₇, t₈]

/-- Every command of the chain gives a next state without an error (`after` of a stop is the reset state, whose DONE is
0), and the section buffer leaves the payload alone. -/
theorem witness_RoundTripGivesTheInputBack :
    (roundTrip 0x1000 2 0x2000 1 0x3000 14 0x4000 2 (withSource [0x61, 0x62] 0)).all
        (fun t => t.done && decide (t.err = .none)) = true ∧
      (0x2000 : Word).toNat + (1 : Word).toNat ≤ (0x3000 : Word).toNat := by
  decide +kernel

theorem witness_ValidityFlagsChangeAsListed :
    (∃ t, exec .tbuild State.reset = .next t ∧ t.err = .none) ∧
    (∃ t, exec .ctgen State.reset = .next t ∧ t.err ≠ .none) ∧
    (∃ t, exec .ctgen (coder [] 0) = .next t ∧ t.err = .none) ∧ (∃ t, exec .clear (coder [] 0) = .next t ∧ t.err = .none) :=
  ⟨⟨_, goesOn_next (by decide +kernel), by decide +kernel⟩, ⟨_, goesOn_next (by decide +kernel), by decide +kernel⟩,
    ⟨_, goesOn_next (by decide +kernel), by decide +kernel⟩, ⟨_, goesOn_next (by decide +kernel), by decide +kernel⟩⟩

theorem witness_WindowsShowTheTables :
    let s : State := { coder [] 0 with work := .idle, latch := Latch.clear }
    s.busy = false ∧ (tableGet s.codes 0).length ≤ 255 ∧ (tableGet s.codes 255).length ≤ 255 := by decide +kernel

/-- Every edge of the hidden ranges, and the last register that reads as usual. -/
theorem witness_ReadsWhileBusy :
    (withSource [] 0).busy = true ∧ RegName.DST_CAP.offset < 0x020 ∧
    (∀ off ∈ [0x020, 0x03C, 0x400, 0xBFC, 0x1000, 0x2FFC, 0x4000, 0x5FEC],
      off % 4 = 0 ∧ ((0x020 ≤ off ∧ off < 0x040) ∨ (0x400 ≤ off ∧ off < 0xC00) ∨ (0x1000 ≤ off ∧ off < 0x3000) ∨
        (0x4000 ≤ off ∧ off < 0x5FF0))) := by decide

theorem witness_ReservedOffsetsReadZero :
    ∀ off ∈ [0x040, 0x3FC, 0xC00, 0xFFC, 0x3000, 0x3FFC, 0x5FF0, 0x5FFC],
      off % 4 = 0 ∧ ((0x040 ≤ off ∧ off ≤ 0x3FC) ∨ (0xC00 ≤ off ∧ off ≤ 0xFFC) ∨ (0x3000 ≤ off ∧ off ≤ 0x3FFC) ∨
        (0x5FF0 ≤ off ∧ off ≤ 0x5FFC)) := by decide

theorem witness_RegistersReadTheirValues : State.reset.busy = false := rfl

theorem witness_ReadOnlyOffsetsIgnoreWrites :
    ∀ off ∈ [0x000, 0x020, 0x03C, 0x400, 0xBFC, 0x1000, 0x2FFC, 0x4000, 0x5FEC],
      off % 4 = 0 ∧ (off = 0x000 ∨ (0x020 ≤ off ∧ off ≤ 0x03C) ∨ (0x400 ≤ off ∧ off ≤ 0xBFC) ∨
        (0x1000 ≤ off ∧ off ≤ 0x2FFC) ∨ (0x4000 ≤ off ∧ off ≤ 0x5FEC)) := by decide

theorem witness_CtrlReadsAndWrites :
    (0xFFFFFFFD : Word).getLsbD 1 = false ∧ (0x00000003 : Word).getLsbD 1 = true := by decide

theorem witness_OtherAccessesAreErrors :
    (0x5FFF < 0x6000 ∧ 0x5FFF % 4 ≠ 0) ∧ (0 < 0x6000 ∧ AccessSize.b8 ≠ .b32) ∧ AccessSize.b64 ≠ .b32 := by decide

theorem witness_InterruptIsALevelOfDone :
    ((State.reset.accept 0).busy = true ∧ goesOn (engineRun (State.reset.accept 0)) = true ∧
      goesOn (engineStep (State.reset.accept 0)) = true ∧ (after (engineStep (State.reset.accept 0))).busy = false) ∧
    (0x00000002 : Word).getLsbD 1 = true ∧ State.reset.busy = false ∧
    (0x00000000 : Word).getLsbD 0 = false ∧ (0x00000001 : Word).getLsbD 0 = true ∧
    (0x00000001 : Word).getLsbD 1 = false ∧ ({ State.reset with done := true } : State).done = true ∧
    (let s : State := { State.reset.accept 0 with ie := true }
      ∃ t, step s = .next t ∧ s.irq = false ∧ t.irq = true) ∧
    (let s : State := { given (.busWrite 0x004 .b32 1) with done := true }
      ∃ t, step s = .next t ∧ s.irq = false ∧ t.irq = true) :=
  ⟨by decide +kernel, by decide, rfl, by decide, by decide, by decide, rfl,
    ⟨_, goesOn_next (by decide +kernel), by decide +kernel, by decide +kernel⟩,
    ⟨_, goesOn_next (by decide +kernel), by decide +kernel, by decide +kernel⟩⟩

/-- The reset input and SRST, while PACK runs and while the engine is idle. -/
theorem witness_ResetPutsEveryRegister :
    (let s : State := { (coder [0x61] 1).issue .pack 0x1000 1 0x2000 1 with inputs := [.hardReset] }
      ∃ t, step s = .next t ∧ s.runningDst = true) ∧
    (let s := given (.busWrite 0x004 .b32 0x00000003)
      ∃ t, step s = .next t ∧ s.runningDst = false ∧ (0x00000003 : Word).getLsbD 1 = true) :=
  ⟨⟨_, goesOn_next (by decide +kernel), by decide +kernel⟩,
    ⟨_, goesOn_next (by decide +kernel), by decide +kernel, by decide⟩⟩

/-- PACK runs; another agent writes its source byte, writes its destination byte, reads its destination byte. -/
theorem witness_BrokenDutiesGiveAnyValues :
    let s := (coder [0x61] 1).issue .pack 0x1000 1 0x2000 1
    s.inRunningSrc 0x1000 = true ∧ s.inRunningDst 0x2000 = true ∧
    (∃ t, step { s with inputs := [.memWrite 0x1000 5] } = .next t) ∧
    (∃ t, step { s with inputs := [.memWrite 0x2000 5] } = .next t) ∧
    (∃ t, step { s with inputs := [.memRead 0x2000] } = .next t) ∧ s.race.raced = true ∧
    s.race.platform.memFault 0x1000 .read = false ∧ usesDst .fstore = true ∧
    (∃ t, exec .fstore { (coder [] 14).race with raced := true } = .next t) :=
  ⟨by decide +kernel, by decide +kernel, ⟨_, goesOn_next (by decide +kernel)⟩, ⟨_, goesOn_next (by decide +kernel)⟩,
    ⟨_, goesOn_next (by decide +kernel)⟩, rfl, rfl, rfl,
    ⟨_, goesOn_next (by decide +kernel)⟩⟩

end Sys2Proof.Tests
end

section
/-! PROOFS. What every part of a command's body does from any progress, and the ends that leave the tables alone. -/

namespace Sys2Proof.Machine

/-! ### Bodies from any progress -/

/-- What any part of any body does to the port: it changes only bytes of the address space, keeps memory's canonical
form and gives back no draw. No range of the buffers is needed, so it holds from any progress. -/
abbrev Port.Reaches (p q : Port) : Prop := Port.Within 0 (2 ^ 32) p q

theorem Port.Reaches.refl (p : Port) : p.Reaches p := Port.Within.refl _ _ p

/-- A part of a body that reaches its ports, and raises only codes that are errors. -/
def Result.Sound {α : Type} (p : Port) (r : Result α) : Prop :=
  r.All (fun _ q => p.Reaches q) (fun e q => e.code ≠ .none ∧ p.Reaches q)

theorem Result.sound_ok {α : Type} (p : Port) (a : α) : (Result.ok a p).Sound p := Port.Reaches.refl p

theorem Result.sound_raise {α : Type} (p : Port) {e : Raise} (he : e.code ≠ .none) :
    (Result.raise e p : Result α).Sound p :=
  ⟨he, Port.Reaches.refl p⟩

theorem Result.Sound.trans {α : Type} {p q : Port} {r : Result α} (hp : p.Reaches q) (h : r.Sound q) : r.Sound p :=
  h.mono (fun _ _ hq => hp.trans hq) fun _ _ ⟨he, hq⟩ => ⟨he, hp.trans hq⟩

theorem Result.Sound.bind {α β : Type} {p : Port} {r : Result α} {f : α → Port → Result β} (h : r.Sound p)
    (hf : ∀ a q, (f a q).Sound q) : (r.bind f).Sound p :=
  Result.All.bind h fun a q hq => (hf a q).trans hq

theorem memRead1_sound (s : State) (a : Word) (p : Port) : (memRead1 s a p).Sound p :=
  (memRead1_all s a p).mono (fun _ _ h => h.within ..) fun _ _ ⟨he, h⟩ => ⟨by simp [he], h.within ..⟩

theorem memWrite1_sound (s : State) (a : Word) (v : Byte) (p : Port) : (memWrite1 s a v p).Sound p :=
  (memWrite1_all (Nat.zero_le _) a.isLt).mono (fun _ _ h => h) fun _ _ ⟨he, h⟩ => ⟨by simp [he], h⟩

theorem memWriteN_sound (s : State) (vs : List Byte) : ∀ (a : Word) (p : Port), (memWriteN s a vs p).Sound p := by
  induction vs with
  | nil => exact fun _ p => Result.sound_ok p ()
  | cons v vs ih => exact fun a p => (memWrite1_sound s a v p).bind fun _ q => ih (a + 1) q

theorem emit_sound (s : State) (out : Nat) (v : Byte) (p : Port) : (emit s out v p).Sound p := by
  unfold emit
  split
  · exact Result.sound_raise p (by simp)
  · exact (memWrite1_sound ..).bind fun _ q => Result.sound_ok q _

theorem iterate_sound {α : Type} {body : Port → α → Result α} (hb : ∀ a p, (body p a).Sound p) :
    ∀ n a p, (iterate body n p a).Sound p := by
  intro n
  induction n with
  | zero => exact fun a p => Result.sound_ok p a
  | succ n ih => exact fun a p => (hb a p).bind ih

theorem fstoreBegin_sound (s : State) (p : Port) : (fstoreBegin s p).Sound p :=
  (memWriteN_sound ..).bind fun _ q => Result.sound_ok q _

theorem fstoreBody_sound (s : State) (w : FstoreWork) (p : Port) : (fstoreBody s p w).Sound p := by
  unfold fstoreBody
  simp only
  split
  · exact (memWriteN_sound ..).bind fun _ _ => (memWriteN_sound ..).bind fun _ r => Result.sound_ok r _
  · exact Result.sound_ok p _

theorem packBit_sound (s : State) (b : Bool) (p : Port) (w : PackWork) : (packBit s p w b).Sound p := by
  unfold packBit
  simp only
  split
  · exact (emit_sound ..).bind fun _ q => Result.sound_ok q _
  · exact Result.sound_ok p _

theorem packCode_sound (s : State) (bs : List Bool) : ∀ (p : Port) (w : PackWork), (packCode s bs p w).Sound p := by
  induction bs with
  | nil => exact fun p w => Result.sound_ok p w
  | cons b bs ih => exact fun p w => (packBit_sound s b p w).bind fun w₁ q => ih q w₁

theorem packBody_sound (s : State) (w : PackWork) (p : Port) : (packBody s p w).Sound p := by
  refine (memRead1_sound ..).bind fun b q => ?_
  split
  · exact Result.sound_raise q (by simp)
  · exact (packCode_sound ..).bind fun _ r => Result.sound_ok r _

theorem packFlush_sound (s : State) (w : PackWork) (p : Port) : (packFlush s w p).Sound p := by
  unfold packFlush
  split
  · exact (emit_sound ..).bind fun _ q => Result.sound_ok q _
  · exact Result.sound_ok p _

theorem unpackByte_sound (s : State) (w : UnpackWork) (p : Port) : (unpackByte s p w).Sound p := by
  unfold unpackByte
  split
  · exact memRead1_sound ..
  · exact Result.sound_ok p _

theorem unpackBody_sound (s : State) (w : UnpackWork) (p : Port) : (unpackBody s p w).Sound p := by
  refine (unpackByte_sound s w p).bind fun byte q => ?_
  simp only
  split
  · split
    · exact Result.sound_raise q (by simp)
    · exact (emit_sound ..).bind fun _ r => Result.sound_ok r _
  · generalize (if streamBit byte w.t = true then (nodeAt s.nodes w.node).right.toNat
      else (nodeAt s.nodes w.node).left.toNat) = child
    split
    · exact Result.sound_ok q _
    · exact (emit_sound ..).bind fun _ r => Result.sound_ok r _

/-! ### Ends that change the memory port alone -/

theorem State.havocDst_reaches (s : State) : s.port.Reaches s.havocDst.port where
  read a ha := Memory.read_havoc_outside _ (.inr (by unfold State.dstEnd; omega))
  wf h := Memory.havoc_wf h _ (Nat.min_le_right _ _)
  draws := Nat.le_succ _

theorem State.settleDst_reaches (s : State) : s.port.Reaches s.settleDst.port := by
  unfold State.settleDst
  split
  · exact s.havocDst_reaches
  · exact Port.Reaches.refl _

/-- The command ends, with an error or without one, and nothing but the memory port has changed before its end. -/
inductive EndsKeeping (s : State) : State → Prop
  | raised (p : Port) (e : Raise) : s.port.Reaches p → e.code ≠ .none → EndsKeeping s ((s.withPort p).raise e)
  | completed (p : Port) (r : Results) : s.port.Reaches p → EndsKeeping s ((s.withPort p).complete r)

theorem EndsKeeping.fail {s : State} {p : Port} {e : Raise} (usesDst : Bool) (hp : s.port.Reaches p)
    (he : e.code ≠ .none) : EndsKeeping s ((s.withPort p).fail usesDst e) := by
  cases usesDst with
  | false => exact .raised p e hp he
  | true => exact .raised (s.withPort p).havocDst.port e (hp.trans (s.withPort p).havocDst_reaches) he

theorem EndsKeeping.settled {s : State} {p : Port} (r : Results) (hp : s.port.Reaches p) :
    EndsKeeping s ((s.withPort p).settleDst.complete r) := by
  have hq : (s.withPort p).settleDst = s.withPort (s.withPort p).settleDst.port := by
    unfold State.settleDst; split <;> rfl
  rw [hq]
  exact .completed _ r (hp.trans (s.withPort p).settleDst_reaches)

theorem EndsKeeping.preError {s : State} {e : Raise} (usesDst : Bool) (he : e.code ≠ .none) :
    EndsKeeping s ((if usesDst then s.settleDst else s).raise e) := by
  have hq : (if usesDst then s.settleDst else s) = s.withPort (if usesDst then s.settleDst else s).port := by
    unfold State.settleDst; split <;> [split; skip] <;> rfl
  rw [hq]
  refine .raised _ e ?_ he
  split
  · exact s.settleDst_reaches
  · exact Port.Reaches.refl _

theorem endBody_keeping {α : Type} {s t : State} {usesDst : Bool} {r : Result α}
    {go : α → Port → Host.Outcome State Fault Refusal} (h : endBody s usesDst r go = .next t) (hr : r.Sound s.port)
    (hgo : ∀ a p, s.port.Reaches p → go a p = .next t → EndsKeeping s t) : EndsKeeping s t := by
  cases r with
  | ok a p => exact hgo a p hr h
  | raise e p => cases h; exact .fail usesDst hr.2 hr.1

theorem fstoreFinish_keeping {s t : State} {w : FstoreWork} {p : Port} (hp : s.port.Reaches p)
    (h : fstoreFinish s w p = .next t) : EndsKeeping s t := by
  cases h; exact .settled _ hp

theorem packFinish_keeping {s t : State} {w : PackWork} {p : Port} (hp : s.port.Reaches p)
    (h : packFinish s w p = .next t) : EndsKeeping s t :=
  endBody_keeping h ((packFlush_sound s w p).trans hp) fun _ _ hq hn => by cases hn; exact .settled _ hq

theorem unpackFinish_keeping {s t : State} {w : UnpackWork} {p : Port} (hp : s.port.Reaches p)
    (h : unpackFinish s w p = .next t) : EndsKeeping s t := by
  unfold unpackFinish at h
  split at h
  · cases h; exact .fail true hp (by simp)
  · cases h; exact .settled _ hp

theorem runFstore_keeping {s t : State} {w : FstoreWork} (h : runFstore s w = .next t) : EndsKeeping s t :=
  endBody_keeping h (iterate_sound (fstoreBody_sound s) _ _ _) fun _ _ => fstoreFinish_keeping

theorem runPack_keeping {s t : State} {w : PackWork} (h : runPack s w = .next t) : EndsKeeping s t :=
  endBody_keeping h (iterate_sound (packBody_sound s) _ _ _) fun _ _ => packFinish_keeping

theorem runUnpack_keeping {s t : State} {w : UnpackWork} (h : runUnpack s w = .next t) : EndsKeeping s t :=
  endBody_keeping h (iterate_sound (unpackBody_sound s) _ _ _) fun _ _ => unpackFinish_keeping

/-- What `EndsKeeping` says does not depend on the port the state holds. -/
theorem EndsKeeping.of_withPort {s t : State} {p : Port} (hp : s.port.Reaches p) (h : EndsKeeping (s.withPort p) t) :
    EndsKeeping s t := by
  cases h with
  | raised q e hq he => exact .raised q e (hp.trans hq) he
  | completed q r hq => exact .completed q r (hp.trans hq)

/-- FSTORE's ends whatever NSYM is; with NSYM = |FREQ| it also stays inside its buffer (`execFstore_ends`). -/
theorem execFstore_keeping {s t : State} (h : execFstore s = .next t) : EndsKeeping s t := by
  rcases preChecked_eq s (fstoreChecks s) s.dstOnDevice true
    (endBody s true (fstoreBegin s s.port) fun w p => runFstore (s.withPort p) w)
    with ⟨e, he, h'⟩ | ⟨-, -, h'⟩ | ⟨-, -, h'⟩
  · cases h'.symm.trans h
    refine .preError true ?_
    have hm := firstError_mem he
    simp only [fstoreChecks, List.mem_cons, List.not_mem_nil, or_false] at hm
    rcases hm with hm | hm <;> obtain ⟨-, rfl⟩ := raiseIf_eq_some hm.symm <;> simp
  · cases h'.symm.trans h
  · exact endBody_keeping (h'.symm.trans h) (fstoreBegin_sound s s.port) fun _ _ hp hr =>
      .of_withPort hp (runFstore_keeping hr)

end Sys2Proof.Machine
end

section
/-! PROOFS. The invariant of the machine (R65, R78, R79, R85): it holds at reset and every step keeps it. -/

namespace Sys2Proof.Machine

/-! ### Carrying the invariant over -/

/-- The progress of a command speaks of the tables, the latch and the race alone. -/
theorem WorkInv.congr {s t : State} (h : WorkInv s) (ht : SameTables s t) (hwork : t.work = s.work)
    (hlatch : t.latch = s.latch) (hraced : t.raced = s.raced) : WorkInv t := by
  unfold WorkInv at h ⊢
  rw [hwork, hlatch, hraced, ht.freq, ht.nodes, ht.nnode, ht.treeValid]
  exact h

theorem WorkInv.of_idle {s : State} (hwork : s.work = .idle) (hlatch : s.latch = Latch.clear)
    (hraced : s.raced = false) : WorkInv s := by
  unfold WorkInv; rw [hwork]; exact ⟨hlatch, hraced⟩

theorem WorkInv.of_accepted {s : State} (hwork : s.work = .accepted) : WorkInv s := by
  unfold WorkInv; rw [hwork]; trivial

/-- The tables meet the invariant as long as they stay; memory's form and the command in progress are all else. -/
theorem State.Inv.of_sameTables {s t : State} (h : s.Inv) (ht : SameTables s t) (hm : t.mem.wf) (hw : WorkInv t) :
    t.Inv where
  mem := hm
  nsym := by rw [ht.nsym, ht.freq]; exact h.nsym
  noTree := by rw [ht.treeValid, ht.nnode, ht.nodes]; exact h.noTree
  noCodes := by rw [ht.codeValid, ht.codes]; exact h.noCodes
  codesNeedTree := by rw [ht.codeValid, ht.treeValid]; exact h.codesNeedTree
  tree := by rw [ht.treeValid, ht.nnode, ht.nodes, ht.freq]; exact h.tree
  codes := by rw [ht.codeValid, ht.codes, ht.nodes, ht.nnode]; exact h.codes
  work := hw

/-- An update of registers, pending inputs, answer, draws or memory: no table and no progress changes. -/
theorem State.Inv.of_sameWork {s t : State} (h : s.Inv) (ht : SameTables s t) (hm : t.mem.wf) (hwork : t.work = s.work)
    (hlatch : t.latch = s.latch) (hraced : t.raced = s.raced) : t.Inv :=
  h.of_sameTables ht hm (h.work.congr ht hwork hlatch hraced)

/-- The state a step's input acts on. -/
theorem State.Inv.withInputs {s : State} (h : s.Inv) (l : List Input) : ({ s with inputs := l } : State).Inv :=
  h.of_sameWork ⟨rfl, rfl, rfl, rfl, rfl, rfl, rfl⟩ h.mem rfl rfl rfl

theorem State.Inv.withPort {s : State} (h : s.Inv) {p : Port} (hp : p.mem.wf) : (s.withPort p).Inv :=
  h.of_sameWork ⟨rfl, rfl, rfl, rfl, rfl, rfl, rfl⟩ hp rfl rfl rfl

theorem State.Inv.havocDst {s : State} (h : s.Inv) : s.havocDst.Inv :=
  h.withPort (p := s.havocDst.port) (s.havocDst_reaches.wf h.mem)

theorem State.Inv.settleDst {s : State} (h : s.Inv) : s.settleDst.Inv := by
  unfold State.settleDst
  split
  · exact h.havocDst
  · exact h

/-- A command goes on to another point of its progress. -/
theorem State.Inv.progress {s : State} (h : s.Inv) {w : Work} (hw : WorkInv { s with work := w }) :
    ({ s with work := w } : State).Inv :=
  h.of_sameTables ⟨rfl, rfl, rfl, rfl, rfl, rfl, rfl⟩ h.mem hw

/-! ### The ends of a command -/

theorem State.Inv.raise {s : State} (h : s.Inv) (e : Raise) : (s.raise e).Inv :=
  h.of_sameTables ⟨rfl, rfl, rfl, rfl, rfl, rfl, rfl⟩ h.mem (.of_idle rfl rfl rfl)

theorem State.Inv.complete {s : State} (h : s.Inv) (r : Results) : (s.complete r).Inv :=
  h.of_sameTables ⟨rfl, rfl, rfl, rfl, rfl, rfl, rfl⟩ h.mem (.of_idle rfl rfl rfl)

theorem State.Inv.fail {s : State} (h : s.Inv) (usesDst : Bool) (e : Raise) : (s.fail usesDst e).Inv := by
  cases usesDst
  · exact h.raise e
  · exact h.havocDst.raise e

theorem State.Inv.preError {s : State} (h : s.Inv) (usesDst : Bool) (e : Raise) :
    ((if usesDst then s.settleDst else s).raise e).Inv := by
  cases usesDst
  · exact h.raise e
  · exact h.settleDst.raise e

theorem EndsKeeping.inv {s t : State} (h : s.Inv) (ht : EndsKeeping s t) : t.Inv := by
  cases ht with
  | raised p e hp _ => exact (h.withPort (hp.wf h.mem)).raise e
  | completed p r hp => exact (h.withPort (hp.wf h.mem)).complete r

/-- A new frequency table with its count: NSYM is right, and there is neither a tree nor a code (R70, R78). -/
theorem State.Inv.commitFreq {s : State} (hm : s.mem.wf) (t : FreqTable) (r : Results) :
    ((s.commitFreq t (symbolCount t)).complete r).Inv where
  mem := hm
  nsym := by
    have := symbolCount_le t
    simp only [State.complete_nsym, State.complete_freq, State.commitFreq_nsym, State.commitFreq_freq,
      BitVec.toNat_ofNat]
    omega
  noTree _ := ⟨rfl, rfl⟩
  noCodes _ := rfl
  codesNeedTree hc := by cases hc
  tree ht := by cases ht
  codes hc := by cases hc
  work := .of_idle rfl rfl rfl

theorem treeSize_lt (t : FreqTable) : treeSize t < 2 ^ 10 := by
  have := symbolCount_le t
  unfold treeSize
  split <;> omega

/-- The tree of the current table (R191, R78). -/
theorem State.Inv.commitTree {s : State} (h : s.Inv) (r : Results) :
    ((s.commitTree (treeOf s.freq)).complete r).Inv where
  mem := h.mem
  nsym := h.nsym
  noTree ht := by cases ht
  noCodes _ := rfl
  codesNeedTree _ := rfl
  tree _ := ⟨by simpa using treeSize_lt s.freq, rfl⟩
  codes hc := by cases hc
  work := .of_idle rfl rfl rfl

/-- The codes of the current tree, which is valid (R211, R78). -/
theorem State.Inv.commitCodes {s : State} (h : s.Inv) (ht : s.treeValid = true) (r : Results) :
    ((s.commitCodes (codesOf s.nodes s.nnode.toNat)).complete r).Inv where
  mem := h.mem
  nsym := h.nsym
  noTree := h.noTree
  noCodes hc := by cases hc
  codesNeedTree _ := ht
  tree := h.tree
  codes _ := rfl
  work := .of_idle rfl rfl rfl

theorem PortOf.wf {i : Instr} {s : State} {p : Port} (h : PortOf i s p) (hm : s.mem.wf) : p.mem.wf := by
  unfold PortOf at h
  split at h
  · exact h.wf hm
  · exact h.1 ▸ hm

/-- However a command ends, its end meets the invariant. -/
theorem Ends.inv {i : Instr} {s t : State} (h : s.Inv) (ht : Ends i s t) : t.Inv := by
  cases ht with
  | pre e _ => exact h.preError (usesDst i) e
  | body e p _ hp => exact (h.withPort (hp.wf h.mem)).fail (usesDst i) e
  | done u r hc =>
    cases i with
    | nop => cases hc; exact h.complete r
    | fcount => obtain ⟨p, t, hp, rfl⟩ := hc; exact .commitFreq (s := s.withPort p) (hp.wf h.mem) t r
    | fload => obtain ⟨p, t, hp, -, rfl⟩ := hc; exact .commitFreq (s := s.withPort p) (hp.wf h.mem) t r
    | tbuild => cases hc; exact h.commitTree r
    | ctgen => obtain ⟨hv, rfl⟩ := hc; exact h.commitCodes hv r
    | fstore | pack | unpack => obtain ⟨p, hp, rfl⟩ := hc; exact (h.withPort (hp.wf h.mem)).settleDst.complete r
    | clear => cases hc; exact symbolCount_empty ▸ State.Inv.commitFreq h.mem FreqTable.empty r

/-! ### Runs of the engine -/

/-- FCOUNT from any progress ends as `execFcount` does. -/
theorem runFcount_ends {s t : State} {w : FcountWork} (h : runFcount s w = .next t) : Ends .fcount s t := by
  have hl := iterate_all (body := fcountBody s) (fun _ p => Port.ReadFrom s.port p)
    (Q := fun e p => e.code ∈ errorsOf .fcount ∧ PortOf .fcount s p)
    (fun w p hp => (fcountBody_all s p w).mono (fun _ _ h => hp.trans h.2) fun e _ h =>
      ⟨by simp [errorsOf, h.1], portOf_readFrom rfl (hp.trans h.2)⟩)
    (fcountLeft s w) w s.port (Port.ReadFrom.refl _)
  rcases endBody_next (i := .fcount) (s₀ := s) h hl (fun _ => rfl) with h | ⟨w, p, hp, h⟩
  · exact h
  · cases h
    exact .done _ _ ⟨p, w.table, portOf_readFrom rfl hp, rfl⟩

theorem dispatchRun_inv {s t : State} (h : s.Inv) (ht : dispatchRun s = .next t) : t.Inv := by
  unfold dispatchRun at ht
  split at ht
  · cases ht; exact h.raise _
  · exact (exec_ends (fun _ => h.nsym) ht).inv h

theorem engineRun_inv {s t : State} (h : s.Inv) (ht : engineRun s = .next t) : t.Inv := by
  have hw := h.work
  unfold engineRun at ht
  unfold WorkInv at hw
  cases hwork : s.work <;> simp only [hwork] at ht hw
  case idle => cases ht; exact h
  case accepted => exact dispatchRun_inv h ht
  case fcount => exact (runFcount_ends ht).inv h
  case fload => exact (runFload_ends (fun _ => rfl) (.refl _) hw ht).inv h
  case fstore => exact (runFstore_keeping ht).inv h
  case tbuild => cases ht; rw [hw]; exact h.commitTree _
  case ctgen => cases ht; rw [hw.2]; exact h.commitCodes hw.1 _
  case pack => exact (runPack_keeping ht).inv h
  case unpack => exact (runUnpack_keeping ht).inv h

/-! ### Single engine steps -/

theorem leastKey_mem (k : QueueKey) (qs : List QueueKey) : leastKey k qs ∈ k :: qs := by
  induction qs generalizing k with
  | nil => exact List.mem_cons_self
  | cons q qs ih =>
    unfold leastKey
    split
    · exact List.mem_cons_of_mem _ (ih q)
    · exact List.cons_subset_cons k (List.subset_cons_self q qs) (ih k)

/-- Extracting takes one entry out of the queue. -/
theorem length_of_extractMin {q : List QueueKey} {a : QueueKey} {q' : List QueueKey} (h : extractMin q = some (a, q')) :
    q.length = q'.length + 1 := by
  cases q with
  | nil => cases h
  | cons k qs =>
    cases h
    rw [List.length_erase_of_mem (leastKey_mem k qs)]
    rfl

theorem extractMin_isSome {q : List QueueKey} (h : 0 < q.length) : ∃ a q', extractMin q = some (a, q') := by
  cases q with
  | nil => cases h
  | cons k qs => exact ⟨_, _, rfl⟩

/-- A merge takes two entries out of the queue and puts one in. -/
theorem tbuildLeft_mergeOnce {w : TbuildWork} (h : tbuildLeft w ≠ 0) : tbuildLeft (mergeOnce w) = tbuildLeft w - 1 := by
  unfold tbuildLeft at h ⊢
  obtain ⟨a, q₁, h₁⟩ := extractMin_isSome (q := w.queue) (by omega)
  have hl₁ := length_of_extractMin h₁
  obtain ⟨b, q₂, h₂⟩ := extractMin_isSome (q := q₁) (by omega)
  have hl₂ := length_of_extractMin h₂
  simp only [mergeOnce, h₁, h₂, List.length_append, List.length_singleton]
  omega

theorem mergeAll_done {w : TbuildWork} (h : tbuildLeft w = 0) : mergeAll w = w.nodes := by
  rw [mergeAll, h, repeatN_zero]

theorem mergeAll_mergeOnce {w : TbuildWork} (h : tbuildLeft w ≠ 0) : mergeAll (mergeOnce w) = mergeAll w := by
  obtain ⟨n, hn⟩ := Nat.exists_eq_succ_of_ne_zero h
  rw [mergeAll, mergeAll, tbuildLeft_mergeOnce h, hn, repeatN_succ]
  rfl

theorem visitOnce_visits (nodes : NodeStore) (w : CtgenWork) : (visitOnce nodes w).visits = w.visits - 1 := by
  unfold visitOnce
  split
  · rfl
  · simp only
    split <;> rfl

theorem visitAll_done {nodes : NodeStore} {w : CtgenWork} (h : w.visits = 0) : visitAll nodes w = w.codes := by
  rw [visitAll, h, repeatN_zero]

theorem visitAll_visitOnce {nodes : NodeStore} {w : CtgenWork} (h : w.visits ≠ 0) :
    visitAll nodes (visitOnce nodes w) = visitAll nodes w := by
  obtain ⟨n, hn⟩ := Nat.exists_eq_succ_of_ne_zero h
  rw [visitAll, visitAll, visitOnce_visits, hn, repeatN_succ]
  rfl

/-- Pre-checks keep the invariant if what follows them does. -/
theorem preChecked_inv {s t : State} {checks : List (Option Raise)} {onDevice usesDst : Bool}
    {go : Host.Outcome State Fault Refusal} (h : s.Inv) (ht : preChecked s checks onDevice usesDst go = .next t)
    (hgo : firstError checks = none → go = .next t → t.Inv) : t.Inv := by
  rcases preChecked_eq s checks onDevice usesDst go with ⟨e, -, h'⟩ | ⟨-, -, h'⟩ | ⟨hc, -, h'⟩
  · cases h'.symm.trans ht; exact h.preError usesDst e
  · cases h'.symm.trans ht
  · exact hgo hc (h'.symm.trans ht)

theorem endBody_inv {α : Type} {s t : State} {usesDst : Bool} {r : Result α} {P : α → Port → Prop}
    {Q : Raise → Port → Prop} {go : α → Port → Host.Outcome State Fault Refusal} (h : s.Inv)
    (ht : endBody s usesDst r go = .next t) (hr : r.All P Q) (hQ : ∀ e p, Q e p → p.mem.wf)
    (hgo : ∀ a p, P a p → go a p = .next t → t.Inv) : t.Inv := by
  cases r with
  | ok a p => exact hgo a p hr ht
  | raise e p => cases ht; exact (h.withPort (hQ e p hr)).fail usesDst e

/-- A loop's step keeps the invariant if its iterations and its finish do. -/
theorem tickLoop_inv {α : Type} {s t : State} {usesDst : Bool} {body : Port → α → Result α} {left : Nat}
    {finish : α → Port → Host.Outcome State Fault Refusal} {again : α → Work} {w : α} {P : α → Port → Prop}
    {Q : Raise → Port → Prop} (h : s.Inv) (ht : tickLoop s usesDst body left finish again w = .next t)
    (hb : left ≠ 0 → (body s.port w).All P Q) (hQ : ∀ e p, Q e p → p.mem.wf) (hP : ∀ a p, P a p → p.mem.wf)
    (hagain : ∀ a p, P a p → WorkInv { s.withPort p with work := again a })
    (hfin : left = 0 → finish w s.port = .next t → t.Inv) : t.Inv := by
  unfold tickLoop at ht
  split at ht
  · next hl => exact hfin hl ht
  · next hl =>
    exact endBody_inv h ht (hb hl) hQ fun a p ha hn => by
      cases hn; exact (h.withPort (hP a p ha)).progress (hagain a p ha)

/-- The first step of a command keeps the invariant. -/
theorem startCommand_inv {i : Instr} {s t : State} (h : s.Inv) (ht : startCommand i s = .next t) : t.Inv := by
  cases i with
  | nop => cases ht; exact h.complete _
  | fcount => exact preChecked_inv h ht fun _ hn => by cases hn; exact h.progress trivial
  | fload =>
    refine preChecked_inv h ht fun _ hn => endBody_inv h hn (floadBegin_all s) (fun _ _ hq => hq.2.wf h.mem) ?_
    exact fun w p hp hn => by cases hn; exact (h.withPort ((hp.2.within 0 0).wf h.mem)).progress hp.1
  | fstore =>
    refine preChecked_inv h ht fun _ hn =>
      endBody_inv h hn (fstoreBegin_sound s s.port) (fun _ _ hq => hq.2.wf h.mem) ?_
    exact fun w p hp hn => by cases hn; exact (h.withPort (hp.wf h.mem)).progress trivial
  | tbuild => cases ht; exact h.progress (rfl : mergeAll _ = treeOf _)
  | ctgen =>
    refine preChecked_inv h ht fun hc hn => ?_
    simp only [ctgenChecks, firstError_eq_none, List.mem_singleton, forall_eq, checkReady, raiseIf_eq_none,
      Bool.not_eq_false'] at hc
    cases hn
    exact h.progress ⟨hc, rfl⟩
  | pack => exact preChecked_inv h ht fun _ hn => by cases hn; exact h.progress trivial
  | unpack pad => exact preChecked_inv h ht fun _ hn => by cases hn; exact h.progress trivial
  | clear => exact (exec_ends (i := .clear) (fun hi => by cases hi) ht).inv h

/-- A single engine step keeps the invariant. -/
theorem engineStep_inv {s t : State} (h : s.Inv) (ht : engineStep s = .next t) : t.Inv := by
  have hw := h.work
  unfold engineStep at ht
  unfold WorkInv at hw
  cases hwork : s.work <;> simp only [hwork] at ht hw
  case idle => cases ht; exact h
  case accepted =>
    split at ht
    · cases ht; exact h.raise _
    · exact startCommand_inv h ht
  case fcount w =>
    refine tickLoop_inv h ht (fun _ => fcountBody_all s s.port w) (fun _ _ hq => hq.2.1 ▸ h.mem)
      (fun _ _ hp => hp.2.1 ▸ h.mem) (fun _ _ _ => trivial) fun _ hn => ?_
    cases hn
    exact .commitFreq (s := s.withPort s.port) h.mem _ _
  case fload w =>
    obtain ⟨hcount, hi, hn⟩ := hw
    refine tickLoop_inv h ht (fun hl => (floadBody_all (.refl _) hcount).mono (P' := fun w' q =>
      (symbolCount w'.table = w'.i ∧ w'.i ≤ w'.n ∧ w'.n ≤ 256) ∧ Port.ReadFrom s.port q) ?_ fun _ _ hq => hq)
      (fun _ _ hq => hq.2.wf h.mem) (fun _ _ hp => hp.2.1 ▸ h.mem) (fun _ _ hp => hp.1) fun hl hf => ?_
    · rintro w' q ⟨⟨hn', hi', hc'⟩, hq⟩
      unfold floadLeft at hl
      exact ⟨⟨hc', by omega, by omega⟩, hq⟩
    · unfold floadLeft at hl
      unfold floadFinish at hf
      cases hf
      rw [show w.n = symbolCount w.table by omega]
      exact .commitFreq (s := s.withPort s.port) h.mem _ _
  case fstore w =>
    exact tickLoop_inv h ht (fun _ => fstoreBody_sound s w s.port) (fun _ _ hq => hq.2.wf h.mem)
      (fun _ _ hp => hp.wf h.mem) (fun _ _ _ => trivial) fun _ hn => (fstoreFinish_keeping (.refl _) hn).inv h
  case tbuild w =>
    split at ht
    · next hl => cases ht; rw [← mergeAll_done hl, hw]; exact h.commitTree _
    · next hl => cases ht; exact h.progress ((mergeAll_mergeOnce hl).trans hw)
  case ctgen w =>
    split at ht
    · next hl => cases ht; rw [← visitAll_done hl, hw.2]; exact h.commitCodes hw.1 _
    · next hl => cases ht; exact h.progress ⟨hw.1, (visitAll_visitOnce hl).trans hw.2⟩
  case pack w =>
    exact tickLoop_inv h ht (fun _ => packBody_sound s w s.port) (fun _ _ hq => hq.2.wf h.mem)
      (fun _ _ hp => hp.wf h.mem) (fun _ _ _ => trivial) fun _ hn => (packFinish_keeping (.refl _) hn).inv h
  case unpack w =>
    exact tickLoop_inv h ht (fun _ => unpackBody_sound s w s.port) (fun _ _ hq => hq.2.wf h.mem)
      (fun _ _ hp => hp.wf h.mem) (fun _ _ _ => trivial) fun _ hn => (unpackFinish_keeping (.refl _) hn).inv h

/-! ### The host's actions and reset -/

theorem State.reset_inv : State.reset.Inv where
  mem := State.reset_mem_wf
  nsym := symbolCount_empty.symm
  noTree _ := ⟨rfl, rfl⟩
  noCodes _ := rfl
  codesNeedTree hc := by cases hc
  tree ht := by cases ht
  codes hc := by cases hc
  work := .of_idle rfl rfl rfl

/-- Reset gives the reset tables and an idle engine; the aborted command's buffer stays in canonical form. -/
theorem State.Inv.resetBlock {s : State} (h : s.Inv) : s.resetBlock.Inv := by
  have htables : SameTables State.reset s.resetBlock := by constructor <;> simp
  refine State.reset_inv.of_sameWork htables ?_ s.resetBlock_work s.resetBlock_latch s.resetBlock_raced
  rw [State.resetBlock_mem]
  split
  · exact h.havocDst.mem
  · exact h.mem

/-- A host write to one register (R52 to R59, R67, R277). -/
theorem State.Inv.writeTarget {s : State} (h : s.Inv) (w : Word) (r : Target) : (s.writeTarget w r).Inv := by
  cases r
  case ctrl =>
    simp only [State.writeTarget]
    split
    · exact h.resetBlock
    · exact h.of_sameWork ⟨rfl, rfl, rfl, rfl, rfl, rfl, rfl⟩ h.mem rfl rfl rfl
  case cmd =>
    simp only [State.writeTarget]
    split
    · exact h.of_sameWork ⟨rfl, rfl, rfl, rfl, rfl, rfl, rfl⟩ h.mem rfl rfl rfl
    · exact h.of_sameTables ⟨rfl, rfl, rfl, rfl, rfl, rfl, rfl⟩ h.mem (.of_accepted rfl)
  case status | srcAddr | srcLen | dstAddr | dstCap =>
    exact h.of_sameWork ⟨rfl, rfl, rfl, rfl, rfl, rfl, rfl⟩ h.mem rfl rfl rfl
  case id | err | errInfo | resLen | resPad | resBitsLo | resBitsHi | nsym | nnode | freq | codeLen | codeBits | node |
      reserved => exact h

theorem State.Inv.withResp {s : State} (h : s.Inv) (r : BusResp) : ({ s with resp := r } : State).Inv :=
  h.of_sameWork ⟨rfl, rfl, rfl, rfl, rfl, rfl, rfl⟩ h.mem rfl rfl rfl

theorem State.Inv.withDraws {s : State} (h : s.Inv) (n : Nat) : ({ s with draws := n } : State).Inv :=
  h.of_sameWork ⟨rfl, rfl, rfl, rfl, rfl, rfl, rfl⟩ h.mem rfl rfl rfl

/-- After a broken duty the run counts from its acceptance (log entry 6). -/
theorem State.Inv.race {s : State} (h : s.Inv) : s.race.Inv :=
  h.of_sameTables ⟨rfl, rfl, rfl, rfl, rfl, rfl, rfl⟩ h.mem (.of_accepted rfl)

theorem busRead_inv {s : State} (h : s.Inv) (addr : Nat) (size : AccessSize) : (busRead addr size s).Inv := by
  unfold busRead
  split
  · exact h.withResp _
  · exact h.withResp _
  · split
    · exact (h.withDraws (s.draws + 1)).withResp _
    · exact h.withResp _

theorem busWrite_inv {s : State} (h : s.Inv) (addr : Nat) (size : AccessSize) (data : Word) :
    (busWrite addr size data s).Inv := by
  unfold busWrite
  split
  · exact h.withResp _
  · exact h.withResp _
  · exact (h.writeTarget ..).withResp _

theorem hostMemWrite_inv {s : State} (h : s.Inv) (a : Word) (v : Byte) : (hostMemWrite a v s).Inv := by
  have hw := (h.withPort (p := ⟨s.mem.write a.toNat v, s.draws⟩) (Memory.write_wf h.mem v a.isLt)).withResp .ok
  unfold hostMemWrite
  simp only
  split
  · exact hw.race
  · exact hw

theorem hostMemRead_inv {s : State} (h : s.Inv) (a : Word) : (hostMemRead a s).Inv := by
  unfold hostMemRead
  split
  · exact ((h.withDraws (s.draws + 1)).withResp _).race
  · exact h.withResp _

theorem hostCheck_inv {s : State} (h : s.Inv) : (hostCheck s).Inv := by
  have hr := busRead_inv h (s.platform.hufBase + 0x020) .b32
  unfold hostCheck
  simp only
  split
  · split
    · exact hr
    · exact hr.withInputs _
  all_goals exact hr

/-- One thing that happens keeps the invariant. -/
theorem applyInput_inv {a : Input} {s t : State} (h : s.Inv) (ht : applyInput a s = .next t) : t.Inv := by
  cases a with
  | busRead addr size => cases ht; exact busRead_inv h addr size
  | busWrite addr size data => cases ht; exact busWrite_inv h addr size data
  | memRead addr => cases ht; exact hostMemRead_inv h addr
  | memWrite addr v => cases ht; exact hostMemWrite_inv h addr v
  | hardReset => cases ht; exact h.resetBlock
  | engineStep => exact engineStep_inv h ht
  | wait => exact engineRun_inv h ht
  | chk => cases ht; exact hostCheck_inv h

end Sys2Proof.Machine

open Sys2Proof Sys2Proof.Machine

/-- Settles O45. -/
theorem invariantHoldsAtReset : Obligations.InvariantHoldsAtReset := State.reset_inv

/-- Settles O46: with nothing pending the step is a run of the engine, and otherwise one thing that happens, on the
state without it. -/
theorem everyStepKeepsTheInvariant : Obligations.EveryStepKeepsTheInvariant := by
  unfold Obligations.EveryStepKeepsTheInvariant
  intro s t h ht
  unfold step at ht
  split at ht
  · exact engineRun_inv h ht
  · exact applyInput_inv (h.withInputs _) ht

end

section
/-! PROOFS. What every command leaves behind at its end (R59, R78, R284, R285). -/

namespace Sys2Proof.Machine

theorem errorsOf_ne_none {i : Instr} {c : ErrCode} (h : c ∈ errorsOf i) : c ≠ .none := by
  rintro rfl
  cases i <;> simp [errorsOf] at h

/-- ERRF says whether ERR.CODE is an error (R53, R279). -/
theorem State.errf_eq (s : State) : s.errf = decide (s.err ≠ .none) := by
  unfold State.errf
  cases s.err <;> rfl

/-- The end of a command: what only the host writes is kept, and the engine is idle with DONE 1 and its results. -/
structure EndState (s t : State) : Prop where
  host : SameHost s t
  done : t.done = true
  busy : t.busy = false
  latch : t.latch = Latch.clear
  noError : t.err = .none → t.errInfo = 0
  error : t.err ≠ .none → t.errf = true ∧ t.resLen = 0 ∧ t.resPad = 0 ∧ t.resBits = 0

theorem EndState.raise {s u : State} (h : SameHost s u) {e : Raise} (he : e.code ≠ .none) : EndState s (u.raise e) where
  host := ⟨h.ie, h.ovr, h.cmd, h.srcAddr, h.srcLen, h.dstAddr, h.dstCap, h.platform, h.inputs, h.resp⟩
  done := rfl
  busy := rfl
  latch := rfl
  noError h := absurd h he
  error _ := ⟨by simp [State.errf_eq, he], rfl, rfl, rfl⟩

theorem EndState.complete {s u : State} (h : SameHost s u) (r : Results) : EndState s (u.complete r) where
  host := ⟨h.ie, h.ovr, h.cmd, h.srcAddr, h.srcLen, h.dstAddr, h.dstCap, h.platform, h.inputs, h.resp⟩
  done := rfl
  busy := rfl
  latch := rfl
  noError _ := rfl
  error h := absurd rfl h

theorem SameHost.withPort (s : State) (p : Port) : SameHost s (s.withPort p) := by constructor <;> rfl

theorem SameHost.settleDst (s : State) : SameHost s s.settleDst := by constructor <;> simp

theorem EndsKeeping.endState {s t : State} (h : EndsKeeping s t) : EndState s t := by
  cases h with
  | raised p e _ he => exact .raise (.withPort s p) he
  | completed p r _ => exact .complete (.withPort s p) r

/-- A commit writes tables and the memory port alone. -/
theorem Commits.sameHost {i : Instr} {s u : State} (h : Commits i s u) : SameHost s u := by
  cases i with
  | nop | tbuild | clear => cases h; constructor <;> rfl
  | fcount => obtain ⟨p, t, -, rfl⟩ := h; constructor <;> rfl
  | fload => obtain ⟨p, t, -, -, rfl⟩ := h; constructor <;> rfl
  | ctgen => obtain ⟨-, rfl⟩ := h; constructor <;> rfl
  | fstore | pack | unpack => obtain ⟨p, -, rfl⟩ := h; constructor <;> simp

theorem Ends.endState {i : Instr} {s t : State} (h : Ends i s t) : EndState s t := by
  cases h with
  | pre e he =>
    refine .raise ?_ (errorsOf_ne_none he)
    split
    · exact .settleDst s
    · exact .withPort s s.port
  | body e p he _ =>
    rw [State.fail_eq]
    split
    · exact .raise (.withPort s (s.withPort p).havocDst.port) (errorsOf_ne_none he)
    · exact .raise (.withPort s p) (errorsOf_ne_none he)
  | done u r hc => exact .complete hc.sameHost r

/-- Every command ends so. FSTORE needs its own account: `Ends` says where it writes, which rests on NSYM = |FREQ|
(R65). -/
theorem exec_endState {i : Instr} {s t : State} (h : exec i s = .next t) : EndState s t := by
  by_cases hi : i = .fstore
  · subst hi; exact (execFstore_keeping h).endState
  · exact (exec_ends (fun h' => absurd h' hi) h).endState

/-! ### The validity flags (R78) -/

/-- The two validity flags are as before. -/
def SameFlags (s t : State) : Prop := t.treeValid = s.treeValid ∧ t.codeValid = s.codeValid

/-- What a completion without error does to the validity flags: the list of writers of R78. -/
def FlagsAfter (i : Instr) (s t : State) : Prop :=
  match i with
  | .tbuild => t.treeValid = true ∧ t.codeValid = false
  | .ctgen => t.treeValid = s.treeValid ∧ t.codeValid = true
  | .fcount | .fload | .clear => t.treeValid = false ∧ t.codeValid = false
  | .nop | .fstore | .pack | .unpack _ => SameFlags s t

theorem EndsKeeping.sameFlags {s t : State} (h : EndsKeeping s t) : SameFlags s t := by
  cases h <;> exact ⟨rfl, rfl⟩

theorem Commits.flagsAfter {i : Instr} {s u : State} (h : Commits i s u) : FlagsAfter i s u := by
  cases i with
  | nop | tbuild | clear => cases h; exact ⟨rfl, rfl⟩
  | fcount => obtain ⟨p, t, -, rfl⟩ := h; exact ⟨rfl, rfl⟩
  | fload => obtain ⟨p, t, -, -, rfl⟩ := h; exact ⟨rfl, rfl⟩
  | ctgen => obtain ⟨-, rfl⟩ := h; exact ⟨rfl, rfl⟩
  | fstore | pack | unpack => obtain ⟨p, -, rfl⟩ := h; exact ⟨by simp, by simp⟩

/-- An error leaves the flags; a completion writes them as listed. -/
theorem Ends.flags {i : Instr} {s t : State} (h : Ends i s t) :
    (t.err ≠ .none → SameFlags s t) ∧ (t.err = .none → FlagsAfter i s t) := by
  cases h with
  | pre e he => exact ⟨fun _ => by split <;> simp [SameFlags], fun h => absurd h (errorsOf_ne_none he)⟩
  | body e p he _ =>
    exact ⟨fun _ => by simp [SameFlags], fun h => absurd ((State.fail_err ..).symm.trans h) (errorsOf_ne_none he)⟩
  | done u r hc => exact ⟨fun h => absurd rfl h, fun _ => by cases i <;> exact hc.flagsAfter⟩

end Sys2Proof.Machine

open Sys2Proof Sys2Proof.Machine

/-- Settles O9. -/
theorem everyCommandEndsIdleAndKeepsHostRegisters : Obligations.EveryCommandEndsIdleAndKeepsHostRegisters := by
  unfold Obligations.EveryCommandEndsIdleAndKeepsHostRegisters
  intro i s t h
  obtain ⟨host, done, busy, latch, noError, error⟩ := exec_endState h
  exact ⟨host, done, busy, latch, noError, error⟩

/-- Settles O48: FSTORE keeps the flags however it ends, and the other commands by their ends. -/
theorem validityFlagsChangeAsListed : Obligations.ValidityFlagsChangeAsListed := by
  unfold Obligations.ValidityFlagsChangeAsListed
  intro i s t h
  by_cases hi : i = .fstore
  · subst hi
    exact ⟨fun _ => (execFstore_keeping h).sameFlags, fun _ => (execFstore_keeping h).sameFlags⟩
  · obtain ⟨herr, hok⟩ := (exec_ends (fun h' => absurd h' hi) h).flags
    exact ⟨herr, fun he => by cases i <;> exact hok he⟩

end

section
/-! PROOFS. The register block (R50 to R77): the map of offsets, reads and writes through the bus, and what each word
shows. -/

namespace Sys2Proof.Machine

/-! ### The map of offsets (R50) -/

theorem targetAt_register {off : Nat} (h : off < 0x040) : targetAt off = registerAt (off / 4) := by
  simp [targetAt, h]

theorem targetAt_freq (x : Byte) : targetAt (0x400 + 4 * x.toNat) = .freq x := by
  have := x.isLt
  simp (disch := omega) only [targetAt, if_neg, if_pos]
  rw [show (0x400 + 4 * x.toNat - 0x400) / 4 = x.toNat by omega, BitVec.ofNat_toNat, BitVec.setWidth_eq]

theorem targetAt_codeLen (x : Byte) : targetAt (0x800 + 4 * x.toNat) = .codeLen x := by
  have := x.isLt
  simp (disch := omega) only [targetAt, if_neg, if_pos]
  rw [show (0x800 + 4 * x.toNat - 0x800) / 4 = x.toNat by omega, BitVec.ofNat_toNat, BitVec.setWidth_eq]

theorem targetAt_codeBits (x : Byte) {k : Nat} (hk : k < 8) :
    targetAt (0x1000 + 32 * x.toNat + 4 * k) = .codeBits x k := by
  have := x.isLt
  simp (disch := omega) only [targetAt, if_neg, if_pos]
  rw [show (0x1000 + 32 * x.toNat + 4 * k - 0x1000) / 32 = x.toNat by omega,
    show (0x1000 + 32 * x.toNat + 4 * k - 0x1000) / 4 % 8 = k by omega, BitVec.ofNat_toNat, BitVec.setWidth_eq]

theorem targetAt_node {i w : Nat} (hi : i ≤ 510) (hw : w < 4) : targetAt (0x4000 + 16 * i + 4 * w) = .node i w := by
  simp (disch := omega) only [targetAt, if_neg]
  rw [if_pos (by omega), show (0x4000 + 16 * i + 4 * w - 0x4000) / 16 = i by omega,
    show (0x4000 + 16 * i + 4 * w - 0x4000) / 4 % 4 = w by omega]

/-- The windows of FREQ, CODE_LEN, CODE_BITS and NODE (R50). -/
def InWindow (off : Nat) : Prop :=
  (0x400 ≤ off ∧ off < 0xC00) ∨ (0x1000 ≤ off ∧ off < 0x3000) ∨ (0x4000 ≤ off ∧ off < 0x5FF0)

/-- The reserved ranges (R50). -/
def InReserved (off : Nat) : Prop :=
  (0x040 ≤ off ∧ off < 0x400) ∨ (0xC00 ≤ off ∧ off < 0x1000) ∨ (0x3000 ≤ off ∧ off < 0x4000) ∨ 0x5FF0 ≤ off

theorem targetAt_reserved {off : Nat} (h : InReserved off) : targetAt off = .reserved := by
  rcases h with h | h | h | h <;> simp (disch := omega) only [targetAt, if_neg, if_pos]

/-- Every window is hidden while BUSY (R69). -/
theorem hidden_of_inWindow {off : Nat} (h : InWindow off) : (targetAt off).hiddenWhileBusy = true := by
  rcases h with h | h | h
  · by_cases hf : off < 0x800 <;> simp (disch := omega) only [targetAt, if_neg, if_pos] <;> rfl
  · simp (disch := omega) only [targetAt, if_neg, if_pos]; rfl
  · simp (disch := omega) only [targetAt, if_neg, if_pos]; rfl

theorem registerAt_hidden : ∀ n < 16, 8 ≤ n → (registerAt n).hiddenWhileBusy = true := by decide

/-- ERR to NNODE are hidden while BUSY (R69). -/
theorem hidden_of_result {off : Nat} (h : 0x020 ≤ off ∧ off < 0x040) : (targetAt off).hiddenWhileBusy = true := by
  rw [targetAt_register h.2]
  exact registerAt_hidden _ (by omega) (by omega)

/-- The target a register's name stands for. -/
def RegName.target : RegName → Target
  | .ID => .id
  | .CTRL => .ctrl
  | .STATUS => .status
  | .CMD => .cmd
  | .SRC_ADDR => .srcAddr
  | .SRC_LEN => .srcLen
  | .DST_ADDR => .dstAddr
  | .DST_CAP => .dstCap
  | .ERR => .err
  | .ERR_INFO => .errInfo
  | .RES_LEN => .resLen
  | .RES_PAD => .resPad
  | .RES_BITS_LO => .resBitsLo
  | .RES_BITS_HI => .resBitsHi
  | .NSYM => .nsym
  | .NNODE => .nnode

theorem RegName.offset_lt (r : RegName) : r.offset < 0x040 := by cases r <;> decide

theorem RegName.offset_aligned (r : RegName) : r.offset % 4 = 0 := by cases r <;> rfl

theorem targetAt_offset (r : RegName) : targetAt r.offset = r.target := by cases r <;> rfl

/-! ### Accesses through the bus (R68) -/

theorem busDecode_reg (s : State) {off : Nat} (h : off < 0x6000) (h4 : off % 4 = 0) :
    s.busDecode (s.platform.hufBase + off) .b32 = .reg (targetAt off) := by
  unfold State.busDecode blockSize
  rw [if_neg (by omega), if_neg (by omega), if_neg (by simp), Nat.add_sub_cancel_left, if_neg (by omega)]

theorem busDecode_error (s : State) {off : Nat} {size : AccessSize} (h : off < 0x6000)
    (hbad : size ≠ .b32 ∨ off % 4 ≠ 0) : s.busDecode (s.platform.hufBase + off) size = .error := by
  unfold State.busDecode blockSize
  rw [if_neg (by omega), if_neg (by omega), Nat.add_sub_cancel_left]
  by_cases hs : size = .b32
  · rw [if_neg (not_not.2 hs), if_pos (hbad.resolve_left (not_not.2 hs))]
  · rw [if_pos hs]

/-- A read that the engine does not hide. -/
theorem busRead_shown (s : State) {off : Nat} (h : off < 0x6000) (h4 : off % 4 = 0)
    (ht : s.busy = false ∨ (targetAt off).hiddenWhileBusy = false) :
    busRead (s.platform.hufBase + off) .b32 s = { s with resp := .data (s.readTarget (targetAt off)) } := by
  have hb : (s.busy && (targetAt off).hiddenWhileBusy) = false := by rcases ht with ht | ht <;> simp [ht]
  simp [busRead, busDecode_reg s h h4, hb]

/-- A read of a register that the engine hides while it runs. -/
theorem busRead_hidden (s : State) {off : Nat} (h : off < 0x6000) (h4 : off % 4 = 0) (hb : s.busy = true)
    (ht : (targetAt off).hiddenWhileBusy = true) :
    busRead (s.platform.hufBase + off) .b32 s =
      { s with resp := .data (Config.freeWord s.draws), draws := s.draws + 1 } := by
  simp [busRead, busDecode_reg s h h4, hb, ht]

theorem busRead_register (s : State) (r : RegName) (ht : s.busy = false ∨ r.target.hiddenWhileBusy = false) :
    busRead (s.platform.hufBase + r.offset) .b32 s = { s with resp := .data (s.readTarget r.target) } := by
  rw [← targetAt_offset] at ht ⊢
  exact busRead_shown s (r.offset_lt.trans (by decide)) r.offset_aligned ht

/-- A read of the node window. -/
theorem busRead_node (s : State) {i w : Nat} (hb : s.busy = false) (hi : i ≤ 510) (hw : w < 4) :
    busRead (s.platform.hufBase + 0x4000 + 16 * i + 4 * w) .b32 s =
      { s with resp := .data (nodeWord (nodeAt s.nodes i) w) } := by
  rw [Nat.add_assoc, Nat.add_assoc, ← Nat.add_assoc 0x4000, busRead_shown s (by omega) (by omega) (.inl hb),
    targetAt_node hi hw]
  rfl

theorem busWrite_reg (s : State) {off : Nat} (w : Word) (h : off < 0x6000) (h4 : off % 4 = 0) :
    busWrite (s.platform.hufBase + off) .b32 w s = { s.writeTarget w (targetAt off) with resp := .ok } := by
  simp [busWrite, busDecode_reg s h h4]

theorem busWrite_register (s : State) (r : RegName) (w : Word) :
    busWrite (s.platform.hufBase + r.offset) .b32 w s = { s.writeTarget w r.target with resp := .ok } := by
  rw [busWrite_reg s w (r.offset_lt.trans (by decide)) r.offset_aligned, targetAt_offset]

/-- What the engine hides while it runs is read-only (R50, R69). -/
theorem writeTarget_of_hidden (s : State) (w : Word) {t : Target} (ht : t.hiddenWhileBusy = true) :
    s.writeTarget w t = s := by
  cases t with
  | ctrl | status | cmd | srcAddr | srcLen | dstAddr | dstCap => cases ht
  | id | err | errInfo | resLen | resPad | resBitsLo | resBitsHi | nsym | nnode | freq | codeLen | codeBits | node |
      reserved => rfl

/-- A write to CTRL is the soft reset or sets IE (R52). -/
theorem writeTarget_ctrl (s : State) (w : Word) :
    s.writeTarget w .ctrl = if w.getLsbD 1 then s.resetBlock else { s with ie := w.getLsbD 0 } := rfl

/-! ### What the words show -/

/-- Concatenation in plain arithmetic. -/
theorem toNat_append_eq {m n : Nat} (x : BitVec m) (y : BitVec n) : (x ++ y).toNat = x.toNat * 2 ^ n + y.toNat := by
  rw [BitVec.toNat_append, ← Nat.shiftLeft_add_eq_or_of_lt y.isLt, Nat.shiftLeft_eq]

theorem statusWord_toNat (s : State) :
    s.statusWord.toNat = s.busy.toNat + 2 * s.done.toNat + 4 * (decide (s.err ≠ .none)).toNat + 8 * s.ovr.toNat +
      16 * s.treeValid.toNat + 32 * s.codeValid.toNat + 64 * (decide (s.nsym = 0)).toNat := by
  have he : s.isEmpty = decide (s.nsym = 0) := rfl
  simp only [State.statusWord, toNat_append_eq, BitVec.toNat_ofBool, s.errf_eq, he, BitVec.ofNat_eq_ofNat,
    BitVec.toNat_ofNat, Nat.zero_mod]
  omega

theorem ctrlWord_eq (s : State) : s.ctrlWord = BitVec.ofNat 32 s.ie.toNat := by
  unfold State.ctrlWord
  cases s.ie <;> rfl

theorem codeLength_setWidth {c : Code} (h : c.length ≤ 255) : (codeLength c).setWidth 32 = BitVec.ofNat 32 c.length :=
  BitVec.setWidth_ofNat_of_le_of_lt (by decide) (by omega)

theorem nodeWord_kind (n : Node) :
    nodeWord n 0 = BitVec.ofNat 32 (n.valid.toNat + 2 * n.internal.toNat + 2 ^ 8 * n.sym.toNat) := by
  have := n.sym.isLt
  have := n.valid.toNat_le
  have := n.internal.toNat_le
  apply BitVec.eq_of_toNat_eq
  simp only [nodeWord, toNat_append_eq, BitVec.toNat_ofBool, BitVec.ofNat_eq_ofNat, BitVec.toNat_ofNat, Nat.zero_mod]
  omega

theorem nodeWord_children (n : Node) : nodeWord n 1 = BitVec.ofNat 32 (n.left.toNat + 2 ^ 16 * n.right.toNat) := by
  have := n.left.isLt
  have := n.right.isLt
  apply BitVec.eq_of_toNat_eq
  simp only [nodeWord, toNat_append_eq, BitVec.ofNat_eq_ofNat, BitVec.toNat_ofNat, Nat.zero_mod]
  omega

theorem nodeWord_weightLow (n : Node) : nodeWord n 2 = BitVec.ofNat 32 (n.weight.toNat % 2 ^ 32) := by
  apply BitVec.eq_of_toNat_eq
  simp [nodeWord]

theorem nodeWord_weightHigh (n : Node) : nodeWord n 3 = BitVec.ofNat 32 (n.weight.toNat / 2 ^ 32) := by
  apply BitVec.eq_of_toNat_eq
  simp [nodeWord, Nat.shiftRight_eq_div_pow]

theorem bitsToNat_append (bits : List Bool) (b : Bool) : bitsToNat (bits ++ [b]) = 2 * bitsToNat bits + b.toNat := by
  simp [bitsToNat]

/-- The first bit of the list is the most significant. -/
theorem testBit_bitsToNat (bits : List Bool) (i : Nat) : (bitsToNat bits).testBit i = bits.reverse.getD i false := by
  induction bits using List.reverseRecOn generalizing i with
  | nil => simp [bitsToNat]
  | append_singleton bits b ih =>
    rw [bitsToNat_append, List.reverse_append]
    cases i with
    | zero => cases b <;> simp [Nat.testBit_zero]
    | succ i =>
      rw [Nat.testBit_succ, show (2 * bitsToNat bits + b.toNat) / 2 = bitsToNat bits by have := b.toNat_lt; omega, ih]
      rfl

/-- Bit 31 - j of CODE_BITS word `k` is c[32k + j] (R77). -/
theorem getLsbD_codeWord (c : Code) (k : Nat) {j : Nat} (hj : j < 32) :
    (codeWord c k).getLsbD (31 - j) = c.getD (32 * k + j) false := by
  have hr : ((List.range 32).map fun j => codeBit c (32 * k + j)).reverse.getD (31 - j) false =
      codeBit c (32 * k + j) := by
    rw [List.getD_eq_getElem?_getD, List.getElem?_reverse (by simp; omega)]
    simp [show 31 - (31 - j) = j by omega, hj]
  rw [codeWord, BitVec.getLsbD_ofNat, testBit_bitsToNat, hr, decide_eq_true (by omega), Bool.true_and, codeBit]

end Sys2Proof.Machine

open Sys2Proof Sys2Proof.Machine

/-- Settles O49. -/
theorem windowsShowTheTables : Obligations.WindowsShowTheTables := by
  unfold Obligations.WindowsShowTheTables
  intro s x hb
  have hx := x.isLt
  refine ⟨?_, fun hlen => ?_, fun k hk => ⟨codeWord (tableGet s.codes x) k, ?_, fun j hj => getLsbD_codeWord _ _ hj⟩,
    fun i hi => ⟨?_, ?_, ?_, ?_⟩⟩
  · rw [Nat.add_assoc, busRead_shown s (by omega) (by omega) (.inl hb), targetAt_freq]; rfl
  · rw [Nat.add_assoc, busRead_shown s (by omega) (by omega) (.inl hb), targetAt_codeLen]
    rw [State.readTarget, codeLength_setWidth hlen]
  · rw [Nat.add_assoc, Nat.add_assoc, ← Nat.add_assoc 0x1000, busRead_shown s (by omega) (by omega) (.inl hb),
      targetAt_codeBits x hk]; rfl
  · exact (busRead_node s hb hi (w := 0) (by decide)).trans (by rw [nodeWord_kind])
  · exact (busRead_node s hb hi (w := 1) (by decide)).trans (by rw [nodeWord_children])
  · exact (busRead_node s hb hi (w := 2) (by decide)).trans (by rw [nodeWord_weightLow])
  · exact (busRead_node s hb hi (w := 3) (by decide)).trans (by rw [nodeWord_weightHigh])

/-- Settles O50. -/
theorem readsWhileBusy : Obligations.ReadsWhileBusy := by
  unfold Obligations.ReadsWhileBusy
  intro s hb
  refine ⟨fun off h4 hoff => busRead_hidden s (by omega) h4 hb ?_, fun r hr => ?_⟩
  · rcases hoff with h | h
    · exact hidden_of_result h
    · exact hidden_of_inWindow h
  · cases r
    case ID | CTRL | STATUS | CMD | SRC_ADDR | SRC_LEN | DST_ADDR | DST_CAP =>
      exact ⟨_, busRead_register s _ (.inr rfl), rfl⟩
    case ERR | ERR_INFO | RES_LEN | RES_PAD | RES_BITS_LO | RES_BITS_HI | NSYM | NNODE => simp [RegName.offset] at hr

/-- Settles O51. -/
theorem reservedOffsetsReadZero : Obligations.ReservedOffsetsReadZero := by
  unfold Obligations.ReservedOffsetsReadZero
  intro s off w h4 hoff
  have ht : targetAt off = .reserved := targetAt_reserved (by unfold InReserved; omega)
  rw [busRead_shown s (by omega) h4 (.inr (by rw [ht]; rfl)), busWrite_reg s w (by omega) h4, ht]
  exact ⟨rfl, rfl⟩

/-- Settles O52. -/
theorem otherAccessesAreErrors : Obligations.OtherAccessesAreErrors := by
  unfold Obligations.OtherAccessesAreErrors
  intro s off size w h hbad
  simp [busRead, busWrite, busDecode_error s h hbad]

/-- Settles O53. -/
theorem statusBitsAndWrites : Obligations.StatusBitsAndWrites := by
  unfold Obligations.StatusBitsAndWrites
  intro s w
  exact ⟨statusWord_toNat s, busRead_register s .STATUS (.inr rfl), busWrite_register s .STATUS w⟩

/-- Settles O58: each register's value, as a number. -/
theorem registersReadTheirValues : Obligations.RegistersReadTheirValues := by
  unfold Obligations.RegistersReadTheirValues
  intro s r hb
  refine ⟨_, busRead_register s r (.inl hb), ?_⟩
  cases r
  case ID | CMD | SRC_ADDR | SRC_LEN | DST_ADDR | DST_CAP | ERR_INFO | RES_LEN => rfl
  case CTRL => simp only [RegName.target, State.readTarget, ctrlWord_eq]; cases s.ie <;> rfl
  case STATUS => simp [RegName.target, State.readTarget, statusWord_toNat, hb]
  case ERR => simp only [RegName.target, State.readTarget]; cases s.err <;> rfl
  case RES_PAD | NSYM | NNODE => exact BitVec.toNat_setWidth_of_le (by decide)
  case RES_BITS_LO => simp [RegName.target, State.readTarget]
  case RES_BITS_HI =>
    have h : s.resBits.toNat / 2 ^ 32 < 2 ^ 32 := by omega
    simpa [RegName.target, State.readTarget, Nat.shiftRight_eq_div_pow] using h

/-- Settles O59: the offset is ID's, a result register's or a window's. -/
theorem readOnlyOffsetsIgnoreWrites : Obligations.ReadOnlyOffsetsIgnoreWrites := by
  unfold Obligations.ReadOnlyOffsetsIgnoreWrites
  intro s off w h4 hoff
  rcases hoff with rfl | h | h
  · exact busWrite_register s .ID w
  · rw [busWrite_reg s w (by omega) h4, writeTarget_of_hidden s w (hidden_of_result (by omega))]
  · rw [busWrite_reg s w (by omega) h4, writeTarget_of_hidden s w (hidden_of_inWindow (by unfold InWindow; omega))]

/-- Settles O60. -/
theorem ctrlReadsAndWrites : Obligations.CtrlReadsAndWrites := by
  unfold Obligations.CtrlReadsAndWrites
  refine ⟨rfl, fun s w => ⟨?_, fun hw => ?_, fun hw => ?_⟩⟩
  · rw [← ctrlWord_eq]
    exact busRead_register s .CTRL (.inr rfl)
  · exact (busWrite_register s .CTRL w).trans (by rw [RegName.target, writeTarget_ctrl, hw]; rfl)
  · exact (busWrite_register s .CTRL w).trans (by rw [RegName.target, writeTarget_ctrl, hw]; rfl)

end

section
/-! PROOFS. Output beyond the capacity (R58, R227, R243): PACK and UNPACK run without a failing access up to the byte
that does not fit. -/

namespace Sys2Proof.Machine

/-! ### Runs in which no access fails -/

/-- The latched buffers fit and share no byte, no access to them fails, and no duty of R115 was broken. -/
structure State.Unhindered (s : State) : Prop where
  srcFits : s.SrcFits
  dstFits : s.DstFits
  apart : s.BuffersApart
  raced : s.raced = false
  readable : s.SrcReadable s.latch.srcLen.toNat
  writable : s.DstWritable s.latch.dstCap.toNat

/-- A source byte as it was before the command. -/
def State.srcByte (s : State) (i : Nat) : Byte := s.mem.read (s.latch.srcAddr.toNat + i)

/-- The raise of the byte that does not fit; what was written lies inside the buffer. -/
def Overflows (s : State) (e : Raise) (q : Port) : Prop := e = ⟨.dstOverflow, s.latch.dstCap⟩ ∧ s.WithinDst s.port q

theorem State.srcAt_eq (s : State) (i : Nat) : s.srcAt i = BitVec.ofNat 32 (s.latch.srcAddr.toNat + i) := by
  rw [State.srcAt, BitVec.ofNat_add, BitVec.ofNat_toNat, BitVec.setWidth_eq]

theorem State.dstAt_eq (s : State) (i : Nat) : s.dstAt i = BitVec.ofNat 32 (s.latch.dstAddr.toNat + i) := by
  rw [State.dstAt, BitVec.ofNat_add, BitVec.ofNat_toNat, BitVec.setWidth_eq]

/-- The bytes written so far lie outside the source buffer, so its bytes read as before the command. -/
theorem memRead1_source {s : State} (h : s.Unhindered) {p : Port} (hp : s.WithinDst s.port p) {i : Nat}
    (hi : i < s.latch.srcLen.toNat) : memRead1 s (s.srcAt i) p = .ok (s.srcByte i) p := by
  have hs : s.latch.srcAddr.toNat + s.latch.srcLen.toNat ≤ 2 ^ 32 := h.srcFits
  have hout : s.latch.srcAddr.toNat + i < s.latch.dstAddr.toNat ∨
      s.latch.dstAddr.toNat + s.latch.dstCap.toNat ≤ s.latch.srcAddr.toNat + i := by
    rcases h.apart with h0 | h0 | h0 | h0
    · simp [h0] at hi
    · simp [h0]; omega
    · exact .inr (by omega)
    · exact .inl (by omega)
  rw [memRead1_ok (by rw [s.srcAt_eq]; exact h.readable i hi) h.raced, State.srcAt_toNat (by omega), hp.read _ hout]
  rfl

/-- `emit` takes one more byte or overflows. -/
theorem emit_unhindered {s : State} (h : s.Unhindered) {out : Nat} {v : Byte} {p : Port} (hp : InCap s out p) :
    (emit s out v p).All (fun out' q => out' = out + 1 ∧ InCap s out' q) (Overflows s) := by
  have hall := emit_all (v := v) (p := p) h.dstFits hp.1
  by_cases hfull : out = s.latch.dstCap.toNat
  · rw [emit, if_pos hfull]
    exact ⟨rfl, hp.2⟩
  · have hw : emit s out v p = .ok (out + 1) { p with mem := p.mem.write (s.dstAt out).toNat v } := by
      rw [emit, if_neg hfull, memWrite1_ok (by rw [s.dstAt_eq]; exact h.writable out (by have := hp.1; omega))]
      rfl
    rw [hw] at hall ⊢
    exact ⟨rfl, hall.2.1, hp.2.trans hall.2.2⟩

/-! ### The end with DST_OVERFLOW -/

/-- The command ends as one that overflowed its buffer. -/
def OverflowEnd (s t : State) : Prop :=
  ∃ q, s.WithinDst s.port q ∧ t = (s.withPort q).fail true ⟨.dstOverflow, s.latch.dstCap⟩

theorem OverflowEnd.completedErr {s t : State} (h : OverflowEnd s t) : CompletedErr t .dstOverflow s.latch.dstCap := by
  obtain ⟨q, -, rfl⟩ := h
  constructor <;> rfl

theorem OverflowEnd.sameTables {s t : State} (h : OverflowEnd s t) : SameTables s t := by
  obtain ⟨q, -, rfl⟩ := h
  constructor <;> rfl

theorem OverflowEnd.sameHost {s t : State} (h : OverflowEnd s t) : SameHost s t := by
  obtain ⟨q, -, rfl⟩ := h
  constructor <;> rfl

theorem OverflowEnd.sameMemOutside {s t : State} (h : OverflowEnd s t) :
    SameMemOutside s t s.latch.dstAddr.toNat (s.latch.dstAddr.toNat + s.latch.dstCap.toNat) := by
  obtain ⟨q, hq, rfl⟩ := h
  intro a ha
  have hend : (s.withPort q).dstEnd ≤ s.latch.dstAddr.toNat + s.latch.dstCap.toNat := Nat.min_le_left _ _
  exact (Memory.read_havoc_outside q.mem (ha.imp_right hend.trans)).trans (hq.read a ha)

/-- A body whose raises are overflows, and whose result overflows later, ends with DST_OVERFLOW. -/
theorem endBody_overflows {α : Type} {s : State} {r : Result α} {P : α → Port → Prop}
    {go : α → Port → Host.Outcome State Fault Refusal} (hr : r.All P (Overflows s))
    (hgo : ∀ a p, P a p → ∃ t, go a p = .next t ∧ OverflowEnd s t) :
    ∃ t, endBody s true r go = .next t ∧ OverflowEnd s t := by
  cases r with
  | ok a p => exact hgo a p hr
  | raise e p =>
    obtain ⟨rfl, hp⟩ := hr
    exact ⟨_, rfl, p, hp, rfl⟩

/-! ### The pre-checks pass -/

theorem preChecked_go {s : State} {checks : List (Option Raise)} {onDevice usesDst : Bool}
    {go : Host.Outcome State Fault Refusal} (hc : ∀ c ∈ checks, c = none) (hd : onDevice = false) :
    preChecked s checks onDevice usesDst go = go := by
  simp [preChecked, firstError_eq_none.2 hc, hd]

theorem checkSrcRange_fits {s : State} (h : s.SrcFits) : checkSrcRange s.latch = none :=
  raiseIf_eq_none.2 (decide_eq_false (Nat.not_lt.2 h))

theorem checkDstRange_fits {s : State} (h : s.DstFits) : checkDstRange s.latch = none :=
  raiseIf_eq_none.2 (decide_eq_false (Nat.not_lt.2 h))

theorem checkOverlap_apart {s : State} (h : s.BuffersApart) : checkOverlap s.latch = none := by
  refine raiseIf_eq_none.2 ?_
  unfold buffersOverlap
  rcases h with h | h | h | h
  · simp [h]
  · simp [h]
  · simp [Nat.not_lt.2 h]
  · simp [Nat.not_lt.2 h]

/-! ### PACK -/

/-- PACK's counters after `n` code bits (R227). -/
structure PackedBits (w : PackWork) (n : Nat) : Prop where
  nbits : w.nbits = n
  nacc : w.nacc = n % 8
  out : w.out = n / 8

theorem packBit_counts {s : State} (h : s.Unhindered) {p : Port} {w : PackWork} {n : Nat} (b : Bool)
    (hw : PackedBits w n) (hp : InCap s w.out p) :
    (packBit s p w b).All (fun w' q => PackedBits w' (n + 1) ∧ w'.i = w.i ∧ InCap s w'.out q) (Overflows s) := by
  obtain ⟨hbits, hacc, hout⟩ := hw
  unfold packBit
  simp only
  split
  · next h8 =>
    refine (emit_unhindered h hp).bind fun out q ⟨ho, hq⟩ => ⟨⟨?_, ?_, ?_⟩, rfl, hq⟩ <;> simp only <;> omega
  · next h8 => refine ⟨⟨?_, ?_, ?_⟩, rfl, hp⟩ <;> simp only <;> omega

theorem packCode_counts {s : State} (h : s.Unhindered) (bs : List Bool) : ∀ {p : Port} {w : PackWork} {n : Nat},
    PackedBits w n → InCap s w.out p →
    (packCode s bs p w).All (fun w' q => PackedBits w' (n + bs.length) ∧ w'.i = w.i ∧ InCap s w'.out q)
      (Overflows s) := by
  induction bs with
  | nil => exact fun hw hp => ⟨hw, rfl, hp⟩
  | cons b bs ih =>
    intro p w n hw hp
    refine (packBit_counts h b hw hp).bind fun w₁ q ⟨hw₁, hi₁, hq⟩ => (ih hw₁ hq).mono ?_ fun _ _ hr => hr
    exact fun w₂ r ⟨hw₂, hi₂, hr⟩ => ⟨by rwa [List.length_cons, Nat.add_comm bs.length, ← Nat.add_assoc],
      hi₂.trans hi₁, hr⟩

/-- How many code bits the first `k` source bytes have. -/
def State.bitsBefore (s : State) (k : Nat) : Nat := (codeStream s.codes (s.sourceBytes.take k)).length

theorem length_sourceBytes (s : State) : s.sourceBytes.length = s.latch.srcLen.toNat := by
  simp [State.sourceBytes, bytesAt]

theorem getElem_sourceBytes (s : State) {k : Nat} (hk : k < s.sourceBytes.length) : s.sourceBytes[k] = s.srcByte k := by
  simp [State.sourceBytes, bytesAt, State.srcByte]

theorem bitsBefore_zero (s : State) : s.bitsBefore 0 = 0 := rfl

theorem bitsBefore_succ (s : State) {k : Nat} (hk : k < s.latch.srcLen.toNat) :
    s.bitsBefore (k + 1) = s.bitsBefore k + (tableGet s.codes (s.srcByte k)).length := by
  rw [← length_sourceBytes] at hk
  unfold State.bitsBefore codeStream
  rw [← List.take_concat_get' _ _ hk, List.flatMap_append, List.length_append, getElem_sourceBytes s hk]
  simp

theorem bitsBefore_all (s : State) : s.bitsBefore s.latch.srcLen.toNat = (codeStream s.codes s.sourceBytes).length := by
  rw [State.bitsBefore, ← length_sourceBytes, List.take_length]

/-- What stands before source byte `k`. -/
def PackAt (s : State) (k : Nat) (w : PackWork) (p : Port) : Prop :=
  w.i = k ∧ PackedBits w (s.bitsBefore k) ∧ InCap s w.out p

theorem packBody_counts {s : State} (h : s.Unhindered) {p : Port} {w : PackWork} {k : Nat}
    (hk : k < s.latch.srcLen.toNat) (hcode : tableGet s.codes (s.srcByte k) ≠ []) (hw : PackAt s k w p) :
    (packBody s p w).All (PackAt s (k + 1)) (Overflows s) := by
  obtain ⟨rfl, hbits, hp⟩ := hw
  unfold packBody
  rw [memRead1_source h hp.2 hk, Result.bind_ok]
  split
  · next hnil => exact absurd hnil hcode
  · refine (packCode_counts h _ hbits hp).bind fun w₁ q ⟨hw₁, _, hq⟩ => ?_
    rw [← bitsBefore_succ s hk] at hw₁
    exact ⟨rfl, ⟨hw₁.nbits, hw₁.nacc, hw₁.out⟩, hq⟩

/-- The last, unfilled byte does not fit either. -/
theorem packFinish_overflows {s : State} {w : PackWork} {p : Port} {n : Nat} (hw : PackedBits w n)
    (hp : InCap s w.out p) (hn : s.latch.dstCap.toNat < (n + 7) / 8) :
    ∃ t, packFinish s w p = .next t ∧ OverflowEnd s t := by
  obtain ⟨-, hacc, hout⟩ := hw
  obtain ⟨hcap, hq⟩ := hp
  have hf : packFlush s w p = .raise ⟨.dstOverflow, s.latch.dstCap⟩ p := by
    rw [packFlush, if_pos (by omega), emit, if_pos (by omega), Result.bind_raise]
  unfold packFinish
  rw [hf]
  exact ⟨_, rfl, p, hq, rfl⟩

theorem execPack_overflows {s : State} (h : s.Unhindered) (hv : s.codeValid = true) (hsd : s.srcOnDevice = false)
    (hdd : s.dstOnDevice = false) (hcodes : ∀ x ∈ s.sourceBytes, tableGet s.codes x ≠ [])
    (hlong : s.latch.dstCap.toNat < ((codeStream s.codes s.sourceBytes).length + 7) / 8) :
    ∃ t, execPack s = .next t ∧ OverflowEnd s t := by
  have hchecks : ∀ c ∈ packChecks s, c = none := by
    simp [packChecks, checkReady, hv, checkSrcRange_fits h.srcFits, checkDstRange_fits h.dstFits,
      checkOverlap_apart h.apart]
  have hloop := iterate_counts (body := packBody s) (PackAt s) (Q := Overflows s) (m := s.latch.srcLen.toNat)
    (fun k w p hk hw => packBody_counts h hk (hcodes _ (by
      rw [← length_sourceBytes] at hk; exact getElem_sourceBytes s hk ▸ List.getElem_mem hk)) hw)
    (packLeft s packInit) 0 packInit s.port (by simp [packLeft, packInit])
    ⟨rfl, by rw [bitsBefore_zero]; exact ⟨rfl, rfl, rfl⟩, Nat.zero_le _, .refl ..⟩
  unfold execPack
  rw [preChecked_go hchecks (by simp [hsd, hdd])]
  exact endBody_overflows hloop fun w p ⟨_, hw, hp⟩ => packFinish_overflows hw hp (bitsBefore_all s ▸ hlong)

/-! ### Codes as paths (R210, R211) -/

theorem descend_append (nodes : NodeStore) (p q : List Bool) : ∀ i : Nat,
    descend nodes i (p ++ q) = (descend nodes i p).bind fun j => descend nodes j q := by
  induction p with
  | nil => exact fun _ => rfl
  | cons b p ih =>
    intro i
    simp only [List.cons_append, descend]
    split
    · exact ih _
    · rfl

/-- A path from the root that ends at a leaf of the symbol. -/
def LeafPath (nodes : NodeStore) (root : Nat) (c : Code) (x : Byte) : Prop :=
  ∃ j, descend nodes root c = some j ∧ (nodeAt nodes j).internal = false ∧ (nodeAt nodes j).sym = x

/-- What every visit of CTGEN keeps: the walks still to make stand where their paths lead, and every code set so far is
the path to a leaf of its symbol. -/
def WalksFrom (nodes : NodeStore) (root : Nat) (w : CtgenWork) : Prop :=
  (∀ i path, (i, path) ∈ w.pending → descend nodes root path = some i) ∧
  ∀ x, tableGet w.codes x ≠ [] → LeafPath nodes root (tableGet w.codes x) x

theorem visitOnce_walksFrom {nodes : NodeStore} {root : Nat} {w : CtgenWork} (h : WalksFrom nodes root w) :
    WalksFrom nodes root (visitOnce nodes w) := by
  obtain ⟨hpending, hcodes⟩ := h
  unfold visitOnce
  split
  · exact ⟨by simp, hcodes⟩
  · next i path rest heq =>
    rw [heq] at hpending
    have hi := hpending i path List.mem_cons_self
    have hrest : ∀ j q, (j, q) ∈ rest → descend nodes root q = some j := fun j q hq =>
      hpending j q (List.mem_cons_of_mem _ hq)
    simp only
    split
    · next hint =>
      have hchild : ∀ b : Bool, descend nodes root (path ++ [b]) =
          some (if b then (nodeAt nodes i).right.toNat else (nodeAt nodes i).left.toNat) := fun b => by
        rw [descend_append, hi, Option.bind_some, descend, if_pos hint]; rfl
      refine ⟨fun j q hq => ?_, hcodes⟩
      simp only [List.mem_cons, Prod.mk.injEq] at hq
      rcases hq with ⟨rfl, rfl⟩ | ⟨rfl, rfl⟩ | hq
      · exact hchild false
      · exact hchild true
      · exact hrest j q hq
    · next hint =>
      refine ⟨hrest, fun x hx => ?_⟩
      simp only [tableGet_tableSet] at hx ⊢
      split at hx
      · next hsym => rw [if_pos hsym]; exact ⟨i, hi, by simpa using hint, hsym.symm⟩
      · next hsym => rw [if_neg hsym]; exact hcodes x hx

/-- A code of any node store is "0" for a leaf root, and else the path from the root to a leaf of its symbol. -/
theorem codesOf_path {nodes : NodeStore} {nnode : Nat} {x : Byte} (h : tableGet (codesOf nodes nnode) x ≠ []) :
    (nnode = 1 ∧ tableGet (codesOf nodes nnode) x = [false] ∧ (nodeAt nodes 0).sym = x) ∨
    (1 < nnode ∧ LeafPath nodes (nnode - 1) (tableGet (codesOf nodes nnode) x) x) := by
  have hempty : ∀ y, tableGet CodeTable.empty y = ([] : Code) := fun y => tableGet_replicate _ y
  rcases Nat.lt_trichotomy nnode 1 with h0 | rfl | h1
  · have hc : codesOf nodes nnode = CodeTable.empty := by
      rw [codesOf, ctgenInit, if_neg (by omega), if_neg (by omega)]; rfl
    exact absurd (by rw [hc, hempty]) h
  · have hc : codesOf nodes 1 = tableSet CodeTable.empty (nodeAt nodes 0).sym [false] := rfl
    rw [hc, tableGet_tableSet] at h ⊢
    split at h
    · next hx => exact .inl ⟨rfl, if_pos hx, hx.symm⟩
    · exact absurd (hempty x) h
  · refine .inr ⟨h1, (repeatN_invariant (WalksFrom nodes (nnode - 1)) (fun _ => visitOnce_walksFrom) _ _ ?_).2 x h⟩
    rw [ctgenInit, if_neg (by omega), if_pos h1]
    exact ⟨by simp [descend], fun y hy => absurd (hempty y) hy⟩

/-! ### UNPACK -/

/-- Stream bit `t` of the source buffer as it was before the command (R242). -/
def State.streamAt (s : State) (t : Nat) : Bool := streamBit (s.srcByte (t / 8)) t

/-- The payload has the bits at stream position `t`. -/
def State.Streams (s : State) : Nat → List Bool → Prop
  | _, [] => True
  | t, b :: bs => t / 8 < s.latch.srcLen.toNat ∧ s.streamAt t = b ∧ s.Streams (t + 1) bs

theorem streams_append {s : State} {p q : List Bool} : ∀ {t : Nat}, s.Streams t (p ++ q) →
    s.Streams t p ∧ s.Streams (t + p.length) q := by
  induction p with
  | nil => exact fun h => ⟨trivial, h⟩
  | cons b p ih =>
    intro t ⟨hlt, hb, hrest⟩
    obtain ⟨hp, hq⟩ := ih hrest
    exact ⟨⟨hlt, hb, hp⟩, by rwa [List.length_cons, Nat.add_comm p.length, ← Nat.add_assoc]⟩

theorem streams_map {s : State} {f : Nat → Bool} : ∀ {n t : Nat},
    (∀ j, t ≤ j → j < t + n → j / 8 < s.latch.srcLen.toNat ∧ s.streamAt j = f j) →
    s.Streams t ((List.range' t n).map f) := by
  intro n
  induction n with
  | zero => exact fun _ => trivial
  | succ n ih =>
    intro t h
    rw [List.range'_succ, List.map_cons]
    obtain ⟨hlt, hf⟩ := h t le_rfl (by omega)
    exact ⟨hlt, hf, ih fun j hj hn => h j (by omega) (by omega)⟩

/-- The meaningful bits of the payload are its stream from position 0 on (R242). -/
theorem streams_streamOf (s : State) (pad : Nat) : s.Streams 0 (streamOf s.sourceBytes pad) := by
  unfold streamOf
  rw [List.range_eq_range', length_sourceBytes]
  refine streams_map fun j _ hj => ?_
  have hlt : j / 8 < s.sourceBytes.length := by rw [length_sourceBytes]; omega
  refine ⟨by rwa [← length_sourceBytes], ?_⟩
  rw [State.streamAt, streamBit, List.getD_eq_getElem _ _ hlt, getElem_sourceBytes s hlt]

/-- What stands before stream bit `t`, at a node and with a number of symbols decoded: inside a byte the byte
is in hand. -/
structure UnpackAt (s : State) (t node out : Nat) (w : UnpackWork) (p : Port) : Prop where
  position : w.t = t
  stands : w.node = node
  written : w.out = out
  inHand : t % 8 ≠ 0 → w.byte = s.srcByte (t / 8)
  port : InCap s out p

theorem unpackByte_source {s : State} (h : s.Unhindered) {t node out : Nat} {w : UnpackWork} {p : Port}
    (hw : UnpackAt s t node out w p) (ht : t / 8 < s.latch.srcLen.toNat) :
    unpackByte s p w = .ok (s.srcByte (t / 8)) p := by
  unfold unpackByte
  rw [hw.position]
  split
  · exact memRead1_source h hw.port.2 ht
  · next h8 => rw [hw.inHand h8]

theorem inHand_next (s : State) (t : Nat) (h : (t + 1) % 8 ≠ 0) : s.srcByte (t / 8) = s.srcByte ((t + 1) / 8) := by
  rw [show (t + 1) / 8 = t / 8 by omega]

/-- A leaf root decodes a 0 to its symbol (R247). -/
theorem unpackBody_leafRoot {s : State} (h : s.Unhindered) (hn : s.nnode.toNat = 1) {t node out : Nat} {w : UnpackWork}
    {p : Port} (hw : UnpackAt s t node out w p) (ht : t / 8 < s.latch.srcLen.toNat) (hb : s.streamAt t = false) :
    (unpackBody s p w).All (UnpackAt s (t + 1) node (out + 1)) (Overflows s) := by
  have hbyte := unpackByte_source h hw ht
  obtain ⟨rfl, rfl, rfl, -, hp⟩ := hw
  have hbit : streamBit (s.srcByte (w.t / 8)) w.t = false := hb
  unfold unpackBody
  rw [hbyte, Result.bind_ok]
  simp only [hn, if_true, hbit]
  exact (emit_unhindered h hp).bind fun out' q ⟨ho, hq⟩ => ⟨rfl, rfl, ho, inHand_next s w.t, ho ▸ hq⟩

/-- The node a bit leads to (R210). -/
def childOf (nodes : NodeStore) (i : Nat) (b : Bool) : Nat :=
  if b then (nodeAt nodes i).right.toNat else (nodeAt nodes i).left.toNat

/-- A bit of a tree with internal nodes, its byte in hand (R243). -/
theorem unpackBody_tree {s : State} (hn : s.nnode.toNat ≠ 1) {w : UnpackWork} {p : Port}
    (hbyte : unpackByte s p w = .ok (s.srcByte (w.t / 8)) p) :
    unpackBody s p w =
      if (nodeAt s.nodes (childOf s.nodes w.node (s.streamAt w.t))).internal then
        .ok { w with t := w.t + 1, byte := s.srcByte (w.t / 8), node := childOf s.nodes w.node (s.streamAt w.t) } p
      else (emit s w.out (nodeAt s.nodes (childOf s.nodes w.node (s.streamAt w.t))).sym p).bind fun out q =>
        .ok { w with t := w.t + 1, byte := s.srcByte (w.t / 8), node := s.root, start := w.t + 1, out := out } q := by
  unfold unpackBody
  rw [hbyte, Result.bind_ok]
  exact if_neg hn

/-- A bit that leads to an internal node. -/
theorem unpackBody_inner {s : State} (h : s.Unhindered) (hn : s.nnode.toNat ≠ 1) {t node out : Nat} {w : UnpackWork}
    {p : Port} (hw : UnpackAt s t node out w p) (ht : t / 8 < s.latch.srcLen.toNat)
    (hc : (nodeAt s.nodes (childOf s.nodes node (s.streamAt t))).internal = true) :
    (unpackBody s p w).All (UnpackAt s (t + 1) (childOf s.nodes node (s.streamAt t)) out) (Overflows s) := by
  have hbyte := unpackByte_source h hw ht
  obtain ⟨rfl, rfl, rfl, -, hp⟩ := hw
  rw [unpackBody_tree hn hbyte, if_pos hc]
  exact ⟨rfl, rfl, rfl, inHand_next s w.t, hp⟩

/-- A bit that leads to a leaf: its symbol is emitted and the walk restarts. -/
theorem unpackBody_leaf {s : State} (h : s.Unhindered) (hn : s.nnode.toNat ≠ 1) {t node out : Nat} {w : UnpackWork}
    {p : Port} (hw : UnpackAt s t node out w p) (ht : t / 8 < s.latch.srcLen.toNat)
    (hc : (nodeAt s.nodes (childOf s.nodes node (s.streamAt t))).internal = false) :
    (unpackBody s p w).All (UnpackAt s (t + 1) s.root (out + 1)) (Overflows s) := by
  have hbyte := unpackByte_source h hw ht
  obtain ⟨rfl, rfl, rfl, -, hp⟩ := hw
  rw [unpackBody_tree hn hbyte, if_neg (Bool.eq_false_iff.1 hc)]
  exact (emit_unhindered h hp).bind fun out' q ⟨ho, hq⟩ => ⟨rfl, rfl, ho, inHand_next s w.t, ho ▸ hq⟩

/-- The rest of a path, from any node of it, decodes to one symbol. -/
theorem unpack_path {s : State} (h : s.Unhindered) (hn : s.nnode.toNat ≠ 1) {leaf : Nat}
    (hleaf : (nodeAt s.nodes leaf).internal = false) (b : Bool) (bs : List Bool) :
    ∀ {t node out : Nat} {w : UnpackWork} {p : Port}, descend s.nodes node (b :: bs) = some leaf →
      s.Streams t (b :: bs) → UnpackAt s t node out w p →
      (iterate (unpackBody s) (b :: bs).length p w).All (UnpackAt s (t + (b :: bs).length) s.root (out + 1))
        (Overflows s) := by
  induction bs generalizing b with
  | nil =>
    intro t node out w p hd ⟨ht, hb, _⟩ hw
    have hchild : childOf s.nodes node b = leaf := by
      simp only [descend] at hd
      split at hd
      · exact Option.some.inj hd
      · cases hd
    have hbody := unpackBody_leaf h hn hw ht (by rw [hb, hchild]; exact hleaf)
    exact hbody.bind fun _ _ hw' => hw'
  | cons b' bs ih =>
    intro t node out w p hd ⟨ht, hb, hrest⟩ hw
    have hd' : descend s.nodes (childOf s.nodes node b) (b' :: bs) = some leaf := by
      rw [descend] at hd
      split at hd
      · exact hd
      · cases hd
    have hint : (nodeAt s.nodes (childOf s.nodes node b)).internal = true := by
      rw [descend] at hd'
      split at hd'
      · next hint => exact hint
      · cases hd'
    have hbody := unpackBody_inner h hn hw ht (by rw [hb]; exact hint)
    rw [hb] at hbody
    refine hbody.bind fun w₁ q hw₁ => ?_
    rw [List.length_cons (a := b), Nat.add_comm (b' :: bs).length, ← Nat.add_assoc]
    exact ih b' hd' hrest hw₁

/-- A code in the stream decodes to one symbol, or the symbol does not fit. -/
theorem unpack_code {s : State} (h : s.Unhindered) {x : Byte} {c : Code}
    (hc : c = tableGet (codesOf s.nodes s.nnode.toNat) x) (hne : c ≠ []) {t out : Nat} {w : UnpackWork} {p : Port}
    (hs : s.Streams t c) (hw : UnpackAt s t s.root out w p) :
    (iterate (unpackBody s) c.length p w).All (UnpackAt s (t + c.length) s.root (out + 1)) (Overflows s) := by
  subst hc
  rcases codesOf_path hne with ⟨hn, hc, -⟩ | ⟨hn, leaf, hd, hleaf, -⟩
  · rw [hc] at hs ⊢
    obtain ⟨ht, hb, -⟩ := hs
    exact (unpackBody_leafRoot h hn hw ht hb).bind fun _ _ hw' => hw'
  · obtain ⟨b, bs, hc⟩ := List.exists_cons_of_ne_nil hne
    rw [hc] at hs hd ⊢
    exact unpack_path h (by omega) hleaf b bs hd hs hw

theorem iterate_add {α : Type} (body : Port → α → Result α) (m n : Nat) : ∀ (p : Port) (a : α),
    iterate body (m + n) p a = (iterate body m p a).bind fun a₁ p₁ => iterate body n p₁ a₁ := by
  induction m with
  | zero => intro p a; rw [Nat.zero_add]; rfl
  | succ m ih =>
    intro p a
    rw [Nat.succ_add, iterate_succ, iterate_succ]
    cases body p a with
    | ok a₁ p₁ => exact ih p₁ a₁
    | raise e q => rfl

theorem codeStream_cons (c : CodeTable) (x : Byte) (xs : List Byte) :
    codeStream c (x :: xs) = tableGet c x ++ codeStream c xs := List.flatMap_cons

/-- Codes in the stream decode to their symbols, as many as fit. -/
theorem unpack_codes {s : State} (h : s.Unhindered) {xs : List Byte}
    (hcodes : ∀ x ∈ xs, tableGet (codesOf s.nodes s.nnode.toNat) x ≠ []) :
    ∀ {t out : Nat} {w : UnpackWork} {p : Port}, s.Streams t (codeStream (codesOf s.nodes s.nnode.toNat) xs) →
      UnpackAt s t s.root out w p →
      (iterate (unpackBody s) (codeStream (codesOf s.nodes s.nnode.toNat) xs).length p w).All
        (UnpackAt s (t + (codeStream (codesOf s.nodes s.nnode.toNat) xs).length) s.root (out + xs.length))
        (Overflows s) := by
  induction xs with
  | nil => exact fun _ hw => hw
  | cons x xs ih =>
    intro t out w p hs hw
    rw [codeStream_cons] at hs ⊢
    obtain ⟨hx, hxs⟩ := streams_append hs
    rw [List.length_append, iterate_add, ← Nat.add_assoc, List.length_cons, Nat.add_comm xs.length, ← Nat.add_assoc]
    exact (unpack_code h rfl (hcodes x List.mem_cons_self) hx hw).bind fun w₁ q hw₁ =>
      ih (fun y hy => hcodes y (List.mem_cons_of_mem _ hy)) hxs hw₁

theorem execUnpack_overflows {s : State} (h : s.Unhindered) {pad : BitVec 3} {xs : List Byte} {rest : List Bool}
    (hv : s.treeValid = true) (hsd : s.srcOnDevice = false) (hdd : s.dstOnDevice = false)
    (hcodes : ∀ x ∈ xs, tableGet (codesOf s.nodes s.nnode.toNat) x ≠ [])
    (hstream : streamOf s.sourceBytes pad.toNat = codeStream (codesOf s.nodes s.nnode.toNat) xs ++ rest)
    (hlong : s.latch.dstCap.toNat < xs.length) : ∃ t, execUnpack pad s = .next t ∧ OverflowEnd s t := by
  have hlen : 8 * s.latch.srcLen.toNat - pad.toNat =
      (codeStream (codesOf s.nodes s.nnode.toNat) xs).length + rest.length := by
    rw [← List.length_append, ← hstream, streamOf, List.length_map, List.length_range, length_sourceBytes]
  obtain ⟨x, ys, rfl⟩ : ∃ x ys, xs = x :: ys := List.exists_cons_of_ne_nil (by rintro rfl; simp at hlong)
  have hx := hcodes x List.mem_cons_self
  have hnode : s.nnode.toNat ≠ 0 := by rcases codesOf_path hx with ⟨hn, -⟩ | ⟨hn, -⟩ <;> omega
  have hsrc : s.latch.srcLen.toNat ≠ 0 := by
    have hpos := List.length_pos_of_ne_nil hx
    rw [codeStream_cons, List.length_append] at hlen
    omega
  have hchecks : ∀ c ∈ unpackChecks pad s, c = none := by
    simp [unpackChecks, checkReady, hv, checkSrcRange_fits h.srcFits, checkDstRange_fits h.dstFits,
      checkOverlap_apart h.apart, unpackMalformed, hnode, hsrc, raiseIf]
  have hs := (streams_append (hstream ▸ streams_streamOf s pad.toNat)).1
  have hloop : (iterate (unpackBody s) (unpackLeft (unpackInit pad s)) s.port (unpackInit pad s)).All
      (fun _ _ => False) (Overflows s) := by
    rw [show unpackLeft (unpackInit pad s) = _ from hlen, iterate_add]
    refine (unpack_codes h hcodes hs ⟨rfl, rfl, rfl, fun h0 => absurd rfl h0, Nat.zero_le _, .refl ..⟩).bind
      fun w p hw => ?_
    exact absurd hw.port.1 (by omega)
  unfold execUnpack
  rw [preChecked_go hchecks (by simp [hsd, hdd])]
  exact endBody_overflows hloop fun _ _ hf => hf.elim

end Sys2Proof.Machine

open Sys2Proof Sys2Proof.Machine

/-- Settles O43. -/
theorem outputBeyondTheCapacityOverflows : Obligations.OutputBeyondTheCapacityOverflows := by
  unfold Obligations.OutputBeyondTheCapacityOverflows
  constructor
  · intro s hv hsf hdf hap hsd hdd hr hread hcodes hlong hwrite
    obtain ⟨t, ht, hend⟩ := execPack_overflows ⟨hsf, hdf, hap, hr, hread, hwrite⟩ hv hsd hdd hcodes hlong
    exact ⟨t, ht, hend.completedErr, hend.sameTables, hend.sameHost, hend.sameMemOutside⟩
  · intro s pad xs rest hv hsf hdf hap hsd hdd hr hread hcodes hstream hlong hwrite
    obtain ⟨t, ht, hend⟩ := execUnpack_overflows ⟨hsf, hdf, hap, hr, hread, hwrite⟩ hv hsd hdd hcodes hstream hlong
    exact ⟨t, ht, hend.completedErr, hend.sameTables, hend.sameHost, hend.sameMemOutside⟩

end

section
/-! PROOFS. The buffers of a command (R102, R103, R110, R115): the bytes it may change, the bytes that become any values
when a duty was broken, and the one ground on which a step is refused. -/

namespace Sys2Proof.Machine

/-! ### The frame of the destination buffer (R102, R103) -/

theorem PortOf.withinDst {i : Instr} {s : State} {p : Port} (hi : usesDst i = true) (h : PortOf i s p) :
    s.WithinDst s.port p := by simpa [PortOf, hi] using h

theorem PortOf.readFrom {i : Instr} {s : State} {p : Port} (hi : usesDst i = false) (h : PortOf i s p) :
    Port.ReadFrom s.port p := by simpa [PortOf, hi] using h

theorem Port.Within.havocDst {s : State} {p : Port} (h : s.WithinDst s.port p) :
    s.WithinDst s.port (s.withPort p).havocDst.port where
  read a ha := (Memory.read_havoc_outside p.mem (ha.imp_right (Nat.min_le_left _ _).trans)).trans (h.read a ha)
  wf hm := Memory.havoc_wf (h.wf hm) _ (Nat.min_le_right _ _)
  draws := h.draws.trans (Nat.le_succ _)

theorem Port.Within.settleDst {s : State} {p : Port} (h : s.WithinDst s.port p) :
    s.WithinDst s.port (s.withPort p).settleDst.port := by
  unfold State.settleDst
  split
  · exact h.havocDst
  · exact h

/-- However a command with a destination buffer ends, it has changed memory inside that buffer only. -/
theorem Ends.withinDst {i : Instr} {s t : State} (hi : usesDst i = true) (h : Ends i s t) :
    s.WithinDst s.port t.port := by
  cases h with
  | pre e _ => rw [hi]; exact (Port.Within.refl _ _ s.port).settleDst
  | body e p _ hp => rw [hi]; exact (hp.withinDst hi).havocDst
  | done u r hc =>
    cases i with
    | nop | fcount | fload | tbuild | ctgen | clear => cases hi
    | fstore | pack | unpack => obtain ⟨p, hp, rfl⟩ := hc; exact (hp.withinDst hi).settleDst

/-- However a command without a destination buffer ends, memory is the same. -/
theorem Ends.mem_eq {i : Instr} {s t : State} (hi : usesDst i = false) (h : Ends i s t) : t.mem = s.mem := by
  cases h with
  | pre e _ => rw [hi]; rfl
  | body e p _ hp => rw [hi]; exact (hp.readFrom hi).1
  | done u r hc =>
    cases i with
    | nop | tbuild | clear => cases hc; rfl
    | ctgen => obtain ⟨-, rfl⟩ := hc; rfl
    | fcount => obtain ⟨p, f, hp, rfl⟩ := hc; exact (hp.readFrom hi).1
    | fload => obtain ⟨p, f, hp, -, rfl⟩ := hc; exact (hp.readFrom hi).1
    | fstore | pack | unpack => cases hi

/-! ### Destination bytes after a broken duty (R115) -/

theorem hostMemWrite_races {s : State} {a : Word} (v : Byte)
    (h : s.inRunningSrc a.toNat = true ∨ s.inRunningDst a.toNat = true) :
    (hostMemWrite a v s).raced = true ∧ (hostMemWrite a v s).work = .accepted := by
  rw [hostMemWrite, if_pos ((Bool.or_eq_true _ _).mpr h)]
  exact ⟨rfl, rfl⟩

theorem hostMemRead_races {s : State} {a : Word} (h : s.inRunningDst a.toNat = true) :
    (hostMemRead a s).raced = true ∧ (hostMemRead a s).work = .accepted ∧
      (hostMemRead a s).resp = .byte (Config.freeByte s.draws a.toNat) := by
  rw [hostMemRead, if_pos h]
  exact ⟨rfl, rfl, rfl⟩

/-- Every byte of the destination buffer that `s` latched is in `t` a free value of one draw made since `s`. -/
def DstFreed (s t : State) : Prop :=
  ∃ d, s.draws ≤ d ∧ d < t.draws ∧ ∀ a, s.latch.dstAddr.toNat ≤ a →
    a < s.latch.dstAddr.toNat + s.latch.dstCap.toNat → a < 2 ^ 32 → t.mem.read a = Config.freeByte d a

theorem havocDst_freed {s : State} {p : Port} (h : s.draws ≤ p.draws) : DstFreed s (s.withPort p).havocDst :=
  ⟨p.draws, h, Nat.lt_succ_self _, fun _ hlo hhi ha => Memory.read_havoc_inside p.mem ⟨hlo, Nat.lt_min.2 ⟨hhi, ha⟩⟩⟩

theorem settleDst_freed {s : State} {p : Port} (hr : s.raced = true) (h : s.draws ≤ p.draws) :
    DstFreed s (s.withPort p).settleDst := by
  rw [State.settleDst, if_pos (show (s.withPort p).raced = true from hr)]
  exact havocDst_freed h

theorem Ends.dstFreed {i : Instr} {s t : State} (hi : usesDst i = true) (hr : s.raced = true) (h : Ends i s t) :
    DstFreed s t := by
  cases h with
  | pre e _ => rw [hi]; exact settleDst_freed (p := s.port) hr le_rfl
  | body e p _ hp => rw [hi]; exact havocDst_freed (hp.withinDst hi).draws
  | done u r hc =>
    cases i with
    | nop | fcount | fload | tbuild | ctgen | clear => cases hi
    | fstore | pack | unpack => obtain ⟨p, hp, rfl⟩ := hc; exact settleDst_freed hr (hp.withinDst hi).draws

/-- An error of a body frees the destination bytes, so only what follows a result has to. -/
theorem endBody_dstFreed {α : Type} {s u t : State} {r : Result α} {go : α → Port → Host.Outcome State Fault Refusal}
    (h : endBody u true r go = .next t) (hr : r.Sound s.port) (hu : ∀ p, u.withPort p = s.withPort p)
    (hgo : ∀ a p, s.port.Reaches p → go a p = .next t → DstFreed s t) : DstFreed s t := by
  cases r with
  | ok a p => exact hgo a p hr h
  | raise e p =>
    cases h
    rw [hu]
    exact havocDst_freed hr.2.draws

/-- FSTORE leaves any bytes whatever NSYM is, so `exec_ends`, which asks for NSYM = |FREQ|, does not serve here. -/
theorem execFstore_dstFreed {s t : State} (hr : s.raced = true) (h : execFstore s = .next t) : DstFreed s t := by
  rcases preChecked_eq s (fstoreChecks s) s.dstOnDevice true
    (endBody s true (fstoreBegin s s.port) fun w p => runFstore (s.withPort p) w)
    with ⟨e, -, h'⟩ | ⟨-, -, h'⟩ | ⟨-, -, h'⟩
  · cases h'.symm.trans h
    exact settleDst_freed (p := s.port) hr le_rfl
  · cases h'.symm.trans h
  · refine endBody_dstFreed (h'.symm.trans h) (fstoreBegin_sound s s.port) (fun _ => rfl) fun w p hp hrun => ?_
    refine endBody_dstFreed hrun ((iterate_sound (fstoreBody_sound _) _ _ _).trans hp) (fun _ => rfl)
      fun _ _ hq hfin => ?_
    cases hfin
    exact settleDst_freed hr hq.draws

theorem exec_dstFreed {i : Instr} {s t : State} (hi : usesDst i = true) (hr : s.raced = true)
    (h : exec i s = .next t) : DstFreed s t := by
  by_cases hf : i = .fstore
  · subst hf; exact execFstore_dstFreed hr h
  · exact (exec_ends (fun h' => absurd h' hf) h).dstFreed hi hr

/-! ### Refusals (R110) -/

/-- The outcome is a next state. -/
def GoesOn (o : Host.Outcome State Fault Refusal) : Prop := ∃ t, o = .next t

theorem GoesOn.not_refused {o : Host.Outcome State Fault Refusal} {r : Refusal} (h : GoesOn o) : o ≠ .refused r := by
  obtain ⟨t, rfl⟩ := h
  nofun

theorem endBody_goesOn {α : Type} (s : State) (usesDst : Bool) (r : Result α)
    {go : α → Port → Host.Outcome State Fault Refusal} (h : ∀ a p, GoesOn (go a p)) :
    GoesOn (endBody s usesDst r go) := by
  cases r with
  | ok a p => exact h a p
  | raise e p => exact ⟨_, rfl⟩

theorem tickLoop_goesOn {α : Type} (s : State) (usesDst : Bool) (body : Port → α → Result α) (left : Nat)
    {finish : α → Port → Host.Outcome State Fault Refusal} (again : α → Work) (w : α)
    (h : ∀ a p, GoesOn (finish a p)) : GoesOn (tickLoop s usesDst body left finish again w) := by
  unfold tickLoop
  split
  · exact h _ _
  · exact endBody_goesOn _ _ _ fun _ _ => ⟨_, rfl⟩

theorem packFinish_goesOn (s : State) (w : PackWork) (p : Port) : GoesOn (packFinish s w p) :=
  endBody_goesOn _ _ _ fun _ _ => ⟨_, rfl⟩

theorem unpackFinish_goesOn (s : State) (w : UnpackWork) (p : Port) : GoesOn (unpackFinish s w p) := by
  unfold unpackFinish
  split <;> exact ⟨_, rfl⟩

theorem runFcount_goesOn (s : State) (w : FcountWork) : GoesOn (runFcount s w) :=
  endBody_goesOn _ _ _ fun _ _ => ⟨_, rfl⟩

theorem runFload_goesOn (s : State) (w : FloadWork) : GoesOn (runFload s w) :=
  endBody_goesOn _ _ _ fun _ _ => ⟨_, rfl⟩

theorem runFstore_goesOn (s : State) (w : FstoreWork) : GoesOn (runFstore s w) :=
  endBody_goesOn _ _ _ fun _ _ => ⟨_, rfl⟩

theorem runPack_goesOn (s : State) (w : PackWork) : GoesOn (runPack s w) :=
  endBody_goesOn _ _ _ (packFinish_goesOn s)

theorem runUnpack_goesOn (s : State) (w : UnpackWork) : GoesOn (runUnpack s w) :=
  endBody_goesOn _ _ _ (unpackFinish_goesOn s)

/-- The one ground of a refusal: a latched buffer on a device. -/
def RefusedForDevice (s : State) (r : Refusal) : Prop :=
  r = .deviceBuffer ∧ (s.srcOnDevice = true ∨ s.dstOnDevice = true)

/-- Of a pre-checked command only the pre-checks refuse. -/
theorem preChecked_refused {s : State} {checks : List (Option Raise)} {onDevice usesDst : Bool}
    {go : Host.Outcome State Fault Refusal} {r : Refusal} (h : preChecked s checks onDevice usesDst go = .refused r)
    (hgo : GoesOn go) (hd : onDevice = true → s.srcOnDevice = true ∨ s.dstOnDevice = true) : RefusedForDevice s r := by
  rcases preChecked_eq s checks onDevice usesDst go with ⟨e, -, h'⟩ | ⟨-, hon, h'⟩ | ⟨-, -, h'⟩
  · cases h'.symm.trans h
  · cases h'.symm.trans h; exact ⟨rfl, hd hon⟩
  · exact absurd (h'.symm.trans h) hgo.not_refused

theorem exec_refused {i : Instr} {s : State} {r : Refusal} (h : exec i s = .refused r) : RefusedForDevice s r := by
  cases i with
  | nop | tbuild | clear => cases h
  | fcount => exact preChecked_refused h (runFcount_goesOn ..) .inl
  | fload => exact preChecked_refused h (endBody_goesOn _ _ _ fun _ _ => runFload_goesOn ..) .inl
  | fstore => exact preChecked_refused h (endBody_goesOn _ _ _ fun _ _ => runFstore_goesOn ..) .inr
  | ctgen => exact preChecked_refused h ⟨_, rfl⟩ nofun
  | pack => exact preChecked_refused h (runPack_goesOn ..) (Bool.or_eq_true _ _).mp
  | unpack pad => exact preChecked_refused h (runUnpack_goesOn ..) (Bool.or_eq_true _ _).mp

theorem startCommand_refused {i : Instr} {s : State} {r : Refusal} (h : startCommand i s = .refused r) :
    RefusedForDevice s r := by
  cases i with
  | nop | tbuild | clear => cases h
  | fcount => exact preChecked_refused h ⟨_, rfl⟩ .inl
  | fload => exact preChecked_refused h (endBody_goesOn _ _ _ fun _ _ => ⟨_, rfl⟩) .inl
  | fstore => exact preChecked_refused h (endBody_goesOn _ _ _ fun _ _ => ⟨_, rfl⟩) .inr
  | ctgen => exact preChecked_refused h ⟨_, rfl⟩ nofun
  | pack => exact preChecked_refused h ⟨_, rfl⟩ (Bool.or_eq_true _ _).mp
  | unpack pad => exact preChecked_refused h ⟨_, rfl⟩ (Bool.or_eq_true _ _).mp

theorem engineRun_refused {s : State} {r : Refusal} (h : engineRun s = .refused r) : RefusedForDevice s r := by
  unfold engineRun at h
  cases hwork : s.work <;> simp only [hwork] at h
  case idle | tbuild | ctgen => cases h
  case accepted =>
    unfold dispatchRun at h
    split at h
    · cases h
    · exact exec_refused h
  case fcount => exact absurd h (runFcount_goesOn ..).not_refused
  case fload => exact absurd h (runFload_goesOn ..).not_refused
  case fstore => exact absurd h (runFstore_goesOn ..).not_refused
  case pack => exact absurd h (runPack_goesOn ..).not_refused
  case unpack => exact absurd h (runUnpack_goesOn ..).not_refused

theorem engineStep_refused {s : State} {r : Refusal} (h : engineStep s = .refused r) : RefusedForDevice s r := by
  unfold engineStep at h
  cases hwork : s.work <;> simp only [hwork] at h
  case idle => cases h
  case accepted =>
    split at h
    · cases h
    · exact startCommand_refused h
  case tbuild | ctgen => split at h <;> cases h
  case fcount | fload | fstore => exact absurd h (tickLoop_goesOn _ _ _ _ _ _ fun _ _ => ⟨_, rfl⟩).not_refused
  case pack => exact absurd h (tickLoop_goesOn _ _ _ _ _ _ (packFinish_goesOn s)).not_refused
  case unpack => exact absurd h (tickLoop_goesOn _ _ _ _ _ _ (unpackFinish_goesOn s)).not_refused

theorem applyInput_refused {a : Input} {s : State} {r : Refusal} (h : applyInput a s = .refused r) :
    RefusedForDevice s r := by
  cases a with
  | busRead | busWrite | memRead | memWrite | hardReset | chk => cases h
  | engineStep => exact engineStep_refused h
  | wait => exact engineRun_refused h

theorem step_refused {s : State} {r : Refusal} (h : step s = .refused r) : RefusedForDevice s r := by
  unfold step at h
  split at h
  · exact engineRun_refused h
  · have hs := applyInput_refused h
    exact hs

/-- A buffer touches a device region only if they share a byte: the greater of the two first addresses. -/
theorem touches_byte {d : DeviceRegion} {base len : Word} (h : d.touches base len = true) :
    ∃ a, d.base ≤ a ∧ a < d.base + d.size ∧ base.toNat ≤ a ∧ a < base.toNat + len.toNat := by
  simp only [DeviceRegion.touches, Bool.and_eq_true, decide_eq_true_eq] at h
  exact ⟨max d.base base.toNat, by omega⟩

end Sys2Proof.Machine

open Sys2Proof Sys2Proof.Machine

/-- Settles O12: the frame is that of the command's ends. -/
theorem commandsWriteOnlyTheirDestination : Obligations.CommandsWriteOnlyTheirDestination := by
  unfold Obligations.CommandsWriteOnlyTheirDestination
  intro i s t hn h
  have hends := exec_ends (fun _ => hn) h
  exact ⟨fun hi => (hends.withinDst hi).read, fun hi => hends.mem_eq hi⟩

/-- Settles O16: there is no fault to raise, and the shared byte is in the buffer whose check refused. -/
theorem refusesOnlyBuffersOnDevices : Obligations.RefusesOnlyBuffersOnDevices := by
  unfold Obligations.RefusesOnlyBuffersOnDevices
  refine fun s => ⟨nofun, fun r h => ?_⟩
  obtain ⟨hr, hsrc | hdst⟩ := step_refused h
  · obtain ⟨d, hd, ht⟩ := List.any_eq_true.1 hsrc
    obtain ⟨a, hlo, hhi, hin⟩ := touches_byte ht
    exact ⟨hr, d, hd, a, hlo, hhi, .inl hin⟩
  · obtain ⟨d, hd, ht⟩ := List.any_eq_true.1 hdst
    obtain ⟨a, hlo, hhi, hin⟩ := touches_byte ht
    exact ⟨hr, d, hd, a, hlo, hhi, .inr hin⟩

/-- Settles O57: the two accesses race the command, a raced read is a draw, and a raced command frees its destination
bytes. -/
theorem brokenDutiesGiveAnyValues : Obligations.BrokenDutiesGiveAnyValues := by
  unfold Obligations.BrokenDutiesGiveAnyValues
  refine ⟨fun s t a v rest hin h hbuf => ?_, fun s t a rest hin h hdst => ?_, fun s a p hr hf => ?_,
    fun i s t hi hr h => exec_dstFreed hi hr h⟩
  · rw [step, hin] at h
    cases h
    exact hostMemWrite_races v hbuf
  · rw [step, hin] at h
    cases h
    exact hostMemRead_races hdst
  · rw [memRead1, if_neg (Bool.eq_false_iff.1 hf), if_pos hr]

end

section
/-! PROOFS. What a command depends on (R102, R103): two runs from states that differ in memory alone, and there only
outside the source buffer, end the same but for the bytes that neither of them wrote. -/

namespace Sys2Proof.Machine

/-! ### Two runs side by side -/

/-- Two memories, one of each run: a byte is the same in both, or in both what it was in the run's first memory. -/
def Memory.Alike (m₀ m₁ m m' : Memory) : Prop :=
  ∀ a, m'.read a = m.read a ∨ (m.read a = m₀.read a ∧ m'.read a = m₁.read a)

theorem Memory.Alike.start (m₀ m₁ : Memory) : Memory.Alike m₀ m₁ m₀ m₁ := fun _ => .inr ⟨rfl, rfl⟩

theorem Memory.Alike.write {m₀ m₁ m m' : Memory} (h : Memory.Alike m₀ m₁ m m') (a : Nat) (v : Byte) :
    Memory.Alike m₀ m₁ (m.write a v) (m'.write a v) := by
  intro b
  by_cases hb : b = a
  · subst hb
    exact .inl (by simp)
  · rw [m.read_write_other v hb, m'.read_write_other v hb]
    exact h b

theorem Memory.Alike.havoc {m₀ m₁ m m' : Memory} (h : Memory.Alike m₀ m₁ m m') (lo hi draw : Nat) :
    Memory.Alike m₀ m₁ (m.havoc lo hi draw) (m'.havoc lo hi draw) := by
  intro a
  by_cases ha : lo ≤ a ∧ a < hi
  · exact .inl ((m'.read_havoc_inside ha).trans (m.read_havoc_inside ha).symm)
  · have hout : a < lo ∨ hi ≤ a := by omega
    rw [m.read_havoc_outside hout, m'.read_havoc_outside hout]
    exact h a

/-- Two ports with as many draws and alike memories. -/
structure Port.Alike (m₀ m₁ : Memory) (p p' : Port) : Prop where
  draws : p'.draws = p.draws
  mem : Memory.Alike m₀ m₁ p.mem p'.mem

/-- Two states that differ in memory alone, and there are alike. -/
inductive State.Alike (m₀ m₁ : Memory) (t : State) : State → Prop
  | intro (m' : Memory) : Memory.Alike m₀ m₁ t.mem m' → State.Alike m₀ m₁ t { t with mem := m' }

/-- Two results with the same value, which satisfies `P`, or the same raise, and alike ports. -/
inductive Result.Alike {α : Type} (m₀ m₁ : Memory) (P : α → Prop) : Result α → Result α → Prop
  | ok {a : α} {p p' : Port} : P a → Port.Alike m₀ m₁ p p' → Result.Alike m₀ m₁ P (.ok a p) (.ok a p')
  | raise {e : Raise} {p p' : Port} : Port.Alike m₀ m₁ p p' → Result.Alike m₀ m₁ P (.raise e p) (.raise e p')

/-- Two outcomes with alike next states, or the same refusal. -/
inductive OutcomeAlike (m₀ m₁ : Memory) :
    Host.Outcome State Fault Refusal → Host.Outcome State Fault Refusal → Prop
  | next {t t' : State} : State.Alike m₀ m₁ t t' → OutcomeAlike m₀ m₁ (.next t) (.next t')
  | refused (r : Refusal) : OutcomeAlike m₀ m₁ (.refused r) (.refused r)

variable {m₀ m₁ : Memory}

theorem Result.Alike.bind {α β : Type} {P : α → Prop} {Q : β → Prop} {r r' : Result α} {f : α → Port → Result β}
    (h : r.Alike m₀ m₁ P r')
    (hf : ∀ a p p', P a → Port.Alike m₀ m₁ p p' → (f a p).Alike m₀ m₁ Q (f a p')) :
    (r.bind f).Alike m₀ m₁ Q (r'.bind f) := by
  cases h with
  | ok ha hp => exact hf _ _ _ ha hp
  | raise hp => exact .raise hp

/-- A loop whose iterations are alike, and take what holds at count `k` to what holds at `k + 1`, is alike. -/
theorem iterate_alike {α : Type} {body : Port → α → Result α} (I : Nat → α → Prop) {m : Nat}
    (hb : ∀ k a p p', k < m → I k a → Port.Alike m₀ m₁ p p' → (body p a).Alike m₀ m₁ (I (k + 1)) (body p' a)) :
    ∀ n k a p p', k + n = m → I k a → Port.Alike m₀ m₁ p p' →
      (iterate body n p a).Alike m₀ m₁ (I m) (iterate body n p' a) := by
  intro n
  induction n with
  | zero => exact fun k _ _ _ hk ha hp => by subst hk; exact .ok ha hp
  | succ n ih =>
    exact fun k a p p' hk ha hp =>
      (hb k a p p' (by omega) ha hp).bind fun a' q q' => ih (k + 1) a' q q' (by omega)

/-! ### States side by side -/

/-- An update that neither reads nor changes memory keeps two states alike. -/
theorem State.Alike.map {t t' : State} (h : State.Alike m₀ m₁ t t') {f : State → State}
    (hf : ∀ (u : State) (m : Memory), f { u with mem := m } = { f u with mem := m }) :
    State.Alike m₀ m₁ (f t) (f t') := by
  obtain ⟨m', hm⟩ := h
  have hmem := congrArg State.mem (hf t t.mem)
  rw [hf t m']
  exact .intro (t := f t) m' (hmem ▸ hm)

theorem Port.Alike.withPort {p p' : Port} (h : Port.Alike m₀ m₁ p p') (s : State) :
    State.Alike m₀ m₁ (s.withPort p) (s.withPort p') := by
  obtain ⟨mem, draws⟩ := p'
  obtain ⟨rfl, hm⟩ := h
  exact .intro (t := s.withPort p) mem hm

theorem State.Alike.havocDst {t t' : State} (h : State.Alike m₀ m₁ t t') :
    State.Alike m₀ m₁ t.havocDst t'.havocDst := by
  obtain ⟨m', hm⟩ := h
  exact .intro (t := t.havocDst) _ (hm.havoc t.latch.dstAddr.toNat t.dstEnd t.draws)

theorem State.Alike.settleDst {t t' : State} (h : State.Alike m₀ m₁ t t') :
    State.Alike m₀ m₁ t.settleDst t'.settleDst := by
  have hh := h.havocDst
  obtain ⟨m', hm⟩ := h
  unfold State.settleDst
  split
  · exact hh
  · exact .intro m' hm

theorem State.Alike.raise {t t' : State} (h : State.Alike m₀ m₁ t t') (e : Raise) :
    State.Alike m₀ m₁ (t.raise e) (t'.raise e) := h.map fun _ _ => rfl

theorem State.Alike.complete {t t' : State} (h : State.Alike m₀ m₁ t t') (r : Results) :
    State.Alike m₀ m₁ (t.complete r) (t'.complete r) := h.map fun _ _ => rfl

theorem State.Alike.commitFreq {t t' : State} (h : State.Alike m₀ m₁ t t') (f : FreqTable) (n : Nat) :
    State.Alike m₀ m₁ (t.commitFreq f n) (t'.commitFreq f n) := h.map fun _ _ => rfl

theorem State.Alike.commitTree {t t' : State} (h : State.Alike m₀ m₁ t t') (n : NodeStore) :
    State.Alike m₀ m₁ (t.commitTree n) (t'.commitTree n) := h.map fun _ _ => rfl

theorem State.Alike.commitCodes {t t' : State} (h : State.Alike m₀ m₁ t t') (c : CodeTable) :
    State.Alike m₀ m₁ (t.commitCodes c) (t'.commitCodes c) := h.map fun _ _ => rfl

theorem State.Alike.fail {t t' : State} (h : State.Alike m₀ m₁ t t') (usesDst : Bool) (e : Raise) :
    State.Alike m₀ m₁ (t.fail usesDst e) (t'.fail usesDst e) := by
  cases usesDst with
  | false => exact h.raise e
  | true => exact h.havocDst.raise e

/-- The end of a body whose two results are alike. -/
theorem endBody_alike {α : Type} {s s' : State} (hs : ∀ p, s'.withPort p = s.withPort p) {usesDst : Bool}
    {P : α → Prop} {r r' : Result α} {go go' : α → Port → Host.Outcome State Fault Refusal} (hr : r.Alike m₀ m₁ P r')
    (hgo : ∀ a p p', P a → Port.Alike m₀ m₁ p p' → OutcomeAlike m₀ m₁ (go a p) (go' a p')) :
    OutcomeAlike m₀ m₁ (endBody s usesDst r go) (endBody s' usesDst r' go') := by
  cases hr with
  | ok ha hp => exact hgo _ _ _ ha hp
  | raise hp =>
    rw [endBody_raise, endBody_raise, hs]
    exact .next ((hp.withPort s).fail usesDst _)

/-- The pre-checks look at no byte of memory. -/
theorem preChecked_alike {s s' : State} (hs : State.Alike m₀ m₁ s s') {checks : List (Option Raise)}
    {onDevice usesDst : Bool} {go go' : Host.Outcome State Fault Refusal}
    (hgo : firstError checks = none → OutcomeAlike m₀ m₁ go go') :
    OutcomeAlike m₀ m₁ (preChecked s checks onDevice usesDst go) (preChecked s' checks onDevice usesDst go') := by
  unfold preChecked
  cases hc : firstError checks with
  | some e =>
    cases usesDst with
    | false => exact .next (hs.raise e)
    | true => exact .next (hs.settleDst.raise e)
  | none =>
    cases onDevice with
    | false => exact hgo hc
    | true => exact .refused _

theorem settledEnd_alike (s : State) (r : Results) {p p' : Port} (hp : Port.Alike m₀ m₁ p p') :
    OutcomeAlike m₀ m₁ (.next ((s.withPort p).settleDst.complete r)) (.next ((s.withPort p').settleDst.complete r)) :=
  .next ((hp.withPort s).settleDst.complete r)

/-! ### Accesses side by side -/

/-- The two first memories agree on the latched source buffer. -/
def SameSource (s : State) (m₀ m₁ : Memory) : Prop :=
  ∀ a, s.latch.srcAddr.toNat ≤ a → a < s.latch.srcAddr.toNat + s.latch.srcLen.toNat → m₁.read a = m₀.read a

/-- The latched source buffer fits, as the pre-checks leave it, and the two first memories agree on it. -/
structure CheckedSource (s : State) (m₀ m₁ : Memory) : Prop where
  fits : s.SrcFits
  same : SameSource s m₀ m₁

theorem memRead1_alike {s : State} (h : CheckedSource s m₀ m₁) {a : Word} {p p' : Port} (hp : Port.Alike m₀ m₁ p p')
    (hlo : s.latch.srcAddr.toNat ≤ a.toNat) (hhi : a.toNat < s.latch.srcAddr.toNat + s.latch.srcLen.toNat) :
    (memRead1 s a p).Alike m₀ m₁ (fun _ => True) (memRead1 s a p') := by
  have hbyte : p'.mem.read a.toNat = p.mem.read a.toNat := by
    rcases hp.mem a.toNat with heq | ⟨h₀, h₁⟩
    · exact heq
    · rw [h₀, h₁, h.same _ hlo hhi]
  unfold memRead1
  split
  · exact .raise hp
  · split
    · rw [hp.draws]
      exact .ok trivial ⟨rfl, hp.mem⟩
    · rw [hbyte]
      exact .ok trivial hp

/-- A source byte, by its offset. -/
theorem memRead1_srcAt_alike {s : State} (h : CheckedSource s m₀ m₁) {i : Nat} {p p' : Port}
    (hp : Port.Alike m₀ m₁ p p') (hi : i < s.latch.srcLen.toNat) :
    (memRead1 s (s.srcAt i) p).Alike m₀ m₁ (fun _ => True) (memRead1 s (s.srcAt i) p') := by
  have hfits : s.latch.srcAddr.toNat + s.latch.srcLen.toNat ≤ 2 ^ 32 := h.fits
  have haddr := State.srcAt_toNat (s := s) (i := i) (by omega)
  exact memRead1_alike h hp (by omega) (by omega)

theorem srcAt_succ (s : State) (i : Nat) : s.srcAt i + 1 = s.srcAt (i + 1) := by
  unfold State.srcAt
  rw [BitVec.ofNat_add, BitVec.add_assoc]
  rfl

theorem memReadN_srcAt_alike {s : State} (h : CheckedSource s m₀ m₁) : ∀ (n : Nat) {i : Nat} {p p' : Port},
    Port.Alike m₀ m₁ p p' → i + n ≤ s.latch.srcLen.toNat →
    (memReadN s (s.srcAt i) n p).Alike m₀ m₁ (fun _ => True) (memReadN s (s.srcAt i) n p') := by
  intro n
  induction n with
  | zero => exact fun hp _ => .ok trivial hp
  | succ n ih =>
    intro i p p' hp hi
    refine (memRead1_srcAt_alike h hp (by omega)).bind fun b q q' _ hq => ?_
    rw [srcAt_succ]
    exact (ih hq (by omega)).bind fun bs r r' _ hr => .ok trivial hr

theorem memReadBE32_srcAt_alike {s : State} (h : CheckedSource s m₀ m₁) {i : Nat} {p p' : Port}
    (hp : Port.Alike m₀ m₁ p p') (hi : i + 4 ≤ s.latch.srcLen.toNat) :
    (memReadBE32 s (s.srcAt i) p).Alike m₀ m₁ (fun _ => True) (memReadBE32 s (s.srcAt i) p') :=
  (memReadN_srcAt_alike h 4 hp hi).bind fun _ _ _ _ hq => .ok trivial hq

theorem memWrite1_alike (s : State) (a : Word) (v : Byte) {p p' : Port} (hp : Port.Alike m₀ m₁ p p') :
    (memWrite1 s a v p).Alike m₀ m₁ (fun _ => True) (memWrite1 s a v p') := by
  unfold memWrite1
  split
  · exact .raise hp
  · exact .ok trivial ⟨hp.draws, hp.mem.write _ _⟩

theorem memWriteN_alike (s : State) (vs : List Byte) : ∀ (a : Word) {p p' : Port}, Port.Alike m₀ m₁ p p' →
    (memWriteN s a vs p).Alike m₀ m₁ (fun _ => True) (memWriteN s a vs p') := by
  induction vs with
  | nil => exact fun _ _ _ hp => .ok trivial hp
  | cons v vs ih => exact fun a _ _ hp => (memWrite1_alike s a v hp).bind fun _ _ _ _ hq => ih (a + 1) hq

theorem emit_alike (s : State) (out : Nat) (v : Byte) {p p' : Port} (hp : Port.Alike m₀ m₁ p p') :
    (emit s out v p).Alike m₀ m₁ (fun _ => True) (emit s out v p') := by
  unfold emit
  split
  · exact .raise hp
  · exact (memWrite1_alike _ _ _ hp).bind fun _ _ _ _ hq => .ok trivial hq

/-! ### FCOUNT and FLOAD -/

theorem fcountBody_alike {s : State} (h : CheckedSource s m₀ m₁) {w : FcountWork} {p p' : Port}
    (hp : Port.Alike m₀ m₁ p p') (hw : w.i < s.latch.srcLen.toNat) :
    (fcountBody s p w).Alike m₀ m₁ (fun w' => w'.i = w.i + 1) (fcountBody s p' w) :=
  (memRead1_srcAt_alike h hp hw).bind fun _ _ _ _ hq => .ok rfl hq

theorem floadBegin_alike {s : State} (h : CheckedSource s m₀ m₁) {p p' : Port} (hp : Port.Alike m₀ m₁ p p')
    (hlen : 4 ≤ s.latch.srcLen.toNat) :
    (floadBegin s p).Alike m₀ m₁ (fun w => w.i = 0 ∧ 4 + 5 * w.n ≤ s.latch.srcLen.toNat) (floadBegin s p') := by
  refine (memReadBE32_srcAt_alike h hp (by omega)).bind fun n q q' _ hq => ?_
  split
  · exact .raise hq
  · split
    · exact .raise hq
    · next hn => exact .ok ⟨rfl, Nat.not_lt.1 hn⟩ hq

theorem floadBody_alike {s : State} (h : CheckedSource s m₀ m₁) {w : FloadWork} {p p' : Port}
    (hp : Port.Alike m₀ m₁ p p') (hw : 4 + 5 * w.n ≤ s.latch.srcLen.toNat) (hi : w.i < w.n) :
    (floadBody s p w).Alike m₀ m₁ (fun w' => w'.i = w.i + 1 ∧ w'.n = w.n) (floadBody s p' w) := by
  refine (memRead1_srcAt_alike h hp (by omega)).bind fun sym q q' _ hq => ?_
  refine (memReadBE32_srcAt_alike h hq (by omega)).bind fun f r r' _ hr => ?_
  split
  · exact .raise hr
  · split
    · exact .raise hr
    · exact .ok ⟨rfl, rfl⟩ hr

/-! ### FSTORE -/

theorem fstoreBody_alike (s : State) (w : FstoreWork) {p p' : Port} (hp : Port.Alike m₀ m₁ p p') :
    (fstoreBody s p w).Alike m₀ m₁ (fun _ => True) (fstoreBody s p' w) := by
  unfold fstoreBody
  simp only
  split
  · exact (memWriteN_alike _ _ _ hp).bind fun _ _ _ _ hq =>
      (memWriteN_alike _ _ _ hq).bind fun _ _ _ _ hr => .ok trivial hr
  · exact .ok trivial hp

/-! ### PACK -/

theorem packBit_alike (s : State) (w : PackWork) (b : Bool) {p p' : Port} (hp : Port.Alike m₀ m₁ p p') :
    (packBit s p w b).Alike m₀ m₁ (fun _ => True) (packBit s p' w b) := by
  unfold packBit
  simp only
  split
  · exact (emit_alike _ _ _ hp).bind fun _ _ _ _ hq => .ok trivial hq
  · exact .ok trivial hp

theorem packCode_alike (s : State) (bs : List Bool) : ∀ (w : PackWork) {p p' : Port}, Port.Alike m₀ m₁ p p' →
    (packCode s bs p w).Alike m₀ m₁ (fun _ => True) (packCode s bs p' w) := by
  induction bs with
  | nil => exact fun _ _ _ hp => .ok trivial hp
  | cons b bs ih => exact fun w _ _ hp => (packBit_alike s w b hp).bind fun w' _ _ _ hq => ih w' hq

theorem packBody_alike {s : State} (h : CheckedSource s m₀ m₁) {w : PackWork} {p p' : Port} (hp : Port.Alike m₀ m₁ p p')
    (hw : w.i < s.latch.srcLen.toNat) :
    (packBody s p w).Alike m₀ m₁ (fun w' => w'.i = w.i + 1) (packBody s p' w) := by
  refine (memRead1_srcAt_alike h hp hw).bind fun b q q' _ hq => ?_
  split
  · exact .raise hq
  · exact (packCode_alike s _ w hq).bind fun _ _ _ _ hr => .ok rfl hr

theorem packCode_withMem (s : State) (m : Memory) : packCode { s with mem := m } = packCode s := by
  funext bs
  induction bs with
  | nil => rfl
  | cons b bs ih =>
    funext p w
    rw [packCode, packCode, ih]
    rfl

/-- PACK's body looks at memory through the port alone. For the other bodies this is by definition; here the recursion
of `packCode` stands between. -/
theorem packBody_withMem (s : State) (m : Memory) : packBody { s with mem := m } = packBody s := by
  funext p w
  unfold packBody
  rw [packCode_withMem s m]
  rfl

theorem packFlush_alike (s : State) (w : PackWork) {p p' : Port} (hp : Port.Alike m₀ m₁ p p') :
    (packFlush s w p).Alike m₀ m₁ (fun _ => True) (packFlush s w p') := by
  unfold packFlush
  split
  · exact (emit_alike _ _ _ hp).bind fun _ _ _ _ hq => .ok trivial hq
  · exact .ok trivial hp

/-! ### UNPACK -/

theorem unpackByte_alike {s : State} (h : CheckedSource s m₀ m₁) {w : UnpackWork} {p p' : Port}
    (hp : Port.Alike m₀ m₁ p p') (ht : w.t / 8 < s.latch.srcLen.toNat) :
    (unpackByte s p w).Alike m₀ m₁ (fun _ => True) (unpackByte s p' w) := by
  unfold unpackByte
  split
  · exact memRead1_srcAt_alike h hp ht
  · exact .ok trivial hp

theorem unpackBody_alike {s : State} (h : CheckedSource s m₀ m₁) {w : UnpackWork} {p p' : Port}
    (hp : Port.Alike m₀ m₁ p p') (ht : w.t / 8 < s.latch.srcLen.toNat) :
    (unpackBody s p w).Alike m₀ m₁ (fun w' => w'.t = w.t + 1) (unpackBody s p' w) := by
  refine (unpackByte_alike h hp ht).bind fun byte q q' _ hq => ?_
  simp only
  split
  · split
    · exact .raise hq
    · exact (emit_alike _ _ _ hq).bind fun _ _ _ _ hr => .ok rfl hr
  · generalize (if streamBit byte w.t = true then (nodeAt s.nodes w.node).right.toNat
      else (nodeAt s.nodes w.node).left.toNat) = child
    split
    · exact .ok rfl hq
    · exact (emit_alike _ _ _ hq).bind fun _ _ _ _ hr => .ok rfl hr

theorem unpackFinish_alike (s : State) (w : UnpackWork) {p p' : Port} (hp : Port.Alike m₀ m₁ p p') :
    OutcomeAlike m₀ m₁ (unpackFinish s w p) (unpackFinish s w p') := by
  unfold unpackFinish
  split
  · exact .next ((hp.withPort s).fail ..)
  · exact settledEnd_alike s _ hp

/-! ### Every command -/

theorem State.Alike.start (s : State) (m : Memory) : State.Alike s.mem m s { s with mem := m } :=
  .intro m (.start s.mem m)

theorem Port.Alike.start (s : State) (m : Memory) : Port.Alike s.mem m s.port { s.port with mem := m } :=
  ⟨rfl, .start s.mem m⟩

/-- Passed pre-checks leave a source buffer that fits. -/
theorem CheckedSource.of_checks {s : State} {m : Memory} {checks : List (Option Raise)} (hm : SameSource s s.mem m)
    (hc : firstError checks = none) (hmem : checkSrcRange s.latch ∈ checks) : CheckedSource s s.mem m where
  fits := Nat.not_lt.1 (of_decide_eq_false (raiseIf_eq_none.1 (firstError_eq_none.1 hc _ hmem)))
  same := hm

theorem execFcount_alike {s : State} {m : Memory} (hm : SameSource s s.mem m) :
    OutcomeAlike s.mem m (execFcount s) (execFcount { s with mem := m }) := by
  refine preChecked_alike (.start s m) fun hc => ?_
  have hs := CheckedSource.of_checks hm hc (by simp [fcountChecks])
  refine endBody_alike (fun _ => rfl) (iterate_alike (fun k w => w.i = k) (m := s.latch.srcLen.toNat)
    (fun k w p p' hk hw hp => hw ▸ fcountBody_alike hs hp (hw ▸ hk)) (fcountLeft s fcountInit) 0 fcountInit _ _
    (by simp [fcountLeft, fcountInit]) rfl (.start s m)) fun w p p' _ hp => ?_
  exact .next (((hp.withPort s).commitFreq ..).complete _)

theorem execFload_alike {s : State} {m : Memory} (hm : SameSource s s.mem m) :
    OutcomeAlike s.mem m (execFload s) (execFload { s with mem := m }) := by
  refine preChecked_alike (.start s m) fun hc => ?_
  have hs := CheckedSource.of_checks hm hc (by simp [floadChecks])
  have hlen : 4 ≤ s.latch.srcLen.toNat := by
    have hshort := firstError_eq_none.1 hc (raiseIf (decide (s.latch.srcLen.toNat < 4)) ⟨.malformed, 0⟩)
      (by simp [floadChecks])
    exact Nat.not_lt.1 (of_decide_eq_false (raiseIf_eq_none.1 hshort))
  refine endBody_alike (fun _ => rfl) (floadBegin_alike hs (.start s m) hlen) fun w p p' ⟨hi, hw⟩ hp => ?_
  refine endBody_alike (fun _ => rfl) (iterate_alike (fun k w' => w'.i = k ∧ w'.n = w.n) (m := w.n)
    (fun k w' q q' hk ⟨hi', hn⟩ hq => hi' ▸ hn ▸ floadBody_alike hs hq (hn ▸ hw) (by omega)) _ 0 w _ _
    (by simp [floadLeft, hi]) ⟨hi, rfl⟩ hp) fun w' q q' _ hq => ?_
  exact .next (((hq.withPort s).commitFreq ..).complete _)

theorem execFstore_alike (s : State) (m : Memory) :
    OutcomeAlike s.mem m (execFstore s) (execFstore { s with mem := m }) := by
  refine preChecked_alike (.start s m) fun _ => ?_
  refine endBody_alike (fun _ => rfl) (P := fun _ => True)
    ((memWriteN_alike s _ _ (.start s m)).bind fun _ _ _ _ hp => .ok trivial hp) fun w p p' _ hp => ?_
  refine endBody_alike (fun _ => rfl) (iterate_alike (fun _ _ => True)
    (fun _ w' q q' _ _ hq => fstoreBody_alike s w' hq) _ 0 w _ _ (Nat.zero_add _) trivial hp) fun w' q q' _ hq => ?_
  exact settledEnd_alike s _ hq

theorem execPack_alike {s : State} {m : Memory} (hm : SameSource s s.mem m) :
    OutcomeAlike s.mem m (execPack s) (execPack { s with mem := m }) := by
  refine preChecked_alike (.start s m) fun hc => ?_
  have hs := CheckedSource.of_checks hm hc (by simp [packChecks])
  unfold runPack runLoop
  rw [packBody_withMem s m]
  refine endBody_alike (fun _ => rfl) (iterate_alike (fun k w => w.i = k) (m := s.latch.srcLen.toNat)
    (fun k w p p' hk hw hp => hw ▸ packBody_alike hs hp (hw ▸ hk)) (packLeft s packInit) 0 packInit _ _
    (by simp [packLeft, packInit]) rfl (.start s m)) fun w p p' _ hp => ?_
  exact endBody_alike (fun _ => rfl) (packFlush_alike s w hp) fun w' q q' _ hq => settledEnd_alike s _ hq

theorem execUnpack_alike {pad : BitVec 3} {s : State} {m : Memory} (hm : SameSource s s.mem m) :
    OutcomeAlike s.mem m (execUnpack pad s) (execUnpack pad { s with mem := m }) := by
  refine preChecked_alike (.start s m) fun hc => ?_
  have hs := CheckedSource.of_checks hm hc (by simp [unpackChecks])
  refine endBody_alike (fun _ => rfl) (iterate_alike (fun k w => w.t = k) (m := 8 * s.latch.srcLen.toNat - pad.toNat)
    (fun k w p p' hk hw hp => hw ▸ unpackBody_alike hs hp (by omega)) (unpackLeft (unpackInit pad s)) 0
    (unpackInit pad s) _ _ (by simp [unpackLeft, unpackInit]) rfl (.start s m)) fun w p p' _ hp => ?_
  exact unpackFinish_alike s w hp

theorem exec_alike {i : Instr} {s : State} {m : Memory} (hm : usesSrc i = true → SameSource s s.mem m) :
    OutcomeAlike s.mem m (exec i s) (exec i { s with mem := m }) := by
  have hs := State.Alike.start s m
  cases i with
  | nop => exact .next (hs.complete _)
  | fcount => exact execFcount_alike (hm rfl)
  | fload => exact execFload_alike (hm rfl)
  | fstore => exact execFstore_alike s m
  | tbuild => exact .next ((hs.commitTree _).complete _)
  | ctgen => exact preChecked_alike hs fun _ => .next ((hs.commitCodes _).complete _)
  | pack => exact execPack_alike (hm rfl)
  | unpack pad => exact execUnpack_alike (hm rfl)
  | clear => exact .next ((hs.commitFreq ..).complete _)

theorem OutcomeAlike.mapNext_noMem {o o' : Host.Outcome State Fault Refusal} (h : OutcomeAlike m₀ m₁ o o') :
    mapNext State.noMem o' = mapNext State.noMem o := by
  cases h with
  | next ht => cases ht; rfl
  | refused r => rfl

theorem OutcomeAlike.mem {t t' : State} (h : OutcomeAlike m₀ m₁ (.next t) (.next t')) :
    Memory.Alike m₀ m₁ t.mem t'.mem := by
  cases h with
  | next ht => cases ht with | intro m' hm => exact hm

end Sys2Proof.Machine

open Sys2Proof Sys2Proof.Machine

/-- Settles O13: the two runs of a command stay alike from the first access to the completion. -/
theorem commandsReadOnlyTheirSource : Obligations.CommandsReadOnlyTheirSource := by
  unfold Obligations.CommandsReadOnlyTheirSource
  intro i s m hm
  have halike := exec_alike hm
  refine ⟨halike.mapNext_noMem, fun t t' ht ht' => ?_⟩
  rw [ht, ht'] at halike
  exact halike.mem

end

section
/-! PROOFS. Command words (R140 to R145, R149): the fields of a word, the decoder against the encoder, and the end of an
illegal word. -/

namespace Sys2Proof

/-! ### The fields of a word (R140) -/

theorem Word.opc_toNat (w : Word) : w.opc.toNat = w.toNat % 256 := by
  simp [Word.opc]

theorem Word.pad_toNat (w : Word) : w.pad.toNat = w.toNat / 256 % 8 := by
  simp [Word.pad, Nat.shiftRight_eq_div_pow]

theorem Word.rsv_toNat (w : Word) : w.rsv.toNat = w.toNat / 2048 := by
  have h : w.toNat / 2048 < 2097152 := by omega
  simp [Word.rsv, Nat.shiftRight_eq_div_pow, h]

theorem Word.opc_eq_seven {w : Word} : w.opc = 7 ↔ w.toNat % 256 = 7 := by
  rw [← BitVec.toNat_inj, Word.opc_toNat]; rfl

theorem Word.pad_eq_zero {w : Word} : w.pad = 0 ↔ w.toNat / 256 % 8 = 0 := by
  rw [← BitVec.toNat_inj, Word.pad_toNat]; rfl

theorem Word.rsv_eq_zero {w : Word} : w.rsv = 0 ↔ w.toNat / 2048 = 0 := by
  rw [← BitVec.toNat_inj, Word.rsv_toNat]; rfl

/-- The three fields are the whole word. -/
theorem Word.toNat_eq_fields (w : Word) : w.toNat = w.opc.toNat + 256 * w.pad.toNat + 2048 * w.rsv.toNat := by
  rw [Word.opc_toNat, Word.pad_toNat, Word.rsv_toNat]
  omega

theorem Word.eq_of_fields {v w : Word} (hopc : v.opc = w.opc) (hpad : v.pad = w.pad) (hrsv : v.rsv = w.rsv) : v = w :=
  BitVec.eq_of_toNat_eq (by rw [Word.toNat_eq_fields v, Word.toNat_eq_fields w, hopc, hpad, hrsv])

/-! ### Legal words (R144) -/

/-- The three causes of R144 as arithmetic on the word. -/
def Word.Illegal (w : Word) : Prop :=
  9 ≤ w.toNat % 256 ∨ w.toNat / 2048 ≠ 0 ∨ (w.toNat % 256 ≠ 7 ∧ w.toNat / 256 % 8 ≠ 0)

theorem legalWord_iff {w : Word} : legalWord w = true ↔ w.opc.toNat ≤ 8 ∧ w.rsv = 0 ∧ (w.opc = 7 ∨ w.pad = 0) := by
  simp [legalWord, opcodeDefined, reservedClear, padAllowed, and_assoc]

theorem legalWord_iff_not_illegal {w : Word} : legalWord w = true ↔ ¬ w.Illegal := by
  rw [legalWord_iff, Word.opc_toNat, Word.rsv_eq_zero, Word.opc_eq_seven, Word.pad_eq_zero, Word.Illegal]
  omega

/-- What `Laws.Legal` says of each command, for any command. -/
theorem Instr.legal (i : Instr) : Laws.Legal.Statement i := by
  cases i with
  | nop => exact Laws.Legal.nop
  | fcount => exact Laws.Legal.fcount
  | fload => exact Laws.Legal.fload
  | fstore => exact Laws.Legal.fstore
  | tbuild => exact Laws.Legal.tbuild
  | ctgen => exact Laws.Legal.ctgen
  | pack => exact Laws.Legal.pack
  | unpack pad => exact Laws.Legal.unpack pad
  | clear => exact Laws.Legal.clear

/-! ### The opcode map (R141) -/

theorem opcodeCommand_fields (i : Instr) : opcodeCommand i.opcode i.padField = some i := by
  cases i <;> rfl

theorem opcode_of_opcodeCommand {opc : BitVec 8} {pad : BitVec 3} {i : Instr} (h : opcodeCommand opc pad = some i) :
    opc = i.opcode := by
  unfold opcodeCommand at h
  split at h
  case h_10 => cases h
  all_goals
    next hopc =>
      cases h
      exact BitVec.eq_of_toNat_eq hopc

theorem pad_of_opcodeCommand {opc : BitVec 8} {pad : BitVec 3} {i : Instr} (h : opcodeCommand opc pad = some i)
    (hpad : opc = 7 ∨ pad = 0) : pad = i.padField := by
  obtain rfl := opcode_of_opcodeCommand h
  cases i
  case unpack p => cases h; rfl
  all_goals exact hpad.resolve_left (by decide)

theorem opcodeCommand_ne_none {opc : BitVec 8} (pad : BitVec 3) (h : opc.toNat ≤ 8) : opcodeCommand opc pad ≠ none := by
  unfold opcodeCommand
  generalize opc.toNat = n at h
  interval_cases n <;> exact Option.some_ne_none _

/-! ### Decoding and encoding (R145, R149) -/

theorem encode_toNat (i : Instr) : (encode i).toNat = i.opcode.toNat + 256 * i.padField.toNat := by
  obtain ⟨-, -, hopc, hpad, hrsv⟩ := i.legal
  rw [Word.toNat_eq_fields, hopc, hpad, hrsv]
  rfl

@[simp] theorem decodeWord_encode (i : Instr) : decodeWord (encode i) = some i := by
  obtain ⟨-, hlegal, hopc, hpad, -⟩ := i.legal
  rw [decodeWord, if_pos hlegal, hopc, hpad, opcodeCommand_fields]

theorem eq_encode_of_decodeWord {w : Word} {i : Instr} (h : decodeWord w = some i) : w = encode i := by
  obtain ⟨hlegal, hcmd⟩ := Option.ite_none_right_eq_some.1 h
  obtain ⟨-, hrsv, hpad⟩ := legalWord_iff.1 hlegal
  obtain ⟨-, -, hopc', hpad', hrsv'⟩ := i.legal
  exact Word.eq_of_fields ((opcode_of_opcodeCommand hcmd).trans hopc'.symm)
    ((pad_of_opcodeCommand hcmd hpad).trans hpad'.symm) (hrsv.trans hrsv'.symm)

theorem decodeWord_eq_some {w : Word} {i : Instr} : decodeWord w = some i ↔ w = encode i :=
  ⟨eq_encode_of_decodeWord, fun h => h ▸ decodeWord_encode i⟩

theorem decodeWord_of_legal {w : Word} (h : ¬ w.Illegal) : decodeWord w = opcodeCommand w.opc w.pad :=
  if_pos (legalWord_iff_not_illegal.2 h)

theorem decodeWord_eq_none {w : Word} : decodeWord w = none ↔ w.Illegal := by
  constructor
  · contrapose
    intro h
    rw [decodeWord_of_legal h]
    exact opcodeCommand_ne_none _ (legalWord_iff.1 (legalWord_iff_not_illegal.2 h)).1
  · intro h
    exact if_neg fun hl => legalWord_iff_not_illegal.1 hl h

/-- The second case of R145: a command other than UNPACK has its OPC as its word. -/
theorem Word.toNat_eq_opc {w : Word} (h : ¬ w.Illegal) (h7 : w.toNat % 256 ≠ 7) : w.toNat = w.toNat % 256 := by
  unfold Word.Illegal at h
  omega

/-- The third case of R145. -/
theorem decodeWord_unpack {w : Word} (h : ¬ w.Illegal) (h7 : w.toNat % 256 = 7) : decodeWord w = some (.unpack w.pad) := by
  rw [decodeWord_of_legal h, Word.opc_eq_seven.2 h7]
  rfl

end Sys2Proof

namespace Sys2Proof.Machine

/-! ### The end with an error (R285, R286), for an illegal word (R144) -/

theorem State.raise_completedErr (s : State) {e : Raise} (he : e.code ≠ .none) :
    CompletedErr (s.raise e) e.code e.info where
  err := rfl
  errInfo := rfl
  resLen := rfl
  resPad := rfl
  resBits := rfl
  done := rfl
  busy := rfl
  errf := by simp [State.errf_eq, he]
  latch := rfl

theorem State.raise_sameTables (s : State) (e : Raise) : SameTables s (s.raise e) := by
  constructor <;> rfl

theorem State.raise_sameHost (s : State) (e : Raise) : SameHost s (s.raise e) := by
  constructor <;> rfl

theorem step_illegal {s : State} (hin : s.inputs = []) (hw : s.work = .accepted) (hd : decodeWord s.latch.word = none) :
    step s = .next (s.raise ⟨.illegalCmd, s.latch.word⟩) := by
  simp [step, hin, engineRun, hw, dispatchRun, hd, illegalCommand]

end Sys2Proof.Machine

open Sys2Proof Sys2Proof.Machine

/-- Settles O2: a decoded word and the command's word have the same three fields. -/
theorem decodeAndEncodeAgree : Obligations.DecodeAndEncodeAgree := by
  unfold Obligations.DecodeAndEncodeAgree
  exact fun _ _ => decodeWord_eq_some

/-- Settles O3: a legal word is some command's word, so its OPC is that command's. -/
theorem decodingIsTotalInThreeCases : Obligations.DecodingIsTotalInThreeCases := by
  unfold Obligations.DecodingIsTotalInThreeCases
  refine fun w => ⟨decodeWord_eq_none.2, fun hlegal h7 => ⟨Word.toNat_eq_opc hlegal h7, ?_⟩, fun hlegal h7 => ?_⟩
  · obtain ⟨i, hi⟩ := Option.ne_none_iff_exists'.1 (mt decodeWord_eq_none.1 hlegal)
    refine ⟨i, ?_, hi⟩
    obtain rfl := eq_encode_of_decodeWord hi
    cases i
    case unpack p => exact absurd (by rw [encode_toNat]; simp [Instr.opcode]) h7
    all_goals decide
  · rw [decodeWord_unpack hlegal h7, ← Word.pad_toNat, BitVec.ofNat_toNat, BitVec.setWidth_eq]

/-- Settles O4. -/
theorem illegalWordOnlyReportsItself : Obligations.IllegalWordOnlyReportsItself := by
  unfold Obligations.IllegalWordOnlyReportsItself
  exact ⟨fun _ => decodeWord_eq_none, fun s hin hw hd => ⟨_, step_illegal hin hw hd, s.raise_completedErr nofun,
    s.raise_sameTables _, s.raise_sameHost _, rfl⟩⟩

/-- Settles O1: the words of the table are the commands' encodings, and decoding them is the round trip. -/
theorem commandWordsAreThoseOfTheTable : Obligations.CommandWordsAreThoseOfTheTable := by
  unfold Obligations.CommandWordsAreThoseOfTheTable
  refine ⟨⟨rfl, rfl, rfl, rfl, rfl, rfl, rfl, rfl, fun p => encode_toNat _⟩,
    decodeWord_encode .nop, decodeWord_encode .fcount, decodeWord_encode .fload, decodeWord_encode .fstore,
    decodeWord_encode .tbuild, decodeWord_encode .ctgen, decodeWord_encode .pack, decodeWord_encode .clear, fun p => ?_⟩
  have hword : BitVec.ofNat 32 (0x00000007 + 0x100 * p.toNat) = encode (.unpack p) :=
    (congrArg (BitVec.ofNat 32) (encode_toNat (.unpack p)).symm).trans (by simp)
  rw [hword, decodeWord_encode]

end

section
/-! PROOFS. The frequency section (R173 to R177): its bytes, FLOAD of its records, FSTORE of a table, and the round trip
between them. -/

namespace Sys2Proof.Machine

/-! ### Pre-checks -/

theorem raiseIf_decide {c : Prop} [Decidable c] {e : Raise} : raiseIf (decide c) e = none ↔ ¬ c := by
  rw [raiseIf_eq_none, decide_eq_false_iff_not]

/-- A command whose ERR at its end is no pre-check error has passed its pre-checks. -/
theorem preChecked_passed {s t : State} {checks : List (Option Raise)} {onDevice usesDst : Bool}
    {go : Host.Outcome State Fault Refusal} (h : preChecked s checks onDevice usesDst go = .next t)
    (he : ∀ e, some e ∈ checks → t.err ≠ e.code) : (∀ c ∈ checks, c = none) ∧ onDevice = false := by
  rcases preChecked_eq s checks onDevice usesDst go with ⟨e, hf, h'⟩ | ⟨-, -, h'⟩ | ⟨hf, hd, -⟩
  · cases h'.symm.trans h
    exact absurd rfl (he e (firstError_mem hf))
  · cases h'.symm.trans h
  · exact ⟨firstError_eq_none.1 hf, hd⟩

/-! ### Big-endian integers (R111) -/

@[simp] theorem length_beBytes (v : Word) : (beBytes v).length = 4 := rfl

theorem be32_beBytes (v : Word) :
    be32 (v.extractLsb' 24 8) (v.extractLsb' 16 8) (v.extractLsb' 8 8) (v.extractLsb' 0 8) = v := by
  have join (n m : Nat) : v.extractLsb' (n + 8) m ++ v.extractLsb' n 8 = v.extractLsb' n (m + 8) :=
    BitVec.extractLsb'_append_extractLsb'_eq_extractLsb' rfl
  rw [be32, join 16 8, join 8 16, join 0 24, BitVec.extractLsb'_eq_self]

/-! ### The symbols with a count (R173) -/

/-- The symbols below `k` with a count, in ascending order: those FSTORE has written before symbol `k`. -/
def presentBelow (t : FreqTable) (k : Nat) : List Byte :=
  ((List.range k).map (BitVec.ofNat 8)).filter fun x => tableGet t x != 0

theorem presentBelow_all (t : FreqTable) : presentBelow t 256 = presentSymbols t := rfl

theorem presentBelow_succ (t : FreqTable) (k : Nat) :
    presentBelow t (k + 1) =
      presentBelow t k ++ if tableGet t (BitVec.ofNat 8 k) ≠ 0 then [BitVec.ofNat 8 k] else [] := by
  unfold presentBelow
  rw [List.range_succ, List.map_append, List.filter_append, List.map_singleton, List.filter_singleton]
  by_cases h : tableGet t (BitVec.ofNat 8 k) = 0 <;> simp [h]

theorem length_presentSymbols (t : FreqTable) : (presentSymbols t).length = symbolCount t := by
  rw [symbolCount_eq_countBelow, countBelow, presentSymbols, ← List.countP_eq_length_filter, List.countP_map]
  rfl

theorem mem_presentSymbols {t : FreqTable} {x : Byte} : x ∈ presentSymbols t ↔ tableGet t x ≠ 0 := by
  have hx : x ∈ (List.range 256).map (BitVec.ofNat 8) := List.mem_map.2 ⟨x.toNat, List.mem_range.2 x.isLt, by simp⟩
  simp [presentSymbols, List.mem_filter, hx]

theorem nodup_presentSymbols (t : FreqTable) : (presentSymbols t).Nodup := by
  refine ((List.nodup_map_iff_inj_on List.nodup_range).2 fun m hm n hn h => ?_).filter _
  have h' := congrArg BitVec.toNat h
  rw [List.mem_range] at hm hn
  rwa [BitVec.toNat_ofNat, BitVec.toNat_ofNat, Nat.mod_eq_of_lt hm, Nat.mod_eq_of_lt hn] at h'

/-- A table is known by its entries. -/
theorem freqTable_ext {t u : FreqTable} (h : ∀ x, tableGet t x = tableGet u x) : t = u := by
  apply Vector.ext
  intro i hi
  simpa [tableGet, Nat.mod_eq_of_lt hi] using h (BitVec.ofNat 8 i)

/-! ### Records (R173) -/

/-- The bytes of a record: its symbol, then its frequency. -/
abbrev recordBytes (r : Byte × Word) : List Byte := r.1 :: beBytes r.2

/-- The records of a well-formed section: no symbol twice, no frequency 0 (R173). -/
structure GoodRecords (records : List (Byte × Word)) : Prop where
  nodup : (records.map Prod.fst).Nodup
  nonzero : ∀ r ∈ records, r.2 ≠ 0

/-- The table with each record's frequency put in. -/
def loadRecords (t : FreqTable) (records : List (Byte × Word)) : FreqTable :=
  records.foldl (fun u r => tableSet u r.1 r.2) t

theorem loadRecords_cons (t : FreqTable) (r : Byte × Word) (rs : List (Byte × Word)) :
    loadRecords t (r :: rs) = loadRecords (tableSet t r.1 r.2) rs := rfl

theorem length_records (records : List (Byte × Word)) :
    (records.flatMap recordBytes).length = 5 * records.length := by
  induction records with
  | nil => rfl
  | cons r rs ih => rw [List.flatMap_cons, List.length_append, ih]; simp; omega

theorem GoodRecords.tail {r : Byte × Word} {rs : List (Byte × Word)} (h : GoodRecords (r :: rs)) : GoodRecords rs :=
  ⟨(List.nodup_cons.1 h.nodup).2, fun q hq => h.nonzero q (List.mem_cons_of_mem _ hq)⟩

theorem GoodRecords.head_notMem {r : Byte × Word} {rs : List (Byte × Word)} (h : GoodRecords (r :: rs)) :
    r.1 ∉ rs.map Prod.fst := (List.nodup_cons.1 h.nodup).1

/-- A table without the symbols of some records has none of the later ones once it holds the first. -/
theorem GoodRecords.new_tail {t : FreqTable} {r : Byte × Word} {rs : List (Byte × Word)} (h : GoodRecords (r :: rs))
    (hnew : ∀ x ∈ (r :: rs).map Prod.fst, tableGet t x = 0) :
    ∀ x ∈ rs.map Prod.fst, tableGet (tableSet t r.1 r.2) x = 0 := by
  intro x hx
  have hne : x ≠ r.1 := fun he => h.head_notMem (he ▸ hx)
  rw [tableGet_tableSet, if_neg hne]
  exact hnew x (List.mem_cons_of_mem _ hx)

theorem loadRecords_notMem {x : Byte} {records : List (Byte × Word)} : ∀ {t : FreqTable}, x ∉ records.map Prod.fst →
    tableGet (loadRecords t records) x = tableGet t x := by
  induction records with
  | nil => exact fun _ => rfl
  | cons r rs ih =>
    intro t hx
    obtain ⟨hne, hrs⟩ := not_or.1 (mt List.mem_cons.2 hx)
    rw [loadRecords_cons, ih hrs, tableGet_tableSet, if_neg hne]

theorem loadRecords_mem {r : Byte × Word} {records : List (Byte × Word)} : ∀ {t : FreqTable}, GoodRecords records →
    r ∈ records → tableGet (loadRecords t records) r.1 = r.2 := by
  induction records with
  | nil => exact fun _ hr => nomatch hr
  | cons q qs ih =>
    intro t hg hr
    rcases List.mem_cons.1 hr with rfl | hr
    · rw [loadRecords_cons, loadRecords_notMem hg.head_notMem, tableGet_tableSet, if_pos rfl]
    · exact ih hg.tail hr

/-- Each new record is one more symbol with a count. -/
theorem symbolCount_loadRecords {records : List (Byte × Word)} : ∀ {t : FreqTable}, GoodRecords records →
    (∀ x ∈ records.map Prod.fst, tableGet t x = 0) →
    symbolCount (loadRecords t records) = symbolCount t + records.length := by
  induction records with
  | nil => exact fun _ _ => rfl
  | cons r rs ih =>
    intro t hg hnew
    rw [loadRecords_cons, ih hg.tail (hg.new_tail hnew), symbolCount_tableSet (hnew r.1 List.mem_cons_self)
      (hg.nonzero r List.mem_cons_self), List.length_cons]
    omega

@[simp] theorem tableGet_empty (x : Byte) : tableGet FreqTable.empty x = 0 := tableGet_replicate 0 x

theorem GoodRecords.symbolCount_eq {records : List (Byte × Word)} (h : GoodRecords records) :
    symbolCount (loadRecords FreqTable.empty records) = records.length := by
  rw [symbolCount_loadRecords h fun x _ => tableGet_empty x, symbolCount_empty, Nat.zero_add]

theorem GoodRecords.length_le {records : List (Byte × Word)} (h : GoodRecords records) : records.length ≤ 256 :=
  h.symbolCount_eq ▸ symbolCount_le _

/-- The records FSTORE writes for a table (R173). -/
def recordsOf (t : FreqTable) : List (Byte × Word) := (presentSymbols t).map fun x => (x, tableGet t x)

theorem length_recordsOf (t : FreqTable) : (recordsOf t).length = symbolCount t := by
  rw [recordsOf, List.length_map, length_presentSymbols]

theorem map_fst_recordsOf (t : FreqTable) : (recordsOf t).map Prod.fst = presentSymbols t := by
  simp [recordsOf, Function.comp_def]

theorem goodRecords_recordsOf (t : FreqTable) : GoodRecords (recordsOf t) where
  nodup := map_fst_recordsOf t ▸ nodup_presentSymbols t
  nonzero r hr := by
    obtain ⟨x, hx, rfl⟩ := List.mem_map.1 hr
    exact mem_presentSymbols.1 hx

theorem freqSection_eq (t : FreqTable) :
    freqSection t = beBytes (BitVec.ofNat 32 (recordsOf t).length) ++ (recordsOf t).flatMap recordBytes := by
  rw [length_recordsOf, recordsOf, List.flatMap_map]
  rfl

theorem length_freqSection (t : FreqTable) : (freqSection t).length = 4 + 5 * symbolCount t := by
  rw [freqSection_eq, List.length_append, length_records, length_recordsOf, length_beBytes]

/-- Loading the records of a table gives the table. -/
theorem loadRecords_recordsOf (t : FreqTable) : loadRecords FreqTable.empty (recordsOf t) = t := by
  refine freqTable_ext fun x => ?_
  by_cases hx : tableGet t x = 0
  · have hout : x ∉ (recordsOf t).map Prod.fst := by rw [map_fst_recordsOf, mem_presentSymbols]; exact not_not.2 hx
    rw [loadRecords_notMem hout, tableGet_empty, hx]
  · exact loadRecords_mem (r := (x, tableGet t x)) (goodRecords_recordsOf t)
      (List.mem_map.2 ⟨x, mem_presentSymbols.2 hx, rfl⟩)

/-! ### Reading the source buffer, unless an access fails -/

/-- The source buffer fits, lies on no device, and no duty of R115 was broken. -/
structure State.PlainSource (s : State) : Prop where
  fits : s.SrcFits
  device : s.srcOnDevice = false
  raced : s.raced = false

/-- The result is `r₀`, unless one of the first `n` source bytes cannot be read: then BUS. -/
def Result.OrBus {α : Type} (s : State) (n : Nat) (r r₀ : Result α) : Prop :=
  r = r₀ ∨ ¬ s.SrcReadable n ∧ ∃ e : Raise, e.code = .bus ∧ r = .raise e s.port

/-- The command ends as in `o₀`, unless one of the first `n` source bytes cannot be read: then with BUS. -/
def OutcomeOrBus (s : State) (n : Nat) (o o₀ : Host.Outcome State Fault Refusal) : Prop :=
  o = o₀ ∨ ¬ s.SrcReadable n ∧ ∃ e : Raise, e.code = .bus ∧ o = .next (s.raise e)

section
variable {α β : Type} {s : State} {n : Nat} {r : Result α}

theorem Result.OrBus.refl (r : Result α) : r.OrBus s n r := .inl rfl

theorem Result.OrBus.bind {a : α} {f : α → Port → Result β} {r₀ : Result β} (h : r.OrBus s n (.ok a s.port))
    (hf : (f a s.port).OrBus s n r₀) : (r.bind f).OrBus s n r₀ := by
  rcases h with rfl | ⟨hn, e, he, rfl⟩
  · exact hf
  · exact .inr ⟨hn, e, he, rfl⟩

theorem Result.OrBus.bind_raise {e : Raise} (h : r.OrBus s n (.raise e s.port)) (f : α → Port → Result β) :
    (r.bind f).OrBus s n (.raise e s.port) := by
  rcases h with rfl | ⟨hn, e', he, rfl⟩
  · exact .refl _
  · exact .inr ⟨hn, e', he, rfl⟩

theorem endBody_orBus {a : α} {go : α → Port → Host.Outcome State Fault Refusal}
    {o₀ : Host.Outcome State Fault Refusal} (h : r.OrBus s n (.ok a s.port))
    (hgo : OutcomeOrBus s n (go a s.port) o₀) : OutcomeOrBus s n (endBody s false r go) o₀ := by
  rcases h with rfl | ⟨hn, e, he, rfl⟩
  · exact hgo
  · exact .inr ⟨hn, e, he, rfl⟩

theorem endBody_orBus_raise {e : Raise} (h : r.OrBus s n (.raise e s.port))
    (go : α → Port → Host.Outcome State Fault Refusal) :
    OutcomeOrBus s n (endBody s false r go) (.next (s.raise e)) := by
  rcases h with rfl | ⟨hn, e', he, rfl⟩
  · exact .inl rfl
  · exact .inr ⟨hn, e', he, rfl⟩

theorem OutcomeOrBus.of_readable {o o₀ : Host.Outcome State Fault Refusal} (h : OutcomeOrBus s n o o₀)
    (hn : s.SrcReadable n) : o = o₀ := h.resolve_right fun h' => h'.1 hn

end

section
variable {s : State} {n i : Nat}

theorem memRead1_orBus (h : s.PlainSource) {b : Byte} {rest : List Byte} (hb : s.sourceBytes.drop i = b :: rest)
    (hi : i < n) : (memRead1 s (s.srcAt i) s.port).OrBus s n (.ok b s.port) := by
  have hlt : i < s.sourceBytes.length := by
    by_contra hge
    rw [List.drop_eq_nil_of_le (Nat.not_lt.1 hge)] at hb
    cases hb
  rw [List.drop_eq_getElem_cons hlt, getElem_sourceBytes s hlt] at hb
  obtain ⟨rfl, -⟩ := List.cons_eq_cons.1 hb
  have hfits : s.latch.srcAddr.toNat + s.latch.srcLen.toNat ≤ 2 ^ 32 := h.fits
  rw [length_sourceBytes] at hlt
  cases hf : s.platform.memFault (s.srcAt i) .read with
  | false =>
    rw [memRead1_ok hf h.raced, State.srcAt_toNat (by omega)]
    exact .refl _
  | true =>
    refine .inr ⟨fun hr => ?_, _, rfl, memRead1_fault hf⟩
    rw [s.srcAt_eq, hr i hi] at hf
    cases hf

theorem memReadN_orBus (h : s.PlainSource) {bs : List Byte} : ∀ {i : Nat} {rest : List Byte},
    s.sourceBytes.drop i = bs ++ rest → i + bs.length ≤ n →
    (memReadN s (s.srcAt i) bs.length s.port).OrBus s n (.ok bs s.port) := by
  induction bs with
  | nil => exact fun _ _ => .refl _
  | cons b bs ih =>
    intro i rest hb hi
    rw [List.length_cons] at hi
    have hnext : s.sourceBytes.drop (i + 1) = bs ++ rest := by rw [← List.tail_drop, hb]; rfl
    refine (memRead1_orBus h hb (by omega)).bind ?_
    rw [srcAt_succ]
    exact (ih hnext (by omega)).bind (.refl _)

theorem memReadBE32_orBus (h : s.PlainSource) {v : Word} {rest : List Byte}
    (hb : s.sourceBytes.drop i = beBytes v ++ rest) (hi : i + 4 ≤ n) :
    (memReadBE32 s (s.srcAt i) s.port).OrBus s n (.ok v s.port) := by
  refine (memReadN_orBus h hb hi).bind (.inl ?_)
  exact congrArg (Result.ok · s.port) (be32_beBytes v)

/-! ### FLOAD (R175) -/

theorem floadBegin_orBus (h : s.PlainSource) {v : Word} {rest : List Byte} (hb : s.sourceBytes = beBytes v ++ rest)
    (hn : 4 ≤ n) (hv : v.toNat ≤ 256) (hlen : 4 + 5 * v.toNat ≤ s.latch.srcLen.toNat) :
    (floadBegin s s.port).OrBus s n (.ok ⟨v.toNat, 0, FreqTable.empty⟩ s.port) := by
  refine (memReadBE32_orBus h (i := 0) hb hn).bind ?_
  rw [if_neg (Nat.not_lt.2 hv), if_neg (Nat.not_lt.2 hlen)]
  exact .refl _

theorem floadBegin_badCount (h : s.PlainSource) {v : Word} {rest : List Byte} (hb : s.sourceBytes = beBytes v ++ rest)
    (hn : 4 ≤ n) (hv : v.toNat > 256 ∨ s.latch.srcLen.toNat < 4 + 5 * v.toNat) :
    (floadBegin s s.port).OrBus s n (.raise ⟨.malformed, 0⟩ s.port) := by
  refine (memReadBE32_orBus h (i := 0) hb hn).bind ?_
  split
  · exact .refl _
  · next hle =>
    rw [if_pos (hv.resolve_left hle)]
    exact .refl _

/-- What FLOAD makes of the next record: MALFORMED, or the record in the table. -/
def loadRecord (w : FloadWork) (r : Byte × Word) (p : Port) : Result FloadWork :=
  if tableGet w.table r.1 ≠ 0 then .raise ⟨.malformed, BitVec.ofNat 32 (4 + 5 * w.i)⟩ p
  else if r.2 = 0 then .raise ⟨.malformed, BitVec.ofNat 32 (4 + 5 * w.i + 1)⟩ p
  else .ok ⟨w.n, w.i + 1, tableSet w.table r.1 r.2⟩ p

theorem floadBody_orBus (h : s.PlainSource) {w : FloadWork} {r : Byte × Word} {rest : List Byte}
    (hb : s.sourceBytes.drop (4 + 5 * w.i) = recordBytes r ++ rest) (hn : 4 + 5 * (w.i + 1) ≤ n) :
    (floadBody s s.port w).OrBus s n (loadRecord w r s.port) := by
  have hf : s.sourceBytes.drop (4 + 5 * w.i + 1) = beBytes r.2 ++ rest := by rw [← List.tail_drop, hb]; rfl
  exact (memRead1_orBus h hb (by omega)).bind ((memReadBE32_orBus h hf (by omega)).bind (.refl _))

/-- Good records whose symbols are new are all put into the table. -/
theorem iterate_floadBody (h : s.PlainSource) {records : List (Byte × Word)} : ∀ {w : FloadWork} {rest : List Byte},
    s.sourceBytes.drop (4 + 5 * w.i) = records.flatMap recordBytes ++ rest → GoodRecords records →
    (∀ x ∈ records.map Prod.fst, tableGet w.table x = 0) → 4 + 5 * (w.i + records.length) ≤ n →
    (iterate (floadBody s) records.length s.port w).OrBus s n
      (.ok ⟨w.n, w.i + records.length, loadRecords w.table records⟩ s.port) := by
  induction records with
  | nil => exact fun _ _ _ _ => .refl _
  | cons r rs ih =>
    intro w rest hb hg hnew hn
    rw [List.length_cons] at hn
    rw [List.flatMap_cons, List.append_assoc] at hb
    have hload : loadRecord w r s.port = .ok ⟨w.n, w.i + 1, tableSet w.table r.1 r.2⟩ s.port := by
      rw [loadRecord, if_neg (not_not.2 (hnew r.1 List.mem_cons_self)), if_neg (hg.nonzero r List.mem_cons_self)]
    have hnext : s.sourceBytes.drop (4 + 5 * (w.i + 1)) = rs.flatMap recordBytes ++ rest := by
      rw [show 4 + 5 * (w.i + 1) = 4 + 5 * w.i + 5 by omega, ← List.drop_drop, hb]
      rfl
    have hstep := hload ▸ floadBody_orBus (n := n) h hb (by omega)
    have hloop := ih (w := ⟨w.n, w.i + 1, tableSet w.table r.1 r.2⟩) hnext hg.tail (hg.new_tail hnew)
      (by simp only; omega)
    rw [show w.i + (r :: rs).length = w.i + 1 + rs.length by rw [List.length_cons]; omega]
    exact hstep.bind hloop

/-- The pre-checks of FLOAD pass. -/
theorem execFload_checked (h : s.PlainSource) (hlen : 4 ≤ s.latch.srcLen.toNat) :
    execFload s = endBody s false (floadBegin s s.port) fun w p => runFload (s.withPort p) w := by
  refine preChecked_go (fun c hc => ?_) h.device
  rcases List.mem_pair.1 hc with rfl | rfl
  · exact checkSrcRange_fits h.fits
  · exact raiseIf_decide.2 (Nat.not_lt.2 hlen)

theorem execFload_badCount (h : s.PlainSource) {v : Word} {rest : List Byte} (hb : s.sourceBytes = beBytes v ++ rest)
    (hv : v.toNat > 256 ∨ s.latch.srcLen.toNat < 4 + 5 * v.toNat) :
    OutcomeOrBus s 4 (execFload s) (.next (s.raise ⟨.malformed, 0⟩)) := by
  have hlen := congrArg List.length hb
  rw [length_sourceBytes, List.length_append, length_beBytes] at hlen
  rw [execFload_checked h (by omega)]
  exact endBody_orBus_raise (floadBegin_badCount h hb le_rfl hv) _

/-- FLOAD past the count: the loop over the records, from the empty table. -/
theorem execFload_loop (h : s.PlainSource) {m : Nat} {rest : List Byte}
    (hb : s.sourceBytes = beBytes (BitVec.ofNat 32 m) ++ rest) (hm : m ≤ 256) (hlen : 4 + 5 * m ≤ s.latch.srcLen.toNat)
    {o₀ : Host.Outcome State Fault Refusal}
    (hrun : OutcomeOrBus s (4 + 5 * m) (runFload s ⟨m, 0, FreqTable.empty⟩) o₀) :
    OutcomeOrBus s (4 + 5 * m) (execFload s) o₀ := by
  have hv : (BitVec.ofNat 32 m).toNat = m := by rw [BitVec.toNat_ofNat]; omega
  have hbegin := floadBegin_orBus (n := 4 + 5 * m) h hb (by omega) (hv.symm ▸ hm) (hv.symm ▸ hlen)
  rw [hv] at hbegin
  rw [execFload_checked h (by omega)]
  exact endBody_orBus hbegin hrun

theorem drop_count {v : Word} {bytes : List Byte} (hb : s.sourceBytes = beBytes v ++ bytes) :
    s.sourceBytes.drop 4 = bytes := by
  rw [hb]; rfl

/-- FLOAD of a well-formed section loads its records (R175). -/
theorem execFload_loads (h : s.PlainSource) {records : List (Byte × Word)} {rest : List Byte}
    (hb : s.sourceBytes = beBytes (BitVec.ofNat 32 records.length) ++ (records.flatMap recordBytes ++ rest))
    (hg : GoodRecords records) :
    OutcomeOrBus s (4 + 5 * records.length) (execFload s)
      (.next ((s.commitFreq (loadRecords FreqTable.empty records) records.length).complete
        ⟨BitVec.ofNat 32 (4 + 5 * records.length), 0, 0⟩)) := by
  have hlen := congrArg List.length hb
  rw [length_sourceBytes, List.length_append, List.length_append, length_beBytes, length_records] at hlen
  refine execFload_loop h hb hg.length_le (by omega) (endBody_orBus (a := ⟨records.length, records.length, _⟩) ?_
    (.inl rfl))
  have hloop := iterate_floadBody (n := 4 + 5 * records.length) (w := ⟨records.length, 0, FreqTable.empty⟩) h
    (drop_count hb) hg (fun x _ => tableGet_empty x) (by simp only; omega)
  rwa [Nat.zero_add] at hloop

/-- FLOAD of a section whose record after some good ones is refused (R175). -/
theorem execFload_badRecord (h : s.PlainSource) {m : Nat} {good : List (Byte × Word)} {r : Byte × Word}
    {rest : List Byte} {e : Raise} (hm : m ≤ 256) (hlen : 4 + 5 * m ≤ s.latch.srcLen.toNat) (hgm : good.length < m)
    (hb : s.sourceBytes = beBytes (BitVec.ofNat 32 m) ++ (good.flatMap recordBytes ++ (recordBytes r ++ rest)))
    (hg : GoodRecords good)
    (hr : loadRecord ⟨m, good.length, loadRecords FreqTable.empty good⟩ r s.port = .raise e s.port) :
    OutcomeOrBus s (4 + 5 * m) (execFload s) (.next (s.raise e)) := by
  refine execFload_loop h hb hm hlen (endBody_orBus_raise ?_ _)
  obtain ⟨k, rfl⟩ : ∃ k, m = good.length + (k + 1) := ⟨m - good.length - 1, by omega⟩
  have hdrop := drop_count hb
  have hgood := iterate_floadBody (n := 4 + 5 * (good.length + (k + 1)))
    (w := ⟨good.length + (k + 1), 0, FreqTable.empty⟩) h hdrop hg (fun x _ => tableGet_empty x) (by simp only; omega)
  rw [Nat.zero_add] at hgood
  have hnext : s.sourceBytes.drop (4 + 5 * good.length) = recordBytes r ++ rest := by
    rw [← List.drop_drop, hdrop, ← length_records, List.drop_left]
  have hbad := hr ▸ floadBody_orBus (n := 4 + 5 * (good.length + (k + 1)))
    (w := ⟨good.length + (k + 1), good.length, loadRecords FreqTable.empty good⟩) h hnext (by simp only; omega)
  rw [floadLeft, Nat.sub_zero, iterate_add]
  exact hgood.bind (hbad.bind_raise _)

end

/-! ### Writing the destination buffer -/

theorem bytesAt_succ (m : Memory) (a n : Nat) : bytesAt m a (n + 1) = bytesAt m a n ++ [m.read (a + n)] := by
  rw [bytesAt, List.range_succ, List.map_append]
  rfl

/-- A write past the end of a range of bytes leaves them. -/
theorem bytesAt_write (m : Memory) (a n : Nat) (v : Byte) : bytesAt (m.write (a + n) v) a n = bytesAt m a n := by
  refine List.map_congr_left fun i hi => m.read_write_other v ?_
  have := List.mem_range.1 hi
  omega

theorem dstAt_succ (s : State) (i : Nat) : s.dstAt i + 1 = s.dstAt (i + 1) := by
  rw [State.dstAt, State.dstAt, BitVec.ofNat_add, BitVec.add_assoc]
  rfl

/-- The bytes at the first `i` destination offsets of `p` stand in `q` too, with `vs` after them, and no byte past the
first `n` of the destination differs. -/
structure Stores (s : State) (n i : Nat) (vs : List Byte) (p q : Port) : Prop where
  bytes : bytesAt q.mem s.latch.dstAddr.toNat (i + vs.length) = bytesAt p.mem s.latch.dstAddr.toNat i ++ vs
  within : Port.Within s.latch.dstAddr.toNat (s.latch.dstAddr.toNat + n) p q

/-- A write of one of the first `n` destination bytes fails. -/
def WriteFails (s : State) (n : Nat) (e : Raise) : Prop := e.code = .bus ∧ ¬ s.DstWritable n

theorem Stores.nil (s : State) (n i : Nat) (p : Port) : Stores s n i [] p p := ⟨(List.append_nil _).symm, .refl ..⟩

theorem Stores.trans {s : State} {n i : Nat} {vs ws : List Byte} {p q r : Port} (h : Stores s n i vs p q)
    (h' : Stores s n (i + vs.length) ws q r) : Stores s n i (vs ++ ws) p r where
  bytes := by rw [List.length_append, ← Nat.add_assoc, h'.bytes, h.bytes, List.append_assoc]
  within := h.within.trans h'.within

/-- A destination written from its first byte on starts with what was written. -/
theorem Stores.bytes_eq {s : State} {n : Nat} {vs : List Byte} {p q : Port} (h : Stores s n 0 vs p q) :
    bytesAt q.mem s.latch.dstAddr.toNat vs.length = vs := by
  have hb := h.bytes
  rwa [Nat.zero_add] at hb

section
variable {s : State} {n i : Nat} {p : Port}

theorem memWrite1_stores (v : Byte) (hi : i < n) (hn : s.latch.dstAddr.toNat + n ≤ 2 ^ 32) :
    (memWrite1 s (s.dstAt i) v p).All (fun _ q => Stores s n i [v] p q) (fun e _ => WriteFails s n e) := by
  have ha : (s.dstAt i).toNat = s.latch.dstAddr.toNat + i := State.dstAt_toNat (by omega)
  cases hf : s.platform.memFault (s.dstAt i) .write with
  | true =>
    rw [memWrite1_fault hf]
    refine ⟨rfl, fun hw => ?_⟩
    rw [s.dstAt_eq, hw i hi] at hf
    cases hf
  | false =>
    have hw := memWrite1_within (s := s) (a := s.dstAt i) (v := v) (p := p) (lo := s.latch.dstAddr.toNat)
      (hi := s.latch.dstAddr.toNat + n) (by omega) (by omega)
    rw [memWrite1_ok hf, ha] at hw ⊢
    refine ⟨?_, hw⟩
    rw [List.length_singleton, bytesAt_succ, bytesAt_write, Memory.read_write_same]

theorem memWriteN_stores (hn : s.latch.dstAddr.toNat + n ≤ 2 ^ 32) (vs : List Byte) : ∀ {i : Nat} {p : Port},
    i + vs.length ≤ n →
    (memWriteN s (s.dstAt i) vs p).All (fun _ q => Stores s n i vs p q) (fun e _ => WriteFails s n e) := by
  induction vs with
  | nil => exact fun _ => .nil ..
  | cons v vs ih =>
    intro i p hi
    rw [List.length_cons] at hi
    refine (memWrite1_stores v (by omega) hn).bind fun _ q hq => ?_
    rw [dstAt_succ]
    exact (ih (by omega)).mono (fun _ r hr => hq.trans hr) fun _ _ he => he

end

/-! ### FSTORE (R177) -/

/-- FSTORE before symbol `k`: the count and the records of the symbols below `k` are written. -/
structure StoredTo (s : State) (k : Nat) (w : FstoreWork) (p : Port) : Prop where
  sym : w.s = k
  count : w.k = (presentBelow s.freq k).length
  stores : Stores s (4 + 5 * symbolCount s.freq) 0
    (beBytes (BitVec.ofNat 32 (symbolCount s.freq)) ++ (presentBelow s.freq k).flatMap (freqRecord s.freq)) s.port p

theorem length_presentBelow_le (t : FreqTable) {k : Nat} (hk : k ≤ 256) :
    (presentBelow t k).length ≤ symbolCount t := by
  rw [← length_presentSymbols, ← presentBelow_all]
  exact (((List.range_sublist.2 hk).map _).filter _).length_le

theorem length_freqRecords (t : FreqTable) (xs : List Byte) : (xs.flatMap (freqRecord t)).length = 5 * xs.length := by
  rw [← List.length_map (as := xs) fun x => (x, tableGet t x), ← length_records, List.flatMap_map]
  rfl

section
variable {s : State}

theorem fstoreBegin_stores (hn : s.nsym.toNat = symbolCount s.freq)
    (hfits : s.latch.dstAddr.toNat + (4 + 5 * symbolCount s.freq) ≤ 2 ^ 32) :
    (fstoreBegin s s.port).All (StoredTo s 0) (fun e _ => WriteFails s (4 + 5 * symbolCount s.freq) e) := by
  have hcount : beBytes (s.nsym.setWidth 32) = beBytes (BitVec.ofNat 32 (symbolCount s.freq)) := by
    rw [← hn, BitVec.ofNat_toNat]
  rw [fstoreBegin, hcount]
  refine (memWriteN_stores hfits _ (by rw [length_beBytes]; omega)).bind fun _ q hq => ⟨rfl, rfl, ?_⟩
  exact hq.trans (.nil ..)

theorem fstoreBody_stores (hfits : s.latch.dstAddr.toNat + (4 + 5 * symbolCount s.freq) ≤ 2 ^ 32) {k : Nat}
    {w : FstoreWork} {p : Port} (hk : k < 256) (h : StoredTo s k w p) :
    (fstoreBody s p w).All (StoredTo s (k + 1)) (fun e _ => WriteFails s (4 + 5 * symbolCount s.freq) e) := by
  obtain ⟨rfl, hcount, hstores⟩ := h
  have hnext := presentBelow_succ s.freq w.s
  have hle := length_presentBelow_le s.freq (k := w.s + 1) hk
  rw [fstoreBody]
  split
  · next hf =>
    rw [if_pos hf] at hnext
    rw [hnext, List.length_append, ← hcount, List.length_singleton] at hle
    refine (memWriteN_stores hfits _ (by rw [List.length_singleton]; omega)).bind fun _ q hq => ?_
    refine (memWriteN_stores hfits _ (by rw [length_beBytes]; omega)).bind fun _ r hr => ⟨rfl, ?_, ?_⟩
    · rw [hnext, List.length_append, ← hcount]; rfl
    · have hoff : 4 + 5 * w.k = 0 + (beBytes (BitVec.ofNat 32 (symbolCount s.freq)) ++
          (presentBelow s.freq w.s).flatMap (freqRecord s.freq)).length := by
        rw [List.length_append, length_beBytes, length_freqRecords, ← hcount, Nat.zero_add]
      have hrec := hq.trans hr
      rw [hoff] at hrec
      rw [hnext, List.flatMap_append, ← List.append_assoc, List.flatMap_singleton]
      exact hstores.trans hrec
  · next hf =>
    rw [if_neg hf, List.append_nil] at hnext
    exact ⟨rfl, hnext ▸ hcount, hnext ▸ hstores⟩

/-- The command completes with the section of the table written, or ends with BUS as a write of the section fails. -/
def FstoreEnd (s : State) (o : Host.Outcome State Fault Refusal) : Prop :=
  ∃ t, o = .next t ∧ ((t.err = .bus ∧ ¬ s.DstWritable (4 + 5 * symbolCount s.freq)) ∨
    ∃ p, Stores s (4 + 5 * symbolCount s.freq) 0 (freqSection s.freq) s.port p ∧
      t = (s.withPort p).complete ⟨BitVec.ofNat 32 (freqSection s.freq).length, 0, 0⟩)

theorem endBody_fstoreEnd {α : Type} {u : State} {r : Result α} {P : α → Port → Prop}
    {go : α → Port → Host.Outcome State Fault Refusal}
    (hr : r.All P (fun e _ => WriteFails s (4 + 5 * symbolCount s.freq) e))
    (hgo : ∀ a p, P a p → FstoreEnd s (go a p)) : FstoreEnd s (endBody u true r go) := by
  cases r with
  | ok a p => exact hgo a p hr
  | raise e p => exact ⟨_, rfl, .inl ⟨(State.fail_err ..).trans hr.1, hr.2⟩⟩

theorem fstoreFinish_end {u : State} {w : FstoreWork} {p q : Port} (hn : s.nsym.toNat = symbolCount s.freq)
    (hraced : s.raced = false) (h : StoredTo s 256 w q) (hu : u = s.withPort p) : FstoreEnd s (fstoreFinish u w q) := by
  subst hu
  refine ⟨_, rfl, .inr ⟨q, h.stores, ?_⟩⟩
  rw [State.settleDst, if_neg (by simp [hraced]), length_freqSection, State.sectionLength, State.withPort_nsym, hn]
  rfl

/-- FSTORE with its pre-checks passed. -/
theorem execFstore_end (hn : s.nsym.toNat = symbolCount s.freq) (hraced : s.raced = false) (hd : s.DstFits)
    (hdev : s.dstOnDevice = false) (hcap : 4 + 5 * symbolCount s.freq ≤ s.latch.dstCap.toNat) :
    FstoreEnd s (execFstore s) := by
  have hd' : s.latch.dstAddr.toNat + s.latch.dstCap.toNat ≤ 2 ^ 32 := hd
  have hfits : s.latch.dstAddr.toNat + (4 + 5 * symbolCount s.freq) ≤ 2 ^ 32 := by omega
  have hchecks : ∀ c ∈ fstoreChecks s, c = none := fun c hc => by
    rcases List.mem_pair.1 hc with rfl | rfl
    · exact checkDstRange_fits hd
    · exact raiseIf_decide.2 (Nat.not_lt.2 (by rw [State.sectionLength, hn]; exact hcap))
  rw [execFstore, preChecked_go hchecks hdev]
  refine endBody_fstoreEnd (fstoreBegin_stores hn hfits) fun w p hw => ?_
  have hloop := iterate_counts (body := fstoreBody s) (StoredTo s) (m := 256)
    (fun k a p hk ha => fstoreBody_stores hfits hk ha) (fstoreLeft w) 0 w p
    (by have := hw.sym; unfold fstoreLeft; omega) hw
  exact endBody_fstoreEnd hloop fun w' q hq => fstoreFinish_end hn hraced hq rfl

end

/-! ### Ends of a command -/

theorem State.complete_completedOk (s : State) (r : Results) : CompletedOk (s.complete r) r.len r.pad r.bits := by
  constructor <;> rfl

theorem commitFreq_noTreeNoCodes (s : State) (t : FreqTable) (n : Nat) (r : Results) :
    NoTreeNoCodes ((s.commitFreq t n).complete r) := by
  constructor <;> rfl

theorem State.isEmpty_iff (s : State) : s.isEmpty = true ↔ s.nsym.toNat = 0 := by
  rw [State.isEmpty, beq_iff_eq, ← BitVec.toNat_inj]
  rfl

/-- What an end with `raise` after reads alone leaves (R285, R286). -/
theorem ends_raised {s : State} {p : Port} {e : Raise} {o : Host.Outcome State Fault Refusal}
    (hp : Port.ReadFrom s.port p) (h : o = .next ((s.withPort p).raise e)) (he : e.code ≠ .none) :
    ∃ t, o = .next t ∧ CompletedErr t e.code e.info ∧ SameTables s t ∧ SameHost s t ∧ t.mem = s.mem :=
  ⟨_, h, (s.withPort p).raise_completedErr he, by constructor <;> rfl, by constructor <;> rfl, hp.1⟩

/-! ### The round trip (R176) -/

/-- FSTORE without an error has written the section of the table. -/
theorem execFstore_section {s t : State} (hn : s.nsym.toNat = symbolCount s.freq) (hraced : s.raced = false)
    (h : execFstore s = .next t) (he : t.err = .none) :
    t.resLen.toNat = (freqSection s.freq).length ∧
      bytesAt t.mem s.latch.dstAddr.toNat (freqSection s.freq).length = freqSection s.freq := by
  obtain ⟨hchecks, hdev⟩ := preChecked_passed h fun e hc => by
    rcases List.mem_pair.1 hc with hc | hc <;> obtain ⟨-, rfl⟩ := raiseIf_eq_some hc.symm <;> simp [he]
  have hd : s.DstFits := Nat.not_lt.1 (raiseIf_decide.1 (hchecks _ List.mem_cons_self))
  have hcap := Nat.not_lt.1 (raiseIf_decide.1 (hchecks _ (List.mem_cons_of_mem _ List.mem_cons_self)))
  rw [State.sectionLength, hn] at hcap
  obtain ⟨t', ht', hend⟩ := execFstore_end hn hraced hd hdev hcap
  cases ht'.symm.trans h
  rcases hend with ⟨hbus, -⟩ | ⟨p, hp, rfl⟩
  · cases he.symm.trans hbus
  · refine ⟨?_, hp.bytes_eq⟩
    have hle := symbolCount_le s.freq
    rw [State.complete_resLen, length_freqSection, BitVec.toNat_ofNat]
    omega

theorem execTbuild_tree {s t : State} (h : execTbuild s = .next t) :
    t.nodes = treeOf s.freq ∧ t.nnode = BitVec.ofNat 10 (treeSize s.freq) := by
  cases h
  exact ⟨rfl, rfl⟩

/-- FLOAD of what begins with the section of a table ends with that table, unless with BUS or RANGE. -/
theorem execFload_section {s t : State} {f : FreqTable} (hraced : s.raced = false)
    (hb : s.sourceBytes.take (freqSection f).length = freqSection f) (h : execFload s = .next t) (hbus : t.err ≠ .bus)
    (hrange : t.err ≠ .range) :
    t.err = .none ∧ t.freq = f ∧ t.nsym = BitVec.ofNat 9 (symbolCount f) := by
  have hsource : s.sourceBytes = beBytes (BitVec.ofNat 32 (recordsOf f).length) ++ ((recordsOf f).flatMap recordBytes ++
      s.sourceBytes.drop (freqSection f).length) := by
    rw [← List.append_assoc, ← freqSection_eq]
    conv_lhs => rw [← List.take_append_drop (freqSection f).length s.sourceBytes, hb]
  have hlen : 4 ≤ s.latch.srcLen.toNat := by
    rw [← length_sourceBytes, hsource, List.length_append, length_beBytes]
    omega
  obtain ⟨hchecks, hdev⟩ := preChecked_passed h fun e hc => by
    rcases List.mem_pair.1 hc with hc | hc <;> obtain ⟨hbad, rfl⟩ := raiseIf_eq_some hc.symm
    · exact hrange
    · exact absurd hlen (Nat.not_le.2 (of_decide_eq_true hbad))
  have hfits : s.SrcFits := Nat.not_lt.1 (raiseIf_decide.1 (hchecks _ List.mem_cons_self))
  rcases execFload_loads ⟨hfits, hdev, hraced⟩ hsource (goodRecords_recordsOf f) with hend | ⟨-, e, he, hend⟩
  · cases hend.symm.trans h
    exact ⟨rfl, loadRecords_recordsOf f, congrArg (BitVec.ofNat 9) (length_recordsOf f)⟩
  · cases hend.symm.trans h
    exact absurd he hbus

end Sys2Proof.Machine

open Sys2Proof Sys2Proof.Machine

/-- Settles O26: what FSTORE wrote is the section of the table, and FLOAD of that section loads the table's records. -/
theorem floadAfterFstoreGivesTheTableBack : Obligations.FloadAfterFstoreGivesTheTableBack := by
  unfold Obligations.FloadAfterFstoreGivesTheTableBack
  intro s t u v hn hraced huraced hstore hterr _ htake hload hbus hrange
  obtain ⟨hlen, hbytes⟩ := execFstore_section hn hraced hstore hterr
  rw [hlen, hbytes] at htake
  obtain ⟨herr, hfreq, hnsym⟩ := execFload_section huraced htake hload hbus hrange
  refine ⟨herr, hfreq, ?_, fun w x hw hx => ?_⟩
  · rw [hnsym, ← hn, BitVec.ofNat_toNat, BitVec.setWidth_eq]
  · obtain ⟨hwnodes, hwnnode⟩ := execTbuild_tree hw
    obtain ⟨hxnodes, hxnnode⟩ := execTbuild_tree hx
    rw [hwnodes, hwnnode, hxnodes, hxnnode, hfreq]
    exact ⟨rfl, rfl⟩

/-- Settles O25: no write of the section fails, so the end is the completion. -/
theorem fstoreWritesTheSection : Obligations.FstoreWritesTheSection := by
  unfold Obligations.FstoreWritesTheSection
  intro s hn hd hdev hraced hcap hwrite
  have hlen := length_freqSection s.freq
  obtain ⟨t, ht, hend⟩ := execFstore_end hn hraced hd hdev (hlen ▸ hcap)
  obtain ⟨p, hp, rfl⟩ := hend.resolve_left fun h => h.2 (hlen ▸ hwrite)
  exact ⟨hlen, _, ht, State.complete_completedOk .., hp.bytes_eq, hlen ▸ hp.within.read, by constructor <;> rfl,
    (exec_endState (i := .fstore) ht).host⟩

/-- Settles O22: FLOAD puts each record into the empty table. -/
theorem floadLoadsTheSection : Obligations.FloadLoadsTheSection := by
  unfold Obligations.FloadLoadsTheSection
  intro s records rest hfits hdev hraced hread hb hnodup hnonzero
  have hg : GoodRecords records := ⟨hnodup, hnonzero⟩
  rw [List.append_assoc] at hb
  have hn : (BitVec.ofNat 9 records.length).toNat = records.length := by
    have := hg.length_le
    rw [BitVec.toNat_ofNat]; omega
  have hend := (execFload_loads ⟨hfits, hdev, hraced⟩ hb hg).of_readable hread
  refine ⟨_, hend, State.complete_completedOk ..,
    fun r hr => loadRecords_mem hg hr, fun x hx => (loadRecords_notMem hx).trans (tableGet_empty x), hn, ?_,
    commitFreq_noTreeNoCodes .., (exec_endState (i := .fload) hend).host, rfl⟩
  rw [State.isEmpty_iff, State.complete_nsym, State.commitFreq_nsym, hn, List.length_eq_zero_iff]

/-- Settles O23: the count is read, and nothing after it. -/
theorem floadRefusesABadCount : Obligations.FloadRefusesABadCount := by
  unfold Obligations.FloadRefusesABadCount
  intro s n rest hfits hdev hraced hread hb hn
  exact ends_raised (.refl s.port) ((execFload_badCount ⟨hfits, hdev, hraced⟩ hb hn).of_readable hread) nofun

/-- Settles O24: after the good records the table holds exactly their symbols. -/
theorem floadRefusesTheFirstBadRecord : Obligations.FloadRefusesTheFirstBadRecord := by
  unfold Obligations.FloadRefusesTheFirstBadRecord
  intro s n good x f rest hfits hdev hraced hn hlen hgn hread hb hnodup hnonzero
  have hg : GoodRecords good := ⟨hnodup, hnonzero⟩
  rw [List.append_assoc, List.append_assoc] at hb
  have hbad {e : Raise} := execFload_badRecord (r := (x, f)) (e := e) ⟨hfits, hdev, hraced⟩ hn hlen hgn hb hg
  refine ⟨fun hx => ?_, fun hx hf => ?_⟩
  · obtain ⟨r, hr, rfl⟩ := List.mem_map.1 hx
    have hget := (loadRecords_mem (t := FreqTable.empty) hg hr).trans_ne (hnonzero r hr)
    exact ends_raised (.refl s.port) ((hbad (if_pos hget)).of_readable hread) nofun
  · have hget := (loadRecords_notMem hx).trans (tableGet_empty x)
    exact ends_raised (.refl s.port) ((hbad ((if_neg (not_not.2 hget)).trans (if_pos hf))).of_readable hread) nofun

end

section
/-! PROOFS. FCOUNT (R171, R172): the counts of the bytes read so far, and the first read that fails. -/

namespace Sys2Proof.Machine

/-- FCOUNT before source byte `k`: every read so far went well, and the bytes read are counted. -/
structure CountedTo (s : State) (k : Nat) (w : FcountWork) (p : Port) : Prop where
  index : w.i = k
  readable : s.SrcReadable k
  counts : s.raced = false → ∀ x, tableGet w.table x = BitVec.ofNat 32 ((s.sourceBytes.take k).count x)
  port : Port.ReadFrom s.port p

/-- The raise of the first source byte that cannot be read (R105). -/
def StopsAtFailingRead (s : State) (e : Raise) (p : Port) : Prop :=
  Port.ReadFrom s.port p ∧ ∃ k < s.latch.srcLen.toNat, s.SrcReadable k ∧
    s.platform.memFault (BitVec.ofNat 32 (s.latch.srcAddr.toNat + k)) .read = true ∧
    e = ⟨.bus, BitVec.ofNat 32 (s.latch.srcAddr.toNat + k)⟩

theorem State.SrcReadable.succ {s : State} {k : Nat} (h : s.SrcReadable k)
    (hk : s.platform.memFault (BitVec.ofNat 32 (s.latch.srcAddr.toNat + k)) .read = false) : s.SrcReadable (k + 1) := by
  intro i hi
  rcases Nat.lt_succ_iff_lt_or_eq.1 hi with hi | rfl
  · exact h i hi
  · exact hk

section
variable {s : State}

/-- After another agent broke a duty of R115 a read that does not fail gives any value. -/
theorem memRead1_raced {a : Word} {p : Port} (hf : s.platform.memFault a .read = false) (hr : s.raced = true) :
    memRead1 s a p = .ok (Config.freeByte p.draws a.toNat) { p with draws := p.draws + 1 } := by
  simp [memRead1, hf, hr]

/-- One more byte counted. -/
theorem count_take_succ {k : Nat} (hk : k < s.latch.srcLen.toNat) (x : Byte) :
    (s.sourceBytes.take (k + 1)).count x = (s.sourceBytes.take k).count x + if x = s.srcByte k then 1 else 0 := by
  rw [← length_sourceBytes] at hk
  rw [← List.take_concat_get' _ _ hk, List.count_append, getElem_sourceBytes s hk, List.count_singleton']
  simp only [eq_comm]

theorem fcountBody_counts (hfits : s.SrcFits) {k : Nat} {w : FcountWork} {p : Port} (hk : k < s.latch.srcLen.toNat)
    (h : CountedTo s k w p) : (fcountBody s p w).All (CountedTo s (k + 1)) (StopsAtFailingRead s) := by
  obtain ⟨rfl, hread, hcounts, hp⟩ := h
  have hfits' : s.latch.srcAddr.toNat + s.latch.srcLen.toNat ≤ 2 ^ 32 := hfits
  have haddr := s.srcAt_eq w.i
  rw [fcountBody]
  cases hf : s.platform.memFault (s.srcAt w.i) .read with
  | true =>
    rw [memRead1_fault hf, haddr]
    exact ⟨hp, w.i, hk, hread, haddr ▸ hf, rfl⟩
  | false =>
    have hread' := hread.succ (haddr ▸ hf)
    cases hr : s.raced with
    | true =>
      rw [memRead1_raced hf hr, Result.bind_ok]
      exact ⟨rfl, hread', fun hr' => (Bool.false_ne_true (hr'.symm.trans hr)).elim, hp.trans ⟨rfl, Nat.le_succ _⟩⟩
    | false =>
      rw [memRead1_ok hf hr, hp.1, State.srcAt_toNat (by omega), Result.bind_ok]
      refine ⟨rfl, hread', fun _ x => ?_, hp⟩
      rw [tableGet_tableSet, count_take_succ hk, State.port_mem, ← State.srcByte]
      split
      · next hx => rw [hcounts hr, ← hx, BitVec.ofNat_add]; rfl
      · exact hcounts hr x

/-- FCOUNT, its pre-checks passed, counts every byte and commits, or stops at the first read that fails. -/
theorem execFcount_counts (hfits : s.SrcFits) (hdev : s.srcOnDevice = false) :
    ∃ p, (∃ e, StopsAtFailingRead s e p ∧ execFcount s = .next ((s.withPort p).raise e)) ∨
      ∃ w, CountedTo s s.latch.srcLen.toNat w p ∧ execFcount s = fcountFinish s w p := by
  have hchecks : ∀ c ∈ fcountChecks s, c = none := fun c hc => by
    rw [List.mem_singleton.1 hc]
    exact checkSrcRange_fits hfits
  have hloop := iterate_counts (body := fcountBody s) (CountedTo s) (m := s.latch.srcLen.toNat)
    (fun k w p hk hw => fcountBody_counts hfits hk hw) (fcountLeft s fcountInit) 0 fcountInit s.port
    (by simp [fcountLeft, fcountInit])
    ⟨rfl, fun i hi => absurd hi (Nat.not_lt_zero i), fun _ x => tableGet_empty x, .refl _⟩
  rw [execFcount, preChecked_go hchecks hdev, runFcount, runLoop]
  cases hres : iterate (fcountBody s) (fcountLeft s fcountInit) s.port fcountInit with
  | ok w p =>
    rw [hres] at hloop
    exact ⟨p, .inr ⟨w, hloop, rfl⟩⟩
  | raise e p =>
    rw [hres] at hloop
    exact ⟨p, .inl ⟨e, hloop, rfl⟩⟩

theorem CountedTo.all {w : FcountWork} {p : Port} (h : CountedTo s s.latch.srcLen.toNat w p) (hr : s.raced = false)
    (x : Byte) : tableGet w.table x = BitVec.ofNat 32 (s.sourceBytes.count x) := by
  rw [h.counts hr, ← length_sourceBytes, List.take_length]

theorem toNat_count (s : State) (x : Byte) :
    (BitVec.ofNat 32 (s.sourceBytes.count x)).toNat = s.sourceBytes.count x := by
  have hle := s.sourceBytes.count_le_length (a := x)
  have hlt := s.latch.srcLen.isLt
  rw [length_sourceBytes] at hle
  rw [BitVec.toNat_ofNat]
  omega

/-- The symbols with a count are those that occur. -/
theorem CountedTo.symbolCount_eq {w : FcountWork} {p : Port} (h : CountedTo s s.latch.srcLen.toNat w p)
    (hr : s.raced = false) : symbolCount w.table = s.sourceBytes.dedup.length := by
  rw [← length_presentSymbols]
  refine ((List.perm_ext_iff_of_nodup (nodup_presentSymbols _) (List.nodup_dedup _)).2 fun x => ?_).length_eq
  have hx : tableGet w.table x = 0 ↔ s.sourceBytes.count x = 0 := by
    rw [h.all hr, ← BitVec.toNat_inj, toNat_count]
    rfl
  rw [mem_presentSymbols, List.mem_dedup, ← List.count_pos_iff, Nat.pos_iff_ne_zero, ne_eq, hx]

/-- FCOUNT without an error has counted every byte of the source. -/
theorem execFcount_completes {t : State} (h : execFcount s = .next t) (he : t.err = .none) :
    ∃ w p, CountedTo s s.latch.srcLen.toNat w p ∧ fcountFinish s w p = .next t := by
  obtain ⟨hchecks, hdev⟩ := preChecked_passed h fun e hc => by
    obtain ⟨-, rfl⟩ := raiseIf_eq_some (List.mem_singleton.1 hc).symm
    simp [he]
  have hfits : s.SrcFits := Nat.not_lt.1 (raiseIf_decide.1 (hchecks _ List.mem_cons_self))
  obtain ⟨p, ⟨e, ⟨-, k, -, -, -, rfl⟩, hend⟩ | ⟨w, hw, hend⟩⟩ := execFcount_counts hfits hdev
  · cases hend.symm.trans h
    cases he
  · exact ⟨w, p, hw, hend.symm.trans h⟩

end
end Sys2Proof.Machine

open Sys2Proof Sys2Proof.Machine

/-- Settles O19: no read fails, so the loop counts every source byte. -/
theorem fcountCountsTheSource : Obligations.FcountCountsTheSource := by
  unfold Obligations.FcountCountsTheSource
  intro s hfits hdev hraced hread
  obtain ⟨p, ⟨e, ⟨-, k, hk, -, hf, -⟩, -⟩ | ⟨w, hw, hend⟩⟩ := execFcount_counts hfits hdev
  · exact absurd ((hread k hk).symm.trans hf) Bool.false_ne_true
  have hn : (BitVec.ofNat 9 (symbolCount w.table)).toNat = s.sourceBytes.dedup.length := by
    have := symbolCount_le w.table
    rw [← hw.symbolCount_eq hraced, BitVec.toNat_ofNat]
    omega
  refine ⟨_, hend, State.complete_completedOk .., fun x => ?_, hn, ?_, commitFreq_noTreeNoCodes ..,
    (exec_endState (i := .fcount) hend).host, hw.port.1⟩
  · exact (congrArg BitVec.toNat (hw.all hraced x)).trans (toNat_count s x)
  · rw [State.isEmpty_iff, State.complete_nsym, State.commitFreq_nsym, hn, List.length_eq_zero_iff, List.dedup_eq_nil,
      ← List.length_eq_zero_iff, length_sourceBytes, ← BitVec.toNat_inj]
    rfl

/-- Settles O20: both tables hold the counts of one multiset. -/
theorem fcountIgnoresTheOrder : Obligations.FcountIgnoresTheOrder := by
  unfold Obligations.FcountIgnoresTheOrder
  intro s₁ s₂ t₁ t₂ hr₁ hr₂ hperm h₁ h₂ he₁ he₂
  obtain ⟨w₁, p₁, hw₁, hend₁⟩ := execFcount_completes h₁ he₁
  obtain ⟨w₂, p₂, hw₂, hend₂⟩ := execFcount_completes h₂ he₂
  have htable : w₁.table = w₂.table := freqTable_ext fun x => by
    rw [hw₁.all hr₁, hw₂.all hr₂, hperm.count_eq]
  have hlen : s₁.latch.srcLen = s₂.latch.srcLen := by
    rw [← BitVec.toNat_inj, ← length_sourceBytes, ← length_sourceBytes, hperm.length_eq]
  cases hend₁
  cases hend₂
  refine ⟨⟨htable.symm, ?_, rfl, rfl, rfl, rfl, rfl⟩, hlen⟩
  exact congrArg (fun t => BitVec.ofNat 9 (symbolCount t)) htable.symm

/-- Settles O21: the failing read FCOUNT stops at is the first. -/
theorem fcountStopsAtTheFirstFailingRead : Obligations.FcountStopsAtTheFirstFailingRead := by
  unfold Obligations.FcountStopsAtTheFirstFailingRead
  intro s k hfits hdev hk hread hfault
  obtain ⟨p, ⟨e, ⟨hp, j, -, hreadj, hfaultj, rfl⟩, hend⟩ | ⟨w, hw, -⟩⟩ := execFcount_counts hfits hdev
  · have hjk : j = k := by
      rcases Nat.lt_trichotomy j k with hlt | heq | hlt
      · exact absurd ((hread j hlt).symm.trans hfaultj) Bool.false_ne_true
      · exact heq
      · exact absurd ((hreadj k hlt).symm.trans hfault) Bool.false_ne_true
    subst hjk
    exact ends_raised hp hend nofun
  · exact absurd ((hw.readable k hk).symm.trans hfault) Bool.false_ne_true

end

section
/-! PROOFS. The tree builder (R191 to R197): the queue, one merge, what every merge keeps, and the finished tree. -/

namespace Sys2Proof.Machine

/-! ### The queue (R193) -/

theorem QueueKey.before_iff {a b : QueueKey} : a.before b = true ↔
    a.weight.toNat < b.weight.toNat ∨ (a.weight.toNat = b.weight.toNat ∧ a.index < b.index) := by
  simp [QueueKey.before, BitVec.toNat_inj]

theorem QueueKey.not_before_trans {a b c : QueueKey} (hab : ¬ a.before b = true) (hbc : ¬ b.before c = true) :
    ¬ a.before c = true := by
  rw [before_iff] at *
  omega

theorem QueueKey.before_of_ne {a b : QueueKey} (hne : a ≠ b) (h : ¬ b.before a = true) : a.before b = true := by
  rw [before_iff] at *
  have hfields : ¬ (a.weight.toNat = b.weight.toNat ∧ a.index = b.index) := by
    rintro ⟨hw, hi⟩
    cases a
    cases b
    cases BitVec.eq_of_toNat_eq hw
    cases hi
    exact hne rfl
  omega

theorem QueueKey.not_before_lesser {k q r : QueueKey} (hr : r = k ∨ r = q) :
    ¬ r.before (if q.before k then q else k) = true := by
  split <;> rcases hr with rfl | rfl <;> simp only [before_iff] at * <;> omega

/-- No key of the list comes before its least key. -/
theorem not_before_leastKey {qs : List QueueKey} : ∀ {k r : QueueKey}, r ∈ k :: qs →
    ¬ r.before (leastKey k qs) = true := by
  induction qs with
  | nil =>
    intro k r hr
    rw [List.mem_singleton.1 hr, leastKey, QueueKey.before_iff]
    omega
  | cons q qs ih =>
    intro k r hr
    rw [leastKey]
    have hleast := ih (k := if q.before k then q else k) List.mem_cons_self
    rcases List.mem_cons.1 hr with hrk | hr
    · exact QueueKey.not_before_trans (QueueKey.not_before_lesser (.inl hrk)) hleast
    · rcases List.mem_cons.1 hr with hrq | hr
      · exact QueueKey.not_before_trans (QueueKey.not_before_lesser (.inr hrq)) hleast
      · exact ih (List.mem_cons_of_mem _ hr)

/-- Extracting takes the entry that comes before every other. -/
theorem extractMin_least {q q' : List QueueKey} {a : QueueKey} (h : extractMin q = some (a, q')) :
    a ∈ q ∧ q' = q.erase a ∧ ∀ k ∈ q, k ≠ a → a.before k = true := by
  cases q with
  | nil => cases h
  | cons k qs =>
    cases h
    exact ⟨leastKey_mem k qs, rfl, fun r hr hne => QueueKey.before_of_ne hne.symm (not_before_leastKey hr)⟩

/-- The two keys a merge extracts, in order. -/
structure LeastTwo (q : List QueueKey) (a b : QueueKey) : Prop where
  mem_left : a ∈ q
  mem_right : b ∈ q
  ne : b ≠ a
  least_left : ∀ k ∈ q, k ≠ a → a.before k = true
  least_right : ∀ k ∈ q, k ≠ a → k ≠ b → b.before k = true

/-- The progress after the merge of two queue entries. -/
def TbuildWork.join (w : TbuildWork) (a b : QueueKey) : TbuildWork :=
  ⟨w.nodes.setIfInBounds w.next (Node.inner (a.weight + b.weight) a.index b.index),
    (w.queue.erase a).erase b ++ [⟨a.weight + b.weight, w.next⟩], w.next + 1⟩

theorem mergeOnce_joins {w : TbuildWork} (hd : w.queue.Nodup) (hl : 2 ≤ w.queue.length) :
    ∃ a b, LeastTwo w.queue a b ∧ mergeOnce w = w.join a b := by
  obtain ⟨a, q₁, h₁⟩ := extractMin_isSome (q := w.queue) (by omega)
  have hl₁ := length_of_extractMin h₁
  obtain ⟨b, q₂, h₂⟩ := extractMin_isSome (q := q₁) (by omega)
  obtain ⟨ha, rfl, hleft⟩ := extractMin_least h₁
  obtain ⟨hb, rfl, hright⟩ := extractMin_least h₂
  obtain ⟨hne, hb⟩ := hd.mem_erase_iff.1 hb
  refine ⟨a, b, ⟨ha, hb, hne, hleft, fun k hk hka hkb => ?_⟩, ?_⟩
  · exact hright k (hd.mem_erase_iff.2 ⟨hka, hk⟩) hkb
  · simp only [mergeOnce, h₁, h₂, TbuildWork.join]

/-! ### One merge of a node store (R194) -/

/-- Merge `j` of a tree with `n` leaves made node `n + j` of the two least waiting nodes, `a` on the left and `b` on the
right, and no weight was lost. -/
structure MergeAt (nodes : NodeStore) (n j a b : Nat) : Prop where
  bound : n + j < 511
  waiting_left : waiting nodes n j a
  waiting_right : waiting nodes n j b
  ne : a ≠ b
  least_left : ∀ q, waiting nodes n j q → q ≠ a → keyBefore nodes a q
  least_right : ∀ q, waiting nodes n j q → q ≠ a → q ≠ b → keyBefore nodes b q
  node : nodeAt nodes (n + j) = Node.inner ((nodeAt nodes a).weight + (nodeAt nodes b).weight) a b
  weight : (nodeAt nodes (n + j)).weight.toNat = (nodeAt nodes a).weight.toNat + (nodeAt nodes b).weight.toNat

/-- The first `j` merges of a tree with `n` leaves. -/
def MergesTo (nodes : NodeStore) (n j : Nat) : Prop := ∀ i < j, ∃ a b, MergeAt nodes n i a b

namespace MergeAt
variable {nodes : NodeStore} {n j a b : Nat} (h : MergeAt nodes n j a b)
include h

theorem left_toNat : (nodeAt nodes (n + j)).left.toNat = a := by
  have ha := h.waiting_left.1
  have hbound := h.bound
  rw [h.node, Node.inner, BitVec.toNat_ofNat]
  omega

theorem right_toNat : (nodeAt nodes (n + j)).right.toNat = b := by
  have hb := h.waiting_right.1
  have hbound := h.bound
  rw [h.node, Node.inner, BitVec.toNat_ofNat]
  omega

theorem internal : (nodeAt nodes (n + j)).internal = true := by rw [h.node]; rfl

theorem isChild_iff {q : Nat} : isChild nodes (n + j) q ↔ q = a ∨ q = b := by
  rw [isChild, h.left_toNat, h.right_toNat, eq_comm (a := a), eq_comm (a := b)]
  exact and_iff_right h.internal

theorem child_lt {q : Nat} (hq : isChild nodes (n + j) q) : q < n + j := by
  rcases h.isChild_iff.1 hq with rfl | rfl
  · exact h.waiting_left.1
  · exact h.waiting_right.1

end MergeAt

/-- The queue after a merge: its two nodes are out, the new one is in. -/
theorem waiting_succ {nodes : NodeStore} {n j a b q : Nat} (h : MergeAt nodes n j a b) (hm : MergesTo nodes n j) :
    waiting nodes n (j + 1) q ↔ q = n + j ∨ (waiting nodes n j q ∧ q ≠ a ∧ q ≠ b) := by
  constructor
  · rintro ⟨hlt, hfree⟩
    have hq := hfree (n + j) (by omega) (by omega)
    rw [h.isChild_iff, not_or] at hq
    by_cases hnew : q = n + j
    · exact .inl hnew
    · exact .inr ⟨⟨by omega, fun p hp hpj => hfree p hp (by omega)⟩, hq⟩
  · rintro (rfl | ⟨⟨hlt, hfree⟩, ha, hb⟩)
    · refine ⟨by omega, fun p hp hpj hchild => ?_⟩
      obtain ⟨i, rfl⟩ := Nat.exists_eq_add_of_le hp
      by_cases hij : i = j
      · subst hij
        exact absurd (h.child_lt hchild) (Nat.lt_irrefl _)
      · obtain ⟨c, d, hi⟩ := hm i (by omega)
        have hlt := hi.child_lt hchild
        omega
    · refine ⟨by omega, fun p hp hpj => ?_⟩
      rcases Nat.lt_or_ge p (n + j) with hlt | hge
      · exact hfree p hp hlt
      · obtain rfl : p = n + j := by omega
        rw [h.isChild_iff, not_or]
        exact ⟨ha, hb⟩

/-! ### Later merges leave the nodes made so far -/

section
variable {t u : NodeStore} {n j : Nat}

theorem isChild_congr {p q : Nat} (h : nodeAt u p = nodeAt t p) : isChild u p q ↔ isChild t p q := by
  rw [isChild, isChild, h]

theorem waiting_congr {q : Nat} (h : ∀ p < n + j, nodeAt u p = nodeAt t p) : waiting u n j q ↔ waiting t n j q :=
  and_congr_right fun _ => forall_congr' fun p => forall_congr' fun _ => forall_congr' fun hp =>
    not_congr (isChild_congr (h p hp))

theorem keyBefore_congr {q r : Nat} (hq : nodeAt u q = nodeAt t q) (hr : nodeAt u r = nodeAt t r) :
    keyBefore u q r ↔ keyBefore t q r := by
  rw [keyBefore, keyBefore, hq, hr]

theorem MergeAt.congr {a b : Nat} (h : MergeAt t n j a b) (hsame : ∀ p < n + j + 1, nodeAt u p = nodeAt t p) :
    MergeAt u n j a b := by
  have hwait {q : Nat} : waiting u n j q ↔ waiting t n j q := waiting_congr fun p hp => hsame p (by omega)
  have hold {q : Nat} (hq : waiting t n j q) : nodeAt u q = nodeAt t q := hsame q (by have := hq.1; omega)
  have ha := hold h.waiting_left
  have hb := hold h.waiting_right
  have hnew := hsame (n + j) (by omega)
  refine ⟨h.bound, hwait.2 h.waiting_left, hwait.2 h.waiting_right, h.ne, fun q hq hqa => ?_, fun q hq hqa hqb => ?_, ?_, ?_⟩
  · exact (keyBefore_congr ha (hold (hwait.1 hq))).2 (h.least_left q (hwait.1 hq) hqa)
  · exact (keyBefore_congr hb (hold (hwait.1 hq))).2 (h.least_right q (hwait.1 hq) hqa hqb)
  · rw [hnew, ha, hb, h.node]
  · rw [hnew, ha, hb, h.weight]

theorem MergesTo.congr (h : MergesTo t n j) (hsame : ∀ p < n + j, nodeAt u p = nodeAt t p) : MergesTo u n j := by
  intro i hi
  obtain ⟨a, b, hab⟩ := h i hi
  exact ⟨a, b, hab.congr fun p hp => hsame p (by omega)⟩

end

/-! ### The leaves and the first queue (R192) -/

/-- The leaf of a symbol: its frequency is its weight. -/
def symbolLeaf (f : FreqTable) (x : Byte) : Node := Node.leaf x ((tableGet f x).setWidth 64)

/-- The frequencies of a table, added up. -/
def FreqTable.total (f : FreqTable) : Nat := (f.toList.map BitVec.toNat).sum

theorem leavesOf_eq (f : FreqTable) : leavesOf f = (presentSymbols f).map (symbolLeaf f) := rfl

theorem length_leavesOf (f : FreqTable) : (leavesOf f).length = symbolCount f := by
  rw [leavesOf_eq, List.length_map, length_presentSymbols]

theorem FreqTable.sum_present (f : FreqTable) : ((presentSymbols f).map fun x => (tableGet f x).toNat).sum = f.total := by
  rw [FreqTable.total, ← List.sum_filter_bne_zero (f.toList.map BitVec.toNat), toList_eq_map, presentSymbols]
  simp only [List.filter_map, List.map_map]
  congr 2
  refine List.filter_congr fun i _ => ?_
  simp [bne, ← BitVec.toNat_inj]

theorem FreqTable.total_lt (f : FreqTable) : f.total < 2 ^ 64 := by
  have h : f.total ≤ (f.toList.map BitVec.toNat).length • 2 ^ 32 := by
    refine List.sum_le_card_nsmul _ _ fun x hx => ?_
    obtain ⟨v, -, rfl⟩ := List.mem_map.1 hx
    exact v.isLt.le
  rw [List.length_map, Vector.length_toList, smul_eq_mul] at h
  omega

theorem nodeAt_placeNodes {ns : List Node} {i : Nat} : ∀ {k : Nat} {t : NodeStore}, k + ns.length ≤ 511 →
    nodeAt (placeNodes ns k t) i = if k ≤ i then ns[i - k]?.getD (nodeAt t i) else nodeAt t i := by
  induction ns with
  | nil => intro k t _; simp [placeNodes]
  | cons m ms ih =>
    intro k t hlen
    rw [List.length_cons] at hlen
    rw [placeNodes, ih (by omega), nodeAt_setIfInBounds]
    rcases Nat.lt_trichotomy i k with hlt | rfl | hgt
    · rw [if_neg (by omega), if_neg (by omega), if_neg (by omega)]
    · rw [if_neg (by omega), if_pos ⟨rfl, by omega⟩, if_pos le_rfl, Nat.sub_self]
      rfl
    · rw [if_pos (by omega), if_neg (by omega), if_pos (by omega), show i - k = i - (k + 1) + 1 by omega,
        List.getElem?_cons_succ]

theorem nodeAt_tbuildInit (f : FreqTable) (i : Nat) :
    nodeAt (tbuildInit f).nodes i = (leavesOf f)[i]?.getD Node.zero := by
  have hle := symbolCount_le f
  rw [tbuildInit, nodeAt_placeNodes (by rw [length_leavesOf]; omega), if_pos (Nat.zero_le i), nodeAt_empty, Nat.sub_zero]

/-- The queue entry of a node. -/
def keyAt (nodes : NodeStore) (i : Nat) : QueueKey := ⟨(nodeAt nodes i).weight, i⟩

theorem queueOf_eq {nodes : NodeStore} {ns : List Node} : ∀ {k : Nat}, (∀ i m, ns[i]? = some m → nodeAt nodes (k + i) = m) →
    queueOf ns k = (List.range' k ns.length).map (keyAt nodes) := by
  induction ns with
  | nil => exact fun _ => rfl
  | cons m ms ih =>
    intro k h
    rw [queueOf, List.length_cons, List.range'_succ, List.map_cons, keyAt, ← h 0 m rfl, Nat.add_zero, ih]
    intro i m' hm'
    rw [Nat.add_right_comm]
    exact h (i + 1) m' hm'

theorem map_weight_queueOf {ns : List Node} : ∀ {k : Nat}, (queueOf ns k).map QueueKey.weight = ns.map Node.weight := by
  induction ns with
  | nil => exact rfl
  | cons m ms ih => intro k; rw [queueOf, List.map_cons, List.map_cons, ih]

theorem queue_tbuildInit (f : FreqTable) :
    (tbuildInit f).queue = (List.range' 0 (symbolCount f)).map (keyAt (tbuildInit f).nodes) := by
  rw [← length_leavesOf]
  refine queueOf_eq fun i m hm => ?_
  rw [Nat.zero_add, nodeAt_tbuildInit, hm]
  rfl

/-! ### What every merge keeps -/

/-- TBUILD after `j` merges: the leaves in their places, the merges made so far as they must be, the queue the nodes that
wait, and the weights in the queue adding up to the table's total. -/
structure Merging (f : FreqTable) (j : Nat) (w : TbuildWork) : Prop where
  next : w.next = symbolCount f + j
  leaves : ∀ i x, (presentSymbols f)[i]? = some x → nodeAt w.nodes i = symbolLeaf f x
  rest : ∀ i, symbolCount f + j ≤ i → nodeAt w.nodes i = Node.zero
  merges : MergesTo w.nodes (symbolCount f) j
  length : w.queue.length + j = symbolCount f
  nodup : w.queue.Nodup
  queue : ∀ k, k ∈ w.queue ↔ k = keyAt w.nodes k.index ∧ waiting w.nodes (symbolCount f) j k.index
  total : (w.queue.map fun k => k.weight.toNat).sum = f.total

theorem waiting_zero {nodes : NodeStore} {n q : Nat} : waiting nodes n 0 q ↔ q < n :=
  ⟨fun h => h.1, fun h => ⟨h, fun _ hp hpn => absurd hpn (Nat.not_lt.2 hp)⟩⟩

theorem merging_init (f : FreqTable) : Merging f 0 (tbuildInit f) where
  next := length_leavesOf f
  leaves i x hx := by rw [nodeAt_tbuildInit, leavesOf_eq, List.getElem?_map, hx]; rfl
  rest i hi := by rw [nodeAt_tbuildInit, List.getElem?_eq_none (by rw [length_leavesOf]; exact hi)]; rfl
  merges i hi := absurd hi (Nat.not_lt_zero i)
  length := by rw [queue_tbuildInit, List.length_map, List.length_range', Nat.add_zero]
  nodup := by
    rw [queue_tbuildInit]
    exact (List.nodup_range' 1).map fun i j hij => congrArg QueueKey.index hij
  queue k := by
    rw [queue_tbuildInit, List.mem_map, waiting_zero]
    simp only [List.mem_range'_1, Nat.zero_le, Nat.zero_add, true_and]
    constructor
    · rintro ⟨i, hi, rfl⟩
      exact ⟨rfl, hi⟩
    · rintro ⟨hk, hi⟩
      exact ⟨k.index, hi, hk.symm⟩
  total := by
    rw [← FreqTable.sum_present, show (fun k : QueueKey => k.weight.toNat) = BitVec.toNat ∘ QueueKey.weight from rfl,
      ← List.map_map, tbuildInit, map_weight_queueOf, leavesOf_eq, List.map_map, List.map_map]
    rfl

section
variable {f : FreqTable} {j : Nat} {w : TbuildWork} {a b : QueueKey}

/-- Every node in the queue is older than the next one. -/
theorem Merging.index_lt (h : Merging f j w) {k : QueueKey} (hk : k ∈ w.queue) : k.index < symbolCount f + j :=
  ((h.queue k).1 hk).2.1

theorem Merging.keyAt_index (h : Merging f j w) {k : QueueKey} (hk : k ∈ w.queue) : keyAt w.nodes k.index = k :=
  ((h.queue k).1 hk).1.symm

theorem Merging.keyAt_mem (h : Merging f j w) {q : Nat} (hq : waiting w.nodes (symbolCount f) j q) :
    keyAt w.nodes q ∈ w.queue := (h.queue _).2 ⟨rfl, hq⟩

/-- A queue entry is known by its node. -/
theorem Merging.index_inj (h : Merging f j w) {k l : QueueKey} (hk : k ∈ w.queue) (hl : l ∈ w.queue) :
    k.index = l.index ↔ k = l := by
  refine ⟨fun heq => ?_, congrArg _⟩
  rw [((h.queue k).1 hk).1, heq, ← ((h.queue l).1 hl).1]

/-- The weights of two queue entries, and of the others. -/
theorem Merging.total_split (h : Merging f j w) (hab : LeastTwo w.queue a b) :
    a.weight.toNat + (b.weight.toNat + (((w.queue.erase a).erase b).map fun k => k.weight.toNat).sum) = f.total := by
  rw [List.sum_map_erase (fun k : QueueKey => k.weight.toNat) (h.nodup.mem_erase_iff.2 ⟨hab.ne, hab.mem_right⟩),
    List.sum_map_erase (fun k : QueueKey => k.weight.toNat) hab.mem_left, h.total]

/-- No sum of weights passes 64 bits. -/
theorem Merging.weight_add (h : Merging f j w) (hab : LeastTwo w.queue a b) :
    (a.weight + b.weight).toNat = a.weight.toNat + b.weight.toNat := by
  have htotal := h.total_split hab
  have hlt := f.total_lt
  exact BitVec.toNat_add_of_lt (by omega)

theorem Merging.nodeAt_join_of_ne (h : Merging f j w) {i : Nat} (hi : i ≠ symbolCount f + j) :
    nodeAt (w.join a b).nodes i = nodeAt w.nodes i := by
  rw [TbuildWork.join, nodeAt_setIfInBounds, h.next, if_neg fun hc => hi hc.1.symm]

theorem nodeIndex_lt {f : FreqTable} {j : Nat} (hj : j + 1 < symbolCount f) : symbolCount f + j < 511 := by
  have hle := symbolCount_le f
  omega

theorem Merging.nodeAt_join_new (h : Merging f j w) (hj : j + 1 < symbolCount f) :
    nodeAt (w.join a b).nodes (symbolCount f + j) = Node.inner (a.weight + b.weight) a.index b.index := by
  rw [TbuildWork.join, nodeAt_setIfInBounds, h.next, if_pos ⟨rfl, nodeIndex_lt hj⟩]

theorem keyBefore_iff {nodes : NodeStore} {q r : Nat} :
    keyBefore nodes q r ↔ (keyAt nodes q).before (keyAt nodes r) = true := by
  rw [keyBefore, QueueKey.before_iff, ← BitVec.toNat_inj]
  rfl

/-- Queue order is the order of the nodes in the store, which the merge leaves where they are. -/
theorem Merging.keyBefore_join (h : Merging f j w) {k l : QueueKey} (hk : k ∈ w.queue) (hl : l ∈ w.queue)
    (hkl : k.before l = true) : keyBefore (w.join a b).nodes k.index l.index := by
  rw [keyBefore_congr (h.nodeAt_join_of_ne (h.index_lt hk).ne) (h.nodeAt_join_of_ne (h.index_lt hl).ne), keyBefore_iff,
    h.keyAt_index hk, h.keyAt_index hl]
  exact hkl

theorem Merging.weight_join (h : Merging f j w) {k : QueueKey} (hk : k ∈ w.queue) :
    (nodeAt (w.join a b).nodes k.index).weight = k.weight := by
  rw [h.nodeAt_join_of_ne (h.index_lt hk).ne]
  exact congrArg QueueKey.weight (h.keyAt_index hk)

theorem Merging.waiting_join (h : Merging f j w) {q : Nat} :
    waiting (w.join a b).nodes (symbolCount f) j q ↔ waiting w.nodes (symbolCount f) j q :=
  waiting_congr fun _ hp => h.nodeAt_join_of_ne hp.ne

theorem Merging.mergeAt_join (h : Merging f j w) (hj : j + 1 < symbolCount f) (hab : LeastTwo w.queue a b) :
    MergeAt (w.join a b).nodes (symbolCount f) j a.index b.index where
  bound := nodeIndex_lt hj
  waiting_left := h.waiting_join.2 ((h.queue a).1 hab.mem_left).2
  waiting_right := h.waiting_join.2 ((h.queue b).1 hab.mem_right).2
  ne hidx := hab.ne ((h.index_inj hab.mem_left hab.mem_right).1 hidx).symm
  least_left q hq hqa := by
    have hk := h.keyAt_mem (h.waiting_join.1 hq)
    exact h.keyBefore_join hab.mem_left hk (hab.least_left _ hk fun hc => hqa (congrArg QueueKey.index hc))
  least_right q hq hqa hqb := by
    have hk := h.keyAt_mem (h.waiting_join.1 hq)
    exact h.keyBefore_join hab.mem_right hk (hab.least_right _ hk (fun hc => hqa (congrArg QueueKey.index hc))
      fun hc => hqb (congrArg QueueKey.index hc))
  node := by rw [h.nodeAt_join_new hj, h.weight_join hab.mem_left, h.weight_join hab.mem_right]
  weight := by
    rw [h.nodeAt_join_new hj, h.weight_join hab.mem_left, h.weight_join hab.mem_right]
    exact h.weight_add hab

theorem Merging.mem_join_queue (h : Merging f j w) {k : QueueKey} :
    k ∈ (w.join a b).queue ↔ (k ∈ w.queue ∧ k ≠ a ∧ k ≠ b) ∨ k = ⟨a.weight + b.weight, symbolCount f + j⟩ := by
  rw [TbuildWork.join, List.mem_append, List.mem_singleton, (h.nodup.erase a).mem_erase_iff, h.nodup.mem_erase_iff, h.next]
  tauto

theorem Merging.queue_join (h : Merging f j w) (hj : j + 1 < symbolCount f) (hab : LeastTwo w.queue a b) (k : QueueKey) :
    k ∈ (w.join a b).queue ↔
      k = keyAt (w.join a b).nodes k.index ∧ waiting (w.join a b).nodes (symbolCount f) (j + 1) k.index := by
  have hmerges := h.merges.congr fun p hp => h.nodeAt_join_of_ne (a := a) (b := b) hp.ne
  have hnew : keyAt (w.join a b).nodes (symbolCount f + j) = ⟨a.weight + b.weight, symbolCount f + j⟩ := by
    rw [keyAt, h.nodeAt_join_new hj]
    rfl
  rw [waiting_succ (h.mergeAt_join hj hab) hmerges, h.waiting_join, h.mem_join_queue]
  constructor
  · rintro (⟨hk, hka, hkb⟩ | rfl)
    · rw [keyAt, h.weight_join hk, Ne, h.index_inj hk hab.mem_left, Ne, h.index_inj hk hab.mem_right]
      exact ⟨rfl, .inr ⟨((h.queue k).1 hk).2, hka, hkb⟩⟩
    · exact ⟨hnew.symm, .inl rfl⟩
  · rintro ⟨hk, hidx | ⟨hwait, hka, hkb⟩⟩
    · exact .inr (by rw [hk, hidx, hnew])
    · rw [keyAt, h.nodeAt_join_of_ne hwait.1.ne] at hk
      exact .inl ⟨(h.queue k).2 ⟨hk, hwait⟩, fun hc => hka (congrArg _ hc), fun hc => hkb (congrArg _ hc)⟩

/-- A merge keeps it all. -/
theorem Merging.merge (h : Merging f j w) (hj : j + 1 < symbolCount f) (hab : LeastTwo w.queue a b) :
    Merging f (j + 1) (w.join a b) where
  next := congrArg (· + 1) h.next
  leaves i x hx := by
    have hi := (List.getElem?_eq_some_iff.1 hx).1
    rw [length_presentSymbols] at hi
    rw [h.nodeAt_join_of_ne (by omega)]
    exact h.leaves i x hx
  rest i hi := by
    rw [h.nodeAt_join_of_ne (by omega)]
    exact h.rest i (by omega)
  merges i hi := by
    rcases Nat.lt_or_eq_of_le (Nat.le_of_lt_succ hi) with hlt | rfl
    · exact (h.merges.congr fun p hp => h.nodeAt_join_of_ne hp.ne) i hlt
    · exact ⟨_, _, h.mergeAt_join hj hab⟩
  length := by
    have hl := h.length
    rw [TbuildWork.join, List.length_append, List.length_singleton,
      List.length_erase_of_mem (h.nodup.mem_erase_iff.2 ⟨hab.ne, hab.mem_right⟩), List.length_erase_of_mem hab.mem_left]
    omega
  nodup := by
    refine List.nodup_append.2 ⟨(h.nodup.erase a).erase b, List.nodup_singleton _, fun k hk l hl heq => ?_⟩
    have hlt := h.index_lt (List.mem_of_mem_erase (List.mem_of_mem_erase hk))
    rw [heq, List.mem_singleton.1 hl, h.next] at hlt
    exact Nat.lt_irrefl _ hlt
  queue := h.queue_join hj hab
  total := by
    have hsplit := h.total_split hab
    rw [TbuildWork.join, List.map_append, List.sum_append, List.map_singleton, List.sum_singleton, h.weight_add hab]
    omega

end

/-- The merges left, run. -/
theorem Merging.run {f : FreqTable} {m : Nat} : ∀ {j : Nat} {w : TbuildWork}, Merging f j w → j + m = symbolCount f - 1 →
    ∃ v, Merging f (symbolCount f - 1) v ∧ v.nodes = mergeAll w := by
  induction m with
  | zero =>
    intro j w h hj
    have hl := h.length
    obtain rfl : j = symbolCount f - 1 := hj
    exact ⟨w, h, (mergeAll_done (by unfold tbuildLeft; omega)).symm⟩
  | succ m ih =>
    intro j w h hj
    have hl := h.length
    obtain ⟨a, b, hab, hjoin⟩ := mergeOnce_joins h.nodup (by omega)
    rw [← mergeAll_mergeOnce (by unfold tbuildLeft; omega), hjoin]
    exact ih (h.merge (by omega) hab) (by omega)

/-! ### The finished tree -/

theorem treeSize_eq (f : FreqTable) : treeSize f = symbolCount f + (symbolCount f - 1) := by
  unfold treeSize
  split <;> omega

theorem MergesTo.mono {nodes : NodeStore} {n i j : Nat} (h : MergesTo nodes n j) (hij : i ≤ j) : MergesTo nodes n i :=
  fun m hm => h m (hm.trans_le hij)

/-- The newest node waits. -/
theorem MergesTo.waiting_newest {nodes : NodeStore} {n j : Nat} (h : MergesTo nodes n j) (hn : 1 ≤ n) :
    waiting nodes n j (n + j - 1) := by
  cases j with
  | zero => exact waiting_zero.2 (by omega)
  | succ j =>
    obtain ⟨a, b, hab⟩ := h j (Nat.lt_succ_self j)
    exact (waiting_succ hab (h.mono (Nat.le_succ j))).2 (.inl rfl)

/-- A finished tree of a table: its leaves, its merges, nothing after its last node, and that node, the root, the only one
that is no child, with the table's total as its weight. -/
structure FinishedTree (f : FreqTable) (nodes : NodeStore) : Prop where
  leaves : ∀ i x, (presentSymbols f)[i]? = some x → nodeAt nodes i = symbolLeaf f x
  rest : ∀ i, treeSize f ≤ i → nodeAt nodes i = Node.zero
  merges : MergesTo nodes (symbolCount f) (symbolCount f - 1)
  waiting_root : ∀ q, waiting nodes (symbolCount f) (symbolCount f - 1) q → q = treeSize f - 1
  root_weight : 1 ≤ symbolCount f → (nodeAt nodes (treeSize f - 1)).weight.toNat = f.total

theorem Merging.finished {f : FreqTable} {w : TbuildWork} (h : Merging f (symbolCount f - 1) w) :
    FinishedTree f w.nodes := by
  have hone : 1 ≤ symbolCount f → w.queue = [keyAt w.nodes (treeSize f - 1)] := by
    intro hn
    have hl := h.length
    obtain ⟨k, hk⟩ := List.length_eq_one_iff.1 (show w.queue.length = 1 by omega)
    have hroot := h.keyAt_mem (h.merges.waiting_newest hn)
    rw [hk, List.mem_singleton, ← treeSize_eq] at hroot
    rw [hk, hroot]
  refine ⟨h.leaves, fun i hi => h.rest i (treeSize_eq f ▸ hi), h.merges, fun q hq => ?_, fun hn => ?_⟩
  · have hn : 1 ≤ symbolCount f := by have := hq.1; omega
    have hk := h.keyAt_mem hq
    rw [hone hn, List.mem_singleton] at hk
    exact congrArg QueueKey.index hk
  · have htotal := h.total
    rw [hone hn, List.map_singleton, List.sum_singleton] at htotal
    exact htotal

theorem finishedTree (f : FreqTable) : FinishedTree f (treeOf f) := by
  obtain ⟨w, hw, hnodes⟩ := (merging_init f).run (Nat.zero_add _)
  exact (show w.nodes = treeOf f from hnodes) ▸ hw.finished

section
variable {f : FreqTable} {nodes : NodeStore} (h : FinishedTree f nodes)
include h

theorem FinishedTree.leaf {i : Nat} (hi : i < symbolCount f) :
    ∃ x, (presentSymbols f)[i]? = some x ∧ nodeAt nodes i = symbolLeaf f x := by
  rw [← length_presentSymbols] at hi
  exact ⟨_, List.getElem?_eq_getElem hi, h.leaves i _ (List.getElem?_eq_getElem hi)⟩

/-- Which nodes are leaves: the first ones. -/
theorem FinishedTree.internal_eq {i : Nat} (hi : i < treeSize f) :
    (nodeAt nodes i).internal = decide (symbolCount f ≤ i) := by
  rw [treeSize_eq] at hi
  rcases Nat.lt_or_ge i (symbolCount f) with hlt | hge
  · obtain ⟨x, -, hx⟩ := h.leaf hlt
    rw [hx, decide_eq_false (Nat.not_le.2 hlt)]
    rfl
  · obtain ⟨j, rfl⟩ := Nat.exists_eq_add_of_le hge
    obtain ⟨a, b, hab⟩ := h.merges j (by omega)
    rw [hab.internal, decide_eq_true hge]

theorem FinishedTree.isLeaf_iff {i : Nat} :
    (i < treeSize f ∧ (nodeAt nodes i).internal = false) ↔ i < symbolCount f := by
  have hsize := treeSize_eq f
  constructor
  · rintro ⟨hi, hint⟩
    rw [h.internal_eq hi, decide_eq_false_iff_not] at hint
    omega
  · intro hi
    have hlt : i < treeSize f := by omega
    rw [h.internal_eq hlt, decide_eq_false_iff_not]
    omega

/-- An internal node is what one of the merges made. -/
theorem FinishedTree.inner {i : Nat} (hi : i < treeSize f ∧ (nodeAt nodes i).internal = true) :
    ∃ j < symbolCount f - 1, i = symbolCount f + j ∧ ∃ a b, MergeAt nodes (symbolCount f) j a b := by
  obtain ⟨hlt, hint⟩ := hi
  rw [h.internal_eq hlt, decide_eq_true_iff] at hint
  rw [treeSize_eq] at hlt
  obtain ⟨j, rfl⟩ := Nat.exists_eq_add_of_le hint
  exact ⟨j, by omega, rfl, h.merges j (by omega)⟩

theorem FinishedTree.valid {i : Nat} (hi : i < treeSize f) : (nodeAt nodes i).valid = true := by
  rw [treeSize_eq] at hi
  rcases Nat.lt_or_ge i (symbolCount f) with hlt | hge
  · obtain ⟨x, -, hx⟩ := h.leaf hlt
    rw [hx]
    rfl
  · obtain ⟨j, rfl⟩ := Nat.exists_eq_add_of_le hge
    obtain ⟨a, b, hab⟩ := h.merges j (by omega)
    rw [hab.node]
    rfl

theorem FinishedTree.countP_internal :
    ((List.range (treeSize f)).countP fun i => (nodeAt nodes i).internal) = symbolCount f - 1 := by
  have hcongr : (List.range (treeSize f)).countP (fun i => (nodeAt nodes i).internal) =
      (List.range (treeSize f)).countP fun i => decide (symbolCount f ≤ i) :=
    List.countP_congr fun i hi => by rw [h.internal_eq (List.mem_range.1 hi)]
  rw [hcongr, treeSize_eq, List.range_add, List.countP_append, List.countP_map]
  rw [List.countP_eq_zero.2 fun i hi => by simpa using List.mem_range.1 hi,
    List.countP_eq_length.2 fun i _ => by simp, List.length_range, Nat.zero_add]

theorem FinishedTree.countP_leaf :
    ((List.range (treeSize f)).countP fun i => !(nodeAt nodes i).internal) = symbolCount f := by
  have hall := List.length_eq_countP_add_countP (fun i => (nodeAt nodes i).internal) (l := List.range (treeSize f))
  have hsize := treeSize_eq f
  rw [List.length_range, h.countP_internal] at hall
  simp only [Bool.not_eq_true, Bool.decide_eq_false] at hall
  omega

/-- Every symbol with a count has its leaf. -/
theorem FinishedTree.leaf_of_present {x : Byte} (hx : tableGet f x ≠ 0) :
    ∃ i < symbolCount f, nodeAt nodes i = symbolLeaf f x := by
  obtain ⟨i, hi⟩ := List.mem_iff_getElem?.1 (mem_presentSymbols.2 hx)
  exact ⟨i, length_presentSymbols f ▸ (List.getElem?_eq_some_iff.1 hi).1, h.leaves i x hi⟩

theorem FinishedTree.leaf_present {i : Nat} (hi : i < symbolCount f) : tableGet f (nodeAt nodes i).sym ≠ 0 := by
  obtain ⟨x, hx, hnode⟩ := h.leaf hi
  rw [hnode]
  exact mem_presentSymbols.1 (List.mem_of_getElem? hx)

/-- No two leaves have the same symbol. -/
theorem FinishedTree.leaf_inj {i j : Nat} (hi : i < symbolCount f) (hj : j < symbolCount f)
    (hsym : (nodeAt nodes i).sym = (nodeAt nodes j).sym) : i = j := by
  obtain ⟨x, hx, hnodex⟩ := h.leaf hi
  obtain ⟨y, hy, hnodey⟩ := h.leaf hj
  obtain rfl : x = y := by rw [hnodex, hnodey] at hsym; exact hsym
  rw [← length_presentSymbols] at hi
  exact (List.getElem?_inj hi (nodup_presentSymbols f)).1 (hx.trans hy.symm)

end

/-! ### Parents and weights (R197) -/

section
variable {nodes : NodeStore} {n j k a b c d q : Nat}

theorem MergeAt.child_waiting (h : MergeAt nodes n j a b) (hq : isChild nodes (n + j) q) : waiting nodes n j q := by
  rcases h.isChild_iff.1 hq with rfl | rfl
  · exact h.waiting_left
  · exact h.waiting_right

/-- What a later merge takes no earlier merge took. -/
theorem MergeAt.not_child_of_lt (h : MergeAt nodes n k c d) (hjk : j < k) (hq : isChild nodes (n + k) q) :
    ¬ isChild nodes (n + j) q :=
  (h.child_waiting hq).2 (n + j) (Nat.le_add_right n j) (Nat.add_lt_add_left hjk n)

theorem MergeAt.parent_unique (hj : MergeAt nodes n j a b) (hk : MergeAt nodes n k c d) (hqj : isChild nodes (n + j) q)
    (hqk : isChild nodes (n + k) q) : j = k := by
  rcases Nat.lt_trichotomy j k with hlt | heq | hlt
  · exact absurd hqj (hk.not_child_of_lt hlt hqk)
  · exact heq
  · exact absurd hqk (hj.not_child_of_lt hlt hqj)

theorem keyBefore_weight_le {r : Nat} (h : keyBefore nodes q r) :
    (nodeAt nodes q).weight.toNat ≤ (nodeAt nodes r).weight.toNat := by
  rcases h with hlt | ⟨heq, -⟩
  · exact hlt.le
  · exact (congrArg BitVec.toNat heq).le

/-- A merge is no lighter than the one before it: it takes that one's node, or two nodes which that one left for lighter
ones. -/
theorem MergeAt.weight_le_succ (h : MergeAt nodes n j a b) (h' : MergeAt nodes n (j + 1) c d) (hm : MergesTo nodes n j) :
    (nodeAt nodes (n + j)).weight.toNat ≤ (nodeAt nodes (n + (j + 1))).weight.toNat := by
  have hw := h.weight
  have hw' := h'.weight
  have hab := keyBefore_weight_le (h.least_left b h.waiting_right h.ne.symm)
  have hleft : ∀ r, waiting nodes n (j + 1) r → r = n + j ∨ (nodeAt nodes b).weight.toNat ≤ (nodeAt nodes r).weight.toNat := by
    intro r hr
    refine ((waiting_succ h hm).1 hr).imp_right ?_
    rintro ⟨hr, hra, hrb⟩
    exact keyBefore_weight_le (h.least_right r hr hra hrb)
  rcases hleft c h'.waiting_left with rfl | hc
  · omega
  · rcases hleft d h'.waiting_right with rfl | hd <;> omega

theorem MergesTo.weight_le (h : MergesTo nodes n k) {i : Nat} (hij : i ≤ j) (hj : j < k) :
    (nodeAt nodes (n + i)).weight.toNat ≤ (nodeAt nodes (n + j)).weight.toNat := by
  induction j, hij using Nat.le_induction with
  | base => exact le_rfl
  | succ j _ ih =>
    obtain ⟨a, b, hab⟩ := h j (by omega)
    obtain ⟨c, d, hcd⟩ := h (j + 1) hj
    exact (ih (by omega)).trans (hab.weight_le_succ hcd (h.mono (by omega)))

end

/-- Every node but the root has a parent, and only one. -/
theorem FinishedTree.parent {f : FreqTable} {nodes : NodeStore} (h : FinishedTree f nodes) {i : Nat}
    (hi : i < treeSize f - 1) :
    ∃ p, (p < treeSize f ∧ (nodeAt nodes p).internal = true) ∧ isChild nodes p i ∧
      ∀ q, q < treeSize f ∧ (nodeAt nodes q).internal = true → isChild nodes q i → q = p := by
  have hsize := treeSize_eq f
  have hnot : ¬ waiting nodes (symbolCount f) (symbolCount f - 1) i := fun hc => hi.ne (h.waiting_root i hc)
  obtain ⟨p, hp, hlt, hchild⟩ : ∃ p, symbolCount f ≤ p ∧ p < symbolCount f + (symbolCount f - 1) ∧ isChild nodes p i := by
    by_contra hc
    exact hnot ⟨by omega, fun p hp hlt hchild => hc ⟨p, hp, hlt, hchild⟩⟩
  refine ⟨p, ⟨by omega, hchild.1⟩, hchild, fun q hq hqi => ?_⟩
  obtain ⟨j, -, rfl, a, b, hab⟩ := h.inner ⟨hsize ▸ hlt, hchild.1⟩
  obtain ⟨k, -, rfl, c, d, hcd⟩ := h.inner hq
  rw [hab.parent_unique hcd hchild hqi]

/-! ### Places of the leaves (R192) -/

/-- In the list of the symbols with a count, a symbol stands after the smaller ones. -/
theorem presentBelow_getElem? {f : FreqTable} {x : Byte} (hx : tableGet f x ≠ 0) {m : Nat} (hm : x.toNat < m) :
    (presentBelow f m)[countBelow f x.toNat]? = some x := by
  induction m, Nat.succ_le_of_lt hm using Nat.le_induction with
  | base =>
    have hlen : (presentBelow f x.toNat).length = countBelow f x.toNat := by
      rw [presentBelow, ← List.countP_eq_length_filter, List.countP_map]
      rfl
    rw [Nat.succ_eq_add_one, presentBelow_succ, List.getElem?_append_right hlen.le, hlen, Nat.sub_self, BitVec.ofNat_toNat,
      BitVec.setWidth_eq, if_pos hx]
    rfl
  | succ m hle ih =>
    have hx := ih hle
    rw [presentBelow_succ, List.getElem?_append_left (List.getElem?_eq_some_iff.1 hx).1, hx]

/-! ### Ends of TBUILD and CTGEN -/

theorem execTbuild_eq (s : State) : exec .tbuild s = .next ((s.commitTree (treeOf s.freq)).complete Results.zero) := rfl

theorem exec_tbuild_finished {s t : State} (h : exec .tbuild s = .next t) :
    FinishedTree s.freq t.nodes ∧ t.nnode.toNat = treeSize s.freq := by
  obtain ⟨hnodes, hnnode⟩ := execTbuild_tree h
  rw [hnodes, hnnode, BitVec.toNat_ofNat, Nat.mod_eq_of_lt (treeSize_lt _)]
  exact ⟨finishedTree _, rfl⟩

theorem exec_ctgen_of_valid {s : State} (h : s.treeValid = true) :
    exec .ctgen s = .next ((s.commitCodes (codesOf s.nodes s.nnode.toNat)).complete Results.zero) := by
  show preChecked s (ctgenChecks s) false false _ = _
  unfold preChecked
  rw [ctgenChecks, h]
  rfl

theorem presentSymbols_single {f : FreqTable} {x : Byte} (hx : tableGet f x ≠ 0) (hy : ∀ y, y ≠ x → tableGet f y = 0) :
    presentSymbols f = [x] := by
  refine List.perm_singleton.1 ((List.perm_ext_iff_of_nodup (nodup_presentSymbols f) (List.nodup_singleton x)).2 fun y => ?_)
  rw [mem_presentSymbols, List.mem_singleton]
  exact ⟨fun h => by_contra fun hne => h (hy y hne), fun h => h ▸ hx⟩

theorem presentSymbols_none {f : FreqTable} (hf : ∀ y, tableGet f y = 0) : presentSymbols f = [] :=
  List.eq_nil_iff_forall_not_mem.2 fun y hy => mem_presentSymbols.1 hy (hf y)

theorem treeOf_of_no_symbols {f : FreqTable} (h : presentSymbols f = []) : treeOf f = NodeStore.empty := by
  rw [treeOf, tbuildInit, leavesOf, h]
  rfl

theorem codesOf_zero (nodes : NodeStore) : codesOf nodes 0 = CodeTable.empty := rfl

theorem codesOf_one (nodes : NodeStore) :
    codesOf nodes 1 = tableSet CodeTable.empty (nodeAt nodes 0).sym [false] := rfl

end Sys2Proof.Machine

open Sys2Proof Sys2Proof.Machine

/-- Settles O29: every merge of the finished tree is one of `MergesTo`. -/
theorem eachMergeTakesTheTwoLeastNodes : Obligations.EachMergeTakesTheTwoLeastNodes := by
  unfold Obligations.EachMergeTakesTheTwoLeastNodes
  intro s t j ht hj
  obtain ⟨htree, -⟩ := exec_tbuild_finished ht
  obtain ⟨a, b, hab⟩ := htree.merges j (by omega)
  exact ⟨a, b, hab.waiting_left, hab.waiting_right, hab.ne, hab.least_left, hab.least_right, hab.node⟩

/-- Settles O30: each property of R197 from the leaves and the merges of the finished tree. -/
theorem everyTreeIsAFullTreeOfItsSymbols : Obligations.EveryTreeIsAFullTreeOfItsSymbols := by
  unfold Obligations.EveryTreeIsAFullTreeOfItsSymbols
  intro s t ht hn n
  obtain ⟨htree, hnnode⟩ := exec_tbuild_finished ht
  have hsize : 2 * n - 1 = treeSize s.freq := by rw [treeSize_eq]; omega
  have hroot : 2 * n - 2 = treeSize s.freq - 1 := by omega
  rw [State.root, hnnode, hroot, hsize]
  refine ⟨htree.countP_leaf, htree.countP_internal, fun x hx => ?_, fun i hi => htree.leaf_present (htree.isLeaf_iff.1 hi),
    fun i j hi hj => htree.leaf_inj (htree.isLeaf_iff.1 hi) (htree.isLeaf_iff.1 hj), fun i hi heq => ?_, fun i hi => ?_,
    fun i => htree.parent, rfl, fun i hi => ?_, htree.root_weight hn, fun i j hi hj hij => ?_, fun s' t' hfreq ht' => ?_⟩
  · obtain ⟨i, hi, hnode⟩ := htree.leaf_of_present hx
    exact ⟨i, htree.isLeaf_iff.2 hi, hnode ▸ rfl⟩
  · obtain ⟨k, -, rfl, a, b, hab⟩ := htree.inner hi
    exact hab.ne (by rw [← hab.left_toNat, ← hab.right_toNat, heq])
  · obtain ⟨k, -, rfl, a, b, hab⟩ := htree.inner hi
    rw [hab.left_toNat, hab.right_toNat]
    exact ⟨hab.waiting_left.1, hab.waiting_right.1⟩
  · obtain ⟨k, -, rfl, a, b, hab⟩ := htree.inner hi
    rw [hab.left_toNat, hab.right_toNat, hab.weight]
  · obtain ⟨k, -, rfl, -⟩ := htree.inner hi
    obtain ⟨l, hl, rfl, -⟩ := htree.inner hj
    exact htree.merges.weight_le (by omega) hl
  · obtain ⟨hnodes, hcount⟩ := execTbuild_tree ht
    obtain ⟨hnodes', hcount'⟩ := execTbuild_tree ht'
    rw [hnodes, hcount, hnodes', hcount', hfreq]
    exact ⟨rfl, rfl⟩

/-- Settles O27: the commit of the finished tree. -/
theorem tbuildCompletes : Obligations.TbuildCompletes := by
  unfold Obligations.TbuildCompletes
  intro s
  have ht := execTbuild_eq s
  obtain ⟨htree, hnnode⟩ := exec_tbuild_finished ht
  refine ⟨_, ht, State.complete_completedOk .., hnnode, fun i hi => ?_, fun i hi => ?_, rfl, rfl, rfl, rfl, rfl,
    by constructor <;> rfl, rfl⟩
  · exact htree.rest i (hnnode ▸ hi)
  · exact htree.valid (hnnode ▸ hi)

/-- Settles O28: the symbols with a count stand in ascending order. -/
theorem tbuildPlacesTheLeavesInOrder : Obligations.TbuildPlacesTheLeavesInOrder := by
  unfold Obligations.TbuildPlacesTheLeavesInOrder
  intro s t x ht hx
  obtain ⟨htree, -⟩ := exec_tbuild_finished ht
  exact htree.leaves _ x (presentBelow_getElem? hx x.isLt)

/-- Settles O31: the trees of one leaf and of none, and CTGEN on them. -/
theorem degenerateTables : Obligations.DegenerateTables := by
  unfold Obligations.DegenerateTables
  refine ⟨fun s x hx hy => ?_, fun s hy hnsym => ?_⟩
  · have hp := presentSymbols_single hx hy
    have hcount : symbolCount s.freq = 1 := by rw [← length_presentSymbols, hp]; rfl
    have ht := execTbuild_eq s
    obtain ⟨htree, hnnode⟩ := exec_tbuild_finished ht
    rw [treeSize_eq, hcount] at hnnode
    have hleaf := htree.leaves 0 x (by rw [hp]; rfl)
    refine ⟨_, ht, rfl, rfl, BitVec.eq_of_toNat_eq hnnode, by rw [State.root, hnnode], hleaf,
      fun i hi => htree.rest i (by rw [treeSize_eq, hcount]; exact hi), _, exec_ctgen_of_valid rfl, rfl, ?_⟩
    rw [State.complete_codes, State.commitCodes_codes, hnnode, codesOf_one, hleaf]
    exact ⟨(tableGet_tableSet ..).trans (if_pos rfl), fun y hne =>
      ((tableGet_tableSet ..).trans (if_neg hne)).trans (tableGet_replicate ..)⟩
  · have hp := presentSymbols_none hy
    have hcount : symbolCount s.freq = 0 := by rw [← length_presentSymbols, hp]; rfl
    have ht := execTbuild_eq s
    obtain ⟨-, hnnode⟩ := exec_tbuild_finished ht
    rw [treeSize_eq, hcount] at hnnode
    refine ⟨_, ht, rfl, rfl, BitVec.eq_of_toNat_eq hnnode, treeOf_of_no_symbols hp, ?_, _, exec_ctgen_of_valid rfl, rfl,
      rfl, ?_⟩
    · rw [State.isEmpty_iff, State.complete_nsym, State.commitTree_nsym, hnsym]
      rfl
    · rw [State.complete_codes, State.commitCodes_codes, hnnode, codesOf_zero]

end

section
/-! PROOFS. The code table (R210 to R212): the codes of a subtree, the walk that assigns them, the trees that stand in the
store while it is built, and the finished table. -/

namespace Sys2Proof.Machine

/-! ### The codes of a subtree (R210) -/

/-- A symbol with its path, seen from the parent. -/
def underBit (b : Bool) (e : Byte × Code) : Byte × Code := (e.1, b :: e.2)

/-- The tree under a node, as the symbols of its leaves from left to right, each with the path to its leaf. -/
inductive Subtree (nodes : NodeStore) : Nat → List (Byte × Code) → Prop
  | leaf {i : Nat} (h : (nodeAt nodes i).internal = false) : Subtree nodes i [((nodeAt nodes i).sym, [])]
  | inner {i : Nat} {cs ds : List (Byte × Code)} (h : (nodeAt nodes i).internal = true)
      (hl : Subtree nodes (nodeAt nodes i).left.toNat cs) (hr : Subtree nodes (nodeAt nodes i).right.toNat ds) :
      Subtree nodes i (cs.map (underBit false) ++ ds.map (underBit true))

namespace Subtree
variable {nodes : NodeStore} {i : Nat} {cs : List (Byte × Code)}

theorem length_pos (h : Subtree nodes i cs) : 0 < cs.length := by
  induction h with
  | leaf => exact Nat.one_pos
  | inner _ _ _ ihl _ => rw [List.length_append, List.length_map]; omega

/-- A full tree is no deeper than one less than its leaves (R211). -/
theorem code_length_lt (h : Subtree nodes i cs) : ∀ e ∈ cs, e.2.length < cs.length := by
  induction h with
  | leaf => simp
  | inner _ hl hr ihl ihr =>
    have hlpos := hl.length_pos
    have hrpos := hr.length_pos
    intro e he
    rw [List.length_append, List.length_map, List.length_map]
    rcases List.mem_append.1 he with he | he
    · obtain ⟨k, hk, rfl⟩ := List.mem_map.1 he
      have hlen := ihl k hk
      rw [underBit, List.length_cons]
      omega
    · obtain ⟨k, hk, rfl⟩ := List.mem_map.1 he
      have hlen := ihr k hk
      rw [underBit, List.length_cons]
      omega

/-- Only a leaf is at the end of the empty path. -/
theorem code_ne_nil (h : Subtree nodes i cs) (hlen : 2 ≤ cs.length) : ∀ e ∈ cs, e.2 ≠ [] := by
  cases h with
  | leaf => simp at hlen
  | inner =>
    intro e he
    rcases List.mem_append.1 he with he | he <;> obtain ⟨_, -, rfl⟩ := List.mem_map.1 he <;> exact List.cons_ne_nil _ _

end Subtree

/-- The Kraft sum of codes, in units of `2^-d` (R212). -/
def kraftSum (d : Nat) (cs : List (Byte × Code)) : Nat := (cs.map fun e => 2 ^ (d - e.2.length)).sum

theorem kraftSum_underBit (d : Nat) (b : Bool) (cs : List (Byte × Code)) :
    kraftSum (d + 1) (cs.map (underBit b)) = kraftSum d cs := by
  simp [kraftSum, underBit, Function.comp_def]

theorem kraftSum_append (d : Nat) (cs ds : List (Byte × Code)) : kraftSum d (cs ++ ds) = kraftSum d cs + kraftSum d ds := by
  simp [kraftSum]

/-- Each of the two subtrees of a full tree has half the sum. -/
theorem Subtree.kraftSum_eq {nodes : NodeStore} {i : Nat} {cs : List (Byte × Code)} (h : Subtree nodes i cs) :
    ∀ {d : Nat}, cs.length ≤ d + 1 → kraftSum d cs = 2 ^ d := by
  induction h with
  | leaf => simp [kraftSum]
  | inner _ hl hr ihl ihr =>
    intro d hd
    have hlpos := hl.length_pos
    have hrpos := hr.length_pos
    rw [List.length_append, List.length_map, List.length_map] at hd
    obtain ⟨d, rfl⟩ : ∃ k, d = k + 1 := ⟨d - 1, by omega⟩
    rw [kraftSum_append, kraftSum_underBit, kraftSum_underBit, ihl (by omega), ihr (by omega), ← Nat.two_mul, Nat.pow_succ']

/-! ### The walk of a subtree (R211) -/

/-- The assignments `C[sym] <- path ++ code`, in order. -/
def setCodes (path : Code) (cs : List (Byte × Code)) (t : CodeTable) : CodeTable :=
  cs.foldl (fun t e => tableSet t e.1 (path ++ e.2)) t

theorem setCodes_cons (path : Code) (e : Byte × Code) (cs : List (Byte × Code)) (t : CodeTable) :
    setCodes path (e :: cs) t = setCodes path cs (tableSet t e.1 (path ++ e.2)) := rfl

theorem setCodes_append (path : Code) (cs ds : List (Byte × Code)) (t : CodeTable) :
    setCodes path (cs ++ ds) t = setCodes path ds (setCodes path cs t) := List.foldl_append

theorem setCodes_underBit (path : Code) (b : Bool) (cs : List (Byte × Code)) (t : CodeTable) :
    setCodes path (cs.map (underBit b)) t = setCodes (path ++ [b]) cs t := by
  simp [setCodes, underBit, List.foldl_map]

theorem tableGet_setCodes_of_notMem {path : Code} {x : Byte} {cs : List (Byte × Code)} (hx : x ∉ cs.map Prod.fst) :
    ∀ t : CodeTable, tableGet (setCodes path cs t) x = tableGet t x := by
  induction cs with
  | nil => exact fun _ => rfl
  | cons e cs ih =>
    intro t
    rw [List.map_cons, List.mem_cons, not_or] at hx
    rw [setCodes_cons, ih hx.2, tableGet_tableSet, if_neg hx.1]

theorem tableGet_setCodes_of_mem {path : Code} {cs : List (Byte × Code)} (hd : (cs.map Prod.fst).Nodup) :
    ∀ t : CodeTable, ∀ e ∈ cs, tableGet (setCodes path cs t) e.1 = path ++ e.2 := by
  induction cs with
  | nil => simp
  | cons k cs ih =>
    intro t e he
    rw [List.map_cons, List.nodup_cons] at hd
    rw [setCodes_cons]
    rcases List.mem_cons.1 he with rfl | he
    · rw [tableGet_setCodes_of_notMem hd.1, tableGet_tableSet, if_pos rfl]
    · exact ih hd.2 _ e he

section
variable {nodes : NodeStore} {i : Nat} {path : Code} {rest : List (Nat × Code)} {v : Nat} {t : CodeTable}

theorem visitAll_leaf (h : (nodeAt nodes i).internal = false) :
    visitAll nodes ⟨(i, path) :: rest, v + 1, t⟩ = visitAll nodes ⟨rest, v, tableSet t (nodeAt nodes i).sym path⟩ := by
  rw [← visitAll_visitOnce (Nat.succ_ne_zero v)]
  simp [visitOnce, h]

theorem visitAll_inner (h : (nodeAt nodes i).internal = true) :
    visitAll nodes ⟨(i, path) :: rest, v + 1, t⟩ =
      visitAll nodes ⟨((nodeAt nodes i).left.toNat, path ++ [false]) :: ((nodeAt nodes i).right.toNat, path ++ [true]) :: rest,
        v, t⟩ := by
  rw [← visitAll_visitOnce (Nat.succ_ne_zero v)]
  simp [visitOnce, h]

end

/-- The walk of a subtree sets its codes, in as many visits as it has nodes. -/
theorem Subtree.visitAll_eq {nodes : NodeStore} {i : Nat} {cs : List (Byte × Code)} (h : Subtree nodes i cs) :
    ∀ (path : Code) (rest : List (Nat × Code)) (v : Nat) (t : CodeTable),
      visitAll nodes ⟨(i, path) :: rest, 2 * cs.length - 1 + v, t⟩ = visitAll nodes ⟨rest, v, setCodes path cs t⟩ := by
  induction h with
  | leaf h =>
    intro path rest v t
    rw [List.length_singleton, Nat.add_comm, visitAll_leaf h, setCodes_cons, List.append_nil]
    rfl
  | @inner i cs ds h hl hr ihl ihr =>
    intro path rest v t
    have hlpos := hl.length_pos
    have hrpos := hr.length_pos
    rw [List.length_append, List.length_map, List.length_map,
      show 2 * (cs.length + ds.length) - 1 + v = 2 * cs.length - 1 + (2 * ds.length - 1 + v) + 1 by omega,
      visitAll_inner h, ihl, ihr, setCodes_append, setCodes_underBit, setCodes_underBit]

/-! ### The trees that stand after each merge (R194, R212) -/

/-- The trees under the waiting nodes after `j` merges: together their leaves are the symbols with a count, each once. -/
structure Forest (f : FreqTable) (nodes : NodeStore) (j : Nat) (F : List (Nat × List (Byte × Code))) : Prop where
  subtree : ∀ e ∈ F, Subtree nodes e.1 e.2
  roots : ∀ q, q ∈ F.map Prod.fst ↔ waiting nodes (symbolCount f) j q
  nodup : (F.map Prod.fst).Nodup
  symbols : (F.flatMap fun e => e.2.map Prod.fst).Perm (presentSymbols f)

namespace Forest
variable {f : FreqTable} {nodes : NodeStore} {j : Nat} {F G : List (Nat × List (Byte × Code))}

theorem perm (h : Forest f nodes j F) (hp : F.Perm G) : Forest f nodes j G where
  subtree e he := h.subtree e (hp.mem_iff.2 he)
  roots q := (hp.map Prod.fst).mem_iff.symm.trans (h.roots q)
  nodup := (hp.map Prod.fst).nodup_iff.1 h.nodup
  symbols := (hp.flatMap_right _).symm.trans h.symbols

/-- Any two waiting nodes can be brought to the front. -/
theorem split (h : Forest f nodes j F) {a b : Nat} (ha : waiting nodes (symbolCount f) j a)
    (hb : waiting nodes (symbolCount f) j b) (hab : a ≠ b) :
    ∃ cs ds G, Forest f nodes j ((a, cs) :: (b, ds) :: G) := by
  obtain ⟨⟨a, cs⟩, hcs, rfl⟩ := List.mem_map.1 ((h.roots a).2 ha)
  obtain ⟨⟨b, ds⟩, hds, rfl⟩ := List.mem_map.1 ((h.roots b).2 hb)
  have hds' : (b, ds) ∈ F.erase (a, cs) := (List.mem_erase_of_ne fun hc => hab (congrArg Prod.fst hc).symm).2 hds
  exact ⟨cs, ds, _, h.perm ((List.perm_cons_erase hcs).trans ((List.perm_cons_erase hds').cons _))⟩

/-- A merge joins two of the trees. -/
theorem merge {a b : Nat} {cs ds : List (Byte × Code)} (h : Forest f nodes j ((a, cs) :: (b, ds) :: G))
    (hab : MergeAt nodes (symbolCount f) j a b) (hm : MergesTo nodes (symbolCount f) j) :
    Forest f nodes (j + 1) ((symbolCount f + j, cs.map (underBit false) ++ ds.map (underBit true)) :: G) := by
  obtain ⟨hsub, hroots, hnodup, hsymbols⟩ := h
  simp only [List.forall_mem_cons] at hsub
  obtain ⟨hcs, hds, hG⟩ := hsub
  simp only [List.map_cons, List.nodup_cons, List.mem_cons, not_or] at hnodup
  obtain ⟨⟨-, haG⟩, hbG, hnodup⟩ := hnodup
  have hroot : ∀ q ∈ G.map Prod.fst, waiting nodes (symbolCount f) j q := fun q hq =>
    (hroots q).1 (List.mem_cons_of_mem _ (List.mem_cons_of_mem _ hq))
  refine ⟨?_, fun q => ?_, ?_, ?_⟩
  · rw [List.forall_mem_cons]
    exact ⟨.inner hab.internal (hab.left_toNat.symm ▸ hcs) (hab.right_toNat.symm ▸ hds), hG⟩
  · rw [waiting_succ hab hm, ← hroots]
    simp only [List.map_cons, List.mem_cons]
    have hqa : q ∈ G.map Prod.fst → q ≠ a := fun hq hc => haG (hc ▸ hq)
    have hqb : q ∈ G.map Prod.fst → q ≠ b := fun hq hc => hbG (hc ▸ hq)
    tauto
  · rw [List.map_cons, List.nodup_cons]
    exact ⟨fun hq => Nat.lt_irrefl _ (hroot _ hq).1, hnodup⟩
  · simpa [underBit, Function.comp_def] using hsymbols

end Forest

section
variable {f : FreqTable} {nodes : NodeStore} (h : FinishedTree f nodes)
include h

/-- The symbols of the leaves are the symbols with a count, in order. -/
theorem FinishedTree.map_sym : (List.range (symbolCount f)).map (fun i => (nodeAt nodes i).sym) = presentSymbols f := by
  refine List.ext_getElem? fun i => ?_
  rw [List.getElem?_map]
  rcases Nat.lt_or_ge i (symbolCount f) with hlt | hge
  · obtain ⟨x, hx, hnode⟩ := h.leaf hlt
    rw [hx, List.getElem?_range hlt, Option.map_some, hnode]
    rfl
  · rw [List.getElem?_eq_none (by simpa using hge), List.getElem?_eq_none (by simpa [length_presentSymbols] using hge)]
    rfl

/-- Before the first merge each leaf is a tree. -/
theorem FinishedTree.forest_zero :
    Forest f nodes 0 ((List.range (symbolCount f)).map fun i => (i, [((nodeAt nodes i).sym, [])])) where
  subtree e he := by
    obtain ⟨i, hi, rfl⟩ := List.mem_map.1 he
    exact .leaf (h.isLeaf_iff.2 (List.mem_range.1 hi)).2
  roots q := by simp [waiting_zero]
  nodup := by simp [Function.comp_def, List.nodup_range]
  symbols := by simp [List.flatMap_map, ← List.map_eq_flatMap, h.map_sym]

theorem FinishedTree.forest {j : Nat} (hj : j ≤ symbolCount f - 1) : ∃ F, Forest f nodes j F := by
  induction j with
  | zero => exact ⟨_, h.forest_zero⟩
  | succ j ih =>
    obtain ⟨F, hF⟩ := ih (by omega)
    obtain ⟨a, b, hab⟩ := h.merges j (by omega)
    obtain ⟨cs, ds, G, hG⟩ := hF.split hab.waiting_left hab.waiting_right hab.ne
    exact ⟨_, hG.merge hab (h.merges.mono (by omega))⟩

/-- In the end one tree stands, the root's. -/
theorem FinishedTree.subtree_root (hn : 1 ≤ symbolCount f) :
    ∃ cs, Subtree nodes (treeSize f - 1) cs ∧ (cs.map Prod.fst).Perm (presentSymbols f) := by
  obtain ⟨F, hF⟩ := h.forest le_rfl
  have hroots : F.map Prod.fst = [treeSize f - 1] := by
    refine List.perm_singleton.1 ((List.perm_ext_iff_of_nodup hF.nodup (List.nodup_singleton _)).2 fun q => ?_)
    rw [hF.roots, List.mem_singleton]
    refine ⟨h.waiting_root q, fun hq => ?_⟩
    rw [hq, treeSize_eq]
    exact h.merges.waiting_newest hn
  obtain ⟨⟨i, cs⟩, rfl, hi⟩ := List.map_eq_singleton_iff.1 hroots
  obtain rfl : i = treeSize f - 1 := hi
  exact ⟨cs, hF.subtree _ List.mem_cons_self, by simpa using hF.symbols⟩

end

/-! ### The finished code table (R212) -/

/-- The codes of a table's symbols: each symbol with a count once, a code of 1 to 255 bits, and the Kraft sum. -/
structure CodeList (f : FreqTable) (cs : List (Byte × Code)) : Prop where
  symbols : (cs.map Prod.fst).Perm (presentSymbols f)
  ne_nil : ∀ e ∈ cs, e.2 ≠ []
  length_le : ∀ e ∈ cs, e.2.length ≤ 255
  kraft_many : 2 ≤ symbolCount f → kraftSum 255 cs = 2 ^ 255
  kraft_one : symbolCount f = 1 → kraftSum 255 cs = 2 ^ 254

theorem Subtree.codeList {f : FreqTable} {nodes : NodeStore} {i : Nat} {cs : List (Byte × Code)}
    (h : Subtree nodes i cs) (hcs : (cs.map Prod.fst).Perm (presentSymbols f)) (hn : 2 ≤ symbolCount f) :
    CodeList f cs := by
  have hlen : cs.length = symbolCount f := by rw [← length_presentSymbols, ← hcs.length_eq, List.length_map]
  have hle := symbolCount_le f
  refine ⟨hcs, h.code_ne_nil (by omega), fun e he => ?_, fun _ => h.kraftSum_eq (by omega), fun h1 => by omega⟩
  have hlt := h.code_length_lt e he
  omega

/-- The codes CTGEN assigns on the tree of a table (R211). -/
theorem FinishedTree.codesOf_eq {f : FreqTable} {nodes : NodeStore} (h : FinishedTree f nodes) :
    ∃ cs, CodeList f cs ∧ codesOf nodes (treeSize f) = setCodes [] cs CodeTable.empty := by
  have hsize := treeSize_eq f
  rcases Nat.lt_trichotomy (symbolCount f) 1 with h0 | h1 | h2
  · have hnil : presentSymbols f = [] := List.length_eq_zero_iff.1 (by rw [length_presentSymbols]; omega)
    refine ⟨[], ⟨by rw [hnil]; rfl, by simp, by simp, by omega, by omega⟩, ?_⟩
    rw [show treeSize f = 0 by omega, codesOf_zero]
    rfl
  · have hsym := h.map_sym
    rw [h1] at hsym
    refine ⟨[((nodeAt nodes 0).sym, [false])], ⟨by rw [← hsym]; rfl, by simp, by simp, by omega,
      fun _ => by simp [kraftSum]⟩, ?_⟩
    rw [show treeSize f = 1 by omega, codesOf_one]
    rfl
  · obtain ⟨cs, hsub, hcs⟩ := h.subtree_root (by omega)
    refine ⟨cs, hsub.codeList hcs h2, ?_⟩
    have hvisits : treeSize f = 2 * cs.length - 1 + 0 := by
      rw [← List.length_map Prod.fst, hcs.length_eq, length_presentSymbols]
      omega
    calc codesOf nodes (treeSize f)
      _ = visitAll nodes ⟨[(treeSize f - 1, [])], 2 * cs.length - 1 + 0, CodeTable.empty⟩ := by
        rw [codesOf, ctgenInit, if_neg (by omega), if_pos (by omega), ← hvisits]
      _ = visitAll nodes ⟨[], 0, setCodes [] cs CodeTable.empty⟩ := hsub.visitAll_eq ..
      _ = setCodes [] cs CodeTable.empty := rfl

theorem codeTable_toList (c : CodeTable) : c.toList = ((List.range 256).map (BitVec.ofNat 8)).map (tableGet c) := by
  refine List.ext_getElem (by simp) fun i hi _ => ?_
  rw [Vector.length_toList] at hi
  simp [tableGet, Nat.mod_eq_of_lt hi]

/-- The codes in a table are those of its symbols with a count. -/
theorem toList_filter_codes {f : FreqTable} {c : CodeTable} (h : ∀ x, tableGet c x = [] ↔ tableGet f x = 0) :
    (c.toList.filter fun k => !k.isEmpty) = (presentSymbols f).map (tableGet c) := by
  rw [codeTable_toList, List.filter_map, presentSymbols]
  congr 1
  refine List.filter_congr fun x _ => ?_
  rw [Bool.eq_iff_iff]
  simp [h]

section
variable {f : FreqTable} {cs : List (Byte × Code)} (h : CodeList f cs)
include h

theorem CodeList.tableGet_setCodes {e : Byte × Code} (he : e ∈ cs) :
    tableGet (setCodes [] cs CodeTable.empty) e.1 = e.2 :=
  tableGet_setCodes_of_mem (h.symbols.nodup_iff.2 (nodup_presentSymbols f)) _ e he

theorem CodeList.mem_of_present {x : Byte} (hx : tableGet f x ≠ 0) :
    (x, tableGet (setCodes [] cs CodeTable.empty) x) ∈ cs := by
  obtain ⟨e, he, rfl⟩ := List.mem_map.1 (h.symbols.mem_iff.2 (mem_presentSymbols.2 hx))
  rw [h.tableGet_setCodes he]
  exact he

theorem CodeList.tableGet_of_absent {x : Byte} (hx : tableGet f x = 0) :
    tableGet (setCodes [] cs CodeTable.empty) x = [] := by
  rw [tableGet_setCodes_of_notMem fun hc => mem_presentSymbols.1 (h.symbols.mem_iff.1 hc) hx]
  exact tableGet_replicate ..

theorem CodeList.tableGet_eq_nil_iff (x : Byte) :
    tableGet (setCodes [] cs CodeTable.empty) x = [] ↔ tableGet f x = 0 :=
  ⟨fun hx => by_contra fun hne => h.ne_nil _ (h.mem_of_present hne) hx, h.tableGet_of_absent⟩

/-- The Kraft sum of the table is that of its codes. -/
theorem CodeList.kraftSum_eq :
    (((setCodes [] cs CodeTable.empty).toList.filter fun k => !k.isEmpty).map fun k => 2 ^ (255 - k.length)).sum =
      kraftSum 255 cs := by
  rw [toList_filter_codes h.tableGet_eq_nil_iff, List.map_map, ← (h.symbols.map _).sum_eq, List.map_map, kraftSum]
  refine congrArg List.sum (List.map_congr_left fun e he => ?_)
  rw [Function.comp_apply, Function.comp_apply, h.tableGet_setCodes he]

end

/-- What CTGEN makes of a valid tree, in a state of the invariant. -/
theorem State.Inv.codesOf_eq {s : State} (h : s.Inv) (ht : s.treeValid = true) :
    ∃ cs, CodeList s.freq cs ∧ codesOf s.nodes s.nnode.toNat = setCodes [] cs CodeTable.empty := by
  obtain ⟨hnnode, hnodes⟩ := h.tree ht
  rw [hnnode, hnodes]
  exact (finishedTree s.freq).codesOf_eq

/-- The table in use is the one CTGEN makes of the tree. -/
theorem State.Inv.codes_eq {s : State} (h : s.Inv) (hc : s.codeValid = true) :
    ∃ cs, CodeList s.freq cs ∧ s.codes = setCodes [] cs CodeTable.empty := by
  rw [h.codes hc]
  exact h.codesOf_eq (h.codesNeedTree hc)

/-- A path to a leaf starts no path to another leaf: the walk ends there. -/
theorem LeafPath.eq_of_prefix {nodes : NodeStore} {root : Nat} {c d : Code} {x y : Byte} (hc : LeafPath nodes root c x)
    (hd : LeafPath nodes root d y) (hcd : c <+: d) : x = y := by
  obtain ⟨i, hi, hleaf, hx⟩ := hc
  obtain ⟨j, hj, -, hy⟩ := hd
  obtain ⟨r, rfl⟩ := hcd
  rw [descend_append, hi, Option.bind_some] at hj
  cases r with
  | nil =>
    cases hj
    exact hx.symm.trans hy
  | cons b r =>
    rw [descend, hleaf] at hj
    cases hj

/-- Of the codes of any node store none starts another (R212). -/
theorem codesOf_prefix_free {nodes : NodeStore} {nnode : Nat} {x y : Byte} (hx : tableGet (codesOf nodes nnode) x ≠ [])
    (hy : tableGet (codesOf nodes nnode) y ≠ [])
    (h : tableGet (codesOf nodes nnode) x <+: tableGet (codesOf nodes nnode) y) : x = y := by
  rcases codesOf_path hx with ⟨hn, -, hx⟩ | ⟨hn, hx⟩ <;> rcases codesOf_path hy with ⟨hm, -, hy⟩ | ⟨hm, hy⟩
  · exact hx.symm.trans hy
  · omega
  · omega
  · exact hx.eq_of_prefix hy h

end Sys2Proof.Machine

open Sys2Proof Sys2Proof.Machine

/-- Settles O33: the list of the codes says which symbols have one and how long it is, and a code is a path. -/
theorem codesArePathsToLeaves : Obligations.CodesArePathsToLeaves := by
  unfold Obligations.CodesArePathsToLeaves
  intro s t hs hv ht x
  rw [exec_ctgen_of_valid hv] at ht
  cases ht
  obtain ⟨hnnode, -⟩ := hs.tree hv
  rw [treeSize_eq] at hnnode
  obtain ⟨cs, hcs, hcodes⟩ := hs.codesOf_eq hv
  rw [State.complete_codes, State.commitCodes_codes]
  refine ⟨fun hx => hcodes ▸ hcs.tableGet_of_absent hx, fun hx => ?_⟩
  have hmem := hcs.mem_of_present hx
  rw [← hcodes] at hmem
  have hne := hcs.ne_nil _ hmem
  refine ⟨hne, hcs.length_le _ hmem, fun h1 => ?_, fun h2 => ?_⟩
  · rcases codesOf_path hne with ⟨-, hc, -⟩ | ⟨hn, -⟩
    · exact hc
    · omega
  · rcases codesOf_path hne with ⟨hn, -⟩ | ⟨-, hpath⟩
    · omega
    · exact hpath

/-- Settles O34: both codes are there, and codes of one tree have no common start. -/
theorem codesAreFreeOfCommonStarts : Obligations.CodesAreFreeOfCommonStarts := by
  unfold Obligations.CodesAreFreeOfCommonStarts
  intro s hs hv x y hxy hx hy hprefix
  obtain ⟨cs, hcs, hcodes⟩ := hs.codes_eq hv
  have hne : ∀ z, tableGet s.freq z ≠ 0 → tableGet s.codes z ≠ [] := fun z hz =>
    hcodes ▸ (hcs.tableGet_eq_nil_iff z).not.2 hz
  rw [hs.codes hv] at hne hprefix
  exact hxy (codesOf_prefix_free (hne x hx) (hne y hy) hprefix)

/-- Settles O35: the table's sum is that of the codes of the root's subtree. -/
theorem kraftSumOfTheCodeTable : Obligations.KraftSumOfTheCodeTable := by
  unfold Obligations.KraftSumOfTheCodeTable
  intro s hs hv kraft
  obtain ⟨cs, hcs, hcodes⟩ := hs.codes_eq hv
  have hkraft : kraft = kraftSum 255 cs := by rw [← hcs.kraftSum_eq, ← hcodes]
  rw [hkraft]
  exact ⟨hcs.kraft_many, hcs.kraft_one⟩

/-- Settles O32: the commit of the codes of the tree, whatever the node store holds. -/
theorem ctgenCompletesOnAValidTree : Obligations.CtgenCompletesOnAValidTree := by
  unfold Obligations.CtgenCompletesOnAValidTree
  intro s hv
  have ht := exec_ctgen_of_valid hv
  exact ⟨_, ht, State.complete_completedOk .., rfl, rfl, rfl, rfl, rfl, rfl, rfl, (exec_endState ht).host, rfl⟩

end

section
/-! PROOFS. The bit packer (R225 to R230): the payload byte by byte, PACK of a source up to the first thing that stops it,
and the number of bits it reports. -/

namespace Sys2Proof.Machine

/-! ### The payload (R226) -/

/-- The number with the `n` binary digits `f 0`, `f 1`, ..., most significant first. -/
def digitSum (f : Nat → Bool) (n : Nat) : Nat := ((List.range n).map fun t => (f t).toNat * 2 ^ (n - 1 - t)).sum

theorem digitSum_succ (f : Nat → Bool) (n : Nat) : digitSum f (n + 1) = 2 * digitSum f n + (f n).toNat := by
  have hdouble : ∀ t ∈ List.range n, (f t).toNat * 2 ^ (n + 1 - 1 - t) = 2 * ((f t).toNat * 2 ^ (n - 1 - t)) :=
    fun t ht => by
      rw [show n + 1 - 1 - t = n - 1 - t + 1 by have := List.mem_range.1 ht; omega, Nat.pow_succ]
      ring
  rw [digitSum, List.range_succ, List.map_append, List.sum_append, List.map_congr_left hdouble, List.sum_map_mul_left]
  simp [digitSum]

theorem testBit_digitSum (f : Nat → Bool) : ∀ {n k : Nat}, k < n → (digitSum f n).testBit k = f (n - 1 - k) := by
  intro n
  induction n with
  | zero => exact fun h => absurd h (Nat.not_lt_zero _)
  | succ n ih =>
    intro k hk
    rw [digitSum_succ]
    cases k with
    | zero => cases h : f n <;> simp [h]
    | succ k =>
      rw [Nat.testBit_succ, Nat.mul_add_div two_pos, Nat.div_eq_of_lt (Bool.toNat_lt _), Nat.add_zero,
        ih (Nat.lt_of_succ_lt_succ hk)]
      exact congrArg f (by omega)

/-- Bit `k` of payload byte `j` is stream bit `8j + (7 - k)`. -/
theorem getLsbD_payloadByte (bits : List Bool) (j : Nat) {k : Nat} (hk : k < 8) :
    (payloadByte bits j).getLsbD k = bits.getD (8 * j + (7 - k)) false := by
  show (BitVec.ofNat 8 (digitSum (fun t => bits.getD (8 * j + t) false) 8)).getLsbD k = _
  rw [BitVec.getLsbD_ofNat, testBit_digitSum _ hk, decide_eq_true hk, Bool.true_and]

/-- A payload byte past the end is zero. -/
theorem payloadByte_past_end {bits : List Bool} {j : Nat} (h : bits.length ≤ 8 * j) : payloadByte bits j = 0 := by
  refine BitVec.eq_of_getLsbD_eq fun k hk => ?_
  rw [getLsbD_payloadByte bits j hk, List.getD_eq_default _ _ (by omega)]
  exact BitVec.getLsbD_zero.symm

/-- More bits leave the whole bytes as they are. -/
theorem payloadByte_append {bits : List Bool} {j : Nat} (h : 8 * j + 8 ≤ bits.length) (cs : List Bool) :
    payloadByte (bits ++ cs) j = payloadByte bits j := by
  refine BitVec.eq_of_getLsbD_eq fun k hk => ?_
  rw [getLsbD_payloadByte _ j hk, getLsbD_payloadByte _ j hk, List.getD_append _ _ _ _ (by omega)]

theorem getD_concat (bits : List Bool) (b : Bool) (i : Nat) :
    (bits ++ [b]).getD i false = (bits.getD i false || decide (i = bits.length) && b) := by
  rcases Nat.lt_trichotomy i bits.length with hlt | rfl | hgt
  · rw [List.getD_append _ _ _ _ hlt, decide_eq_false hlt.ne, Bool.false_and, Bool.or_false]
  · simp
  · rw [List.getD_eq_default _ _ (by simp; omega), List.getD_eq_default _ _ hgt.le, decide_eq_false hgt.ne']
    rfl

theorem getLsbD_bit_shiftLeft (b : Bool) (r : Nat) {k : Nat} (hk : k < 8) :
    ((BitVec.ofBool b).setWidth 8 <<< r).getLsbD k = (decide (k = r) && b) := by
  rcases Nat.lt_trichotomy k r with hlt | rfl | hgt
  · simp [hlt, hlt.ne]
  · simp [hk]
  · simp [hgt.ne', hk, Nat.sub_ne_zero_of_lt hgt]

/-- PACK's accumulator, moved to the top of a byte, takes one more bit as the last, unfilled payload byte does. -/
theorem payloadByte_concat {bits : List Bool} {acc : Byte}
    (h : acc <<< (8 - bits.length % 8) = payloadByte bits (bits.length / 8)) (b : Bool) :
    ((acc <<< 1) ||| (BitVec.ofBool b).setWidth 8) <<< (7 - bits.length % 8) =
      payloadByte (bits ++ [b]) (bits.length / 8) := by
  have hshift : (acc <<< 1) <<< (7 - bits.length % 8) = payloadByte bits (bits.length / 8) := by
    rw [← h, ← BitVec.shiftLeft_add, show 1 + (7 - bits.length % 8) = 8 - bits.length % 8 by omega]
  rw [BitVec.shiftLeft_or_distrib, hshift]
  refine BitVec.eq_of_getLsbD_eq fun k hk => ?_
  have hlast : k = 7 - bits.length % 8 ↔ 8 * (bits.length / 8) + (7 - k) = bits.length := by omega
  rw [BitVec.getLsbD_or, getLsbD_bit_shiftLeft _ _ hk, getLsbD_payloadByte _ _ hk, getLsbD_payloadByte _ _ hk,
    getD_concat, decide_eq_decide.2 hlast]

/-- The whole bytes of a bit stream: what PACK has emitted after these code bits. -/
def wholeBytes (bits : List Bool) : List Byte := (List.range (bits.length / 8)).map (payloadByte bits)

theorem length_wholeBytes (bits : List Bool) : (wholeBytes bits).length = bits.length / 8 := by simp [wholeBytes]

/-- A bit that fills a byte adds it. -/
theorem wholeBytes_concat_full {bits : List Bool} (h : bits.length % 8 = 7) (b : Bool) :
    wholeBytes (bits ++ [b]) = wholeBytes bits ++ [payloadByte (bits ++ [b]) (bits.length / 8)] := by
  rw [wholeBytes, List.length_append, List.length_singleton, show (bits.length + 1) / 8 = bits.length / 8 + 1 by omega,
    List.range_succ, List.map_append, List.map_singleton]
  refine congrArg (· ++ _) ?_
  exact List.map_congr_left fun j hj => payloadByte_append (by have := List.mem_range.1 hj; omega) _

/-- A bit that fills no byte adds none. -/
theorem wholeBytes_concat_partial {bits : List Bool} (h : bits.length % 8 ≠ 7) (b : Bool) :
    wholeBytes (bits ++ [b]) = wholeBytes bits := by
  rw [wholeBytes, List.length_append, List.length_singleton, show (bits.length + 1) / 8 = bits.length / 8 by omega]
  exact List.map_congr_left fun j hj => payloadByte_append (by have := List.mem_range.1 hj; omega) _

/-- The payload is the whole bytes and the last, unfilled one, if there is one. -/
theorem payloadOf_eq_wholeBytes (bits : List Bool) :
    payloadOf bits =
      wholeBytes bits ++ if bits.length % 8 = 0 then [] else [payloadByte bits (bits.length / 8)] := by
  rw [payloadOf]
  split
  · rw [show (bits.length + 7) / 8 = bits.length / 8 by omega, List.append_nil, wholeBytes]
  · rw [show (bits.length + 7) / 8 = bits.length / 8 + 1 by omega, List.range_succ, List.map_append, wholeBytes,
      List.map_singleton]

theorem length_payloadOf (bits : List Bool) : (payloadOf bits).length = (bits.length + 7) / 8 := by simp [payloadOf]

/-! ### What can stop PACK (R227) -/

/-- The latched buffers fit and share no byte, and no duty of R115 was broken. -/
structure State.PlainBuffers (s : State) : Prop where
  srcFits : s.SrcFits
  dstFits : s.DstFits
  apart : s.BuffersApart
  raced : s.raced = false

/-- Nothing stops PACK of the first `m` source bytes into `n` bytes. -/
structure State.PackClear (s : State) (m n : Nat) : Prop where
  readable : s.SrcReadable m
  coded : ∀ x ∈ s.sourceBytes.take m, tableGet s.codes x ≠ []
  room : n ≤ s.latch.dstCap.toNat
  writable : s.DstWritable n

/-- An error, raised as something stops PACK of the first `m` source bytes into `n` bytes. -/
def PackFails (s : State) (m n : Nat) (e : Raise) (_ : Port) : Prop := e.code ≠ .none ∧ ¬ s.PackClear m n

/-- A result none of whose raises can be. -/
theorem Result.All.exists_ok {α : Type} {P : α → Port → Prop} {Q : Raise → Port → Prop} {r : Result α} (h : r.All P Q)
    (hq : ∀ e p, ¬ Q e p) : ∃ a p, r = .ok a p ∧ P a p := by
  cases r with
  | ok a p => exact ⟨a, p, rfl, h⟩
  | raise e p => exact absurd h (hq e p)

theorem Stores.mono {s : State} {n n' i : Nat} {vs : List Byte} {p q : Port} (h : Stores s n i vs p q) (hn : n ≤ n') :
    Stores s n' i vs p q :=
  ⟨h.bytes, h.within.mono le_rfl (by omega)⟩

section
variable {s : State} {m n : Nat} {p : Port}

/-- What was written lies in the destination buffer, so a source byte reads as before the command. -/
theorem memRead1_apart (h : s.PlainBuffers) (hp : s.WithinDst s.port p) {i : Nat} (hi : i < s.latch.srcLen.toNat)
    (hf : s.platform.memFault (s.srcAt i) .read = false) : memRead1 s (s.srcAt i) p = .ok (s.srcByte i) p := by
  have hs : s.latch.srcAddr.toNat + s.latch.srcLen.toNat ≤ 2 ^ 32 := h.srcFits
  have hout : s.latch.srcAddr.toNat + i < s.latch.dstAddr.toNat ∨
      s.latch.dstAddr.toNat + s.latch.dstCap.toNat ≤ s.latch.srcAddr.toNat + i := by
    rcases h.apart with h0 | h0 | h0 | h0
    · simp [h0] at hi
    · simp [h0]; omega
    · exact .inr (by omega)
    · exact .inl (by omega)
  rw [memRead1_ok hf h.raced, State.srcAt_toNat (by omega), hp.read _ hout]
  rfl

theorem memRead1_packs (h : s.PlainBuffers) (hp : s.WithinDst s.port p) {i : Nat} (hi : i < m)
    (hm : m ≤ s.latch.srcLen.toNat) :
    (memRead1 s (s.srcAt i) p).All (fun b q => b = s.srcByte i ∧ q = p) (PackFails s m n) := by
  cases hf : s.platform.memFault (s.srcAt i) .read with
  | false =>
    rw [memRead1_apart h hp (by omega) hf]
    exact ⟨rfl, rfl⟩
  | true =>
    rw [memRead1_fault hf]
    refine ⟨by simp, fun hc => ?_⟩
    rw [s.srcAt_eq, hc.readable i hi] at hf
    cases hf

/-- `emit` appends one byte to the bytes written so far, unless no byte fits or the write fails. -/
theorem emit_packs (hd : s.DstFits) {vs : List Byte} (hcap : vs.length ≤ s.latch.dstCap.toNat)
    (hs : Stores s vs.length 0 vs s.port p) (hn : vs.length < n) (v : Byte) :
    (emit s vs.length v p).All (fun out q => out = vs.length + 1 ∧ out ≤ s.latch.dstCap.toNat ∧
      Stores s out 0 (vs ++ [v]) s.port q) (PackFails s m n) := by
  have hd' : s.latch.dstAddr.toNat + s.latch.dstCap.toNat ≤ 2 ^ 32 := hd
  rw [emit]
  split
  · exact ⟨by simp, fun hc => by have := hc.room; omega⟩
  · next hroom =>
    have hw := memWrite1_stores (s := s) (p := p) v (Nat.lt_succ_self vs.length) (by omega)
    refine (hw.mono (fun _ _ hq => hq) fun e _ he => (⟨by simp [he.1], fun hc => he.2 fun i hi =>
      hc.writable i (by omega)⟩ : PackFails s m n e p)).bind fun _ q hq => ⟨rfl, by omega, ?_⟩
    exact (hs.mono (Nat.le_succ _)).trans (by rwa [Nat.zero_add])

end

/-! ### PACK of a source (R227, R229) -/

/-- The code bits of the first `k` source bytes. -/
def State.bitsTo (s : State) (k : Nat) : List Bool := codeStream s.codes (s.sourceBytes.take k)

theorem bitsTo_all (s : State) : s.bitsTo s.latch.srcLen.toNat = codeStream s.codes s.sourceBytes := by
  rw [State.bitsTo, ← length_sourceBytes, List.take_length]

theorem bitsTo_succ (s : State) {k : Nat} (hk : k < s.latch.srcLen.toNat) :
    s.bitsTo (k + 1) = s.bitsTo k ++ tableGet s.codes (s.srcByte k) := by
  rw [← length_sourceBytes] at hk
  unfold State.bitsTo codeStream
  rw [← List.take_concat_get' _ _ hk, List.flatMap_append, getElem_sourceBytes s hk, List.flatMap_singleton]

theorem length_bitsTo_mono (s : State) {k m : Nat} (h : k ≤ m) : (s.bitsTo k).length ≤ (s.bitsTo m).length :=
  ((List.take_prefix_take_left h).flatMap _).length_le

/-- What stands after the code bits `bits` (R227): the whole bytes are written, the rest waits in the accumulator. -/
structure Packed (s : State) (bits : List Bool) (w : PackWork) (p : Port) : Prop where
  counts : PackedBits w bits.length
  pending : w.acc <<< (8 - bits.length % 8) = payloadByte bits (bits.length / 8)
  room : w.out ≤ s.latch.dstCap.toNat
  stores : Stores s w.out 0 (wholeBytes bits) s.port p

theorem Packed.start (s : State) : Packed s [] packInit s.port where
  counts := ⟨rfl, rfl, rfl⟩
  pending := rfl
  room := Nat.zero_le _
  stores := .nil ..

section
variable {s : State} {m n : Nat} {bits : List Bool} {w : PackWork} {p : Port}

theorem Packed.within (h : Packed s bits w p) : s.WithinDst s.port p :=
  h.stores.within.mono le_rfl (by have := h.room; omega)

theorem Packed.with_i (h : Packed s bits w p) (i : Nat) : Packed s bits { w with i := i } p where
  counts := ⟨h.counts.nbits, h.counts.nacc, h.counts.out⟩
  pending := h.pending
  room := h.room
  stores := h.stores

theorem packBit_packs (hd : s.DstFits) (hw : Packed s bits w p) (b : Bool) (hn : (bits.length + 1) / 8 ≤ n) :
    (packBit s p w b).All (Packed s (bits ++ [b])) (PackFails s m n) := by
  obtain ⟨⟨hbits, hnacc, hout⟩, hacc, hroom, hstores⟩ := hw
  have hlen : (bits ++ [b]).length = bits.length + 1 := List.length_append
  have hnext := payloadByte_concat hacc b
  unfold packBit
  simp only
  split
  · next hfull =>
    have h7 : bits.length % 8 = 7 := by omega
    rw [← length_wholeBytes] at hout
    rw [h7, Nat.sub_self, BitVec.shiftLeft_zero] at hnext
    rw [hnext]
    rw [hout] at hroom hstores ⊢
    refine (emit_packs hd hroom hstores (by rw [length_wholeBytes]; omega) _).bind fun out q ⟨ho, hcap, hq⟩ => ?_
    rw [length_wholeBytes] at ho
    refine ⟨⟨?_, ?_, ?_⟩, ?_, hcap, wholeBytes_concat_full h7 b ▸ hq⟩ <;> rw [hlen]
    · exact congrArg (· + 1) hbits
    · show 0 = _; omega
    · show out = _; omega
    · rw [payloadByte_past_end (by omega)]; exact BitVec.zero_shiftLeft ..
  · next hpart =>
    have h7 : bits.length % 8 ≠ 7 := by omega
    refine ⟨⟨?_, ?_, ?_⟩, ?_, hroom, (wholeBytes_concat_partial h7 b).symm ▸ hstores⟩ <;> rw [hlen]
    · exact congrArg (· + 1) hbits
    · show w.nacc + 1 = _; omega
    · show w.out = _; omega
    · rw [show 8 - (bits.length + 1) % 8 = 7 - bits.length % 8 by omega,
        show (bits.length + 1) / 8 = bits.length / 8 by omega]
      exact hnext

theorem packCode_packs (hd : s.DstFits) (cs : List Bool) : ∀ {bits : List Bool} {w : PackWork} {p : Port},
    Packed s bits w p → (bits ++ cs).length / 8 ≤ n →
    (packCode s cs p w).All (Packed s (bits ++ cs)) (PackFails s m n) := by
  induction cs with
  | nil => exact fun {bits _ _} hw _ => (List.append_nil bits).symm ▸ hw
  | cons c cs ih =>
    intro bits w p hw hn
    rw [List.append_cons] at hn ⊢
    refine (packBit_packs hd hw c ?_).bind fun w₁ q hw₁ => ih hw₁ hn
    rw [List.length_append, List.length_append, List.length_singleton] at hn
    omega

/-- What stands before source byte `k`. -/
def PackTo (s : State) (k : Nat) (w : PackWork) (p : Port) : Prop := w.i = k ∧ Packed s (s.bitsTo k) w p

theorem packBody_packs (h : s.PlainBuffers) {k : Nat} (hk : k < m) (hm : m ≤ s.latch.srcLen.toNat)
    (hn : (s.bitsTo m).length / 8 ≤ n) (hw : PackTo s k w p) :
    (packBody s p w).All (PackTo s (k + 1)) (PackFails s m n) := by
  obtain ⟨rfl, hw⟩ := hw
  have hsucc := bitsTo_succ s (hk.trans_le hm)
  refine (memRead1_packs h hw.within hk hm).bind ?_
  rintro b q ⟨rfl, rfl⟩
  split
  · next hnil =>
    refine ⟨by simp, fun hc => hc.coded _ ?_ hnil⟩
    rw [← getElem_sourceBytes s (length_sourceBytes s ▸ hk.trans_le hm)]
    exact List.mem_take_iff_getElem.2 ⟨w.i, by rw [length_sourceBytes]; omega, rfl⟩
  · refine (packCode_packs h.dstFits _ hw ?_).bind fun w₁ r hw₁ => ⟨rfl, ?_⟩
    · rw [← hsucc]
      exact (Nat.div_le_div_right (length_bitsTo_mono s hk)).trans hn
    · rw [hsucc]
      exact hw₁.with_i _

/-- PACK of the first `m` source bytes. -/
theorem packLoop_packs (h : s.PlainBuffers) (hm : m ≤ s.latch.srcLen.toNat) (hn : (s.bitsTo m).length / 8 ≤ n) :
    (iterate (packBody s) m s.port packInit).All (PackTo s m) (PackFails s m n) :=
  iterate_counts (PackTo s) (fun _ _ _ hk => packBody_packs h hk hm hn) m 0 packInit s.port (Nat.zero_add m)
    ⟨rfl, .start s⟩

theorem packBody_noCode (h : s.PlainBuffers) {k : Nat} (hk : k < s.latch.srcLen.toNat) (hr : s.SrcReadable (k + 1))
    (hcode : tableGet s.codes (s.srcByte k) = []) (hw : PackTo s k w p) :
    packBody s p w = .raise ⟨.noCode, BitVec.ofNat 32 k⟩ p := by
  obtain ⟨rfl, hw⟩ := hw
  rw [packBody, memRead1_apart h hw.within hk (by rw [s.srcAt_eq]; exact hr _ (Nat.lt_succ_self _)), Result.bind_ok,
    hcode]

/-- The last byte, with zero bits on the right. -/
theorem packFlush_packs (hd : s.DstFits) (hw : Packed s bits w p) (hn : (payloadOf bits).length ≤ n) :
    (packFlush s w p).All (fun w' q => w'.nbits = bits.length ∧ w'.out = (payloadOf bits).length ∧
      Stores s (payloadOf bits).length 0 (payloadOf bits) s.port q) (PackFails s m n) := by
  obtain ⟨⟨hbits, hnacc, hout⟩, hacc, hroom, hstores⟩ := hw
  rw [← length_wholeBytes] at hout
  rw [hout] at hroom hstores
  have hpayload := payloadOf_eq_wholeBytes bits
  rw [packFlush]
  split
  · next hpos =>
    rw [if_neg (by omega)] at hpayload
    have hpad : padCount w.nbits = 8 - bits.length % 8 := by rw [hbits, padCount]; omega
    rw [hpad, hacc, hout]
    rw [hpayload, List.length_append, List.length_singleton] at hn ⊢
    exact (emit_packs hd hroom hstores hn _).bind fun out q ⟨ho, _, hq⟩ => ⟨hbits, ho, ho ▸ hq⟩
  · next hzero =>
    rw [if_pos (by omega), List.append_nil] at hpayload
    rw [hpayload]
    exact ⟨hbits, hout, hstores⟩

end

/-! ### The ends of PACK -/

theorem checkOverlap_eq_none {s : State} : checkOverlap s.latch = none ↔ s.BuffersApart := by
  refine ⟨fun h => ?_, checkOverlap_apart⟩
  have h' := raiseIf_eq_none.1 h
  simp only [buffersOverlap, Bool.and_eq_false_iff, decide_eq_false_iff_not] at h'
  rcases h' with ((h' | h') | h') | h'
  · exact .inl (BitVec.eq_of_toNat_eq (by simpa using h'))
  · exact .inr (.inl (BitVec.eq_of_toNat_eq (by simpa using h')))
  · exact .inr (.inr (.inl (Nat.not_lt.1 h')))
  · exact .inr (.inr (.inr (Nat.not_lt.1 h')))

theorem checkSrcRange_eq_none {s : State} : checkSrcRange s.latch = none ↔ s.SrcFits :=
  raiseIf_decide.trans Nat.not_lt

theorem checkDstRange_eq_none {s : State} : checkDstRange s.latch = none ↔ s.DstFits :=
  raiseIf_decide.trans Nat.not_lt

theorem checkReady_eq_none {valid : Bool} : checkReady valid = none ↔ valid = true :=
  raiseIf_eq_none.trans (Bool.not_eq_false' valid).to_iff

theorem packChecks_eq_none {s : State} :
    (∀ c ∈ packChecks s, c = none) ↔ s.codeValid = true ∧ s.SrcFits ∧ s.DstFits ∧ s.BuffersApart := by
  simp [packChecks, checkReady_eq_none, checkSrcRange_eq_none, checkDstRange_eq_none, checkOverlap_eq_none]

theorem packChecks_error {s : State} {e : Raise} (h : some e ∈ packChecks s) : e.code ≠ .none := by
  simp only [packChecks, List.mem_cons, List.not_mem_nil, or_false] at h
  rcases h with h | h | h | h <;> obtain ⟨-, rfl⟩ := raiseIf_eq_some h.symm <;> simp

/-- PACK with its pre-checks passed. -/
theorem execPack_run {s : State} (hv : s.codeValid = true) (h : s.PlainBuffers) (hsd : s.srcOnDevice = false)
    (hdd : s.dstOnDevice = false) : exec .pack s = runPack s packInit :=
  preChecked_go (packChecks_eq_none.2 ⟨hv, h.srcFits, h.dstFits, h.apart⟩) (by simp [hsd, hdd])

/-- The payload of the source buffer (R225). -/
def State.payload (s : State) : List Byte := payloadOf (codeStream s.codes s.sourceBytes)

/-- PACK completes with the payload written, or ends with an error as something stops it. -/
def PackEnd (s : State) (o : Host.Outcome State Fault Refusal) : Prop :=
  ∃ t, o = .next t ∧ ((t.err ≠ .none ∧ ¬ s.PackClear s.latch.srcLen.toNat s.payload.length) ∨
    ∃ p, Stores s s.payload.length 0 s.payload s.port p ∧
      t = (s.withPort p).complete ⟨BitVec.ofNat 32 s.payload.length,
        BitVec.ofNat 3 (padCount (codeStream s.codes s.sourceBytes).length),
        BitVec.ofNat 64 (codeStream s.codes s.sourceBytes).length⟩)

theorem endBody_packEnd {α : Type} {s : State} {r : Result α} {P : α → Port → Prop}
    {go : α → Port → Host.Outcome State Fault Refusal}
    (hr : r.All P (PackFails s s.latch.srcLen.toNat s.payload.length)) (hgo : ∀ a p, P a p → PackEnd s (go a p)) :
    PackEnd s (endBody s true r go) := by
  cases r with
  | ok a p => exact hgo a p hr
  | raise e p => exact ⟨_, rfl, .inl hr⟩

theorem runPack_packEnd {s : State} (h : s.PlainBuffers) : PackEnd s (runPack s packInit) := by
  have hlen : (s.bitsTo s.latch.srcLen.toNat).length / 8 ≤ s.payload.length := by
    rw [State.payload, length_payloadOf, bitsTo_all]
    omega
  refine endBody_packEnd (packLoop_packs h le_rfl hlen) fun w p ⟨_, hw⟩ => ?_
  rw [bitsTo_all] at hw
  refine endBody_packEnd (packFlush_packs h.dstFits hw le_rfl) fun w' q ⟨hbits, hout, hq⟩ => ?_
  refine ⟨_, rfl, .inr ⟨q, hq, ?_⟩⟩
  rw [State.settleDst, if_neg (by simp [h.raced]), hbits, hout]
  rfl

/-- PACK of a source whose byte `k` is the first without a code. -/
theorem runPack_noCode {s : State} (h : s.PlainBuffers) {k n : Nat} (hk : k < s.latch.srcLen.toNat)
    (hn : (s.bitsTo k).length / 8 ≤ n) (hc : s.PackClear k n) (hr : s.SrcReadable (k + 1))
    (hcode : tableGet s.codes (s.srcByte k) = []) :
    ∃ p, runPack s packInit = .next ((s.withPort p).fail true ⟨.noCode, BitVec.ofNat 32 k⟩) := by
  obtain ⟨w, p, hloop, hw⟩ := (packLoop_packs h hk.le hn).exists_ok fun _ _ he => he.2 hc
  have hleft : packLeft s packInit = k + (s.latch.srcLen.toNat - (k + 1) + 1) := by
    simp only [packLeft, packInit]
    omega
  refine ⟨p, ?_⟩
  rw [runPack, runLoop, hleft, iterate_add, hloop, Result.bind_ok, iterate_succ, packBody_noCode h hk hr hcode hw,
    Result.bind_raise, endBody_raise]

/-! ### The number of code bits (R230) -/

/-- The symbols are those of a table in which every one has a count. -/
theorem nodup_symbols : ((List.range 256).map (BitVec.ofNat 8)).Nodup := by
  have hall : presentSymbols (Vector.replicate 256 1) = (List.range 256).map (BitVec.ofNat 8) :=
    List.filter_eq_self.2 fun x _ => by rw [tableGet_replicate]; rfl
  exact hall ▸ nodup_presentSymbols _

theorem length_codeStream (c : CodeTable) (xs : List Byte) :
    (codeStream c xs).length =
      ((List.range 256).map fun x => xs.count (BitVec.ofNat 8 x) * (tableGet c (BitVec.ofNat 8 x)).length).sum := by
  have hmem : xs.toFinset ⊆ ((List.range 256).map (BitVec.ofNat 8)).toFinset := fun x _ =>
    List.mem_toFinset.2 (List.mem_map.2 ⟨x.toNat, List.mem_range.2 x.isLt, by simp⟩)
  calc (codeStream c xs).length
      = (xs.map fun x => (tableGet c x).length).sum := List.length_flatMap
    _ = ∑ x ∈ xs.toFinset, xs.count x * (tableGet c x).length := Finset.sum_list_map_count ..
    _ = ∑ x ∈ ((List.range 256).map (BitVec.ofNat 8)).toFinset, xs.count x * (tableGet c x).length :=
      Finset.sum_subset hmem fun x _ hx => by
        rw [List.count_eq_zero_of_not_mem (mt List.mem_toFinset.2 hx), Nat.zero_mul]
    _ = _ := by rw [List.sum_toFinset _ nodup_symbols, List.map_map]; rfl

end Sys2Proof.Machine

open Sys2Proof Sys2Proof.Machine

/-- Settles O36: nothing stops PACK, so it completes with the payload written. -/
theorem packWritesThePayload : Obligations.PackWritesThePayload := by
  unfold Obligations.PackWritesThePayload
  intro s hv hsf hdf hap hsd hdd hr hread hcodes bits len hcap hwrite
  have hlen : s.payload.length = len := length_payloadOf bits
  have hrun := execPack_run hv ⟨hsf, hdf, hap, hr⟩ hsd hdd
  obtain ⟨t, ht, hend⟩ := runPack_packEnd ⟨hsf, hdf, hap, hr⟩
  obtain ⟨p, hp, rfl⟩ := hend.resolve_left fun hfail => hfail.2 (hlen ▸
    ⟨hread, fun x hx => hcodes x (List.mem_of_mem_take hx), hcap, hwrite⟩)
  have hpad : padCount bits.length = 8 * len - bits.length := by unfold padCount; omega
  refine ⟨_, hrun.trans ht, ?_, ?_, ?_, by constructor <;> rfl, by constructor <;> rfl⟩
  · rw [← hpad, ← hlen]; exact State.complete_completedOk ..
  · rw [← hlen]; exact hp.bytes_eq
  · rw [← hlen]; exact hp.within.read

/-- Settles O37: the bytes before it are packed, and the next one raises. -/
theorem packStopsAtAByteWithoutACode : Obligations.PackStopsAtAByteWithoutACode := by
  unfold Obligations.PackStopsAtAByteWithoutACode
  intro s k x hv hsf hdf hap hsd hdd hr hread hx hcode hcodes hcap hwrite
  have h : s.PlainBuffers := ⟨hsf, hdf, hap, hr⟩
  obtain ⟨hk, rfl⟩ := List.getElem?_eq_some_iff.1 hx
  rw [getElem_sourceBytes s hk] at hcode
  rw [length_sourceBytes] at hk
  obtain ⟨p, hend⟩ := runPack_noCode h hk le_rfl ⟨fun i hi => hread i (by omega), hcodes, hcap, hwrite⟩ hread hcode
  have ht := (execPack_run hv h hsd hdd).trans hend
  exact ⟨_, ht, (s.withPort p).havocDst.raise_completedErr (by simp), by constructor <;> rfl, by constructor <;> rfl,
    ((exec_ends (i := .pack) nofun ht).withinDst rfl).read⟩

/-- Settles O38: without an error PACK has packed the whole code stream, and FREQ counts its codes. -/
theorem packedBitsAreTheWeightedCodeLengths : Obligations.PackedBitsAreTheWeightedCodeLengths := by
  unfold Obligations.PackedBitsAreTheWeightedCodeLengths
  intro s t hr hfreq hexec herr
  obtain ⟨hchecks, hdev⟩ := preChecked_passed hexec fun e hc => herr ▸ (packChecks_error hc).symm
  obtain ⟨hv, hsf, hdf, hap⟩ := packChecks_eq_none.1 hchecks
  obtain ⟨hsd, hdd⟩ := Bool.or_eq_false_iff.1 hdev
  have h : s.PlainBuffers := ⟨hsf, hdf, hap, hr⟩
  obtain ⟨t', ht', hend⟩ := runPack_packEnd h
  cases ht'.symm.trans ((execPack_run hv h hsd hdd).symm.trans hexec)
  obtain ⟨p, -, rfl⟩ := hend.resolve_left fun hfail => hfail.1 herr
  simp only [hfreq]
  rw [State.complete_resBits, length_codeStream]

end

section
/-! PROOFS. The bit unpacker (R240 to R247): UNPACK of a stream of codes, up to the first thing that stops it, and what
it makes of the rest of the stream. -/

namespace Sys2Proof.Machine

/-! ### One stream bit (R243) -/

/-- What UNPACK does with a stream bit, the byte that holds it in hand. -/
def unpackBit (s : State) (w : UnpackWork) (bit : Bool) (byte : Byte) (p : Port) : Result UnpackWork :=
  if s.nnode.toNat = 1 then
    if bit then .raise ⟨.truncated, BitVec.ofNat 32 w.t⟩ p
    else (emit s w.out (nodeAt s.nodes 0).sym p).bind fun out q =>
      .ok { w with t := w.t + 1, byte := byte, start := w.t + 1, out := out } q
  else if (nodeAt s.nodes (childOf s.nodes w.node bit)).internal then
    .ok { w with t := w.t + 1, byte := byte, node := childOf s.nodes w.node bit } p
  else (emit s w.out (nodeAt s.nodes (childOf s.nodes w.node bit)).sym p).bind fun out q =>
    .ok { w with t := w.t + 1, byte := byte, node := s.root, start := w.t + 1, out := out } q

theorem unpackBody_eq (s : State) (p : Port) (w : UnpackWork) :
    unpackBody s p w = (unpackByte s p w).bind fun byte q => unpackBit s w (streamBit byte w.t) byte q := rfl

theorem descend_cons {nodes : NodeStore} {i j : Nat} {b : Bool} {bs : List Bool}
    (h : descend nodes i (b :: bs) = some j) :
    (nodeAt nodes i).internal = true ∧ descend nodes (childOf nodes i b) bs = some j := by
  rw [descend] at h
  split at h
  · next hi => exact ⟨hi, h⟩
  · cases h

/-- A walk to an internal node starts at one. -/
theorem internal_of_descend {nodes : NodeStore} {i j : Nat} {bs : List Bool} (h : descend nodes i bs = some j)
    (hj : (nodeAt nodes j).internal = true) : (nodeAt nodes i).internal = true := by
  cases bs with
  | nil => cases h; exact hj
  | cons b bs => exact (descend_cons h).1

/-- A code of a tree with internal nodes: a walk to an internal node, and one bit to a leaf of the symbol. -/
theorem LeafPath.split {nodes : NodeStore} {root : Nat} {c : Code} {x : Byte} (h : LeafPath nodes root c x)
    (hc : c ≠ []) :
    ∃ bs b j, c = bs ++ [b] ∧ descend nodes root bs = some j ∧ (nodeAt nodes j).internal = true ∧
      (nodeAt nodes (childOf nodes j b)).internal = false ∧ (nodeAt nodes (childOf nodes j b)).sym = x := by
  obtain ⟨leaf, hd, hleaf, hsym⟩ := h
  obtain ⟨bs, b, rfl⟩ : ∃ bs b, c = bs ++ [b] := ⟨_, _, (List.dropLast_append_getLast hc).symm⟩
  rw [descend_append, Option.bind_eq_some_iff] at hd
  obtain ⟨j, hj, hlast⟩ := hd
  obtain ⟨hint, hchild⟩ := descend_cons hlast
  cases hchild
  exact ⟨bs, b, j, rfl, hj, hint, hleaf, hsym⟩

/-! ### What can stop UNPACK (R243) -/

/-- Nothing stops UNPACK from writing `n` symbols. -/
structure State.UnpackClear (s : State) (n : Nat) : Prop where
  readable : s.SrcReadable s.latch.srcLen.toNat
  room : n ≤ s.latch.dstCap.toNat
  writable : s.DstWritable n

/-- BUS or DST_OVERFLOW, raised as something stops UNPACK from writing `n` symbols. -/
def UnpackFails (s : State) (n : Nat) (e : Raise) (_ : Port) : Prop :=
  (e.code = .bus ∨ e.code = .dstOverflow) ∧ ¬ s.UnpackClear n

/-- What stands before stream bit `t` of `total`, at a node on a code that began at `start`: the symbols `ys` are
written, and inside a byte the byte is in hand. -/
structure UnpackTo (s : State) (total t node start : Nat) (ys : List Byte) (w : UnpackWork) (p : Port) : Prop where
  bits : w.nbits = total
  position : w.t = t
  stands : w.node = node
  began : w.start = start
  written : w.out = ys.length
  inHand : t % 8 ≠ 0 → w.byte = s.srcByte (t / 8)
  room : ys.length ≤ s.latch.dstCap.toNat
  stores : Stores s ys.length 0 ys s.port p

theorem UnpackTo.start (s : State) (pad : BitVec 3) :
    UnpackTo s (8 * s.latch.srcLen.toNat - pad.toNat) 0 s.root 0 [] (unpackInit pad s) s.port where
  bits := rfl
  position := rfl
  stands := rfl
  began := rfl
  written := rfl
  inHand h := absurd rfl h
  room := Nat.zero_le _
  stores := .nil ..

section
variable {s : State} {n total t node start : Nat} {ys : List Byte} {w : UnpackWork} {p : Port}

theorem UnpackTo.withinDst (hw : UnpackTo s total t node start ys w p) : s.WithinDst s.port p :=
  hw.stores.within.mono le_rfl (by have := hw.room; omega)

/-- A symbol is written after those before it, unless no byte fits or the write fails. -/
theorem UnpackTo.emit (hw : UnpackTo s total t node start ys w p) (hd : s.DstFits) (hn : ys.length < n) (v : Byte) :
    (Machine.emit s w.out v p).All (fun out q => out = (ys ++ [v]).length ∧ out ≤ s.latch.dstCap.toNat ∧
      Stores s out 0 (ys ++ [v]) s.port q) (UnpackFails s n) := by
  have hd' : s.latch.dstAddr.toNat + s.latch.dstCap.toNat ≤ 2 ^ 32 := hd
  have hroom := hw.room
  rw [hw.written, Machine.emit, List.length_append, List.length_singleton]
  split
  · exact ⟨.inr rfl, fun hc => by have := hc.room; omega⟩
  · next hfull =>
    have hwrite := memWrite1_stores (s := s) (p := p) v (Nat.lt_succ_self ys.length) (by omega)
    refine (hwrite.mono (fun _ _ hq => hq) fun e _ he => (⟨.inl he.1, fun hc => he.2 fun i hi =>
      hc.writable i (by omega)⟩ : UnpackFails s n e p)).bind fun _ q hq => ⟨rfl, by omega, ?_⟩
    exact (hw.stores.mono (Nat.le_succ _)).trans (by rwa [Nat.zero_add])

/-- A symbol emitted at the end of a code. -/
theorem UnpackTo.emits (hw : UnpackTo s total t node start ys w p) (hd : s.DstFits) (hn : ys.length < n) (v : Byte)
    (node' : Nat) :
    ((Machine.emit s w.out v p).bind fun out q => .ok { w with
        t := w.t + 1, byte := s.srcByte (t / 8), node := node', start := w.t + 1, out := out } q).All
      (UnpackTo s total (t + 1) node' (t + 1) (ys ++ [v])) (UnpackFails s n) := by
  refine (hw.emit hd hn v).bind fun out q ⟨hout, hcap, hq⟩ => ?_
  have ht := congrArg (· + 1) hw.position
  exact ⟨hw.bits, ht, rfl, ht, hout, inHand_next s t, hout ▸ hcap, hout ▸ hq⟩

/-- The payload byte is read, or its read fails. -/
theorem UnpackTo.byte (hw : UnpackTo s total t node start ys w p) (h : s.PlainBuffers)
    (ht : t / 8 < s.latch.srcLen.toNat) :
    (unpackByte s p w).All (fun b q => b = s.srcByte (t / 8) ∧ q = p) (UnpackFails s n) := by
  rw [unpackByte, hw.position]
  split
  · cases hf : s.platform.memFault (s.srcAt (t / 8)) .read with
    | false =>
      rw [memRead1_apart h hw.withinDst ht hf]
      exact ⟨rfl, rfl⟩
    | true =>
      rw [memRead1_fault hf]
      refine ⟨.inl rfl, fun hc => ?_⟩
      rw [s.srcAt_eq, hc.readable _ ht] at hf
      cases hf
  · next h8 => exact ⟨hw.inHand h8, rfl⟩

/-- With its byte in hand UNPACK goes on with the stream bit. -/
theorem UnpackTo.body {P : UnpackWork → Port → Prop} (hw : UnpackTo s total t node start ys w p)
    (h : s.PlainBuffers) (ht : t / 8 < s.latch.srcLen.toNat)
    (hbit : (unpackBit s w (s.streamAt t) (s.srcByte (t / 8)) p).All P (UnpackFails s n)) :
    (unpackBody s p w).All P (UnpackFails s n) := by
  rw [unpackBody_eq]
  refine (hw.byte h ht).bind ?_
  rintro b q ⟨rfl, rfl⟩
  rw [hw.position]
  exact hbit

/-- A leaf root decodes a 0 to its symbol (R247). -/
theorem UnpackTo.zero (hw : UnpackTo s total t node start ys w p) (h : s.PlainBuffers) (hroot : s.nnode.toNat = 1)
    (hs : s.Streams t [false]) (hn : ys.length < n) :
    (unpackBody s p w).All (UnpackTo s total (t + 1) node (t + 1) (ys ++ [(nodeAt s.nodes 0).sym]))
      (UnpackFails s n) := by
  obtain ⟨ht, hb, -⟩ := hs
  refine hw.body h ht ?_
  have hnode := hw.stands
  subst hnode
  rw [hb, unpackBit, if_pos hroot, if_neg Bool.false_ne_true]
  exact hw.emits h.dstFits hn _ w.node

/-- A bit that leads to an internal node. -/
theorem UnpackTo.inner {b : Bool} (hw : UnpackTo s total t node start ys w p) (h : s.PlainBuffers)
    (hroot : s.nnode.toNat ≠ 1) (hs : s.Streams t [b])
    (hc : (nodeAt s.nodes (childOf s.nodes node b)).internal = true) :
    (unpackBody s p w).All (UnpackTo s total (t + 1) (childOf s.nodes node b) start ys) (UnpackFails s n) := by
  obtain ⟨ht, hb, -⟩ := hs
  refine hw.body h ht ?_
  rw [hb, unpackBit, if_neg hroot, hw.stands, if_pos hc]
  exact ⟨hw.bits, congrArg (· + 1) hw.position, rfl, hw.began, hw.written, inHand_next s t, hw.room, hw.stores⟩

/-- A bit that leads to a leaf: its symbol is emitted and the walk restarts. -/
theorem UnpackTo.leaf {b : Bool} (hw : UnpackTo s total t node start ys w p) (h : s.PlainBuffers)
    (hroot : s.nnode.toNat ≠ 1) (hs : s.Streams t [b])
    (hc : (nodeAt s.nodes (childOf s.nodes node b)).internal = false) (hn : ys.length < n) :
    (unpackBody s p w).All
      (UnpackTo s total (t + 1) s.root (t + 1) (ys ++ [(nodeAt s.nodes (childOf s.nodes node b)).sym]))
      (UnpackFails s n) := by
  obtain ⟨ht, hb, -⟩ := hs
  refine hw.body h ht ?_
  rw [hb, unpackBit, if_neg hroot, hw.stands, if_neg (Bool.eq_false_iff.1 hc)]
  exact hw.emits h.dstFits hn _ s.root

/-! ### Codes in the stream (R243, R247) -/

/-- A walk to an internal node emits nothing. -/
theorem unpackWalk (h : s.PlainBuffers) (hroot : s.nnode.toNat ≠ 1) {i : Nat}
    (hi : (nodeAt s.nodes i).internal = true) (bs : List Bool) :
    ∀ {t node : Nat} {w : UnpackWork} {p : Port}, descend s.nodes node bs = some i → s.Streams t bs →
      UnpackTo s total t node start ys w p →
      (iterate (unpackBody s) bs.length p w).All (UnpackTo s total (t + bs.length) i start ys) (UnpackFails s n) := by
  induction bs with
  | nil =>
    intro t node w p hd _ hw
    cases hd
    exact hw
  | cons b bs ih =>
    intro t node w p hd hs hw
    obtain ⟨hb, hrest⟩ := streams_append (p := [b]) hs
    obtain ⟨-, hd'⟩ := descend_cons hd
    rw [List.length_cons, Nat.add_comm bs.length, ← Nat.add_assoc, Nat.add_comm 1, iterate_succ]
    exact (hw.inner h hroot hb (internal_of_descend hd' hi)).bind fun w₁ q hw₁ => ih hd' hrest hw₁

/-- A code in the stream decodes to its symbol. -/
theorem UnpackTo.code {x : Byte} (hw : UnpackTo s total t s.root start ys w p) (h : s.PlainBuffers)
    (hx : tableGet (codesOf s.nodes s.nnode.toNat) x ≠ [])
    (hs : s.Streams t (tableGet (codesOf s.nodes s.nnode.toNat) x)) (hn : ys.length < n) :
    (iterate (unpackBody s) (tableGet (codesOf s.nodes s.nnode.toNat) x).length p w).All
      (UnpackTo s total (t + (tableGet (codesOf s.nodes s.nnode.toNat) x).length) s.root
        (t + (tableGet (codesOf s.nodes s.nnode.toNat) x).length) (ys ++ [x])) (UnpackFails s n) := by
  rcases codesOf_path hx with ⟨hroot, hc, rfl⟩ | ⟨hroot, hpath⟩
  · rw [hc] at hs ⊢
    exact (hw.zero h hroot hs hn).bind fun _ _ hw' => hw'
  · obtain ⟨bs, b, j, hc, hd, hj, hleaf, rfl⟩ := hpath.split hx
    rw [hc] at hs ⊢
    obtain ⟨hbs, hb⟩ := streams_append hs
    rw [List.length_append, List.length_singleton, iterate_add, ← Nat.add_assoc]
    refine (unpackWalk h (by omega) hj bs hd hbs hw).bind fun w₁ q hw₁ => ?_
    exact (hw₁.leaf h (by omega) hb hleaf hn).bind fun _ _ hw' => hw'

/-- Codes in the stream decode to their symbols. -/
theorem unpackCodes (h : s.PlainBuffers) {xs : List Byte}
    (hcodes : ∀ x ∈ xs, tableGet (codesOf s.nodes s.nnode.toNat) x ≠ []) :
    ∀ {t : Nat} {ys : List Byte} {w : UnpackWork} {p : Port}, ys.length + xs.length ≤ n →
      s.Streams t (codeStream (codesOf s.nodes s.nnode.toNat) xs) → UnpackTo s total t s.root t ys w p →
      (iterate (unpackBody s) (codeStream (codesOf s.nodes s.nnode.toNat) xs).length p w).All
        (UnpackTo s total (t + (codeStream (codesOf s.nodes s.nnode.toNat) xs).length) s.root
          (t + (codeStream (codesOf s.nodes s.nnode.toNat) xs).length) (ys ++ xs)) (UnpackFails s n) := by
  induction xs with
  | nil =>
    intro t ys w p _ _ hw
    rw [List.append_nil]
    exact hw
  | cons x xs ih =>
    intro t ys w p hn hs hw
    rw [List.length_cons] at hn
    rw [codeStream_cons] at hs ⊢
    obtain ⟨hx, hxs⟩ := streams_append hs
    rw [List.length_append, iterate_add, ← Nat.add_assoc, List.append_cons]
    refine (hw.code h (hcodes x List.mem_cons_self) hx (by omega)).bind fun w₁ q hw₁ => ?_
    exact ih (fun y hy => hcodes y (List.mem_cons_of_mem _ hy))
      (by rw [List.length_append, List.length_singleton]; omega) hxs hw₁

end

/-! ### The ends of UNPACK -/

/-- The structural checks of R245 pass. -/
theorem unpackMalformed_eq_false {pad : BitVec 3} {s : State} : unpackMalformed pad s = false ↔
    (s.nnode.toNat = 0 → s.latch.srcLen.toNat = 0) ∧ (s.latch.srcLen.toNat = 0 → pad = 0) := by
  simp only [unpackMalformed, Bool.or_eq_false_iff, Bool.and_eq_false_iff, decide_eq_false_iff_not, ← imp_iff_not_or,
    not_not, Nat.not_lt, Nat.le_zero]

theorem unpackChecks_eq_none {pad : BitVec 3} {s : State} : (∀ c ∈ unpackChecks pad s, c = none) ↔
    s.treeValid = true ∧ s.SrcFits ∧ s.DstFits ∧ s.BuffersApart ∧ unpackMalformed pad s = false := by
  simp [unpackChecks, checkReady_eq_none, checkSrcRange_eq_none, checkDstRange_eq_none, checkOverlap_eq_none,
    raiseIf_eq_none]

/-- UNPACK with its pre-checks passed. -/
theorem execUnpack_run {s : State} {pad : BitVec 3} (hv : s.treeValid = true) (h : s.PlainBuffers)
    (hsd : s.srcOnDevice = false) (hdd : s.dstOnDevice = false) (hm : unpackMalformed pad s = false) :
    exec (.unpack pad) s = runUnpack s (unpackInit pad s) :=
  preChecked_go (unpackChecks_eq_none.2 ⟨hv, h.srcFits, h.dstFits, h.apart, hm⟩) (by simp [hsd, hdd])

section
variable {s : State} {pad : BitVec 3} {xs : List Byte} {rest : List Bool}

/-- The number of stream bits (R242). -/
theorem length_stream (hs : streamOf s.sourceBytes pad.toNat = rest) :
    8 * s.latch.srcLen.toNat - pad.toNat = rest.length := by
  rw [← hs, streamOf, List.length_map, List.length_range, length_sourceBytes]

/-- UNPACK of the codes that the stream begins with. -/
theorem unpackLoop_codes {n : Nat} (h : s.PlainBuffers)
    (hcodes : ∀ x ∈ xs, tableGet (codesOf s.nodes s.nnode.toNat) x ≠ [])
    (hs : streamOf s.sourceBytes pad.toNat = codeStream (codesOf s.nodes s.nnode.toNat) xs ++ rest)
    (hn : xs.length ≤ n) :
    (iterate (unpackBody s) (codeStream (codesOf s.nodes s.nnode.toNat) xs).length s.port (unpackInit pad s)).All
      (UnpackTo s (8 * s.latch.srcLen.toNat - pad.toNat) (codeStream (codesOf s.nodes s.nnode.toNat) xs).length s.root
        (codeStream (codesOf s.nodes s.nnode.toNat) xs).length xs) (UnpackFails s n) := by
  have hstream := (streams_append (hs ▸ streams_streamOf s pad.toNat)).1
  have hloop := unpackCodes h hcodes (n := n) (by rwa [List.length_nil, Nat.zero_add]) hstream (.start s pad)
  rwa [Nat.zero_add] at hloop

/-- The stream bits after the codes it begins with. -/
theorem streams_rest (hs : streamOf s.sourceBytes pad.toNat = codeStream (codesOf s.nodes s.nnode.toNat) xs ++ rest) :
    s.Streams (codeStream (codesOf s.nodes s.nnode.toNat) xs).length rest := by
  have hrest := (streams_append (hs ▸ streams_streamOf s pad.toNat)).2
  rwa [Nat.zero_add] at hrest

/-- UNPACK of the codes the stream begins with, with nothing in its way, then of the rest of the stream. -/
theorem runUnpack_rest (h : s.PlainBuffers) (hcodes : ∀ x ∈ xs, tableGet (codesOf s.nodes s.nnode.toNat) x ≠ [])
    (hs : streamOf s.sourceBytes pad.toNat = codeStream (codesOf s.nodes s.nnode.toNat) xs ++ rest)
    (hc : s.UnpackClear xs.length) :
    ∃ w p, UnpackTo s (8 * s.latch.srcLen.toNat - pad.toNat) (codeStream (codesOf s.nodes s.nnode.toNat) xs).length
        s.root (codeStream (codesOf s.nodes s.nnode.toNat) xs).length xs w p ∧
      runUnpack s (unpackInit pad s) =
        endBody s true (iterate (unpackBody s) rest.length p w) (unpackFinish s) := by
  obtain ⟨w, p, hloop, hw⟩ := (unpackLoop_codes h hcodes hs le_rfl).exists_ok fun _ _ he => he.2 hc
  have hleft : unpackLeft (unpackInit pad s) =
      (codeStream (codesOf s.nodes s.nnode.toNat) xs).length + rest.length := by
    rw [← List.length_append, ← length_stream hs]
    rfl
  refine ⟨w, p, hw, ?_⟩
  rw [runUnpack, runLoop, hleft, iterate_add, hloop, Result.bind_ok]

/-- UNPACK completes with `xs` written, or ends with BUS or DST_OVERFLOW as something stops it. -/
def UnpackEnd (s : State) (pad : BitVec 3) (xs : List Byte) (t : State) : Prop :=
  ((t.err = .bus ∨ t.err = .dstOverflow) ∧ ¬ s.UnpackClear xs.length) ∨
    ∃ p, Stores s xs.length 0 xs s.port p ∧ xs.length ≤ s.latch.dstCap.toNat ∧
      t = (s.withPort p).complete ⟨BitVec.ofNat 32 xs.length, 0,
        BitVec.ofNat 64 (8 * s.latch.srcLen.toNat - pad.toNat)⟩

theorem unpackFinish_root {total t start : Nat} {w : UnpackWork} {p : Port} (hr : s.raced = false)
    (hw : UnpackTo s total t s.root start xs w p) :
    unpackFinish s w p = .next ((s.withPort p).complete ⟨BitVec.ofNat 32 xs.length, 0, BitVec.ofNat 64 total⟩) := by
  rw [unpackFinish, if_neg fun hcut => hcut.2 hw.stands, State.settleDst, if_neg (by simp [hr]), hw.bits, hw.written]

/-- UNPACK of a stream of codes. -/
theorem runUnpack_codes (h : s.PlainBuffers) (hcodes : ∀ x ∈ xs, tableGet (codesOf s.nodes s.nnode.toNat) x ≠ [])
    (hs : streamOf s.sourceBytes pad.toNat = codeStream (codesOf s.nodes s.nnode.toNat) xs) :
    ∃ t, runUnpack s (unpackInit pad s) = .next t ∧ UnpackEnd s pad xs t := by
  have hloop := unpackLoop_codes h hcodes (hs.trans (List.append_nil _).symm) le_rfl
  rw [← length_stream hs] at hloop
  change (iterate (unpackBody s) (unpackLeft (unpackInit pad s)) s.port (unpackInit pad s)).All _ _ at hloop
  rw [runUnpack, runLoop]
  cases hres : iterate (unpackBody s) (unpackLeft (unpackInit pad s)) s.port (unpackInit pad s) with
  | ok w p =>
    rw [hres] at hloop
    exact ⟨_, unpackFinish_root h.raced hloop, .inr ⟨p, hloop.stores, hloop.room, rfl⟩⟩
  | raise e p =>
    rw [hres] at hloop
    exact ⟨_, rfl, .inl hloop⟩

/-- A stream of codes passes the structural checks: only the empty one needs no tree. -/
theorem unpackMalformed_codes (hpad : s.latch.srcLen = 0 → pad = 0)
    (hcodes : ∀ x ∈ xs, tableGet (codesOf s.nodes s.nnode.toNat) x ≠ [])
    (hs : streamOf s.sourceBytes pad.toNat = codeStream (codesOf s.nodes s.nnode.toNat) xs) :
    unpackMalformed pad s = false := by
  refine unpackMalformed_eq_false.2 ⟨fun hnone => ?_, fun hlen => hpad (BitVec.eq_of_toNat_eq hlen)⟩
  have hxs : xs = [] := List.eq_nil_iff_forall_not_mem.2 fun x hx => by
    rcases codesOf_path (hcodes x hx) with ⟨hn, -⟩ | ⟨hn, -⟩ <;> omega
  have hlen := length_stream hs
  have hp := pad.isLt
  rw [hxs] at hlen
  simp only [codeStream, List.flatMap_nil, List.length_nil] at hlen
  omega

/-- The end with TRUNCATED after the codes of `xs` (R246, R247). -/
theorem truncated_end {o : Host.Outcome State Fault Refusal} {p : Port} {k : Nat}
    (h : o = .next ((s.withPort p).fail true ⟨.truncated, BitVec.ofNat 32 k⟩)) :
    ∃ t, o = .next t ∧ CompletedErr t .truncated (BitVec.ofNat 32 k) ∧ SameTables s t ∧ SameHost s t :=
  ⟨_, h, (s.withPort p).havocDst.raise_completedErr (by simp), by constructor <;> rfl, by constructor <;> rfl⟩

/-- UNPACK of a stream that ends inside a code (R246). -/
theorem runUnpack_cut {i : Nat} {cut : List Bool} (h : s.PlainBuffers) (hn : s.nnode.toNat > 1)
    (hcodes : ∀ x ∈ xs, tableGet (codesOf s.nodes s.nnode.toNat) x ≠ [])
    (hs : streamOf s.sourceBytes pad.toNat = codeStream (codesOf s.nodes s.nnode.toNat) xs ++ cut)
    (hd : descend s.nodes s.root cut = some i) (hi : i ≠ s.root) (hint : (nodeAt s.nodes i).internal = true)
    (hc : s.UnpackClear xs.length) :
    ∃ p, runUnpack s (unpackInit pad s) = .next ((s.withPort p).fail true
      ⟨.truncated, BitVec.ofNat 32 (codeStream (codesOf s.nodes s.nnode.toNat) xs).length⟩) := by
  obtain ⟨w, p, hw, hrun⟩ := runUnpack_rest h hcodes hs hc
  obtain ⟨w', q, hcut, hw'⟩ := (unpackWalk h hn.ne' hint cut hd (streams_rest hs) hw).exists_ok
    fun _ _ he => he.2 hc
  refine ⟨q, ?_⟩
  rw [hrun, hcut, endBody_ok, unpackFinish, if_pos ⟨hn, hw'.stands.trans_ne hi⟩, hw'.began]

/-- UNPACK of a 1 with a leaf root (R247). -/
theorem runUnpack_one (h : s.PlainBuffers) (hn : s.nnode.toNat = 1)
    (hcodes : ∀ x ∈ xs, tableGet (codesOf s.nodes s.nnode.toNat) x ≠ [])
    (hs : streamOf s.sourceBytes pad.toNat = codeStream (codesOf s.nodes s.nnode.toNat) xs ++ true :: rest)
    (hc : s.UnpackClear xs.length) :
    ∃ p, runUnpack s (unpackInit pad s) = .next ((s.withPort p).fail true
      ⟨.truncated, BitVec.ofNat 32 (codeStream (codesOf s.nodes s.nnode.toNat) xs).length⟩) := by
  obtain ⟨w, p, hw, hrun⟩ := runUnpack_rest h hcodes hs hc
  obtain ⟨ht, hb, -⟩ := streams_rest hs
  obtain ⟨b, q, hbyte, rfl, rfl⟩ := (hw.byte h ht).exists_ok fun _ _ he => he.2 hc
  refine ⟨q, ?_⟩
  have hbit : streamBit (s.srcByte ((codeStream (codesOf s.nodes s.nnode.toNat) xs).length / 8)) w.t = true :=
    hw.position.symm ▸ hb
  rw [hrun, List.length_cons, iterate_succ, unpackBody_eq, hbyte, Result.bind_ok, hbit, unpackBit, if_pos hn,
    if_pos rfl, hw.position]
  rfl

/-- The codes of a leaf root (R211, R247). -/
theorem tableGet_codesOf_one (nodes : NodeStore) (x : Byte) :
    tableGet (codesOf nodes 1) x = if x = (nodeAt nodes 0).sym then [false] else [] := by
  rw [codesOf_one, tableGet_tableSet, CodeTable.empty, tableGet_replicate]

theorem codeStream_replicate (nodes : NodeStore) (k : Nat) :
    codeStream (codesOf nodes 1) (List.replicate k (nodeAt nodes 0).sym) = List.replicate k false := by
  rw [codeStream, List.flatMap_replicate, tableGet_codesOf_one, if_pos rfl]
  exact List.flatten_replicate_singleton

end
end Sys2Proof.Machine

open Sys2Proof Sys2Proof.Machine

/-- Settles O39: nothing stops UNPACK, so it completes with the symbols written. -/
theorem unpackDecodesTheCodeStream : Obligations.UnpackDecodesTheCodeStream := by
  unfold Obligations.UnpackDecodesTheCodeStream
  intro s pad xs hv hsf hdf hap hsd hdd hr hread hpad hcodes hs hcap hwrite
  have h : s.PlainBuffers := ⟨hsf, hdf, hap, hr⟩
  obtain ⟨t, ht, hend⟩ := runUnpack_codes h hcodes hs
  obtain ⟨p, hp, -, rfl⟩ := hend.resolve_left fun hfail => hfail.2 ⟨hread, hcap, hwrite⟩
  exact ⟨_, (execUnpack_run hv h hsd hdd (unpackMalformed_codes hpad hcodes hs)).trans ht,
    State.complete_completedOk .., hp.bytes_eq, hp.within.read, by constructor <;> rfl, by constructor <;> rfl⟩

/-- Settles O40: the walk of the last bits stands at an internal node, on the code that began after the others. -/
theorem unpackReportsAStreamCutInsideACode : Obligations.UnpackReportsAStreamCutInsideACode := by
  unfold Obligations.UnpackReportsAStreamCutInsideACode
  intro s pad xs cut i hv hsf hdf hap hsd hdd hr hread hn hcodes hs hd hi hint hcap hwrite
  have h : s.PlainBuffers := ⟨hsf, hdf, hap, hr⟩
  have hm : unpackMalformed pad s = false := by
    have hlen := length_stream hs
    have hcut : cut ≠ [] := by rintro rfl; exact hi (Option.some.inj hd).symm
    have hpos := List.length_pos_of_ne_nil hcut
    rw [List.length_append] at hlen
    exact unpackMalformed_eq_false.2 ⟨fun _ => by omega, fun _ => by omega⟩
  obtain ⟨p, hend⟩ := runUnpack_cut h hn hcodes hs hd hi hint ⟨hread, hcap, hwrite⟩
  obtain ⟨t, ht, herr, htables, hhost⟩ := truncated_end ((execUnpack_run hv h hsd hdd hm).trans hend)
  exact ⟨t, ht, herr, htables, hhost, ((exec_ends (i := .unpack pad) nofun ht).withinDst rfl).read⟩

/-- Settles O41: zeros are the codes of as many copies of the symbol, and a 1 after them spells no code. -/
theorem leafRootDecodesZerosOnly : Obligations.LeafRootDecodesZerosOnly := by
  unfold Obligations.LeafRootDecodesZerosOnly
  intro s pad hv hone hsf hdf hap hsd hdd hr hread hpad
  have h : s.PlainBuffers := ⟨hsf, hdf, hap, hr⟩
  have hn : s.nnode.toNat = 1 := congrArg BitVec.toNat hone
  have hcodes (k : Nat) : ∀ x ∈ List.replicate k (nodeAt s.nodes 0).sym,
      tableGet (codesOf s.nodes s.nnode.toNat) x ≠ [] := fun x hx => by
    rw [hn, tableGet_codesOf_one, if_pos (List.eq_of_mem_replicate hx)]
    simp
  have hzeros (k : Nat) : codeStream (codesOf s.nodes s.nnode.toNat) (List.replicate k (nodeAt s.nodes 0).sym) =
      List.replicate k false := by rw [hn, codeStream_replicate]
  have hlen (k : Nat) : (List.replicate k (nodeAt s.nodes 0).sym).length = k := List.length_replicate
  have hm : unpackMalformed pad s = false :=
    unpackMalformed_eq_false.2 ⟨fun _ => by omega, fun hlen => hpad (BitVec.eq_of_toNat_eq hlen)⟩
  have hrun := execUnpack_run hv h hsd hdd hm
  refine ⟨tableGet_codesOf_one s.nodes, fun k hs hcap hwrite => ?_, fun k rest hs hcap hwrite => ?_⟩
  · have hbits := (length_stream hs).trans List.length_replicate
    obtain ⟨t, ht, hend⟩ := runUnpack_codes h (hcodes k) (hs.trans (hzeros k).symm)
    rw [UnpackEnd, hlen, hbits] at hend
    obtain ⟨p, hp, -, rfl⟩ := hend.resolve_left fun hfail => hfail.2 ⟨hread, hcap, hwrite⟩
    have hbytes := hp.bytes_eq
    rw [hlen] at hbytes
    exact ⟨_, hrun.trans ht, State.complete_completedOk .., hbytes, by constructor <;> rfl⟩
  · rw [← hzeros k] at hs
    obtain ⟨p, hend⟩ := runUnpack_one h hn (hcodes k) hs (by rw [hlen]; exact ⟨hread, hcap, hwrite⟩)
    rw [hzeros, List.length_replicate] at hend
    obtain ⟨t, ht, herr, htables, -⟩ := truncated_end (hrun.trans hend)
    exact ⟨t, ht, herr, htables⟩

end

section
/-! PROOFS. The dropped padding bits (R248): two runs of UNPACK on payloads that differ in them alone go side by side,
with the byte in hand as the only difference. -/

namespace Sys2Proof.Machine

/-! ### Results side by side -/

/-- Two results whose values are related by `R`, or the same raise, and alike ports. -/
inductive Result.Paired {α : Type} (m₀ m₁ : Memory) (R : α → α → Prop) : Result α → Result α → Prop
  | ok {a a' : α} {p p' : Port} : R a a' → Port.Alike m₀ m₁ p p' → Result.Paired m₀ m₁ R (.ok a p) (.ok a' p')
  | raise {e : Raise} {p p' : Port} : Port.Alike m₀ m₁ p p' → Result.Paired m₀ m₁ R (.raise e p) (.raise e p')

section
variable {α β : Type} {m₀ m₁ : Memory} {R : α → α → Prop} {Q : β → β → Prop} {r r' : Result α}

theorem Result.Paired.bind {f f' : α → Port → Result β} (h : r.Paired m₀ m₁ R r')
    (hf : ∀ a a' p p', R a a' → Port.Alike m₀ m₁ p p' → (f a p).Paired m₀ m₁ Q (f' a' p')) :
    (r.bind f).Paired m₀ m₁ Q (r'.bind f') := by
  cases h with
  | ok ha hp => exact hf _ _ _ _ ha hp
  | raise hp => exact .raise hp

/-- After results with the same value. -/
theorem Result.Alike.bindPaired {P : α → Prop} {f f' : α → Port → Result β} (h : r.Alike m₀ m₁ P r')
    (hf : ∀ a p p', Port.Alike m₀ m₁ p p' → (f a p).Paired m₀ m₁ Q (f' a p')) :
    (r.bind f).Paired m₀ m₁ Q (r'.bind f') := by
  cases h with
  | ok _ hp => exact hf _ _ _ hp
  | raise hp => exact .raise hp

/-- A loop whose iterations take what relates the runs at count `k` to what relates them at `k + 1`. -/
theorem iterate_paired {body : Port → α → Result α} (R : Nat → α → α → Prop) {m : Nat}
    (hb : ∀ k a a' p p', k < m → R k a a' → Port.Alike m₀ m₁ p p' →
      (body p a).Paired m₀ m₁ (R (k + 1)) (body p' a')) :
    ∀ n k a a' p p', k + n = m → R k a a' → Port.Alike m₀ m₁ p p' →
      (iterate body n p a).Paired m₀ m₁ (R m) (iterate body n p' a') := by
  intro n
  induction n with
  | zero => exact fun k _ _ _ _ hk ha hp => by subst hk; exact .ok ha hp
  | succ n ih =>
    exact fun k a a' p p' hk ha hp =>
      (hb k a a' p p' (by omega) ha hp).bind fun a₁ a₁' q q' => ih (k + 1) a₁ a₁' q q' (by omega)

/-- The end of a body whose two results are related. -/
theorem endBody_paired {s s' : State} (hs : ∀ p, s'.withPort p = s.withPort p) {usesDst : Bool}
    {go go' : α → Port → Host.Outcome State Fault Refusal} (hr : r.Paired m₀ m₁ R r')
    (hgo : ∀ a a' p p', R a a' → Port.Alike m₀ m₁ p p' → OutcomeAlike m₀ m₁ (go a p) (go' a' p')) :
    OutcomeAlike m₀ m₁ (endBody s usesDst r go) (endBody s' usesDst r' go') := by
  cases hr with
  | ok ha hp => exact hgo _ _ _ _ ha hp
  | raise hp =>
    rw [endBody_raise, endBody_raise, hs]
    exact .next ((hp.withPort s).fail usesDst _)

end

/-! ### UNPACK of two payloads (R242, R248) -/

/-- Two values of payload byte `j` that agree on its meaningful bits: all but the low `pad` bits of the last byte. -/
def SameMeaning (s : State) (pad j : Nat) (b b' : Byte) : Prop :=
  ∀ k, j + 1 < s.latch.srcLen.toNat ∨ pad ≤ k → b'.getLsbD k = b.getLsbD k

/-- The source buffer fits, and its bytes in the two first memories agree on their meaningful bits. -/
structure SamePayload (s : State) (pad : Nat) (m₀ m₁ : Memory) : Prop where
  fits : s.SrcFits
  same : ∀ j < s.latch.srcLen.toNat,
    SameMeaning s pad j (m₀.read (s.latch.srcAddr.toNat + j)) (m₁.read (s.latch.srcAddr.toNat + j))

/-- The progress of two runs before stream bit `t`: they differ at most in the padding of the byte in hand. -/
def SameProgress (s : State) (pad t : Nat) (w w' : UnpackWork) : Prop :=
  w.t = t ∧ ∃ b', w' = { w with byte := b' } ∧ (t % 8 ≠ 0 → SameMeaning s pad (t / 8) w.byte b')

/-- A stream bit is a meaningful bit. -/
theorem SameMeaning.streamBit_eq {s : State} {pad t : Nat} {b b' : Byte} (h : SameMeaning s pad (t / 8) b b')
    (ht : t < 8 * s.latch.srcLen.toNat - pad) : streamBit b' t = streamBit b t :=
  h _ (by omega)

section
variable {m₀ m₁ : Memory} {s : State} {pad t : Nat} {w : UnpackWork} {p p' : Port}

theorem memRead1_sameMeaning (h : SamePayload s pad m₀ m₁) (hp : Port.Alike m₀ m₁ p p') {j : Nat}
    (hj : j < s.latch.srcLen.toNat) :
    (memRead1 s (s.srcAt j) p).Paired m₀ m₁ (SameMeaning s pad j) (memRead1 s (s.srcAt j) p') := by
  have hfits : s.latch.srcAddr.toNat + s.latch.srcLen.toNat ≤ 2 ^ 32 := h.fits
  have hbyte : SameMeaning s pad j (p.mem.read (s.srcAt j).toNat) (p'.mem.read (s.srcAt j).toNat) := by
    rw [State.srcAt_toNat (by omega)]
    rcases hp.mem (s.latch.srcAddr.toNat + j) with heq | ⟨h₀, h₁⟩
    · rw [heq]
      exact fun _ _ => rfl
    · rw [h₀, h₁]
      exact h.same j hj
  unfold memRead1
  split
  · exact .raise hp
  · split
    · rw [hp.draws]
      exact .ok (fun _ _ => rfl) ⟨rfl, hp.mem⟩
    · exact .ok hbyte hp

theorem unpackByte_sameMeaning (h : SamePayload s pad m₀ m₁) (hp : Port.Alike m₀ m₁ p p') {w' : UnpackWork}
    (hw : SameProgress s pad t w w') (ht : t / 8 < s.latch.srcLen.toNat) :
    (unpackByte s p w).Paired m₀ m₁ (SameMeaning s pad (t / 8)) (unpackByte s p' w') := by
  obtain ⟨rfl, b', rfl, hbyte⟩ := hw
  unfold unpackByte
  split
  · exact memRead1_sameMeaning h hp ht
  · next h8 => exact .ok (hbyte h8) hp

/-- The same stream bit, out of bytes of the same meaning. -/
theorem unpackBit_sameProgress (hp : Port.Alike m₀ m₁ p p') (hw : w.t = t) (bit : Bool) {b b' : Byte}
    (hb : SameMeaning s pad (t / 8) b b') :
    (unpackBit s w bit b p).Paired m₀ m₁ (SameProgress s pad (t + 1)) (unpackBit s w bit b' p') := by
  subst hw
  have hnext : (w.t + 1) % 8 ≠ 0 → SameMeaning s pad ((w.t + 1) / 8) b b' := fun h8 => by
    rwa [show (w.t + 1) / 8 = w.t / 8 by omega]
  unfold unpackBit
  split
  · split
    · exact .raise hp
    · exact (emit_alike _ _ _ hp).bindPaired fun _ _ _ hq => .ok ⟨rfl, b', rfl, hnext⟩ hq
  · split
    · exact .ok ⟨rfl, b', rfl, hnext⟩ hp
    · exact (emit_alike _ _ _ hp).bindPaired fun _ _ _ hq => .ok ⟨rfl, b', rfl, hnext⟩ hq

theorem unpackBody_sameProgress (h : SamePayload s pad m₀ m₁) (hp : Port.Alike m₀ m₁ p p') {w' : UnpackWork}
    (hw : SameProgress s pad t w w') (ht : t < 8 * s.latch.srcLen.toNat - pad) :
    (unpackBody s p w).Paired m₀ m₁ (SameProgress s pad (t + 1)) (unpackBody s p' w') := by
  have hbytes := unpackByte_sameMeaning h hp hw (by omega)
  obtain ⟨hpos, b', rfl, -⟩ := hw
  rw [unpackBody_eq, unpackBody_eq]
  refine hbytes.bind fun b c q q' hb hq => ?_
  have hbit : streamBit c w.t = streamBit b w.t := by rw [hpos]; exact hb.streamBit_eq ht
  show (unpackBit s w (streamBit b w.t) b q).Paired m₀ m₁ _ (unpackBit s w (streamBit c w.t) c q')
  rw [hbit]
  exact unpackBit_sameProgress hq hpos _ hb

end

/-- UNPACK of payloads that differ in their padding bits alone. -/
theorem execUnpack_padding {pad : BitVec 3} {s : State} {m : Memory}
    (hm : s.SrcFits → SamePayload s pad.toNat s.mem m) :
    OutcomeAlike s.mem m (execUnpack pad s) (execUnpack pad { s with mem := m }) := by
  refine preChecked_alike (.start s m) fun hc => ?_
  obtain ⟨-, hfits, -⟩ := unpackChecks_eq_none.1 (firstError_eq_none.1 hc)
  refine endBody_paired (fun _ => rfl) (iterate_paired (SameProgress s pad.toNat)
    (m := 8 * s.latch.srcLen.toNat - pad.toNat)
    (fun k w w' p p' hk hw hp => unpackBody_sameProgress (hm hfits) hp hw hk) (unpackLeft (unpackInit pad s)) 0
    (unpackInit pad s) (unpackInit pad s) _ _ (by simp [unpackLeft, unpackInit])
    ⟨rfl, 0, rfl, fun h0 => absurd rfl h0⟩ (.start s m)) ?_
  rintro w _ p p' ⟨-, b', rfl, -⟩ hp
  exact unpackFinish_alike s w hp

end Sys2Proof.Machine

open Sys2Proof Sys2Proof.Machine

/-- Settles O42: a byte of the payload is as before, or the last one, whose bits above the padding are. -/
theorem unpackIgnoresThePaddingBits : Obligations.UnpackIgnoresThePaddingBits := by
  unfold Obligations.UnpackIgnoresThePaddingBits
  intro s m pad last hother hlast _
  have hpayload : s.SrcFits → SamePayload s pad.toNat s.mem m := fun hfits => by
    refine ⟨hfits, fun j hj k hk => ?_⟩
    by_cases hj' : s.latch.srcAddr.toNat + j = last
    · rw [hj']
      exact hlast k (hk.resolve_left (by omega))
    · rw [hother _ hj']
  have halike : OutcomeAlike s.mem m (exec (.unpack pad) s) (exec (.unpack pad) { s with mem := m }) :=
    execUnpack_padding hpayload
  refine ⟨halike.mapNext_noMem, fun t t' ht ht' a ha => ?_⟩
  rw [ht, ht'] at halike
  rcases halike.mem a with heq | ⟨h₀, h₁⟩
  · exact heq
  · rw [h₀, h₁, hother a ha]

end

section
/-! PROOFS. The round trip (R244): what the commands that encode leave for those that decode. -/

namespace Sys2Proof.Machine

/-! ### The payload as a stream (R226, R242) -/

/-- The meaningful bits of the payload of a bit stream are that stream. -/
theorem streamOf_payloadOf (bits : List Bool) : streamOf (payloadOf bits) (padCount bits.length) = bits := by
  have hlen : 8 * (payloadOf bits).length - padCount bits.length = bits.length := by
    rw [length_payloadOf, padCount]
    omega
  refine List.ext_getElem (by rw [streamOf, List.length_map, List.length_range, hlen]) fun t _ ht => ?_
  have hbyte : t / 8 < (payloadOf bits).length := by rw [length_payloadOf]; omega
  simp only [streamOf, List.getElem_map, List.getElem_range]
  rw [List.getD_eq_getElem _ _ hbyte]
  simp only [payloadOf, List.getElem_map, List.getElem_range]
  rw [getLsbD_payloadByte bits _ (by omega), show 8 * (t / 8) + (7 - (7 - t % 8)) = t by omega,
    List.getD_eq_getElem _ _ ht]

theorem toNat_padCount (n : Nat) : (BitVec.ofNat 3 (padCount n)).toNat = padCount n := by
  rw [BitVec.toNat_ofNat, padCount]
  omega

/-! ### Commands without a buffer error -/

theorem Ends.err_mem {i : Instr} {s t : State} (h : Ends i s t) : t.err = .none ∨ t.err ∈ errorsOf i := by
  cases h with
  | pre e he => exact .inr he
  | body e p he _ => exact .inr ((State.fail_err ..).symm ▸ he)
  | done u r _ => exact .inl rfl

section
variable {s t : State}

/-- FCOUNT without a buffer error has counted the source (R171). -/
theorem fcount_of_noBufferError (hr : s.raced = false) (h : exec .fcount s = .next t) (he : NoBufferError t) :
    t.nsym.toNat = symbolCount t.freq ∧ (∀ x ∈ s.sourceBytes, tableGet t.freq x ≠ 0) ∧ t.mem = s.mem := by
  have hends := exec_ends (i := .fcount) nofun h
  obtain ⟨hbus, -, hrange, -⟩ := he
  have hnone : t.err = .none := hends.err_mem.resolve_right fun hm => by simp [errorsOf, hbus, hrange] at hm
  obtain ⟨w, p, hw, hfin⟩ := execFcount_completes h hnone
  have hmem := hends.mem_eq rfl
  cases hfin
  refine ⟨?_, fun x hx hzero => ?_, hmem⟩
  · have hle := symbolCount_le w.table
    show (BitVec.ofNat 9 (symbolCount w.table)).toNat = symbolCount w.table
    rw [BitVec.toNat_ofNat]
    omega
  · have hcount := congrArg BitVec.toNat ((hw.all hr x).symm.trans hzero)
    rw [toNat_count] at hcount
    exact absurd hx (List.count_eq_zero.1 hcount)

/-- The codes of the tree of a table (R191, R211). -/
def treeCodes (f : FreqTable) : CodeTable := codesOf (treeOf f) (treeSize f)

theorem treeCodes_eq_nil_iff (f : FreqTable) (x : Byte) : tableGet (treeCodes f) x = [] ↔ tableGet f x = 0 := by
  obtain ⟨cs, hcs, hcodes⟩ := (finishedTree f).codesOf_eq
  rw [treeCodes, hcodes]
  exact hcs.tableGet_eq_nil_iff x

theorem codesOf_of_tbuild (h : exec .tbuild s = .next t) : codesOf t.nodes t.nnode.toNat = treeCodes s.freq := by
  obtain ⟨hnodes, -⟩ := execTbuild_tree h
  rw [hnodes, (exec_tbuild_finished h).2, treeCodes]

/-! ### PACK of a source whose bytes have codes (R227) -/

theorem Result.All.and {α : Type} {P P' : α → Port → Prop} {Q Q' : Raise → Port → Prop} {r : Result α} (h : r.All P Q)
    (h' : r.All P' Q') : r.All (fun a p => P a p ∧ P' a p) fun e p => Q e p ∧ Q' e p := by
  cases r <;> exact ⟨h, h'⟩

/-- BUS or DST_OVERFLOW: what the buffers of a command can make its body raise. -/
def BufferRaise (e : Raise) (_ : Port) : Prop := e.code = .bus ∨ e.code = .dstOverflow

theorem emit_raises (s : State) (out : Nat) (v : Byte) (p : Port) :
    (emit s out v p).All (fun _ _ => True) BufferRaise := by
  unfold emit memWrite1
  split
  · exact .inr rfl
  · split
    · exact .inl rfl
    · exact trivial

theorem packBit_raises (s : State) (p : Port) (w : PackWork) (b : Bool) :
    (packBit s p w b).All (fun _ _ => True) BufferRaise := by
  unfold packBit
  simp only
  split
  · exact (emit_raises ..).bind fun _ _ _ => trivial
  · exact trivial

theorem packCode_raises (s : State) (bs : List Bool) : ∀ (p : Port) (w : PackWork),
    (packCode s bs p w).All (fun _ _ => True) BufferRaise := by
  induction bs with
  | nil => exact fun _ _ => trivial
  | cons b bs ih => exact fun p w => (packBit_raises s p w b).bind fun w₁ p₁ _ => ih p₁ w₁

theorem packFlush_raises (s : State) (w : PackWork) (p : Port) :
    (packFlush s w p).All (fun _ _ => True) BufferRaise := by
  unfold packFlush
  split
  · exact (emit_raises ..).bind fun _ _ _ => trivial
  · exact trivial

/-- A source byte with a code raises no NO_CODE. -/
theorem packBody_raises (h : s.PlainBuffers) {k : Nat} {w : PackWork} {p : Port} (hk : k < s.latch.srcLen.toNat)
    (hcode : tableGet s.codes (s.srcByte k) ≠ []) (hw : PackTo s k w p) :
    (packBody s p w).All (fun _ _ => True) BufferRaise := by
  obtain ⟨rfl, hw⟩ := hw
  unfold packBody
  cases hf : s.platform.memFault (s.srcAt w.i) .read with
  | true =>
    rw [memRead1_fault hf]
    exact .inl rfl
  | false =>
    rw [memRead1_apart h hw.within hk hf, Result.bind_ok]
    split
    · next hnil => exact absurd hnil hcode
    · exact (packCode_raises ..).bind fun _ _ _ => trivial

theorem packLoop_coded (h : s.PlainBuffers) (hcodes : ∀ x ∈ s.sourceBytes, tableGet s.codes x ≠ []) :
    (iterate (packBody s) (packLeft s packInit) s.port packInit).All (PackTo s s.latch.srcLen.toNat) BufferRaise := by
  refine iterate_counts (PackTo s) (fun k w p hk hw => ?_) _ 0 packInit s.port (by simp [packLeft, packInit])
    ⟨rfl, .start s⟩
  have hcode : tableGet s.codes (s.srcByte k) ≠ [] := by
    rw [← length_sourceBytes] at hk
    exact hcodes _ (getElem_sourceBytes s hk ▸ List.getElem_mem hk)
  exact ((packBody_packs h hk le_rfl le_rfl hw).and (packBody_raises h hk hcode hw)).mono (fun _ _ hw' => hw'.1)
    fun _ _ he => he.2

/-- The last byte is written inside the buffer. -/
theorem packFlush_fits {bits : List Bool} {w : PackWork} {p : Port} (hd : s.DstFits) (hw : Packed s bits w p) :
    (packFlush s w p).All (fun w' q => w'.nbits = bits.length ∧ w'.out = (payloadOf bits).length ∧
      w'.out ≤ s.latch.dstCap.toNat ∧ Stores s (payloadOf bits).length 0 (payloadOf bits) s.port q) BufferRaise :=
  (((packFlush_packs (m := 0) hd hw le_rfl).and (packFlush_all hd ⟨hw.room, hw.within⟩)).and
    (packFlush_raises s w p)).mono (fun _ _ ⟨⟨⟨hbits, hout, hq⟩, hcap⟩, _⟩ => ⟨hbits, hout, hcap.1, hq⟩)
    fun _ _ he => he.2

/-- PACK has completed with the payload, which fits, written. -/
def PackedEnd (s t : State) : Prop :=
  s.payload.length ≤ s.latch.dstCap.toNat ∧ ∃ p, Stores s s.payload.length 0 s.payload s.port p ∧
    t = (s.withPort p).complete ⟨BitVec.ofNat 32 s.payload.length,
      BitVec.ofNat 3 (padCount (codeStream s.codes s.sourceBytes).length),
      BitVec.ofNat 64 (codeStream s.codes s.sourceBytes).length⟩

/-- A body that raises at most what the buffers make it raise, in a command without a buffer error. -/
theorem endBody_of_noBufferError {α : Type} {u : State} {usesDst : Bool} {r : Result α} {P : α → Port → Prop}
    {go : α → Port → Host.Outcome State Fault Refusal} (hr : r.All P BufferRaise)
    (h : endBody u usesDst r go = .next t) (he : NoBufferError t) : ∃ a p, P a p ∧ go a p = .next t := by
  cases r with
  | ok a p => exact ⟨a, p, hr, h⟩
  | raise e p =>
    cases h
    obtain ⟨hbus, hcap, -, -⟩ := he
    rw [State.fail_err] at hbus hcap
    exact (hr.elim hbus hcap).elim

/-- PACK, without a buffer error, of a source whose bytes all have codes (R227). -/
theorem pack_of_noBufferError (hv : s.codeValid = true) (hr : s.raced = false)
    (hcodes : ∀ x ∈ s.sourceBytes, tableGet s.codes x ≠ []) (h : exec .pack s = .next t) (he : NoBufferError t) :
    PackedEnd s t := by
  obtain ⟨hchecks, hdev⟩ := preChecked_passed h fun e hc => by
    obtain ⟨-, -, hrange, hoverlap⟩ := he
    simp only [packChecks, checkReady_eq_none.2 hv, List.mem_cons, List.not_mem_nil, or_false, reduceCtorEq,
      false_or] at hc
    rcases hc with hc | hc | hc <;> obtain ⟨-, rfl⟩ := raiseIf_eq_some hc.symm <;> assumption
  obtain ⟨-, hsf, hdf, hap⟩ := packChecks_eq_none.1 hchecks
  obtain ⟨hsd, hdd⟩ := Bool.or_eq_false_iff.1 hdev
  have hbuffers : s.PlainBuffers := ⟨hsf, hdf, hap, hr⟩
  rw [execPack_run hv hbuffers hsd hdd] at h
  obtain ⟨w, p, ⟨-, hw⟩, hfinish⟩ := endBody_of_noBufferError (packLoop_coded hbuffers hcodes) h he
  rw [bitsTo_all] at hw
  obtain ⟨w', q, ⟨hbits, hout, hcap, hq⟩, hend⟩ := endBody_of_noBufferError (packFlush_fits hdf hw) hfinish he
  cases hend
  refine ⟨hout ▸ hcap, q, hq, ?_⟩
  rw [State.settleDst, if_neg (by simp [hr]), hbits, hout]
  rfl

/-- UNPACK, without a buffer error, of a stream of codes (R243). -/
theorem unpack_of_noBufferError {pad : BitVec 3} {xs : List Byte} (hv : s.treeValid = true) (hr : s.raced = false)
    (hpad : s.latch.srcLen = 0 → pad = 0) (hcodes : ∀ x ∈ xs, tableGet (codesOf s.nodes s.nnode.toNat) x ≠ [])
    (hs : streamOf s.sourceBytes pad.toNat = codeStream (codesOf s.nodes s.nnode.toNat) xs)
    (h : exec (.unpack pad) s = .next t) (he : NoBufferError t) :
    t.err = .none ∧ t.resLen = BitVec.ofNat 32 xs.length ∧ bytesAt t.mem s.latch.dstAddr.toNat xs.length = xs := by
  obtain ⟨hbus, hfull, hrange, hoverlap⟩ := he
  have hm := unpackMalformed_codes hpad hcodes hs
  obtain ⟨hchecks, hdev⟩ := preChecked_passed h fun e hc => by
    simp only [unpackChecks, checkReady_eq_none.2 hv, hm, raiseIf_false, List.mem_cons, List.not_mem_nil, or_false,
      reduceCtorEq, false_or] at hc
    rcases hc with hc | hc | hc <;> obtain ⟨-, rfl⟩ := raiseIf_eq_some hc.symm <;> assumption
  obtain ⟨-, hsf, hdf, hap, -⟩ := unpackChecks_eq_none.1 hchecks
  obtain ⟨hsd, hdd⟩ := Bool.or_eq_false_iff.1 hdev
  have hbuffers : s.PlainBuffers := ⟨hsf, hdf, hap, hr⟩
  obtain ⟨t', ht', hend⟩ := runUnpack_codes hbuffers hcodes hs
  cases ht'.symm.trans ((execUnpack_run hv hbuffers hsd hdd hm).symm.trans h)
  obtain ⟨p, hp, -, rfl⟩ := hend.resolve_left fun hfail => hfail.1.elim hbus hfull
  exact ⟨rfl, rfl, hp.bytes_eq⟩

end

/-! ### The chain of the round trip -/

/-- A state that holds the payload of the bytes `xs`, coded by the tree of the table `f`, with its length and padding
count as a command's results. -/
structure HoldsPayload (f : FreqTable) (xs : List Byte) (pay : Word) (t : State) : Prop where
  len : t.resLen.toNat = (payloadOf (codeStream (treeCodes f) xs)).length
  pad : t.resPad.toNat = padCount (codeStream (treeCodes f) xs).length
  bytes : bytesAt t.mem pay.toNat t.resLen.toNat = payloadOf (codeStream (treeCodes f) xs)

/-- TBUILD and CTGEN make the codes of the table's tree. -/
theorem codes_of_tbuild_ctgen {s t u v : State} (h : exec .tbuild s = .next t) (hu : exec .ctgen u = .next v)
    (hv : u.treeValid = true) (hnodes : u.nodes = t.nodes) (hnnode : u.nnode = t.nnode) :
    v.codeValid = true ∧ v.codes = treeCodes s.freq ∧ v.freq = u.freq ∧ v.nsym = u.nsym ∧ v.mem = u.mem := by
  rw [exec_ctgen_of_valid hv, hnodes, hnnode, codesOf_of_tbuild h] at hu
  cases hu
  exact ⟨rfl, rfl, rfl, rfl, rfl⟩

section
variable {s t₁ t₂ t₃ t₄ t₅ t₆ t₇ t₈ : State} {src n pay payCap sec secCap out outCap : Word}

/-- FCOUNT, TBUILD, CTGEN and PACK leave the table of the source and its payload. -/
theorem encode_holdsPayload (h₁ : exec .fcount (s.issue .fcount src n pay payCap) = .next t₁)
    (h₂ : exec .tbuild (t₁.issue .tbuild src n pay payCap) = .next t₂)
    (h₃ : exec .ctgen (t₂.issue .ctgen src n pay payCap) = .next t₃)
    (h₄ : exec .pack (t₃.issue .pack src n pay payCap) = .next t₄) (he₁ : NoBufferError t₁) (he₄ : NoBufferError t₄) :
    t₄.err = .none ∧ t₄.nsym.toNat = symbolCount t₄.freq ∧
      (∀ x ∈ bytesAt s.mem src.toNat n.toNat, tableGet (treeCodes t₄.freq) x ≠ []) ∧
      t₄.resLen.toNat ≤ payCap.toNat ∧ HoldsPayload t₄.freq (bytesAt s.mem src.toNat n.toNat) pay t₄ := by
  obtain ⟨hnsym, hcounts, hmem₁⟩ := fcount_of_noBufferError rfl h₁ he₁
  obtain ⟨htree₂, hfreq₂, hnsym₂, hmem₂⟩ :
      t₂.treeValid = true ∧ t₂.freq = t₁.freq ∧ t₂.nsym = t₁.nsym ∧ t₂.mem = t₁.mem := by
    cases h₂
    exact ⟨rfl, rfl, rfl, rfl⟩
  obtain ⟨hv, hcodes₃, hfreq₃, hnsym₃, hmem₃⟩ := codes_of_tbuild_ctgen h₂ h₃ htree₂ rfl rfl
  have hsource : (t₃.issue .pack src n pay payCap).sourceBytes = bytesAt s.mem src.toNat n.toNat :=
    congrArg (bytesAt · src.toNat n.toNat) (hmem₃.trans (hmem₂.trans hmem₁))
  have hne : ∀ x ∈ bytesAt s.mem src.toNat n.toNat, tableGet (treeCodes t₁.freq) x ≠ [] := fun x hx =>
    (treeCodes_eq_nil_iff _ x).not.2 (hcounts x hx)
  have hcodes : (t₃.issue .pack src n pay payCap).codes = treeCodes t₁.freq := hcodes₃
  obtain ⟨hcap, p, hp, ht₄⟩ := pack_of_noBufferError (s := t₃.issue .pack src n pay payCap) hv rfl
    (by rw [hsource, hcodes]; exact hne) h₄ he₄
  rw [State.payload, hsource, hcodes] at hcap hp ht₄
  have hfreq : t₄.freq = t₁.freq := ht₄ ▸ hfreq₃.trans hfreq₂
  have hlen : t₄.resLen.toNat =
      (payloadOf (codeStream (treeCodes t₁.freq) (bytesAt s.mem src.toNat n.toNat))).length := by
    rw [ht₄, State.complete_resLen, BitVec.toNat_ofNat]
    exact Nat.mod_eq_of_lt (hcap.trans_lt payCap.isLt)
  rw [hfreq]
  refine ⟨ht₄ ▸ rfl, ?_, hne, hlen ▸ hcap, hlen, ?_, ?_⟩
  · rw [← hnsym, ht₄]
    exact congrArg BitVec.toNat (hnsym₃.trans hnsym₂)
  · rw [ht₄]
    exact toNat_padCount _
  · rw [hlen, ht₄]
    exact hp.bytes_eq

/-- FSTORE beside the payload, then FLOAD of the section it wrote, give the table back and leave the payload. -/
theorem section_keepsPayload {f : FreqTable} {xs : List Byte} (hf : t₄.freq = f)
    (hnsym : t₄.nsym.toNat = symbolCount t₄.freq)
    (h₅ : exec .fstore (t₄.issue .fstore src n sec secCap) = .next t₅)
    (h₆ : exec .fload (t₅.issue .fload sec t₅.resLen out outCap) = .next t₆) (he₅ : NoBufferError t₅)
    (he₆ : NoBufferError t₆) (hpay : HoldsPayload f xs pay t₄)
    (hapart : sec.toNat + secCap.toNat ≤ pay.toNat ∨ pay.toNat + t₄.resLen.toNat ≤ sec.toNat) :
    t₆.freq = f ∧ bytesAt t₆.mem pay.toNat t₄.resLen.toNat = bytesAt t₄.mem pay.toNat t₄.resLen.toNat := by
  subst hf
  have hends := exec_ends (s := t₄.issue .fstore src n sec secCap) (fun _ => hnsym) h₅
  obtain ⟨hbus, hcap, hrange, -⟩ := he₅
  have hnone : t₅.err = .none := hends.err_mem.resolve_right fun hm => by simp [errorsOf, hbus, hcap, hrange] at hm
  obtain ⟨hlen, hbytes⟩ := execFstore_section (s := t₄.issue .fstore src n sec secCap) hnsym rfl h₅ hnone
  have htake : (t₅.issue .fload sec t₅.resLen out outCap).sourceBytes.take (freqSection t₄.freq).length =
      freqSection t₄.freq := by
    show (bytesAt t₅.mem sec.toNat t₅.resLen.toNat).take _ = _
    rw [hlen]
    exact (congrArg (List.take _) hbytes).trans List.take_length
  obtain ⟨hbus₆, -, hrange₆, -⟩ := he₆
  obtain ⟨-, hfreq, -⟩ := execFload_section rfl htake h₆ hbus₆ hrange₆
  have hmem₆ : t₆.mem = (t₅.issue .fload sec t₅.resLen out outCap).mem :=
    (exec_ends (i := .fload) nofun h₆).mem_eq rfl
  refine ⟨hfreq, List.map_congr_left fun i hi => ?_⟩
  have hi' := List.mem_range.1 hi
  rw [hmem₆]
  exact (hends.withinDst rfl).read _ (by show _ < sec.toNat ∨ sec.toNat + secCap.toNat ≤ _; omega)

/-- TBUILD and UNPACK of the payload give the bytes back. -/
theorem decode_givesBack {f : FreqTable} {xs : List Byte} {len : Word} {pad : BitVec 3} (hf : t₆.freq = f)
    (hlen : len.toNat = (payloadOf (codeStream (treeCodes f) xs)).length)
    (hpad : pad.toNat = padCount (codeStream (treeCodes f) xs).length)
    (hbytes : bytesAt t₆.mem pay.toNat len.toNat = payloadOf (codeStream (treeCodes f) xs))
    (hcodes : ∀ x ∈ xs, tableGet (treeCodes f) x ≠ [])
    (h₇ : exec .tbuild (t₆.issue .tbuild pay len out outCap) = .next t₇)
    (h₈ : exec (.unpack pad) (t₇.issue (.unpack pad) pay len out outCap) = .next t₈) (he₈ : NoBufferError t₈) :
    t₈.err = .none ∧ t₈.resLen = BitVec.ofNat 32 xs.length ∧ bytesAt t₈.mem out.toNat xs.length = xs := by
  subst hf
  have htree : codesOf t₇.nodes t₇.nnode.toNat = treeCodes t₆.freq :=
    codesOf_of_tbuild (s := t₆.issue .tbuild pay len out outCap) h₇
  obtain ⟨hv, hmem⟩ : t₇.treeValid = true ∧ t₇.mem = t₆.mem := by
    cases h₇
    exact ⟨rfl, rfl⟩
  have hsource : (t₇.issue (.unpack pad) pay len out outCap).sourceBytes =
      payloadOf (codeStream (treeCodes t₆.freq) xs) :=
    (congrArg (bytesAt · pay.toNat len.toNat) hmem).trans hbytes
  refine unpack_of_noBufferError (s := t₇.issue (.unpack pad) pay len out outCap) hv rfl (fun hzero => ?_)
    (htree ▸ hcodes) ?_ h₈ he₈
  · have hzero' : len.toNat = 0 := congrArg BitVec.toNat hzero
    rw [length_payloadOf] at hlen
    have hnil : (codeStream (treeCodes t₆.freq) xs).length = 0 := by omega
    exact BitVec.eq_of_toNat_eq (by rw [hpad, hnil]; rfl)
  · rw [hsource, hpad, streamOf_payloadOf]
    exact congrArg (codeStream · xs) htree.symm

end
end Sys2Proof.Machine

open Sys2Proof Sys2Proof.Machine

/-- Settles O44: the payload outlives the commands between PACK and UNPACK, and both code by the tree of one table. -/
theorem roundTripGivesTheInputBack : Obligations.RoundTripGivesTheInputBack := by
  unfold Obligations.RoundTripGivesTheInputBack
  intro s t₁ t₂ t₃ t₄ t₅ t₆ t₇ t₈ src n pay payCap sec secCap out outCap h₁ h₂ h₃ h₄ h₅ h₆ h₇ h₈ he₁ he₄ he₅ he₆ he₈
    hapart
  obtain ⟨herr, hnsym, hcodes, hcap, hpay⟩ := encode_holdsPayload h₁ h₂ h₃ h₄ he₁ he₄
  obtain ⟨hfreq, hkept⟩ := section_keepsPayload rfl hnsym h₅ h₆ he₅ he₆ hpay (hapart.imp_right (by omega))
  obtain ⟨herr₈, hlen, hback⟩ := decode_givesBack hfreq hpay.len hpay.pad (hkept.trans hpay.bytes) hcodes h₇ h₈ he₈
  have hn : (bytesAt s.mem src.toNat n.toNat).length = n.toNat := by simp [bytesAt]
  rw [hn] at hlen hback
  exact ⟨herr, herr₈, hlen.trans (by rw [BitVec.ofNat_toNat, BitVec.setWidth_eq]), hback⟩

end

section
/-! PROOFS. The control commands NOP and CLEAR (R260, R261). -/

namespace Sys2Proof

/-- A word that holds more than the OPC of a command other than UNPACK is illegal (R144). -/
theorem decodeWord_eq_none_of_ne_opc {v w : Word} (hopc : w.toNat % 256 = v.toNat) (h7 : v.toNat ≠ 7) (hw : w ≠ v) :
    decodeWord w = none := by
  refine decodeWord_eq_none.2 (by_contra fun hlegal => hw (BitVec.eq_of_toNat_eq ?_))
  exact (Word.toNat_eq_opc hlegal (hopc ▸ h7)).trans hopc

end Sys2Proof

namespace Sys2Proof.Machine

theorem exec_nop (s : State) : exec .nop s = .next (s.complete Results.zero) := rfl

theorem exec_clear (s : State) :
    exec .clear s = .next ((s.commitFreq FreqTable.empty 0).complete Results.zero) := rfl

/-- A completion raises DONE, so the line is up when IE is 1 (R290). -/
@[simp] theorem State.complete_irq (s : State) (r : Results) : (s.complete r).irq = s.ie := by
  simp [State.irq]

theorem State.complete_sameTables (s : State) (r : Results) : SameTables s (s.complete r) := by
  constructor <;> rfl

/-- The empty table of no symbols leaves every table at its reset value (R261, R321). -/
theorem commitFreq_empty_resetTables (s : State) (r : Results) :
    SameTables State.reset ((s.commitFreq FreqTable.empty 0).complete r) := by
  constructor <;> rfl

end Sys2Proof.Machine

open Sys2Proof Sys2Proof.Machine

/-- Settles O17: NOP is a completion and nothing besides. -/
theorem nopOnlyCompletes : Obligations.NopOnlyCompletes := by
  unfold Obligations.NopOnlyCompletes
  refine ⟨decodeWord_encode .nop, fun w hopc => decodeWord_eq_none_of_ne_opc (v := 0x00000000) hopc (by decide),
    fun s => ?_⟩
  have hend := exec_nop s
  exact ⟨_, hend, s.complete_completedOk _, s.complete_sameTables _, (exec_endState hend).host, rfl,
    s.complete_irq _⟩

/-- Settles O18: CLEAR is the commit of the empty table and a completion. -/
theorem clearDiscardsTheTables : Obligations.ClearDiscardsTheTables := by
  unfold Obligations.ClearDiscardsTheTables
  refine ⟨decodeWord_encode .clear, fun w hopc => decodeWord_eq_none_of_ne_opc (v := 0x00000008) hopc (by decide),
    fun s => ?_⟩
  have hend := exec_clear s
  exact ⟨_, hend, State.complete_completedOk .., commitFreq_empty_resetTables s _, commitFreq_noTreeNoCodes ..,
    tableGet_empty, rfl, (State.isEmpty_iff _).2 rfl, (exec_endState hend).host, rfl⟩

end

section
/-! PROOFS. The errors of a command (R279, R285 to R288): what a body can raise from any progress, the ends of a run, the
first pre-check that fails, and what an error leaves. -/

namespace Sys2Proof.Machine

/-! ### What one iteration does (R171, R175, R177, R227, R243) -/

/-- The errors that a command's body can raise (R288 step 6). -/
def bodyErrors : Instr → List ErrCode
  | .nop | .tbuild | .ctgen | .clear => []
  | .fcount | .fstore => [.bus]
  | .fload => [.malformed, .bus]
  | .pack => [.noCode, .dstOverflow, .bus]
  | .unpack _ => [.truncated, .dstOverflow, .bus]

/-- A part of a body raises only errors of its command's body. -/
abbrev Result.RaisesFor {α : Type} (i : Instr) (r : Result α) : Prop :=
  r.All (fun _ _ => True) fun e _ => e.code ∈ bodyErrors i

variable {i : Instr}

theorem memRead1_raises (hb : .bus ∈ bodyErrors i) (s : State) (a : Word) (p : Port) : (memRead1 s a p).RaisesFor i :=
  (memRead1_all s a p).mono (fun _ _ _ => trivial) fun _ _ h => h.1 ▸ hb

theorem memReadBE32_raises (hb : .bus ∈ bodyErrors i) (s : State) (a : Word) (p : Port) :
    (memReadBE32 s a p).RaisesFor i :=
  (memReadBE32_all s a p).mono (fun _ _ _ => trivial) fun _ _ h => h.1 ▸ hb

theorem memWrite1_raises (hb : .bus ∈ bodyErrors i) (s : State) (a : Word) (v : Byte) (p : Port) :
    (memWrite1 s a v p).RaisesFor i :=
  (memWrite1_all (Nat.zero_le _) a.isLt).mono (fun _ _ _ => trivial) fun _ _ h => h.1 ▸ hb

theorem memWriteN_raises (hb : .bus ∈ bodyErrors i) (s : State) (vs : List Byte) : ∀ (a : Word) (p : Port),
    (memWriteN s a vs p).RaisesFor i := by
  induction vs with
  | nil => exact fun _ _ => trivial
  | cons v vs ih => exact fun a p => (memWrite1_raises hb s a v p).bind fun _ q _ => ih (a + 1) q

/-- BUS and DST_OVERFLOW are errors of the bodies that write output. -/
theorem Result.All.raisesFor {α : Type} {r : Result α} (h : r.All (fun _ _ => True) BufferRaise)
    (hb : .bus ∈ bodyErrors i) (ho : .dstOverflow ∈ bodyErrors i) : r.RaisesFor i :=
  h.mono (fun _ _ _ => trivial) fun _ _ he => by rcases he with he | he <;> rw [he] <;> assumption

theorem fcountBody_next (s : State) (w : FcountWork) (p : Port) :
    (fcountBody s p w).All (fun w' _ => w'.i = w.i + 1) fun e _ => e.code ∈ bodyErrors .fcount :=
  (memRead1_raises (by decide) ..).bind fun _ _ _ => rfl

theorem floadBegin_raises (s : State) (p : Port) : (floadBegin s p).RaisesFor .fload := by
  refine (memReadBE32_raises (by decide) ..).bind fun n q _ => ?_
  split
  · exact List.mem_cons_self
  · split
    · exact List.mem_cons_self
    · trivial

theorem floadBody_next (s : State) (w : FloadWork) (p : Port) :
    (floadBody s p w).All (fun w' _ => w'.n = w.n ∧ w'.i = w.i + 1) fun e _ => e.code ∈ bodyErrors .fload := by
  refine (memRead1_raises (by decide) ..).bind fun sym q _ => ?_
  refine (memReadBE32_raises (by decide) ..).bind fun f r _ => ?_
  split
  · exact List.mem_cons_self
  · split
    · exact List.mem_cons_self
    · exact ⟨rfl, rfl⟩

theorem fstoreBegin_raises (s : State) (p : Port) : (fstoreBegin s p).RaisesFor .fstore :=
  (memWriteN_raises (by decide) ..).bind fun _ _ _ => trivial

theorem fstoreBody_next (s : State) (w : FstoreWork) (p : Port) :
    (fstoreBody s p w).All (fun w' _ => w'.s = w.s + 1) fun e _ => e.code ∈ bodyErrors .fstore := by
  unfold fstoreBody
  simp only
  split
  · exact (memWriteN_raises (by decide) ..).bind fun _ _ _ => (memWriteN_raises (by decide) ..).bind fun _ _ _ => rfl
  · exact rfl

theorem packBody_next (s : State) (w : PackWork) (p : Port) :
    (packBody s p w).All (fun w' _ => w'.i = w.i + 1) fun e _ => e.code ∈ bodyErrors .pack := by
  refine (memRead1_raises (by decide) ..).bind fun b q _ => ?_
  split
  · exact List.mem_cons_self
  · exact ((packCode_raises ..).raisesFor (by decide) (by decide)).bind fun _ _ _ => rfl

theorem unpackBody_next (pad : BitVec 3) (s : State) (w : UnpackWork) (p : Port) :
    (unpackBody s p w).All (fun w' _ => w'.nbits = w.nbits ∧ w'.t = w.t + 1)
      fun e _ => e.code ∈ bodyErrors (.unpack pad) := by
  have hbyte : (unpackByte s p w).RaisesFor (.unpack pad) := by
    unfold unpackByte
    split
    · exact memRead1_raises (by simp [bodyErrors]) ..
    · trivial
  have hemit (x : Nat) (v : Byte) (q : Port) : (emit s x v q).RaisesFor (.unpack pad) :=
    (emit_raises ..).raisesFor (by simp [bodyErrors]) (by simp [bodyErrors])
  refine hbyte.bind fun byte q _ => ?_
  simp only
  split
  · split
    · exact List.mem_cons_self
    · exact (hemit ..).bind fun _ _ _ => ⟨rfl, rfl⟩
  · generalize (if streamBit byte w.t = true then (nodeAt s.nodes w.node).right.toNat
      else (nodeAt s.nodes w.node).left.toNat) = child
    split
    · exact ⟨rfl, rfl⟩
    · exact (hemit ..).bind fun _ _ _ => ⟨rfl, rfl⟩

/-- A loop raises what its iterations raise. -/
theorem iterate_raises {α : Type} {body : Port → α → Result α} {P : α → α → Prop}
    (hb : ∀ a p, (body p a).All (fun a' _ => P a a') fun e _ => e.code ∈ bodyErrors i) (n : Nat) (a : α) (p : Port) :
    (iterate body n p a).RaisesFor i :=
  iterate_all (fun _ _ => True) (fun a p _ => (hb a p).mono (fun _ _ _ => trivial) fun _ _ h => h) n a p trivial

/-! ### The ends of a run (R284, R285) -/

/-- A command's end: it raises an error that meets `C` with the memory port alone changed, or completes after a commit,
which leaves what only the host writes. -/
inductive EngineEnd (C : ErrCode → Prop) (s : State) : State → Prop
  | raised (p : Port) (e : Raise) : C e.code → EngineEnd C s ((s.withPort p).raise e)
  | completed (u : State) (r : Results) : SameHost s u → EngineEnd C s (u.complete r)

/-- Every next state of the outcome is an end. -/
abbrev Finishes (C : ErrCode → Prop) (s : State) (o : Host.Outcome State Fault Refusal) : Prop :=
  ∀ t, o = .next t → EngineEnd C s t

variable {C C' : ErrCode → Prop} {s t : State}

theorem EngineEnd.mono (h : EngineEnd C s t) (hc : ∀ c, C c → C' c) : EngineEnd C' s t := by
  cases h with
  | raised p e he => exact .raised p e (hc _ he)
  | completed u r hu => exact .completed u r hu

theorem EngineEnd.endState (h : EngineEnd C s t) (hc : ∀ c, C c → c ≠ .none) : EndState s t := by
  cases h with
  | raised p e he => exact .raise (.withPort s p) (hc _ he)
  | completed u r hu => exact .complete hu r

theorem EngineEnd.err (h : EngineEnd C s t) : t.err = .none ∨ C t.err := by
  cases h with
  | raised p e he => exact .inr he
  | completed u r hu => exact .inl rfl

/-- An error changes no table (R286). -/
theorem EngineEnd.sameTables (h : EngineEnd C s t) (he : t.err ≠ .none) : SameTables s t := by
  cases h with
  | raised p e _ => constructor <;> rfl
  | completed u r _ => exact absurd rfl he

theorem EngineEnd.of_withPort {p : Port} (h : EngineEnd C (s.withPort p) t) : EngineEnd C s t := by
  cases h with
  | raised q e he => exact .raised q e he
  | completed u r hu =>
    exact .completed u r
      ⟨hu.ie, hu.ovr, hu.cmd, hu.srcAddr, hu.srcLen, hu.dstAddr, hu.dstCap, hu.platform, hu.inputs, hu.resp⟩

theorem EngineEnd.preError (usesDst : Bool) {e : Raise} (he : C e.code) :
    EngineEnd C s ((if usesDst then s.settleDst else s).raise e) := by
  unfold State.settleDst
  split
  · split
    · exact .raised s.havocDst.port e he
    · exact .raised s.port e he
  · exact .raised s.port e he

theorem EngineEnd.fail (usesDst : Bool) (p : Port) {e : Raise} (he : C e.code) :
    EngineEnd C s ((s.withPort p).fail usesDst e) := by
  rw [State.fail_eq]
  split
  · exact .raised (s.withPort p).havocDst.port e he
  · exact .raised p e he

theorem EngineEnd.settled (p : Port) (r : Results) : EngineEnd C s ((s.withPort p).settleDst.complete r) :=
  .completed _ r (by constructor <;> simp)

theorem endBody_finishes {α : Type} {usesDst : Bool} {r : Result α} {go : α → Port → Host.Outcome State Fault Refusal}
    (hr : r.RaisesFor i) (hgo : ∀ a p, Finishes (· ∈ bodyErrors i) s (go a p)) :
    Finishes (· ∈ bodyErrors i) s (endBody s usesDst r go) := by
  intro t h
  cases r with
  | ok a p => exact hgo a p t h
  | raise e p => cases h; exact .fail usesDst p hr

theorem packFinish_finishes (s : State) (w : PackWork) (p : Port) :
    Finishes (· ∈ bodyErrors .pack) s (packFinish s w p) :=
  endBody_finishes ((packFlush_raises s w p).raisesFor (by decide) (by decide)) fun _ q _ h => by
    cases h; exact .settled q _

theorem unpackFinish_finishes (pad : BitVec 3) (s : State) (w : UnpackWork) (p : Port) :
    Finishes (· ∈ bodyErrors (.unpack pad)) s (unpackFinish s w p) := by
  intro t h
  unfold unpackFinish at h
  split at h
  · cases h; exact .fail true p List.mem_cons_self
  · cases h; exact .settled p _

theorem runFcount_finishes (s : State) (w : FcountWork) : Finishes (· ∈ bodyErrors .fcount) s (runFcount s w) :=
  endBody_finishes (iterate_raises (fcountBody_next s) _ _ _) fun _ p _ h => by
    cases h; exact .completed _ _ (by constructor <;> rfl)

theorem runFload_finishes (s : State) (w : FloadWork) : Finishes (· ∈ bodyErrors .fload) s (runFload s w) :=
  endBody_finishes (iterate_raises (floadBody_next s) _ _ _) fun _ p _ h => by
    cases h; exact .completed _ _ (by constructor <;> rfl)

theorem runFstore_finishes (s : State) (w : FstoreWork) : Finishes (· ∈ bodyErrors .fstore) s (runFstore s w) :=
  endBody_finishes (iterate_raises (fstoreBody_next s) _ _ _) fun _ p _ h => by cases h; exact .settled p _

theorem runPack_finishes (s : State) (w : PackWork) : Finishes (· ∈ bodyErrors .pack) s (runPack s w) :=
  endBody_finishes (iterate_raises (packBody_next s) _ _ _) fun w' p => packFinish_finishes s w' p

theorem runUnpack_finishes (pad : BitVec 3) (s : State) (w : UnpackWork) :
    Finishes (· ∈ bodyErrors (.unpack pad)) s (runUnpack s w) :=
  endBody_finishes (iterate_raises (unpackBody_next pad s) _ _ _) fun w' p => unpackFinish_finishes pad s w' p

theorem runTbuild_finishes (C : ErrCode → Prop) (s : State) (w : TbuildWork) : Finishes C s (runTbuild s w) :=
  fun _ h => by cases h; exact .completed _ _ (by constructor <;> rfl)

theorem runCtgen_finishes (C : ErrCode → Prop) (s : State) (w : CtgenWork) : Finishes C s (runCtgen s w) :=
  fun _ h => by cases h; exact .completed _ _ (by constructor <;> rfl)

/-! ### Pre-checks (R288 steps 2 to 5) -/

/-- The pre-checks of a command, in their order. -/
def checksOf (i : Instr) (s : State) : List (Option Raise) :=
  match i with
  | .nop | .tbuild | .clear => []
  | .fcount => fcountChecks s
  | .fload => floadChecks s
  | .fstore => fstoreChecks s
  | .ctgen => ctgenChecks s
  | .pack => packChecks s
  | .unpack pad => unpackChecks pad s

theorem firstError_raiseIf (bad : Bool) (e : Raise) (cs : List (Option Raise)) :
    firstError (raiseIf bad e :: cs) = if bad then some e else firstError cs := by
  cases bad <;> rfl

/-- The first pre-check that raises is the one of R288's list. -/
theorem preError_eq_firstError (i : Instr) (s : State) :
    preError i s = (firstError (checksOf i s)).map fun e => (e.code, e.info) := by
  cases i with
  | nop | tbuild | clear => rfl
  | fcount | fload | fstore | ctgen | pack | unpack =>
    have hlen : s.sectionLength = 4 + 5 * s.nsym.toNat := rfl
    simp only [preError, checksOf, fcountChecks, floadChecks, fstoreChecks, ctgenChecks, packChecks, unpackChecks,
      checkReady, checkSrcRange, checkDstRange, checkOverlap, buffersOverlap, unpackMalformed,
      firstError_raiseIf, firstError_nil, apply_ite (Option.map _), decide_eq_true_eq]
    simp [and_assoc, ite_or, ← BitVec.toNat_inj, ← hlen]

theorem preChecked_of_error {checks : List (Option Raise)} {e : Raise} (h : firstError checks = some e)
    (onDevice usesDst : Bool) (go : Host.Outcome State Fault Refusal) :
    preChecked s checks onDevice usesDst go = .next ((if usesDst then s.settleDst else s).raise e) := by
  rw [preChecked, h]

theorem preChecked_finishes {checks : List (Option Raise)} {onDevice usesDst : Bool}
    {go : Host.Outcome State Fault Refusal} (hc : firstError checks = none) (hgo : Finishes C s go) :
    Finishes C s (preChecked s checks onDevice usesDst go) := by
  intro t h
  rw [preChecked, hc] at h
  cases onDevice with
  | false => exact hgo t h
  | true => cases h

theorem exec_of_error {e : Raise} (h : firstError (checksOf i s) = some e) :
    exec i s = .next ((if usesDst i then s.settleDst else s).raise e) := by
  cases i with
  | nop | tbuild | clear => cases h
  | fcount | fload | fstore | ctgen | pack | unpack => exact preChecked_of_error h _ _ _

/-- A command whose pre-checks pass ends with an error of its body or without one. -/
theorem exec_finishes (h : firstError (checksOf i s) = none) : Finishes (· ∈ bodyErrors i) s (exec i s) := by
  cases i with
  | nop => exact fun _ hn => by cases hn; exact .completed s _ (.withPort s s.port)
  | tbuild => exact runTbuild_finishes _ _ _
  | clear => exact fun _ hn => by cases hn; exact .completed _ _ (by constructor <;> rfl)
  | fcount => exact preChecked_finishes h (runFcount_finishes _ _)
  | fload =>
    exact preChecked_finishes h (endBody_finishes (floadBegin_raises ..) fun w p t hn =>
      (runFload_finishes (s.withPort p) w t hn).of_withPort)
  | fstore =>
    exact preChecked_finishes h (endBody_finishes (fstoreBegin_raises ..) fun w p t hn =>
      (runFstore_finishes (s.withPort p) w t hn).of_withPort)
  | ctgen => exact preChecked_finishes h (runCtgen_finishes _ _ _)
  | pack => exact preChecked_finishes h (runPack_finishes _ _)
  | unpack pad => exact preChecked_finishes h (runUnpack_finishes _ _ _)

theorem checksOf_errors {e : Raise} (h : firstError (checksOf i s) = some e) : e.code ∈ errorsOf i := by
  have hm := firstError_mem h
  cases i <;> simp only [checksOf, fcountChecks, floadChecks, fstoreChecks, ctgenChecks, packChecks, unpackChecks,
    List.mem_cons, List.not_mem_nil, or_false] at hm
  case fcount | ctgen => obtain ⟨-, rfl⟩ := raiseIf_eq_some hm.symm; simp [errorsOf]
  case fload | fstore => rcases hm with hm | hm <;> obtain ⟨-, rfl⟩ := raiseIf_eq_some hm.symm <;> simp [errorsOf]
  case pack =>
    rcases hm with hm | hm | hm | hm <;> obtain ⟨-, rfl⟩ := raiseIf_eq_some hm.symm <;> simp [errorsOf]
  case unpack =>
    rcases hm with hm | hm | hm | hm | hm <;> obtain ⟨-, rfl⟩ := raiseIf_eq_some hm.symm <;> simp [errorsOf]

theorem bodyErrors_subset (i : Instr) : bodyErrors i ⊆ errorsOf i := by
  cases i <;> simp [bodyErrors, errorsOf]

/-! ### Errors (R279, R287, R288) -/

/-- What a command can end with: the error of its first failing pre-check, or, when they pass, an error of its body. -/
theorem exec_err (h : exec i s = .next t) :
    t.err = .none ∨ (∃ info, preError i s = some (t.err, info)) ∨ preError i s = none ∧ t.err ∈ bodyErrors i := by
  rw [preError_eq_firstError]
  cases hc : firstError (checksOf i s) with
  | some e => cases (exec_of_error hc).symm.trans h; exact .inr (.inl ⟨e.info, rfl⟩)
  | none => exact (exec_finishes hc t h).err.imp_right fun he => .inr ⟨rfl, he⟩

theorem firstError_of_preError {c : ErrCode} {info : Word} (h : preError i s = some (c, info)) :
    firstError (checksOf i s) = some ⟨c, info⟩ := by
  rw [preError_eq_firstError, Option.map_eq_some_iff] at h
  obtain ⟨e, he, hce⟩ := h
  cases hce
  exact he

theorem preError_mem_errorsOf {c : ErrCode} {info : Word} (h : preError i s = some (c, info)) : c ∈ errorsOf i :=
  checksOf_errors (firstError_of_preError h)

/-- A pre-check error of a command that no other agent has disturbed is a completion with that error and nothing more. -/
theorem exec_of_preError (hr : s.raced = false) {c : ErrCode} {info : Word} (h : preError i s = some (c, info)) :
    exec i s = .next (s.raise ⟨c, info⟩) := by
  have hs : (if usesDst i then s.settleDst else s) = s := by simp [State.settleDst, hr]
  rw [exec_of_error (firstError_of_preError h), hs]

/-- No body raises an error of the pre-checks for readiness, range and overlap. -/
theorem bodyErrors_not_preCheck {c : ErrCode} (h : c ∈ bodyErrors i) :
    c ≠ .notReady ∧ c ≠ .range ∧ c ≠ .overlap := by
  have hsub : bodyErrors i ⊆ [.malformed, .truncated, .noCode, .dstOverflow, .bus] := by
    cases i <;> simp [bodyErrors]
  have hall : ∀ c ∈ [ErrCode.malformed, .truncated, .noCode, .dstOverflow, .bus],
      c ≠ .notReady ∧ c ≠ .range ∧ c ≠ .overlap := by decide
  exact hall c (hsub h)

/-- After an error of a command with a destination buffer memory is as it was, or the buffer's bytes are free (R287). -/
theorem Ends.failed_mem (hi : usesDst i = true) (h : Ends i s t) (he : t.err ≠ .none) :
    t.mem = s.mem ∨ DstFreed s t := by
  cases h with
  | pre e _ =>
    rw [hi]
    cases hr : s.raced with
    | true => exact .inr (settleDst_freed (p := s.port) hr le_rfl)
    | false => exact .inl (by simp [hr])
  | body e p _ hp => rw [hi]; exact .inr (havocDst_freed (hp.withinDst hi).draws)
  | done u r _ => exact absurd rfl he

end Sys2Proof.Machine

open Sys2Proof Sys2Proof.Machine

/-- Settles O11: the errors of the pre-checks and of the body are among those of R279. -/
theorem eachCommandRaisesOnlyItsErrors : Obligations.EachCommandRaisesOnlyItsErrors := by
  unfold Obligations.EachCommandRaisesOnlyItsErrors
  intro i s t h
  rcases exec_err h with hnone | ⟨info, hpre⟩ | ⟨-, hbody⟩
  · exact .inl hnone
  · exact .inr (preError_mem_errorsOf hpre)
  · exact .inr (bodyErrors_subset i hbody)

/-- Settles O14: the pre-checks run in R288's order, and no body raises an error of theirs. -/
theorem preChecksReportTheFirstError : Obligations.PreChecksReportTheFirstError := by
  unfold Obligations.PreChecksReportTheFirstError
  refine fun i s hr => ⟨fun c info hpre => ⟨_, exec_of_preError hr hpre, ?_, s.raise_sameTables _, s.raise_sameHost _,
    rfl⟩, fun hpass t h => ?_⟩
  · exact s.raise_completedErr (e := ⟨c, info⟩) (errorsOf_ne_none (preError_mem_errorsOf hpre))
  · rcases exec_err h with hnone | ⟨info, hpre⟩ | ⟨-, hbody⟩
    · simp [hnone]
    · cases hpass.symm.trans hpre
    · exact bodyErrors_not_preCheck hbody

/-- Settles O15: a pre-check error writes nothing, and an error of the body frees the buffer. -/
theorem failedOutputIsUnspecified : Obligations.FailedOutputIsUnspecified := by
  unfold Obligations.FailedOutputIsUnspecified
  intro i s t hn hi h he
  have hends := exec_ends (fun _ => hn) h
  obtain ⟨-, hlen, -, -⟩ := (exec_endState h).error he
  exact ⟨hlen, (hends.withinDst hi).read, hends.failed_mem hi he⟩

end

section
/-! PROOFS. Single engine steps (R340): each ends the command as its run does, or leaves the command at a point from which
the run ends the same, so finitely many of them reach the run's end. -/

namespace Sys2Proof.Machine

/-! ### What the engine looks at -/

/-- The engine looks at the same things in both states, memory and its progress apart. -/
structure SameView (s s' : State) : Prop where
  latch : s'.latch = s.latch
  raced : s'.raced = s.raced
  platform : s'.platform = s.platform
  freq : s'.freq = s.freq
  nsym : s'.nsym = s.nsym
  nodes : s'.nodes = s.nodes
  nnode : s'.nnode = s.nnode
  codes : s'.codes = s.codes

namespace SameView
variable {s s' : State} (h : SameView s s')
include h

theorem memRead1 : memRead1 s' = memRead1 s := by
  funext a p
  rw [Machine.memRead1, Machine.memRead1, h.platform, h.raced]

theorem memWrite1 : memWrite1 s' = memWrite1 s := by
  funext a v p
  rw [Machine.memWrite1, Machine.memWrite1, h.platform]

theorem srcAt : s'.srcAt = s.srcAt := by
  funext i
  rw [State.srcAt, State.srcAt, h.latch]

theorem dstAt : s'.dstAt = s.dstAt := by
  funext i
  rw [State.dstAt, State.dstAt, h.latch]

theorem memReadN : memReadN s' = memReadN s := by
  funext a n
  induction n generalizing a with
  | zero => rfl
  | succ n ih => funext p; simp only [Machine.memReadN, h.memRead1, ih]

theorem memWriteN : memWriteN s' = memWriteN s := by
  funext a vs
  induction vs generalizing a with
  | nil => rfl
  | cons v vs ih => funext p; simp only [Machine.memWriteN, h.memWrite1, ih]

theorem memReadBE32 : memReadBE32 s' = memReadBE32 s := by
  funext a p
  rw [Machine.memReadBE32, Machine.memReadBE32, h.memReadN]

theorem emit : emit s' = emit s := by
  funext out v p
  rw [Machine.emit, Machine.emit, h.latch, h.memWrite1, h.dstAt]

theorem fcountBody : fcountBody s' = fcountBody s := by
  funext p w
  rw [Machine.fcountBody, Machine.fcountBody, h.memRead1, h.srcAt]

theorem floadBegin : floadBegin s' = floadBegin s := by
  funext p
  rw [Machine.floadBegin, Machine.floadBegin, h.memReadBE32, h.srcAt, h.latch]

theorem floadBody : floadBody s' = floadBody s := by
  funext p w
  rw [Machine.floadBody, Machine.floadBody, h.memRead1, h.memReadBE32, h.srcAt]

theorem fstoreBegin : fstoreBegin s' = fstoreBegin s := by
  funext p
  rw [Machine.fstoreBegin, Machine.fstoreBegin, h.memWriteN, h.dstAt, h.nsym]

theorem fstoreBody : fstoreBody s' = fstoreBody s := by
  funext p w
  rw [Machine.fstoreBody, Machine.fstoreBody, h.memWriteN, h.dstAt, h.freq]

theorem packBit : packBit s' = packBit s := by
  funext p w b
  rw [Machine.packBit, Machine.packBit, h.emit]

theorem packCode : packCode s' = packCode s := by
  funext bs
  induction bs with
  | nil => rfl
  | cons b bs ih => funext p w; rw [Machine.packCode, Machine.packCode, h.packBit, ih]

theorem packBody : packBody s' = packBody s := by
  funext p w
  rw [Machine.packBody, Machine.packBody, h.memRead1, h.srcAt, h.codes, h.packCode]

theorem packFlush : packFlush s' = packFlush s := by
  funext w p
  rw [Machine.packFlush, Machine.packFlush, h.emit]

theorem unpackByte : unpackByte s' = unpackByte s := by
  funext p w
  rw [Machine.unpackByte, Machine.unpackByte, h.memRead1, h.srcAt]

theorem root : s'.root = s.root := by rw [State.root, State.root, h.nnode]

theorem unpackBody : unpackBody s' = unpackBody s := by
  funext p w
  rw [Machine.unpackBody, Machine.unpackBody, h.unpackByte, h.emit, h.nodes, h.nnode, h.root]

end SameView

/-! ### The command further on -/

/-- The state with the engine's progress replaced. -/
def State.withWork (w : Work) (s : State) : State := { s with work := w }

/-- The running command at another point of its progress. -/
def State.onward (s : State) (p : Port) (w : Work) : State := (s.withPort p).withWork w

/-- Inside a command, past its dispatch. -/
def Work.inLoop : Work → Bool
  | .idle | .accepted => false
  | .fcount _ | .fload _ | .fstore _ | .tbuild _ | .ctgen _ | .pack _ | .unpack _ => true

/-- The iterations that the command in progress has still to make. -/
def State.itersLeft (s : State) : Nat :=
  match s.work with
  | .idle | .accepted => 0
  | .fcount w => fcountLeft s w
  | .fload w => floadLeft w
  | .fstore w => fstoreLeft w
  | .tbuild w => tbuildLeft w
  | .ctgen w => w.visits
  | .pack w => packLeft s w
  | .unpack w => unpackLeft w

variable {s : State} {p : Port} {work : Work}

theorem SameView.onward (s : State) (p : Port) (work : Work) : SameView s (s.onward p work) := by
  constructor <;> rfl

theorem withPort_onward (q : Port) : (s.onward p work).withPort q = (s.withPort q).withWork work := rfl

theorem complete_withWork (r : Results) : (s.withWork work).complete r = s.complete r := rfl

theorem commitFreq_withWork (t : FreqTable) (n : Nat) :
    (s.withWork work).commitFreq t n = (s.commitFreq t n).withWork work := rfl

theorem commitTree_withWork (t : NodeStore) : (s.withWork work).commitTree t = (s.commitTree t).withWork work := rfl

theorem commitCodes_withWork (c : CodeTable) : (s.withWork work).commitCodes c = (s.commitCodes c).withWork work := rfl

theorem settleDst_withWork : (s.withWork work).settleDst = s.settleDst.withWork work := by
  have hr : (s.withWork work).raced = s.raced := rfl
  rw [State.settleDst, State.settleDst, hr]
  split <;> rfl

theorem fail_withWork (usesDst : Bool) (e : Raise) : (s.withWork work).fail usesDst e = s.fail usesDst e := by
  cases usesDst <;> rfl

/-- The end of a body does not look at the progress in the state. -/
theorem endBody_onward {α : Type} {usesDst : Bool} {r : Result α}
    {go go' : α → Port → Host.Outcome State Fault Refusal} (hgo : ∀ a q, go' a q = go a q) :
    endBody (s.onward p work) usesDst r go' = endBody s usesDst r go := by
  cases r with
  | ok a q => exact hgo a q
  | raise e q => rw [endBody_raise, endBody_raise, withPort_onward, fail_withWork]

theorem fcountFinish_onward (w : FcountWork) (q : Port) : fcountFinish (s.onward p work) w q = fcountFinish s w q := by
  rw [fcountFinish, fcountFinish, withPort_onward, commitFreq_withWork, complete_withWork,
    (SameView.onward s p work).latch]

theorem floadFinish_onward (w : FloadWork) (q : Port) : floadFinish (s.onward p work) w q = floadFinish s w q := by
  rw [floadFinish, floadFinish, withPort_onward, commitFreq_withWork, complete_withWork]

/-- A completion with a destination buffer does not look at the progress in the state. -/
theorem settled_onward (q : Port) (r : Results) :
    ((s.onward p work).withPort q).settleDst.complete r = (s.withPort q).settleDst.complete r := by
  rw [withPort_onward, settleDst_withWork, complete_withWork]

theorem fstoreFinish_onward (w : FstoreWork) (q : Port) : fstoreFinish (s.onward p work) w q = fstoreFinish s w q := by
  rw [fstoreFinish, fstoreFinish, settled_onward, State.sectionLength, (SameView.onward s p work).nsym]
  rfl

theorem packFinish_onward (w : PackWork) (q : Port) : packFinish (s.onward p work) w q = packFinish s w q := by
  rw [packFinish, packFinish, (SameView.onward s p work).packFlush]
  exact endBody_onward fun w' r => congrArg Host.Outcome.next (settled_onward r _)

theorem unpackFinish_onward (w : UnpackWork) (q : Port) : unpackFinish (s.onward p work) w q = unpackFinish s w q := by
  have hview := SameView.onward s p work
  rw [unpackFinish, unpackFinish, hview.nnode, hview.root, settled_onward, withPort_onward, fail_withWork]

theorem tbuildFinish_withWork (t : NodeStore) : tbuildFinish (s.withWork work) t = tbuildFinish s t := by
  rw [tbuildFinish, tbuildFinish, commitTree_withWork, complete_withWork]

theorem ctgenFinish_withWork (c : CodeTable) : ctgenFinish (s.withWork work) c = ctgenFinish s c := by
  rw [ctgenFinish, ctgenFinish, commitCodes_withWork, complete_withWork]

/-- The run of a loop from further on is the rest of the loop. -/
theorem runLoop_onward {α : Type} {usesDst : Bool} {body body' : Port → α → Result α} {left : Nat}
    {finish finish' : α → Port → Host.Outcome State Fault Refusal} {w : α} (hbody : body' = body)
    (hfin : ∀ a q, finish' a q = finish a q) :
    runLoop (s.onward p work) usesDst body' left finish' w = runLoop (s.withPort p) usesDst body left finish w := by
  subst hbody
  exact endBody_onward (s := s.withPort p) hfin

theorem engineRun_fcount (w : FcountWork) : engineRun (s.onward p (.fcount w)) =
    runLoop (s.withPort p) false (fcountBody s) (fcountLeft s w) (fcountFinish s) w :=
  runLoop_onward (SameView.onward ..).fcountBody fcountFinish_onward

theorem engineRun_fload (w : FloadWork) : engineRun (s.onward p (.fload w)) =
    runLoop (s.withPort p) false (floadBody s) (floadLeft w) (floadFinish s) w :=
  runLoop_onward (SameView.onward ..).floadBody floadFinish_onward

theorem engineRun_fstore (w : FstoreWork) : engineRun (s.onward p (.fstore w)) =
    runLoop (s.withPort p) true (fstoreBody s) (fstoreLeft w) (fstoreFinish s) w :=
  runLoop_onward (SameView.onward ..).fstoreBody fstoreFinish_onward

theorem engineRun_pack (w : PackWork) : engineRun (s.onward p (.pack w)) =
    runLoop (s.withPort p) true (packBody s) (packLeft s w) (packFinish s) w :=
  runLoop_onward (SameView.onward ..).packBody packFinish_onward

theorem engineRun_unpack (w : UnpackWork) : engineRun (s.onward p (.unpack w)) =
    runLoop (s.withPort p) true (unpackBody s) (unpackLeft w) (unpackFinish s) w :=
  runLoop_onward (SameView.onward ..).unpackBody unpackFinish_onward

/-! ### One engine step against the run -/

/-- What an engine step from `s` answers, where the run from `s` answers `run`: the same, or the command further on, from
which the run answers the same and which has less left to do. -/
inductive Advances (s : State) (run : Host.Outcome State Fault Refusal) : Host.Outcome State Fault Refusal → Prop
  | ends : Advances s run run
  | goesOn (p : Port) (w : Work) : w.inLoop = true → engineRun (s.onward p w) = run →
      s.work = .accepted ∨ (s.onward p w).itersLeft < s.itersLeft → Advances s run (.next (s.onward p w))

/-- A step of a loop, whose iterations each take one from what is left. -/
theorem tickLoop_advances {α : Type} {usesDst : Bool} {body : Port → α → Result α} {left : α → Nat}
    {finish : α → Port → Host.Outcome State Fault Refusal} {again : α → Work} {w : α} {Q : Raise → Port → Prop}
    (hbody : (body s.port w).All (fun w' _ => left w' = left w - 1) Q) (hleft : s.itersLeft = left w)
    (hin : ∀ a, (again a).inLoop = true) (hagain : ∀ p a, (s.onward p (again a)).itersLeft = left a)
    (hrun : ∀ p a, engineRun (s.onward p (again a)) = runLoop (s.withPort p) usesDst body (left a) finish a) :
    Advances s (runLoop s usesDst body (left w) finish w) (tickLoop s usesDst body (left w) finish again w) := by
  unfold tickLoop
  split
  · next h0 => rw [runLoop, h0, iterate_zero, endBody_ok]; exact .ends
  · next h0 =>
    obtain ⟨n, hn⟩ := Nat.exists_eq_succ_of_ne_zero h0
    cases hb : body s.port w with
    | ok w' p =>
      rw [hb] at hbody
      have hw' : left w' = n := hbody.trans (by omega)
      refine .goesOn p (again w') (hin w') ?_ (.inr (by rw [hagain, hleft]; omega))
      rw [hrun, hn, hw']
      exact (runLoop_after_step (s₁ := s.withPort p) hb rfl fun _ _ => rfl).symm
    | raise e p =>
      rw [runLoop, hn, iterate_succ, hb]
      exact .ends

/-- Pre-checks advance if what follows them does. -/
theorem preChecked_advances {checks : List (Option Raise)} {onDevice usesDst : Bool}
    {run go : Host.Outcome State Fault Refusal} (h : Advances s run go) :
    Advances s (preChecked s checks onDevice usesDst run) (preChecked s checks onDevice usesDst go) := by
  unfold preChecked
  split
  · exact .ends
  · split
    · exact .ends
    · exact h

theorem endBody_advances {α : Type} {usesDst : Bool} {r : Result α}
    {run go : α → Port → Host.Outcome State Fault Refusal} (h : ∀ a p, Advances s (run a p) (go a p)) :
    Advances s (endBody s usesDst r run) (endBody s usesDst r go) := by
  cases r with
  | ok a p => exact h a p
  | raise e p => exact .ends

/-- The first engine step of a command. -/
theorem startCommand_advances (hw : s.work = .accepted) (i : Instr) : Advances s (exec i s) (startCommand i s) := by
  cases i with
  | nop | clear => exact .ends
  | tbuild => exact .goesOn s.port _ rfl (tbuildFinish_withWork _) (.inl hw)
  | ctgen => exact preChecked_advances (.goesOn s.port _ rfl (ctgenFinish_withWork _) (.inl hw))
  | fcount => exact preChecked_advances (.goesOn s.port _ rfl (engineRun_fcount _) (.inl hw))
  | fload =>
    exact preChecked_advances (endBody_advances fun w p =>
      .goesOn p (.fload w) rfl (engineRun_fload (s := s.withPort p) w) (.inl hw))
  | fstore =>
    exact preChecked_advances (endBody_advances fun w p =>
      .goesOn p (.fstore w) rfl (engineRun_fstore (s := s.withPort p) w) (.inl hw))
  | pack => exact preChecked_advances (.goesOn s.port _ rfl (engineRun_pack _) (.inl hw))
  | unpack pad => exact preChecked_advances (.goesOn s.port _ rfl (engineRun_unpack _) (.inl hw))

/-- Every engine step ends the command as its run does, or goes on towards that end. -/
theorem engineStep_advances (s : State) : Advances s (engineRun s) (engineStep s) := by
  unfold engineStep engineRun
  cases hw : s.work <;> simp only
  case idle => exact .ends
  case accepted =>
    unfold dispatchRun
    cases decodeWord s.latch.word with
    | none => exact .ends
    | some i => exact startCommand_advances hw i
  case fcount w =>
    refine tickLoop_advances (left := fcountLeft s) ((fcountBody_next s w s.port).mono ?_ fun _ _ h => h)
      (by rw [State.itersLeft, hw]) (fun _ => rfl) (fun _ _ => rfl) fun _ => engineRun_fcount
    exact fun w' _ hi => by simp only [fcountLeft]; omega
  case fload w =>
    refine tickLoop_advances (left := floadLeft) ((floadBody_next s w s.port).mono ?_ fun _ _ h => h)
      (by rw [State.itersLeft, hw]) (fun _ => rfl) (fun _ _ => rfl) fun _ => engineRun_fload
    exact fun w' _ ⟨hn, hi⟩ => by simp only [floadLeft]; omega
  case fstore w =>
    refine tickLoop_advances (left := fstoreLeft) ((fstoreBody_next s w s.port).mono ?_ fun _ _ h => h)
      (by rw [State.itersLeft, hw]) (fun _ => rfl) (fun _ _ => rfl) fun _ => engineRun_fstore
    exact fun w' _ hi => by simp only [fstoreLeft]; omega
  case tbuild w =>
    split
    · next h0 => rw [runTbuild, mergeAll_done h0]; exact .ends
    · next h0 =>
      refine .goesOn s.port (.tbuild (mergeOnce w)) rfl ?_ (.inr ?_)
      · exact (tbuildFinish_withWork _).trans (congrArg (tbuildFinish s) (mergeAll_mergeOnce h0))
      · rw [State.itersLeft, State.itersLeft, hw]
        exact (tbuildLeft_mergeOnce h0).trans_lt (Nat.pred_lt h0)
  case ctgen w =>
    split
    · next h0 => rw [runCtgen, visitAll_done h0]; exact .ends
    · next h0 =>
      refine .goesOn s.port (.ctgen (visitOnce s.nodes w)) rfl ?_ (.inr ?_)
      · exact (ctgenFinish_withWork _).trans (congrArg (ctgenFinish s) (visitAll_visitOnce h0))
      · rw [State.itersLeft, State.itersLeft, hw]
        exact (visitOnce_visits s.nodes w).trans_lt (Nat.pred_lt h0)
  case pack w =>
    refine tickLoop_advances (left := packLeft s) ((packBody_next s w s.port).mono ?_ fun _ _ h => h)
      (by rw [State.itersLeft, hw]) (fun _ => rfl) (fun _ _ => rfl) fun _ => engineRun_pack
    exact fun w' _ hi => by simp only [packLeft]; omega
  case unpack w =>
    refine tickLoop_advances (left := unpackLeft) ((unpackBody_next 0 s w s.port).mono ?_ fun _ _ h => h)
      (by rw [State.itersLeft, hw]) (fun _ => rfl) (fun _ _ => rfl) fun _ => engineRun_unpack
    exact fun w' _ ⟨hn, ht⟩ => by simp only [unpackLeft]; omega

/-! ### Finitely many steps -/

theorem engineSteps_one (s : State) : engineSteps 1 s = engineStep s := by
  rw [engineSteps]
  cases engineStep s <;> rfl

theorem engineSteps_succ {t : State} (h : engineStep s = .next t) (n : Nat) :
    engineSteps (n + 1) s = engineSteps n t := by
  rw [engineSteps, h]

theorem Work.inLoop_ne_accepted (h : work.inLoop = true) : work ≠ .accepted := by
  rintro rfl
  cases h

/-- The steps from a state reach the run's end if they do from every point the first of them may leave. -/
theorem engineSteps_reach_of_onward (s : State) (h : ∀ p w, w.inLoop = true →
      s.work = .accepted ∨ (s.onward p w).itersLeft < s.itersLeft →
      ∃ n, engineSteps n (s.onward p w) = engineRun (s.onward p w)) :
    ∃ n, engineSteps n s = engineRun s := by
  generalize hstep : engineStep s = o
  have hadv := engineStep_advances s
  rw [hstep] at hadv
  cases hadv with
  | ends => exact ⟨1, (engineSteps_one s).trans hstep⟩
  | goesOn p w hin hrun hless =>
    obtain ⟨n, hn⟩ := h p w hin hless
    exact ⟨n + 1, (engineSteps_succ hstep n).trans (hn.trans hrun)⟩

/-- Past the dispatch every step but the last leaves less to do. -/
theorem engineSteps_reach_past_dispatch (k : Nat) : ∀ s : State, s.work ≠ .accepted → s.itersLeft = k →
    ∃ n, engineSteps n s = engineRun s := by
  induction k using Nat.strong_induction_on with
  | h k ih =>
    intro s hw hk
    refine engineSteps_reach_of_onward s fun p w hin hless => ?_
    exact ih _ (hk ▸ hless.resolve_left hw) (s.onward p w) (Work.inLoop_ne_accepted hin) rfl

/-! ### The engine's ends (R284 to R286) -/

section
variable {s t : State}

/-- A running engine ends its command with a real error or without one. -/
theorem engineRun_end (hb : s.busy = true) (h : engineRun s = .next t) : EngineEnd (· ≠ .none) s t := by
  have hbody {i : Instr} : ∀ c ∈ bodyErrors i, c ≠ .none := fun c hc => errorsOf_ne_none (bodyErrors_subset i hc)
  unfold State.busy at hb
  unfold engineRun at h
  cases hw : s.work <;> simp only [hw] at h hb
  case idle => cases hb
  case accepted =>
    unfold dispatchRun at h
    split at h
    · cases h; exact .raised s.port _ nofun
    · next i _ =>
      cases hc : firstError (checksOf i s) with
      | some e => cases (exec_of_error hc).symm.trans h; exact .preError _ (errorsOf_ne_none (checksOf_errors hc))
      | none => exact (exec_finishes hc t h).mono hbody
  case fcount w => exact (runFcount_finishes s w t h).mono hbody
  case fload w => exact (runFload_finishes s w t h).mono hbody
  case fstore w => exact (runFstore_finishes s w t h).mono hbody
  case tbuild w => exact runTbuild_finishes _ s w t h
  case ctgen w => exact runCtgen_finishes _ s w t h
  case pack w => exact (runPack_finishes s w t h).mono hbody
  case unpack w => exact (runUnpack_finishes 0 s w t h).mono hbody

theorem Work.running_of_inLoop {w : Work} (h : w.inLoop = true) : w.running = true := by
  cases w with
  | idle | accepted => cases h
  | fcount | fload | fstore | tbuild | ctgen | pack | unpack => rfl

theorem State.work_of_idle (hb : s.busy = false) : s.work = .idle := by
  unfold State.busy at hb
  cases hw : s.work with
  | idle => rfl
  | accepted | fcount | fload | fstore | tbuild | ctgen | pack | unpack => rw [hw] at hb; cases hb

/-- An idle engine does nothing (R275, R298). -/
theorem engineRun_of_idle (hb : s.busy = false) : engineRun s = .next s := by
  rw [engineRun, State.work_of_idle hb]

theorem engineStep_of_idle (hb : s.busy = false) : engineStep s = .next s := by
  rw [engineStep, State.work_of_idle hb]

/-- An engine step of a running engine ends the command, or leaves it running further on. -/
theorem engineStep_cases (hb : s.busy = true) (h : engineStep s = .next t) :
    EngineEnd (· ≠ .none) s t ∨ ∃ p w, t = s.onward p w ∧ t.busy = true := by
  have hadv := engineStep_advances s
  rw [h] at hadv
  generalize hrun : engineRun s = run at hadv
  cases hadv with
  | ends => exact .inl (engineRun_end hb hrun)
  | goesOn p w hin _ _ => exact .inr ⟨p, w, rfl, Work.running_of_inLoop hin⟩

theorem EngineEnd.toEndState (h : EngineEnd (· ≠ .none) s t) : EndState s t := h.endState fun _ hc => hc

/-- At a completion DONE rises, so the line is IE (R290). -/
theorem EngineEnd.irq (h : EngineEnd (· ≠ .none) s t) : t.irq = s.ie := by
  have hend := h.toEndState
  rw [State.irq, hend.done, hend.host.ie, Bool.and_true]

end

end Sys2Proof.Machine

open Sys2Proof Sys2Proof.Machine

/-- Settles O47: the first step dispatches, and every later one but the last leaves less to do. -/
theorem engineStepsReachTheCompletion : Obligations.EngineStepsReachTheCompletion := by
  unfold Obligations.EngineStepsReachTheCompletion
  exact fun s => engineSteps_reach_of_onward s fun p w hin _ =>
    engineSteps_reach_past_dispatch _ (s.onward p w) (Work.inLoop_ne_accepted hin) rfl

/-- Settles O10: an error's end changes no table, and neither does a step that leaves the command running. -/
theorem errorLeavesEveryTable : Obligations.ErrorLeavesEveryTable := by
  unfold Obligations.ErrorLeavesEveryTable
  refine ⟨fun s t hb h he => (engineRun_end hb h).sameTables he, fun s t hb h hor => ?_⟩
  rcases engineStep_cases hb h with hend | ⟨p, w, rfl, -⟩
  · refine hend.sameTables (hor.resolve_left fun hbusy => ?_)
    exact absurd (hend.toEndState.busy.symm.trans hbusy) (by decide)
  · constructor <;> rfl

end

section
/-! PROOFS. The argument registers (R55 to R59, R278): the engine reads the latch alone, so a run and a step with other
argument registers differ in those registers only. -/

namespace Sys2Proof.Machine

/-! ### Updates of the state -/

section
variable {s : State} {a b c d : Word}

theorem withPort_withArgs (p : Port) : (s.withArgs a b c d).withPort p = (s.withPort p).withArgs a b c d := rfl

theorem withWork_withArgs (w : Work) : (s.withArgs a b c d).withWork w = (s.withWork w).withArgs a b c d := rfl

theorem raise_withArgs (e : Raise) : (s.withArgs a b c d).raise e = (s.raise e).withArgs a b c d := rfl

theorem complete_withArgs (r : Results) : (s.withArgs a b c d).complete r = (s.complete r).withArgs a b c d := rfl

theorem commitFreq_withArgs (t : FreqTable) (n : Nat) :
    (s.withArgs a b c d).commitFreq t n = (s.commitFreq t n).withArgs a b c d := rfl

theorem commitTree_withArgs (t : NodeStore) :
    (s.withArgs a b c d).commitTree t = (s.commitTree t).withArgs a b c d := rfl

theorem commitCodes_withArgs (t : CodeTable) :
    (s.withArgs a b c d).commitCodes t = (s.commitCodes t).withArgs a b c d := rfl

theorem settleDst_withArgs : (s.withArgs a b c d).settleDst = s.settleDst.withArgs a b c d := by
  have hr : (s.withArgs a b c d).raced = s.raced := rfl
  rw [State.settleDst, State.settleDst, hr]
  split <;> rfl

theorem fail_withArgs (usesDst : Bool) (e : Raise) :
    (s.withArgs a b c d).fail usesDst e = (s.fail usesDst e).withArgs a b c d := by
  cases usesDst <;> rfl

end

/-! ### Parts of a command -/

/-- The outcome with other argument registers in its next state. -/
abbrev nextWithArgs (a b c d : Word) (o : Host.Outcome State Fault Refusal) : Host.Outcome State Fault Refusal :=
  mapNext (fun t => t.withArgs a b c d) o

theorem SameView.withArgs (s : State) (a b c d : Word) : SameView s (s.withArgs a b c d) := by constructor <;> rfl

variable (s : State) (a b c d : Word)

theorem endBody_withArgs {α : Type} (usesDst : Bool) (r : Result α)
    {go go' : α → Port → Host.Outcome State Fault Refusal} (hgo : ∀ x p, go' x p = nextWithArgs a b c d (go x p)) :
    endBody (s.withArgs a b c d) usesDst r go' = nextWithArgs a b c d (endBody s usesDst r go) := by
  cases r with
  | ok x p => exact hgo x p
  | raise e p => rw [endBody_raise, endBody_raise, withPort_withArgs, fail_withArgs]; rfl

theorem preChecked_withArgs (checks : List (Option Raise)) (onDevice usesDst : Bool)
    {go go' : Host.Outcome State Fault Refusal} (hgo : go' = nextWithArgs a b c d go) :
    preChecked (s.withArgs a b c d) checks onDevice usesDst go' =
      nextWithArgs a b c d (preChecked s checks onDevice usesDst go) := by
  unfold preChecked
  split
  · rw [settleDst_withArgs]
    cases usesDst <;> rfl
  · cases onDevice with
    | false => exact hgo
    | true => rfl

theorem runLoop_withArgs {α : Type} (usesDst : Bool) {body body' : Port → α → Result α} (left : Nat)
    {finish finish' : α → Port → Host.Outcome State Fault Refusal} (w : α) (hbody : body' = body)
    (hfin : ∀ x p, finish' x p = nextWithArgs a b c d (finish x p)) :
    runLoop (s.withArgs a b c d) usesDst body' left finish' w =
      nextWithArgs a b c d (runLoop s usesDst body left finish w) := by
  subst hbody
  exact endBody_withArgs s a b c d usesDst _ hfin

theorem tickLoop_withArgs {α : Type} (usesDst : Bool) {body body' : Port → α → Result α} (left : Nat)
    {finish finish' : α → Port → Host.Outcome State Fault Refusal} (again : α → Work) (w : α) (hbody : body' = body)
    (hfin : ∀ x p, finish' x p = nextWithArgs a b c d (finish x p)) :
    tickLoop (s.withArgs a b c d) usesDst body' left finish' again w =
      nextWithArgs a b c d (tickLoop s usesDst body left finish again w) := by
  subst hbody
  unfold tickLoop
  split
  · exact hfin w s.port
  · exact endBody_withArgs s a b c d usesDst _ fun _ _ => rfl

/-! ### The ends of the commands -/

theorem fcountFinish_withArgs (w : FcountWork) (p : Port) :
    fcountFinish (s.withArgs a b c d) w p = nextWithArgs a b c d (fcountFinish s w p) := by
  rw [fcountFinish, withPort_withArgs, commitFreq_withArgs, complete_withArgs]
  rfl

theorem floadFinish_withArgs (w : FloadWork) (p : Port) :
    floadFinish (s.withArgs a b c d) w p = nextWithArgs a b c d (floadFinish s w p) := by
  rw [floadFinish, withPort_withArgs, commitFreq_withArgs, complete_withArgs]
  rfl

theorem fstoreFinish_withArgs (w : FstoreWork) (p : Port) :
    fstoreFinish (s.withArgs a b c d) w p = nextWithArgs a b c d (fstoreFinish s w p) := by
  rw [fstoreFinish, withPort_withArgs, settleDst_withArgs, complete_withArgs]
  rfl

theorem packFinish_withArgs (w : PackWork) (p : Port) :
    packFinish (s.withArgs a b c d) w p = nextWithArgs a b c d (packFinish s w p) := by
  rw [packFinish, packFinish, (SameView.withArgs s a b c d).packFlush]
  refine endBody_withArgs s a b c d true _ fun w' q => ?_
  rw [withPort_withArgs, settleDst_withArgs, complete_withArgs]
  rfl

theorem unpackFinish_withArgs (w : UnpackWork) (p : Port) :
    unpackFinish (s.withArgs a b c d) w p = nextWithArgs a b c d (unpackFinish s w p) := by
  have hview := SameView.withArgs s a b c d
  rw [unpackFinish, unpackFinish, hview.nnode, hview.root, withPort_withArgs, fail_withArgs, settleDst_withArgs,
    complete_withArgs]
  split <;> rfl

theorem tbuildFinish_withArgs (t : NodeStore) :
    tbuildFinish (s.withArgs a b c d) t = nextWithArgs a b c d (tbuildFinish s t) := by
  rw [tbuildFinish, commitTree_withArgs, complete_withArgs]
  rfl

theorem ctgenFinish_withArgs (t : CodeTable) :
    ctgenFinish (s.withArgs a b c d) t = nextWithArgs a b c d (ctgenFinish s t) := by
  rw [ctgenFinish, commitCodes_withArgs, complete_withArgs]
  rfl

/-! ### Runs and steps -/

theorem runFcount_withArgs (w : FcountWork) :
    runFcount (s.withArgs a b c d) w = nextWithArgs a b c d (runFcount s w) :=
  runLoop_withArgs s a b c d false _ w (SameView.withArgs ..).fcountBody (fcountFinish_withArgs s a b c d)

theorem runFload_withArgs (w : FloadWork) : runFload (s.withArgs a b c d) w = nextWithArgs a b c d (runFload s w) :=
  runLoop_withArgs s a b c d false _ w (SameView.withArgs ..).floadBody (floadFinish_withArgs s a b c d)

theorem runFstore_withArgs (w : FstoreWork) :
    runFstore (s.withArgs a b c d) w = nextWithArgs a b c d (runFstore s w) :=
  runLoop_withArgs s a b c d true _ w (SameView.withArgs ..).fstoreBody (fstoreFinish_withArgs s a b c d)

theorem runPack_withArgs (w : PackWork) : runPack (s.withArgs a b c d) w = nextWithArgs a b c d (runPack s w) :=
  runLoop_withArgs s a b c d true _ w (SameView.withArgs ..).packBody (packFinish_withArgs s a b c d)

theorem runUnpack_withArgs (w : UnpackWork) :
    runUnpack (s.withArgs a b c d) w = nextWithArgs a b c d (runUnpack s w) :=
  runLoop_withArgs s a b c d true _ w (SameView.withArgs ..).unpackBody (unpackFinish_withArgs s a b c d)

theorem exec_withArgs (i : Instr) : exec i (s.withArgs a b c d) = nextWithArgs a b c d (exec i s) := by
  have hview := SameView.withArgs s a b c d
  cases i with
  | nop => rfl
  | clear => exact congrArg Host.Outcome.next (by rw [commitFreq_withArgs, complete_withArgs])
  | tbuild => exact tbuildFinish_withArgs s a b c d _
  | fcount => exact preChecked_withArgs s a b c d _ _ _ (runFcount_withArgs s a b c d _)
  | fload =>
    rw [exec, execFload, hview.floadBegin]
    exact preChecked_withArgs s a b c d _ _ _
      (endBody_withArgs s a b c d false _ fun w p => runFload_withArgs (s.withPort p) a b c d w)
  | fstore =>
    rw [exec, execFstore, hview.fstoreBegin]
    exact preChecked_withArgs s a b c d _ _ _
      (endBody_withArgs s a b c d true _ fun w p => runFstore_withArgs (s.withPort p) a b c d w)
  | ctgen => exact preChecked_withArgs s a b c d _ _ _ (ctgenFinish_withArgs s a b c d _)
  | pack => exact preChecked_withArgs s a b c d _ _ _ (runPack_withArgs s a b c d _)
  | unpack pad => exact preChecked_withArgs s a b c d _ _ _ (runUnpack_withArgs s a b c d _)

theorem startCommand_withArgs (i : Instr) :
    startCommand i (s.withArgs a b c d) = nextWithArgs a b c d (startCommand i s) := by
  have hview := SameView.withArgs s a b c d
  cases i with
  | nop => rfl
  | clear => exact congrArg Host.Outcome.next (by rw [commitFreq_withArgs, complete_withArgs])
  | tbuild => rfl
  | fcount | ctgen | pack | unpack => exact preChecked_withArgs s a b c d _ _ _ rfl
  | fload =>
    rw [startCommand, hview.floadBegin]
    exact preChecked_withArgs s a b c d _ _ _ (endBody_withArgs s a b c d false _ fun _ _ => rfl)
  | fstore =>
    rw [startCommand, hview.fstoreBegin]
    exact preChecked_withArgs s a b c d _ _ _ (endBody_withArgs s a b c d true _ fun _ _ => rfl)

theorem dispatchRun_withArgs : dispatchRun (s.withArgs a b c d) = nextWithArgs a b c d (dispatchRun s) := by
  rw [dispatchRun, dispatchRun, (SameView.withArgs s a b c d).latch]
  cases decodeWord s.latch.word with
  | none => rfl
  | some i => exact exec_withArgs s a b c d i

theorem engineRun_withArgs : engineRun (s.withArgs a b c d) = nextWithArgs a b c d (engineRun s) := by
  have hwork : (s.withArgs a b c d).work = s.work := rfl
  rw [engineRun, engineRun, hwork]
  cases s.work with
  | idle => rfl
  | accepted => exact dispatchRun_withArgs s a b c d
  | fcount w => exact runFcount_withArgs s a b c d w
  | fload w => exact runFload_withArgs s a b c d w
  | fstore w => exact runFstore_withArgs s a b c d w
  | tbuild w => exact tbuildFinish_withArgs s a b c d _
  | ctgen w => exact ctgenFinish_withArgs s a b c d _
  | pack w => exact runPack_withArgs s a b c d w
  | unpack w => exact runUnpack_withArgs s a b c d w

theorem engineStep_withArgs : engineStep (s.withArgs a b c d) = nextWithArgs a b c d (engineStep s) := by
  have hview := SameView.withArgs s a b c d
  have hwork : (s.withArgs a b c d).work = s.work := rfl
  rw [engineStep, engineStep, hwork, hview.latch]
  cases s.work with
  | idle => rfl
  | accepted =>
    cases decodeWord s.latch.word with
    | none => rfl
    | some i => exact startCommand_withArgs s a b c d i
  | fcount w => exact tickLoop_withArgs s a b c d false _ _ w hview.fcountBody (fcountFinish_withArgs s a b c d)
  | fload w => exact tickLoop_withArgs s a b c d false _ _ w hview.floadBody (floadFinish_withArgs s a b c d)
  | fstore w => exact tickLoop_withArgs s a b c d true _ _ w hview.fstoreBody (fstoreFinish_withArgs s a b c d)
  | tbuild w =>
    simp only
    split
    · exact tbuildFinish_withArgs s a b c d _
    · rfl
  | ctgen w =>
    simp only
    split
    · exact ctgenFinish_withArgs s a b c d _
    · rfl
  | pack w => exact tickLoop_withArgs s a b c d true _ _ w hview.packBody (packFinish_withArgs s a b c d)
  | unpack w => exact tickLoop_withArgs s a b c d true _ _ w hview.unpackBody (unpackFinish_withArgs s a b c d)

/-! ### The host's register writes -/

/-- A host write to a register is one step (R50, R101). -/
theorem step_busWrite {s : State} (r : RegName) {w : Word} {rest : List Input}
    (h : s.inputs = .busWrite (s.platform.hufBase + r.offset) .b32 w :: rest) :
    step s = .next { ({ s with inputs := rest } : State).writeTarget w r.target with resp := .ok } := by
  rw [step, h]
  exact congrArg Host.Outcome.next (busWrite_register { s with inputs := rest } r w)

end Sys2Proof.Machine

open Sys2Proof Sys2Proof.Machine

/-- Settles O8: the engine looks at the latch alone, and the four registers' accesses are those of the register map. -/
theorem runningCommandUsesLatchedArguments : Obligations.RunningCommandUsesLatchedArguments := by
  unfold Obligations.RunningCommandUsesLatchedArguments
  refine ⟨fun s a b c d _ => ⟨engineRun_withArgs s a b c d, engineStep_withArgs s a b c d⟩, fun s w rest => ?_,
    fun s => ?_, fun _ _ => rfl⟩
  · exact ⟨step_busWrite .SRC_ADDR, step_busWrite .SRC_LEN, step_busWrite .DST_ADDR, step_busWrite .DST_CAP⟩
  · have hread (r : RegName) (hr : r.target.hiddenWhileBusy = false) :
        (busRead (s.platform.hufBase + r.offset) .b32 s).resp = .data (s.readTarget r.target) :=
      congrArg State.resp (busRead_register s r (.inr hr))
    exact ⟨hread .SRC_ADDR rfl, hread .SRC_LEN rfl, hread .DST_ADDR rfl, hread .DST_CAP rfl⟩

end

section
/-! PROOFS. The step (R276, R277, R283, R290): the dispatch of the accepted word, the host's write to CMD, and what every
step does to the interrupt line and to OVR. -/

namespace Sys2Proof.Machine

/-! ### The step of the engine (R283) -/

section
variable {s : State} {i : Instr}

theorem engineRun_of_accepted (hw : s.work = .accepted) (hd : decodeWord s.latch.word = some i) :
    engineRun s = exec i s := by
  simp [engineRun, hw, dispatchRun, hd]

theorem step_of_noInputs (h : s.inputs = []) : step s = engineRun s := by
  rw [step, h]

theorem step_wait {rest : List Input} (h : s.inputs = .wait :: rest) : step s = engineRun { s with inputs := rest } := by
  rw [step, h]
  rfl

end

/-! ### The decoding of a register access (R50, R68) -/

theorem registerAt_eq_target {n : Nat} (hn : n < 16) {r : RegName} (h : registerAt n = r.target) : r.offset = 4 * n := by
  revert n
  cases r <;> decide

/-- An offset that the map gives to a register shown at any time is that register's. -/
theorem offset_of_targetAt {off : Nat} (h4 : off % 4 = 0) {r : RegName} (h : targetAt off = r.target)
    (hr : r.target.hiddenWhileBusy = false) : off = r.offset := by
  by_cases hoff : off < 0x040
  · rw [targetAt_register hoff] at h
    have hr4 := registerAt_eq_target (by omega) h
    omega
  · have hplace : InWindow off ∨ InReserved off := by unfold InWindow InReserved; omega
    rcases hplace with hin | hin
    · exact absurd ((h ▸ hidden_of_inWindow hin).symm.trans hr) (by decide)
    · rw [targetAt_reserved hin] at h
      cases r <;> cases h

theorem busDecode_eq_reg {s : State} {addr : Nat} {size : AccessSize} {g : Target}
    (h : s.busDecode addr size = .reg g) :
    ∃ off, addr = s.platform.hufBase + off ∧ size = .b32 ∧ off % 4 = 0 ∧ targetAt off = g := by
  unfold State.busDecode at h
  split at h
  · cases h
  · split at h
    · cases h
    · split at h
      · cases h
      · next hsize =>
        split at h
        · cases h
        · cases h
          exact ⟨addr - s.platform.hufBase, by omega, by simpa using hsize, by omega, rfl⟩

/-- A write that reaches a register shown at any time is a 32-bit write at its address. -/
theorem eq_busWrite_of_busDecode {s : State} {addr : Nat} {size : AccessSize} (r : RegName)
    (h : s.busDecode addr size = .reg r.target) (hr : r.target.hiddenWhileBusy = false) (w : Word) :
    Input.busWrite addr size w = .busWrite (s.platform.hufBase + r.offset) .b32 w := by
  obtain ⟨off, rfl, rfl, h4, hoff⟩ := busDecode_eq_reg h
  rw [offset_of_targetAt h4 hoff hr]

/-! ### What a step does to IRQ and OVR (R277, R290) -/

/-- IRQ does not rise and OVR does not fall. -/
def LinesKept (s t : State) : Prop := (t.irq = true → s.irq = true) ∧ (s.ovr = true → t.ovr = true)

/-- The running command has ended, and OVR is as it was. -/
def Completes (s t : State) : Prop := s.busy = true ∧ t.busy = false ∧ t.ovr = s.ovr

/-- What a step can do to IRQ and OVR. -/
inductive StepLines (s t : State) : Prop
  | kept : LinesKept s t → StepLines s t
  | completes : Completes s t → StepLines s t
  | reset (rest : List Input) : s.inputs = .hardReset :: rest → t.irq = false → StepLines s t
  | ctrl (w : Word) (rest : List Input) : s.inputs = .busWrite (s.platform.hufBase + 0x004) .b32 w :: rest →
      (t.irq = true → w.getLsbD 0 = true) → (w.getLsbD 1 = false → t.ovr = s.ovr) → StepLines s t
  | status (w : Word) (rest : List Input) : s.inputs = .busWrite (s.platform.hufBase + 0x008) .b32 w :: rest →
      (t.irq = true → s.irq = true) → (w.getLsbD 3 = false → t.ovr = s.ovr) → StepLines s t

section
variable {s t : State}

theorem LinesKept.of_eq (hie : t.ie = s.ie) (hdone : t.done = s.done) (hovr : t.ovr = s.ovr) : LinesKept s t :=
  ⟨fun h => by rwa [State.irq, ← hie, ← hdone], fun h => hovr.trans h⟩

theorem EngineEnd.completes (hb : s.busy = true) (h : EngineEnd (· ≠ .none) s t) : Completes s t := by
  have hend := h.toEndState
  exact ⟨hb, hend.busy, hend.host.ovr⟩

theorem engineRun_lines (h : engineRun s = .next t) : Completes s t ∨ LinesKept s t := by
  cases hb : s.busy with
  | true => exact .inl ((engineRun_end hb h).completes hb)
  | false => cases (engineRun_of_idle hb).symm.trans h; exact .inr (.of_eq rfl rfl rfl)

theorem engineStep_lines (h : engineStep s = .next t) : Completes s t ∨ LinesKept s t := by
  cases hb : s.busy with
  | true =>
    rcases engineStep_cases hb h with hend | ⟨p, w, rfl, -⟩
    · exact .inl (hend.completes hb)
    · exact .inr (.of_eq rfl rfl rfl)
  | false => cases (engineStep_of_idle hb).symm.trans h; exact .inr (.of_eq rfl rfl rfl)

theorem busRead_lines (addr : Nat) (size : AccessSize) (s : State) : LinesKept s (busRead addr size s) := by
  unfold busRead
  split
  · exact .of_eq rfl rfl rfl
  · exact .of_eq rfl rfl rfl
  · split <;> exact .of_eq rfl rfl rfl

theorem hostMemRead_lines (a : Word) (s : State) : LinesKept s (hostMemRead a s) := by
  unfold hostMemRead
  split <;> exact .of_eq rfl rfl rfl

theorem hostMemWrite_lines (a : Word) (v : Byte) (s : State) : LinesKept s (hostMemWrite a v s) := by
  unfold hostMemWrite
  simp only
  split <;> exact .of_eq rfl rfl rfl

theorem hostCheck_lines (s : State) : LinesKept s (hostCheck s) := by
  have hread := busRead_lines (s.platform.hufBase + 0x020) .b32 s
  unfold hostCheck
  simp only
  split
  · split <;> exact hread
  all_goals exact hread

/-- The interrupt line after reset is low (R290, R320). -/
@[simp] theorem State.resetBlock_irq (s : State) : s.resetBlock.irq = false := by
  rw [State.irq, State.resetBlock_ie]
  rfl

theorem writeTarget_cmd_busy {s : State} (hb : s.busy = true) (w : Word) :
    s.writeTarget w .cmd = { s with ovr := true } := by
  rw [State.writeTarget, hb]
  rfl

theorem writeTarget_cmd_idle {s : State} (hb : s.busy = false) (w : Word) : s.writeTarget w .cmd = s.accept w := by
  rw [State.writeTarget, hb]
  rfl

theorem writeStatus_irq (s : State) (w : Word) : (s.writeStatus w).irq = (s.irq && !w.getLsbD 1) := by
  rw [State.irq, State.irq, State.writeStatus_ie, State.writeStatus_done, Bool.and_assoc]

theorem writeStatus_ovr_of_clear (s : State) {w : Word} (hw : w.getLsbD 3 = false) : (s.writeStatus w).ovr = s.ovr := by
  rw [State.writeStatus_ovr, hw, Bool.not_false, Bool.and_true]

/-- Only CTRL and STATUS take the lines another way (R52, R53, R277). -/
theorem writeTarget_lines (s : State) (w : Word) {g : Target} (hctrl : g ≠ .ctrl) (hstatus : g ≠ .status) :
    LinesKept s (s.writeTarget w g) := by
  cases g with
  | ctrl => exact absurd rfl hctrl
  | status => exact absurd rfl hstatus
  | cmd =>
    cases hb : s.busy with
    | true => rw [writeTarget_cmd_busy hb]; exact ⟨id, fun _ => rfl⟩
    | false => rw [writeTarget_cmd_idle hb]; exact ⟨fun h => by simp [State.irq] at h, id⟩
  | srcAddr | srcLen | dstAddr | dstCap => exact .of_eq rfl rfl rfl
  | id | err | errInfo | resLen | resPad | resBitsLo | resBitsHi | nsym | nnode | freq | codeLen | codeBits | node |
      reserved => exact .of_eq rfl rfl rfl

theorem writeTarget_ctrl_irq (s : State) (w : Word) (h : (s.writeTarget w .ctrl).irq = true) :
    w.getLsbD 0 = true := by
  rw [writeTarget_ctrl] at h
  split at h
  · simp at h
  · exact Bool.and_elim_left h

theorem busWrite_lines {addr : Nat} {size : AccessSize} {w : Word} {rest : List Input}
    (hin : s.inputs = .busWrite addr size w :: rest) :
    StepLines s (busWrite addr size w { s with inputs := rest }) := by
  unfold busWrite
  split
  · exact .kept (.of_eq rfl rfl rfl)
  · exact .kept (.of_eq rfl rfl rfl)
  · next g hg =>
    by_cases hctrl : g = .ctrl
    · subst hctrl
      rw [eq_busWrite_of_busDecode .CTRL hg rfl w] at hin
      refine .ctrl w rest hin (writeTarget_ctrl_irq _ w) fun hw => ?_
      rw [writeTarget_ctrl, hw]
      rfl
    · by_cases hstatus : g = .status
      · subst hstatus
        rw [eq_busWrite_of_busDecode .STATUS hg rfl w] at hin
        exact .status w rest hin (fun h => Bool.and_elim_left ((writeStatus_irq _ w).symm.trans h))
          fun hw => writeStatus_ovr_of_clear { s with inputs := rest } hw
      · exact .kept (writeTarget_lines { s with inputs := rest } w hctrl hstatus)

theorem busWrite_irq (s : State) (r : RegName) (w : Word) :
    (busWrite (s.platform.hufBase + r.offset) .b32 w s).irq = (s.writeTarget w r.target).irq :=
  (congrArg State.irq (busWrite_register s r w)).trans rfl

theorem step_lines (h : step s = .next t) : StepLines s t := by
  unfold step at h
  split at h
  · exact (engineRun_lines h).elim (fun hend => .completes hend) fun hkept => .kept hkept
  · next a rest hin =>
    cases a with
    | busRead addr size => cases h; exact .kept (busRead_lines addr size { s with inputs := rest })
    | busWrite addr size data => cases h; exact busWrite_lines hin
    | memRead addr => cases h; exact .kept (hostMemRead_lines addr { s with inputs := rest })
    | memWrite addr v => cases h; exact .kept (hostMemWrite_lines addr v { s with inputs := rest })
    | hardReset => cases h; exact .reset rest hin (State.resetBlock_irq _)
    | engineStep => exact (engineStep_lines h).elim (fun hend => .completes hend) fun hkept => .kept hkept
    | wait => exact (engineRun_lines h).elim (fun hend => .completes hend) fun hkept => .kept hkept
    | chk => cases h; exact .kept (hostCheck_lines { s with inputs := rest })

end

end Sys2Proof.Machine

open Sys2Proof Sys2Proof.Machine

/-- Settles O7: the write to CMD is one step, and OVR falls in no step but the three that `StepLines` lists. -/
theorem commandWriteWhileBusyIsDropped : Obligations.CommandWriteWhileBusyIsDropped := by
  unfold Obligations.CommandWriteWhileBusyIsDropped
  refine ⟨fun s w rest hin hb => (step_busWrite .CMD hin).trans ?_, fun s t h hs ht => ?_⟩
  · rw [RegName.target, writeTarget_cmd_busy (s := { s with inputs := rest }) hb]
  · have hne : t.ovr ≠ s.ovr := by simp [hs, ht]
    cases step_lines h with
    | kept hkept => exact absurd ((hkept.2 hs).trans hs.symm) hne
    | completes hend =>
      obtain ⟨-, -, hovr⟩ := hend
      exact absurd hovr hne
    | reset rest hin _ => exact ⟨rest, .inl hin⟩
    | ctrl w rest hin _ hovr =>
      exact ⟨rest, .inr (.inr ⟨w, hin, by_contra fun hw => hne (hovr (Bool.eq_false_of_not_eq_true hw))⟩)⟩
    | status w rest hin _ hovr =>
      exact ⟨rest, .inr (.inl ⟨w, hin, by_contra fun hw => hne (hovr (Bool.eq_false_of_not_eq_true hw))⟩)⟩

/-- Settles O54: the line rises at a completion and at a write of IE, by the list of `StepLines`. -/
theorem interruptIsALevelOfDone : Obligations.InterruptIsALevelOfDone := by
  unfold Obligations.InterruptIsALevelOfDone
  refine ⟨fun _ => rfl, fun s t hb h ht => ?_, fun s w hw => ?_, fun s w hb => ?_, fun s w hw => ?_,
    State.resetBlock_irq, fun s w h0 h1 hdone => ?_, fun s t h hs ht => ?_⟩
  · rcases h with h | h
    · exact (engineRun_end hb h).irq
    · exact ((engineStep_cases hb h).resolve_right fun ⟨_, _, _, hbusy⟩ => by simp [ht] at hbusy).irq
  · exact (busWrite_irq s .STATUS w).trans ((writeStatus_irq s w).trans (by rw [hw, Bool.not_true, Bool.and_false]))
  · refine (busWrite_irq s .CMD w).trans ?_
    rw [RegName.target, writeTarget_cmd_idle hb]
    exact Bool.and_false _
  · refine (busWrite_irq s .CTRL w).trans (Bool.eq_false_of_not_eq_true fun h => ?_)
    exact absurd ((writeTarget_ctrl_irq s w h).symm.trans hw) (by decide)
  · refine (busWrite_irq s .CTRL w).trans ?_
    rw [RegName.target, writeTarget_ctrl, h1]
    exact Bool.and_eq_true_iff.2 ⟨h0, hdone⟩
  · cases step_lines h with
    | kept hkept => exact absurd (hs.symm.trans (hkept.1 ht)) (by decide)
    | completes hend =>
      obtain ⟨hbusy, hidle, -⟩ := hend
      exact .inl ⟨hbusy, hidle⟩
    | reset rest _ hlow => exact absurd (hlow.symm.trans ht) (by decide)
    | ctrl w rest hin hie _ => exact .inr ⟨w, rest, hin, hie ht⟩
    | status w rest _ hirq _ => exact absurd (hs.symm.trans (hirq ht)) (by decide)

/-- Settles O5: the step is a run of the engine, which dispatches the accepted word. -/
theorem stepRunsTheDecodedCommand : Obligations.StepRunsTheDecodedCommand := by
  unfold Obligations.StepRunsTheDecodedCommand
  refine ⟨fun s i hin hw hd => (step_of_noInputs hin).trans (engineRun_of_accepted hw hd), fun s i rest hin hw hd => ?_,
    fun s i nbits w hd => (step_of_noInputs rfl).trans (engineRun_of_accepted rfl hd)⟩
  exact (step_wait hin).trans (engineRun_of_accepted (s := { s with inputs := rest }) hw hd)

/-- Settles O6: the write to CMD is one step, which accepts the word. -/
theorem commandWriteWhileIdleIsAccepted : Obligations.CommandWriteWhileIdleIsAccepted := by
  unfold Obligations.CommandWriteWhileIdleIsAccepted
  intro s w rest hin hb
  have hstep : step s = .next { ({ s with inputs := rest } : State).accept w with resp := .ok } := by
    rw [step_busWrite .CMD hin, RegName.target, writeTarget_cmd_idle (s := { s with inputs := rest }) hb]
  exact ⟨_, hstep, rfl, rfl, rfl, rfl, rfl, rfl, rfl, rfl, rfl, rfl, rfl, Bool.and_false _, rfl, by constructor <;> rfl,
    rfl, rfl, rfl, rfl, rfl⟩

end

section
/-! PROOFS. Reset (R320 to R323): the hard and the soft reset as steps, what they do to memory, and the state after
reset. -/

namespace Sys2Proof.Machine

/-! ### The reset of the block (R320) -/

theorem resetBlock_mem_of_no_dst {s : State} (h : s.runningDst = false) : s.resetBlock.mem = s.mem := by
  rw [State.resetBlock_mem, h]
  rfl

/-- An aborted command changes no byte outside its destination buffer (R323). -/
theorem read_resetBlock_outside (s : State) {a : Nat}
    (ha : a < s.latch.dstAddr.toNat ∨ s.latch.dstAddr.toNat + s.latch.dstCap.toNat ≤ a) :
    s.resetBlock.mem.read a = s.mem.read a := by
  rw [State.resetBlock_mem]
  split
  · exact Memory.read_havoc_outside s.mem (ha.imp_right (Nat.min_le_left _ _).trans)
  · rfl

theorem read_resetBlock_inside {s : State} (h : s.runningDst = true) {a : Nat} (hlo : s.latch.dstAddr.toNat ≤ a)
    (hhi : a < s.latch.dstAddr.toNat + s.latch.dstCap.toNat) (ha : a < 2 ^ 32) :
    s.resetBlock.mem.read a = Config.freeByte s.draws a := by
  rw [State.resetBlock_mem, if_pos h]
  exact Memory.read_havoc_inside s.mem ⟨hlo, Nat.lt_min.2 ⟨hhi, ha⟩⟩

/-! ### The steps that reset the block (R322) -/

/-- The two resets differ in nothing but the answer to the host's write. -/
theorem step_reset {s t : State} {rest : List Input}
    (hin : s.inputs = .hardReset :: rest ∨
      ∃ w : Word, s.inputs = .busWrite (s.platform.hufBase + 0x004) .b32 w :: rest ∧ w.getLsbD 1 = true)
    (h : step s = .next t) : ∃ r, t = { ({ s with inputs := rest } : State).resetBlock with resp := r } := by
  rcases hin with hin | ⟨w, hin, hw⟩
  · rw [step, hin] at h
    cases h
    exact ⟨_, rfl⟩
  · rw [step_busWrite .CTRL hin, RegName.target, writeTarget_ctrl, if_pos hw] at h
    cases h
    exact ⟨_, rfl⟩

/-! ### Commands that are not ready (R288 step 2) -/

theorem preError_ctgen_of_noTree {s : State} (h : s.treeValid = false) : preError .ctgen s = some (.notReady, 0) :=
  if_pos h

theorem preError_pack_of_noCodes {s : State} (h : s.codeValid = false) : preError .pack s = some (.notReady, 0) :=
  if_pos h

theorem exec_completedErr_of_preError {i : Instr} {s : State} (hr : s.raced = false) {c : ErrCode} {info : Word}
    (h : preError i s = some (c, info)) : ∃ t, exec i s = .next t ∧ CompletedErr t c info := by
  obtain ⟨hraises, -⟩ := preChecksReportTheFirstError i s hr
  obtain ⟨t, ht, hend, -⟩ := hraises c info h
  exact ⟨t, ht, hend⟩

end Sys2Proof.Machine

open Sys2Proof Sys2Proof.Machine

/-- Settles O55: both resets are `resetBlock`, which frees the bytes of the aborted command's buffer alone. -/
theorem resetPutsEveryRegister : Obligations.ResetPutsEveryRegister := by
  unfold Obligations.ResetPutsEveryRegister
  intro s t rest hin h
  obtain ⟨r, rfl⟩ := step_reset hin h
  refine ⟨rfl, rfl, rfl, rfl, ctrlWord_eq _, resetBlock_mem_of_no_dst (s := { s with inputs := rest }), fun hdst => ?_⟩
  exact ⟨fun _ ha => read_resetBlock_outside { s with inputs := rest } ha, fun _ hlo hhi ha =>
    read_resetBlock_inside (s := { s with inputs := rest }) hdst hlo hhi ha⟩

/-- Settles O56: the tree of the empty table, and the pre-checks of CTGEN and PACK. -/
theorem resetIsAValidEmptyConfiguration : Obligations.ResetIsAValidEmptyConfiguration := by
  unfold Obligations.ResetIsAValidEmptyConfiguration
  have hfreq : ∀ x, tableGet State.reset.freq x = 0 := tableGet_empty
  obtain ⟨-, hnoSymbols⟩ := degenerateTables
  obtain ⟨t, ht, herr, hvalid, hnnode, hnodes, -⟩ := hnoSymbols (State.reset.accept (encode .tbuild)) hfreq rfl
  exact ⟨hfreq, by decide, rfl, rfl, rfl, ⟨t, ht, herr, hvalid, hnnode, hnodes⟩,
    exec_completedErr_of_preError rfl (preError_ctgen_of_noTree rfl),
    exec_completedErr_of_preError rfl (preError_pack_of_noCodes rfl)⟩

end
